-- ==== Sys2Proof/Word.lean ====
section
/-! DEFINITION. The word types of the machine and the two harts (R8, R13, R16). -/

namespace Sys2Proof

/-- A 32-bit register, address or data value (R8, R13). -/
abbrev Word := BitVec 32

/-- A 16-bit instruction parcel (R261). -/
abbrev Half := BitVec 16

/-- A byte of memory (R74). -/
abbrev Byte := BitVec 8

/-- A register number 0..31 (R34). -/
abbrev Reg := Fin 32

/-- A three-bit register field of the compressed formats, naming x8..x15 (R285). -/
abbrev CReg := Fin 8

/-- The two hardware threads (R16, R720). -/
inductive HartId where
  | t0
  | t1
deriving DecidableEq, Repr, Inhabited

/-- The other hart (R14). -/
def HartId.other : HartId → HartId
  | .t0 => .t1
  | .t1 => .t0

/-- The hart number, 0 or 1 (R54). -/
def HartId.toNat : HartId → Nat
  | .t0 => 0
  | .t1 => 1

end Sys2Proof
end

