-- ==== Sys2Proof/WellFormed.lean ====
section
/-! DEFINITION. Which terms of `Instr` some encoding stands for (R268, R270, R283, R286, R287). -/

namespace Sys2Proof

/-- The low bit of a branch or jump offset is 0 (R268, R270, R283). -/
def evenOffset {n : Nat} (off : BitVec n) : Bool := off.extractLsb' 0 1 == 0#1

/-- The low two bits are 0: a multiple of 4 (R283). -/
def multipleOf4 {n : Nat} (imm : BitVec n) : Bool := imm.extractLsb' 0 2 == 0#2

/-- The low four bits are 0: a multiple of 16 (R283, c.addi16sp). -/
def multipleOf16 {n : Nat} (imm : BitVec n) : Bool := imm.extractLsb' 0 4 == 0#4

/-- An instruction that some encoding of R276 or R286 stands for. -/
def Instr.wellFormed : Instr → Bool
  | .lui _ _ => true
  | .auipc _ _ => true
  | .addi _ _ _ => true
  | .slti _ _ _ => true
  | .sltiu _ _ _ => true
  | .xori _ _ _ => true
  | .ori _ _ _ => true
  | .andi _ _ _ => true
  | .slli _ _ _ => true
  | .srli _ _ _ => true
  | .srai _ _ _ => true
  | .add _ _ _ => true
  | .sub _ _ _ => true
  | .sll _ _ _ => true
  | .slt _ _ _ => true
  | .sltu _ _ _ => true
  | .xor _ _ _ => true
  | .srl _ _ _ => true
  | .sra _ _ _ => true
  | .or _ _ _ => true
  | .and _ _ _ => true
  | .jal _ off => evenOffset off
  | .jalr _ _ _ => true
  | .beq _ _ off => evenOffset off
  | .bne _ _ off => evenOffset off
  | .blt _ _ off => evenOffset off
  | .bge _ _ off => evenOffset off
  | .bltu _ _ off => evenOffset off
  | .bgeu _ _ off => evenOffset off
  | .lb _ _ _ => true
  | .lh _ _ _ => true
  | .lw _ _ _ => true
  | .lbu _ _ _ => true
  | .lhu _ _ _ => true
  | .sb _ _ _ => true
  | .sh _ _ _ => true
  | .sw _ _ _ => true
  | .fence _ _ _ _ _ => true
  | .fenceI _ _ _ => true
  | .ecall => true
  | .ebreak => true
  | .mret => true
  | .wfi => true
  | .dret => true
  | .mul _ _ _ => true
  | .mulh _ _ _ => true
  | .mulhsu _ _ _ => true
  | .mulhu _ _ _ => true
  | .div _ _ _ => true
  | .divu _ _ _ => true
  | .rem _ _ _ => true
  | .remu _ _ _ => true
  | .lrW _ _ _ _ => true
  | .scW _ _ _ _ _ => true
  | .amoswapW _ _ _ _ _ => true
  | .amoaddW _ _ _ _ _ => true
  | .amoxorW _ _ _ _ _ => true
  | .amoandW _ _ _ _ _ => true
  | .amoorW _ _ _ _ _ => true
  | .amominW _ _ _ _ _ => true
  | .amomaxW _ _ _ _ _ => true
  | .amominuW _ _ _ _ _ => true
  | .amomaxuW _ _ _ _ _ => true
  | .csrrw _ _ _ => true
  | .csrrs _ _ _ => true
  | .csrrc _ _ _ => true
  | .csrrwi _ _ _ => true
  | .csrrsi _ _ _ => true
  | .csrrci _ _ _ => true
  | .cAddi4spn _ imm => multipleOf4 imm && imm != 0
  | .cLw _ _ imm => multipleOf4 imm
  | .cSw _ _ imm => multipleOf4 imm
  | .cNop _ => true
  | .cAddi rd _ => rd != 0
  | .cJal off => evenOffset off
  | .cLi _ _ => true
  | .cAddi16sp imm => multipleOf16 imm && imm != 0
  | .cLui rd imm => rd != 2 && imm != 0
  | .cSrli _ _ => true
  | .cSrai _ _ => true
  | .cAndi _ _ => true
  | .cSub _ _ => true
  | .cXor _ _ => true
  | .cOr _ _ => true
  | .cAnd _ _ => true
  | .cJ off => evenOffset off
  | .cBeqz _ off => evenOffset off
  | .cBnez _ off => evenOffset off
  | .cSlli _ _ => true
  | .cLwsp rd imm => rd != 0 && multipleOf4 imm
  | .cJr rs1 => rs1 != 0
  | .cMv _ rs2 => rs2 != 0
  | .cEbreak => true
  | .cJalr rs1 => rs1 != 0
  | .cAdd _ rs2 => rs2 != 0
  | .cSwsp _ imm => multipleOf4 imm

/-- Whether the instruction has a 16-bit encoding (R262, R280). -/
def Instr.compressed : Instr → Bool
  | .cAddi4spn _ _ | .cLw _ _ _ | .cSw _ _ _ | .cNop _ | .cAddi _ _ | .cJal _ | .cLi _ _ | .cAddi16sp _
  | .cLui _ _ | .cSrli _ _ | .cSrai _ _ | .cAndi _ _ | .cSub _ _ | .cXor _ _ | .cOr _ _ | .cAnd _ _ | .cJ _
  | .cBeqz _ _ | .cBnez _ _ | .cSlli _ _ | .cLwsp _ _ | .cJr _ | .cMv _ _ | .cEbreak | .cJalr _ | .cAdd _ _
  | .cSwsp _ _ => true
  | _ => false

end Sys2Proof
end

