-- ==== Sys2Proof/Decode.lean ====
section
/-! DEFINITION. The decoder (R262 to R288), total on any bytes and rejecting by name, and the encoder written from the
same formats. -/

namespace Sys2Proof

/-- Why bytes are no instruction. The first means more bytes are needed; the others raise illegal instruction (R531). -/
inductive DecodeError where
  /-- Fewer bytes than the instruction has (R262). -/
  | truncated
  /-- The all-zero parcel (R263). -/
  | allZeroParcel
  /-- A reserved compressed encoding (R287). -/
  | reservedCompressed
  /-- `p0[4:0] = 0b11111`: a length this core has not (R262). -/
  | longEncoding
  /-- A major opcode the core does not decode (R275). -/
  | unknownOpcode
  /-- A function code that is illegal inside a decoded major opcode (R278). -/
  | unknownFunction
  /-- A SYSTEM word with funct3 = 0 that is no instruction, or funct3 = 4 (R277, R376). -/
  | unknownSystem
deriving DecidableEq, Repr

/-- The instruction bits of a 16-bit or a 32-bit instruction (R261). -/
inductive Code where
  | c16 (h : Half)
  | c32 (w : Word)
deriving DecidableEq, Repr

/-! ## Fields -/

/-- A five-bit register field (R264). -/
def regAt (w : Word) (lo : Nat) : Reg := (w.extractLsb' lo 5).toFin

/-- A five-bit register field of a 16-bit instruction (R281). -/
def regAt16 (h : Half) (lo : Nat) : Reg := (h.extractLsb' lo 5).toFin

/-- A three-bit register field of a 16-bit instruction (R285). -/
def cregAt (h : Half) (lo : Nat) : CReg := (h.extractLsb' lo 3).toFin

/-- S-type immediate (R267). -/
def immS (w : Word) : BitVec 12 := w.extractLsb' 25 7 ++ w.extractLsb' 7 5

/-- B-type offset (R268). -/
def immB (w : Word) : BitVec 13 :=
  w.extractLsb' 31 1 ++ w.extractLsb' 7 1 ++ w.extractLsb' 25 6 ++ w.extractLsb' 8 4 ++ 0#1

/-- J-type offset (R270). -/
def immJ (w : Word) : BitVec 21 :=
  w.extractLsb' 31 1 ++ w.extractLsb' 12 8 ++ w.extractLsb' 20 1 ++ w.extractLsb' 21 10 ++ 0#1

/-- c.addi4spn immediate (R283). -/
def immAddi4spn (h : Half) : BitVec 10 :=
  h.extractLsb' 7 4 ++ h.extractLsb' 11 2 ++ h.extractLsb' 5 1 ++ h.extractLsb' 6 1 ++ 0#2

/-- c.lw and c.sw immediate (R283). -/
def immCLw (h : Half) : BitVec 7 := h.extractLsb' 5 1 ++ h.extractLsb' 10 3 ++ h.extractLsb' 6 1 ++ 0#2

/-- The six-bit immediate of format CI (R283). -/
def immCI (h : Half) : BitVec 6 := h.extractLsb' 12 1 ++ h.extractLsb' 2 5

/-- c.addi16sp immediate (R283). -/
def immAddi16sp (h : Half) : BitVec 10 :=
  h.extractLsb' 12 1 ++ h.extractLsb' 3 2 ++ h.extractLsb' 5 1 ++ h.extractLsb' 2 1 ++ h.extractLsb' 6 1 ++ 0#4

/-- c.j and c.jal offset (R283). -/
def immCJ (h : Half) : BitVec 12 :=
  h.extractLsb' 12 1 ++ h.extractLsb' 8 1 ++ h.extractLsb' 9 2 ++ h.extractLsb' 6 1 ++ h.extractLsb' 7 1
    ++ h.extractLsb' 2 1 ++ h.extractLsb' 11 1 ++ h.extractLsb' 3 3 ++ 0#1

/-- c.beqz and c.bnez offset (R283). -/
def immCB (h : Half) : BitVec 9 :=
  h.extractLsb' 12 1 ++ h.extractLsb' 5 2 ++ h.extractLsb' 2 1 ++ h.extractLsb' 10 2 ++ h.extractLsb' 3 2 ++ 0#1

/-- c.lwsp immediate (R283). -/
def immLwsp (h : Half) : BitVec 8 := h.extractLsb' 2 2 ++ h.extractLsb' 12 1 ++ h.extractLsb' 4 3 ++ 0#2

/-- c.swsp immediate (R283). -/
def immSwsp (h : Half) : BitVec 8 := h.extractLsb' 7 2 ++ h.extractLsb' 9 4 ++ 0#2

/-! ## Decoding -/

/-- LOAD (R276, R278). -/
def decodeLoad (w : Word) : Except DecodeError Instr :=
  let rd := regAt w 7
  let rs1 := regAt w 15
  let imm := w.extractLsb' 20 12
  match w.extractLsb' 12 3 with
  | 0b000#3 => .ok (.lb rd rs1 imm)
  | 0b001#3 => .ok (.lh rd rs1 imm)
  | 0b010#3 => .ok (.lw rd rs1 imm)
  | 0b100#3 => .ok (.lbu rd rs1 imm)
  | 0b101#3 => .ok (.lhu rd rs1 imm)
  | _ => .error .unknownFunction

/-- STORE (R276, R278). -/
def decodeStore (w : Word) : Except DecodeError Instr :=
  let rs1 := regAt w 15
  let rs2 := regAt w 20
  match w.extractLsb' 12 3 with
  | 0b000#3 => .ok (.sb rs1 rs2 (immS w))
  | 0b001#3 => .ok (.sh rs1 rs2 (immS w))
  | 0b010#3 => .ok (.sw rs1 rs2 (immS w))
  | _ => .error .unknownFunction

/-- OP-IMM (R276, R278). -/
def decodeOpImm (w : Word) : Except DecodeError Instr :=
  let rd := regAt w 7
  let rs1 := regAt w 15
  let imm := w.extractLsb' 20 12
  let shamt := w.extractLsb' 20 5
  match w.extractLsb' 12 3 with
  | 0b000#3 => .ok (.addi rd rs1 imm)
  | 0b010#3 => .ok (.slti rd rs1 imm)
  | 0b011#3 => .ok (.sltiu rd rs1 imm)
  | 0b100#3 => .ok (.xori rd rs1 imm)
  | 0b110#3 => .ok (.ori rd rs1 imm)
  | 0b111#3 => .ok (.andi rd rs1 imm)
  | 0b001#3 =>
    match w.extractLsb' 25 7 with
    | 0b0000000#7 => .ok (.slli rd rs1 shamt)
    | _ => .error .unknownFunction
  | _ =>
    match w.extractLsb' 25 7 with
    | 0b0000000#7 => .ok (.srli rd rs1 shamt)
    | 0b0100000#7 => .ok (.srai rd rs1 shamt)
    | _ => .error .unknownFunction

/-- OP with funct7 = 0 (R276). -/
def decodeOpBase (f3 : BitVec 3) (rd rs1 rs2 : Reg) : Instr :=
  match f3 with
  | 0b000#3 => .add rd rs1 rs2
  | 0b001#3 => .sll rd rs1 rs2
  | 0b010#3 => .slt rd rs1 rs2
  | 0b011#3 => .sltu rd rs1 rs2
  | 0b100#3 => .xor rd rs1 rs2
  | 0b101#3 => .srl rd rs1 rs2
  | 0b110#3 => .or rd rs1 rs2
  | _ => .and rd rs1 rs2

/-- OP with funct7 = 1, the M extension (R276). -/
def decodeOpMul (f3 : BitVec 3) (rd rs1 rs2 : Reg) : Instr :=
  match f3 with
  | 0b000#3 => .mul rd rs1 rs2
  | 0b001#3 => .mulh rd rs1 rs2
  | 0b010#3 => .mulhsu rd rs1 rs2
  | 0b011#3 => .mulhu rd rs1 rs2
  | 0b100#3 => .div rd rs1 rs2
  | 0b101#3 => .divu rd rs1 rs2
  | 0b110#3 => .rem rd rs1 rs2
  | _ => .remu rd rs1 rs2

/-- OP (R276, R278). -/
def decodeOp (w : Word) : Except DecodeError Instr :=
  let rd := regAt w 7
  let rs1 := regAt w 15
  let rs2 := regAt w 20
  match w.extractLsb' 25 7 with
  | 0b0000000#7 => .ok (decodeOpBase (w.extractLsb' 12 3) rd rs1 rs2)
  | 0b0000001#7 => .ok (decodeOpMul (w.extractLsb' 12 3) rd rs1 rs2)
  | 0b0100000#7 =>
    match w.extractLsb' 12 3 with
    | 0b000#3 => .ok (.sub rd rs1 rs2)
    | 0b101#3 => .ok (.sra rd rs1 rs2)
    | _ => .error .unknownFunction
  | _ => .error .unknownFunction

/-- BRANCH (R276, R278). -/
def decodeBranch (w : Word) : Except DecodeError Instr :=
  let rs1 := regAt w 15
  let rs2 := regAt w 20
  match w.extractLsb' 12 3 with
  | 0b000#3 => .ok (.beq rs1 rs2 (immB w))
  | 0b001#3 => .ok (.bne rs1 rs2 (immB w))
  | 0b100#3 => .ok (.blt rs1 rs2 (immB w))
  | 0b101#3 => .ok (.bge rs1 rs2 (immB w))
  | 0b110#3 => .ok (.bltu rs1 rs2 (immB w))
  | 0b111#3 => .ok (.bgeu rs1 rs2 (immB w))
  | _ => .error .unknownFunction

/-- MISC-MEM (R271, R276, R278). -/
def decodeMiscMem (w : Word) : Except DecodeError Instr :=
  let rd := regAt w 7
  let rs1 := regAt w 15
  match w.extractLsb' 12 3 with
  | 0b000#3 => .ok (.fence rd rs1 (w.extractLsb' 28 4) (w.extractLsb' 24 4) (w.extractLsb' 20 4))
  | 0b001#3 => .ok (.fenceI rd rs1 (w.extractLsb' 20 12))
  | _ => .error .unknownFunction

/-- AMO (R276, R278, R410). -/
def decodeAmo (w : Word) : Except DecodeError Instr :=
  let rd := regAt w 7
  let rs1 := regAt w 15
  let rs2 := regAt w 20
  let aq := w.extractLsb' 26 1
  let rl := w.extractLsb' 25 1
  match w.extractLsb' 12 3 with
  | 0b010#3 =>
    match w.extractLsb' 27 5 with
    | 0b00010#5 => if rs2 = 0 then .ok (.lrW rd rs1 aq rl) else .error .unknownFunction
    | 0b00011#5 => .ok (.scW rd rs1 rs2 aq rl)
    | 0b00001#5 => .ok (.amoswapW rd rs1 rs2 aq rl)
    | 0b00000#5 => .ok (.amoaddW rd rs1 rs2 aq rl)
    | 0b00100#5 => .ok (.amoxorW rd rs1 rs2 aq rl)
    | 0b01100#5 => .ok (.amoandW rd rs1 rs2 aq rl)
    | 0b01000#5 => .ok (.amoorW rd rs1 rs2 aq rl)
    | 0b10000#5 => .ok (.amominW rd rs1 rs2 aq rl)
    | 0b10100#5 => .ok (.amomaxW rd rs1 rs2 aq rl)
    | 0b11000#5 => .ok (.amominuW rd rs1 rs2 aq rl)
    | 0b11100#5 => .ok (.amomaxuW rd rs1 rs2 aq rl)
    | _ => .error .unknownFunction
  | _ => .error .unknownFunction

/-- SYSTEM (R277). -/
def decodeSystem (w : Word) : Except DecodeError Instr :=
  let rd := regAt w 7
  let rs1 := regAt w 15
  let uimm := w.extractLsb' 15 5
  let csr := w.extractLsb' 20 12
  match w.extractLsb' 12 3 with
  | 0b001#3 => .ok (.csrrw rd rs1 csr)
  | 0b010#3 => .ok (.csrrs rd rs1 csr)
  | 0b011#3 => .ok (.csrrc rd rs1 csr)
  | 0b101#3 => .ok (.csrrwi rd uimm csr)
  | 0b110#3 => .ok (.csrrsi rd uimm csr)
  | 0b111#3 => .ok (.csrrci rd uimm csr)
  | _ =>
    match w with
    | 0x00000073#32 => .ok .ecall
    | 0x00100073#32 => .ok .ebreak
    | 0x30200073#32 => .ok .mret
    | 0x10500073#32 => .ok .wfi
    | 0x7b200073#32 => .ok .dret
    | _ => .error .unknownSystem

/-- The instruction a 32-bit word stands for (R275 to R278). -/
def decode32 (w : Word) : Except DecodeError Instr :=
  match w.extractLsb' 0 7 with
  | 0b0110111#7 => .ok (.lui (regAt w 7) (w.extractLsb' 12 20))
  | 0b0010111#7 => .ok (.auipc (regAt w 7) (w.extractLsb' 12 20))
  | 0b0010011#7 => decodeOpImm w
  | 0b0110011#7 => decodeOp w
  | 0b1101111#7 => .ok (.jal (regAt w 7) (immJ w))
  | 0b1100111#7 =>
    match w.extractLsb' 12 3 with
    | 0b000#3 => .ok (.jalr (regAt w 7) (regAt w 15) (w.extractLsb' 20 12))
    | _ => .error .unknownFunction
  | 0b1100011#7 => decodeBranch w
  | 0b0000011#7 => decodeLoad w
  | 0b0100011#7 => decodeStore w
  | 0b0001111#7 => decodeMiscMem w
  | 0b0101111#7 => decodeAmo w
  | 0b1110011#7 => decodeSystem w
  | _ => if w.extractLsb' 0 5 = 0b11111#5 then .error .longEncoding else .error .unknownOpcode

/-- Quadrant 0 (R286, R287). -/
def decodeQ0 (h : Half) : Except DecodeError Instr :=
  let rd := cregAt h 2
  let rs1 := cregAt h 7
  match h.extractLsb' 13 3 with
  | 0b000#3 =>
    if h = 0 then .error .allZeroParcel
    else if immAddi4spn h = 0 then .error .reservedCompressed
    else .ok (.cAddi4spn rd (immAddi4spn h))
  | 0b010#3 => .ok (.cLw rd rs1 (immCLw h))
  | 0b110#3 => .ok (.cSw rs1 rd (immCLw h))
  | _ => .error .reservedCompressed

/-- Quadrant 1, funct3 = 0b100 (R286, R287). -/
def decodeQ1Alu (h : Half) : Except DecodeError Instr :=
  let rd := cregAt h 7
  let rs2 := cregAt h 2
  match h.extractLsb' 10 2 with
  | 0b00#2 => if h.extractLsb' 12 1 = 0#1 then .ok (.cSrli rd (h.extractLsb' 2 5)) else .error .reservedCompressed
  | 0b01#2 => if h.extractLsb' 12 1 = 0#1 then .ok (.cSrai rd (h.extractLsb' 2 5)) else .error .reservedCompressed
  | 0b10#2 => .ok (.cAndi rd (immCI h))
  | _ =>
    if h.extractLsb' 12 1 = 0#1 then
      match h.extractLsb' 5 2 with
      | 0b00#2 => .ok (.cSub rd rs2)
      | 0b01#2 => .ok (.cXor rd rs2)
      | 0b10#2 => .ok (.cOr rd rs2)
      | _ => .ok (.cAnd rd rs2)
    else .error .reservedCompressed

/-- Quadrant 1 (R286, R287). -/
def decodeQ1 (h : Half) : Except DecodeError Instr :=
  let rd := regAt16 h 7
  match h.extractLsb' 13 3 with
  | 0b000#3 => if rd = 0 then .ok (.cNop (immCI h)) else .ok (.cAddi rd (immCI h))
  | 0b001#3 => .ok (.cJal (immCJ h))
  | 0b010#3 => .ok (.cLi rd (immCI h))
  | 0b011#3 =>
    if rd = 2 then
      if immAddi16sp h = 0 then .error .reservedCompressed else .ok (.cAddi16sp (immAddi16sp h))
    else if immCI h = 0 then .error .reservedCompressed
    else .ok (.cLui rd (immCI h))
  | 0b100#3 => decodeQ1Alu h
  | 0b101#3 => .ok (.cJ (immCJ h))
  | 0b110#3 => .ok (.cBeqz (cregAt h 7) (immCB h))
  | _ => .ok (.cBnez (cregAt h 7) (immCB h))

/-- Quadrant 2 (R286, R287). -/
def decodeQ2 (h : Half) : Except DecodeError Instr :=
  let rd := regAt16 h 7
  let rs2 := regAt16 h 2
  match h.extractLsb' 13 3 with
  | 0b000#3 => if h.extractLsb' 12 1 = 0#1 then .ok (.cSlli rd (h.extractLsb' 2 5)) else .error .reservedCompressed
  | 0b010#3 => if rd = 0 then .error .reservedCompressed else .ok (.cLwsp rd (immLwsp h))
  | 0b100#3 =>
    if h.extractLsb' 12 1 = 0#1 then
      if rs2 = 0 then (if rd = 0 then .error .reservedCompressed else .ok (.cJr rd)) else .ok (.cMv rd rs2)
    else
      if rs2 = 0 then (if rd = 0 then .ok .cEbreak else .ok (.cJalr rd)) else .ok (.cAdd rd rs2)
  | 0b110#3 => .ok (.cSwsp rs2 (immSwsp h))
  | _ => .error .reservedCompressed

/-- The instruction a 16-bit parcel stands for (R286 to R288); a parcel of quadrant 3 is no 16-bit instruction. -/
def decode16 (h : Half) : Except DecodeError Instr :=
  match h.extractLsb' 0 2 with
  | 0b00#2 => decodeQ0 h
  | 0b01#2 => decodeQ1 h
  | 0b10#2 => decodeQ2 h
  | _ => .error .truncated

/-- Whether a parcel begins a 32-bit instruction (R262). -/
def isLongParcel (h : Half) : Bool := h.extractLsb' 0 2 == 0b11#2

/-- The instruction the bits of a `Code` stand for. -/
def Code.decode : Code → Except DecodeError Instr
  | .c16 h => decode16 h
  | .c32 w => decode32 w

/-- The little-endian half word of two bytes (R170). -/
def halfOfBytes (b0 b1 : Byte) : Half := b1 ++ b0

/-- The 32-bit instruction of its low and high parcel (R261, R262). -/
def wordOfParcels (p0 p1 : Half) : Word := p1 ++ p0

/-- Decode the first instruction of a byte sequence; the rest of the bytes is returned with it (R261, R262). -/
def decode : List Byte → Except DecodeError (Instr × List Byte)
  | b0 :: b1 :: rest =>
    let p0 := halfOfBytes b0 b1
    if isLongParcel p0 then
      match rest with
      | b2 :: b3 :: rest' => (decode32 (wordOfParcels p0 (halfOfBytes b2 b3))).map (·, rest')
      | _ => .error .truncated
    else (decode16 p0).map (·, rest)
  | _ => .error .truncated

/-! ## Encoding -/

/-- A register number as a five-bit field. -/
def reg5 (r : Reg) : BitVec 5 := BitVec.ofFin r

/-- A compressed register number as a three-bit field (R285). -/
def reg3 (r : CReg) : BitVec 3 := BitVec.ofFin r

/-- R-type (R265). -/
def encR (f7 : BitVec 7) (f3 : BitVec 3) (op : BitVec 7) (rd rs1 rs2 : Reg) : Word :=
  f7 ++ reg5 rs2 ++ reg5 rs1 ++ f3 ++ reg5 rd ++ op

/-- I-type (R266). -/
def encI (f3 : BitVec 3) (op : BitVec 7) (rd rs1 : Reg) (imm : BitVec 12) : Word :=
  imm ++ reg5 rs1 ++ f3 ++ reg5 rd ++ op

/-- The shift-immediate variant of I-type (R266). -/
def encShift (f7 : BitVec 7) (f3 : BitVec 3) (rd rs1 : Reg) (shamt : BitVec 5) : Word :=
  f7 ++ shamt ++ reg5 rs1 ++ f3 ++ reg5 rd ++ 0b0010011#7

/-- S-type (R267). -/
def encS (f3 : BitVec 3) (rs1 rs2 : Reg) (imm : BitVec 12) : Word :=
  imm.extractLsb' 5 7 ++ reg5 rs2 ++ reg5 rs1 ++ f3 ++ imm.extractLsb' 0 5 ++ 0b0100011#7

/-- B-type (R268). -/
def encB (f3 : BitVec 3) (rs1 rs2 : Reg) (off : BitVec 13) : Word :=
  off.extractLsb' 12 1 ++ off.extractLsb' 5 6 ++ reg5 rs2 ++ reg5 rs1 ++ f3 ++ off.extractLsb' 1 4
    ++ off.extractLsb' 11 1 ++ 0b1100011#7

/-- U-type (R269). -/
def encU (op : BitVec 7) (rd : Reg) (imm : BitVec 20) : Word := imm ++ reg5 rd ++ op

/-- J-type (R270). -/
def encJ (rd : Reg) (off : BitVec 21) : Word :=
  off.extractLsb' 20 1 ++ off.extractLsb' 1 10 ++ off.extractLsb' 11 1 ++ off.extractLsb' 12 8 ++ reg5 rd
    ++ 0b1101111#7

/-- The atomic variant of R-type (R265, R410). -/
def encAmo (f5 : BitVec 5) (rd rs1 rs2 : Reg) (aq rl : BitVec 1) : Word :=
  f5 ++ aq ++ rl ++ reg5 rs2 ++ reg5 rs1 ++ 0b010#3 ++ reg5 rd ++ 0b0101111#7

/-- The immediate CSR variant of I-type (R266). -/
def encCsrI (f3 : BitVec 3) (rd : Reg) (uimm : BitVec 5) (csr : BitVec 12) : Word :=
  csr ++ uimm ++ f3 ++ reg5 rd ++ 0b1110011#7

/-- Format CI (R281). -/
def encCI (f3 : BitVec 3) (rd : Reg) (imm : BitVec 6) (op : BitVec 2) : Half :=
  f3 ++ imm.extractLsb' 5 1 ++ reg5 rd ++ imm.extractLsb' 0 5 ++ op

/-- Formats CL and CS with the c.lw immediate (R281, R283). -/
def encCLw (f3 : BitVec 3) (r1 r2 : CReg) (imm : BitVec 7) : Half :=
  f3 ++ imm.extractLsb' 3 3 ++ reg3 r1 ++ imm.extractLsb' 2 1 ++ imm.extractLsb' 6 1 ++ reg3 r2 ++ 0b00#2

/-- Format CA (R281). -/
def encCA (f2 : BitVec 2) (rd rs2 : CReg) : Half := 0b100011#6 ++ reg3 rd ++ f2 ++ reg3 rs2 ++ 0b01#2

/-- Format CB for shifts and c.andi (R281). -/
def encCBAlu (f2 : BitVec 2) (b12 : BitVec 1) (rd : CReg) (imm : BitVec 5) : Half :=
  0b100#3 ++ b12 ++ f2 ++ reg3 rd ++ imm ++ 0b01#2

/-- Format CB for branches (R281, R283). -/
def encCB (f3 : BitVec 3) (rs1 : CReg) (off : BitVec 9) : Half :=
  f3 ++ off.extractLsb' 8 1 ++ off.extractLsb' 3 2 ++ reg3 rs1 ++ off.extractLsb' 6 2 ++ off.extractLsb' 1 2
    ++ off.extractLsb' 5 1 ++ 0b01#2

/-- Format CJ (R281, R283). -/
def encCJ (f3 : BitVec 3) (off : BitVec 12) : Half :=
  f3 ++ off.extractLsb' 11 1 ++ off.extractLsb' 4 1 ++ off.extractLsb' 8 2 ++ off.extractLsb' 10 1
    ++ off.extractLsb' 6 1 ++ off.extractLsb' 7 1 ++ off.extractLsb' 1 3 ++ off.extractLsb' 5 1 ++ 0b01#2

/-- Format CR (R281). -/
def encCR (f4 : BitVec 4) (rd rs2 : Reg) : Half := f4 ++ reg5 rd ++ reg5 rs2 ++ 0b10#2

/-- The encoding of an instruction (R264 to R288). -/
def encode : Instr → Code
  | .lui rd imm => .c32 (encU 0b0110111#7 rd imm)
  | .auipc rd imm => .c32 (encU 0b0010111#7 rd imm)
  | .addi rd rs1 imm => .c32 (encI 0b000#3 0b0010011#7 rd rs1 imm)
  | .slti rd rs1 imm => .c32 (encI 0b010#3 0b0010011#7 rd rs1 imm)
  | .sltiu rd rs1 imm => .c32 (encI 0b011#3 0b0010011#7 rd rs1 imm)
  | .xori rd rs1 imm => .c32 (encI 0b100#3 0b0010011#7 rd rs1 imm)
  | .ori rd rs1 imm => .c32 (encI 0b110#3 0b0010011#7 rd rs1 imm)
  | .andi rd rs1 imm => .c32 (encI 0b111#3 0b0010011#7 rd rs1 imm)
  | .slli rd rs1 sh => .c32 (encShift 0b0000000#7 0b001#3 rd rs1 sh)
  | .srli rd rs1 sh => .c32 (encShift 0b0000000#7 0b101#3 rd rs1 sh)
  | .srai rd rs1 sh => .c32 (encShift 0b0100000#7 0b101#3 rd rs1 sh)
  | .add rd rs1 rs2 => .c32 (encR 0b0000000#7 0b000#3 0b0110011#7 rd rs1 rs2)
  | .sub rd rs1 rs2 => .c32 (encR 0b0100000#7 0b000#3 0b0110011#7 rd rs1 rs2)
  | .sll rd rs1 rs2 => .c32 (encR 0b0000000#7 0b001#3 0b0110011#7 rd rs1 rs2)
  | .slt rd rs1 rs2 => .c32 (encR 0b0000000#7 0b010#3 0b0110011#7 rd rs1 rs2)
  | .sltu rd rs1 rs2 => .c32 (encR 0b0000000#7 0b011#3 0b0110011#7 rd rs1 rs2)
  | .xor rd rs1 rs2 => .c32 (encR 0b0000000#7 0b100#3 0b0110011#7 rd rs1 rs2)
  | .srl rd rs1 rs2 => .c32 (encR 0b0000000#7 0b101#3 0b0110011#7 rd rs1 rs2)
  | .sra rd rs1 rs2 => .c32 (encR 0b0100000#7 0b101#3 0b0110011#7 rd rs1 rs2)
  | .or rd rs1 rs2 => .c32 (encR 0b0000000#7 0b110#3 0b0110011#7 rd rs1 rs2)
  | .and rd rs1 rs2 => .c32 (encR 0b0000000#7 0b111#3 0b0110011#7 rd rs1 rs2)
  | .jal rd off => .c32 (encJ rd off)
  | .jalr rd rs1 imm => .c32 (encI 0b000#3 0b1100111#7 rd rs1 imm)
  | .beq rs1 rs2 off => .c32 (encB 0b000#3 rs1 rs2 off)
  | .bne rs1 rs2 off => .c32 (encB 0b001#3 rs1 rs2 off)
  | .blt rs1 rs2 off => .c32 (encB 0b100#3 rs1 rs2 off)
  | .bge rs1 rs2 off => .c32 (encB 0b101#3 rs1 rs2 off)
  | .bltu rs1 rs2 off => .c32 (encB 0b110#3 rs1 rs2 off)
  | .bgeu rs1 rs2 off => .c32 (encB 0b111#3 rs1 rs2 off)
  | .lb rd rs1 imm => .c32 (encI 0b000#3 0b0000011#7 rd rs1 imm)
  | .lh rd rs1 imm => .c32 (encI 0b001#3 0b0000011#7 rd rs1 imm)
  | .lw rd rs1 imm => .c32 (encI 0b010#3 0b0000011#7 rd rs1 imm)
  | .lbu rd rs1 imm => .c32 (encI 0b100#3 0b0000011#7 rd rs1 imm)
  | .lhu rd rs1 imm => .c32 (encI 0b101#3 0b0000011#7 rd rs1 imm)
  | .sb rs1 rs2 imm => .c32 (encS 0b000#3 rs1 rs2 imm)
  | .sh rs1 rs2 imm => .c32 (encS 0b001#3 rs1 rs2 imm)
  | .sw rs1 rs2 imm => .c32 (encS 0b010#3 rs1 rs2 imm)
  | .fence rd rs1 fm pred succ => .c32 (fm ++ pred ++ succ ++ reg5 rs1 ++ 0b000#3 ++ reg5 rd ++ 0b0001111#7)
  | .fenceI rd rs1 imm => .c32 (encI 0b001#3 0b0001111#7 rd rs1 imm)
  | .ecall => .c32 0x00000073#32
  | .ebreak => .c32 0x00100073#32
  | .mret => .c32 0x30200073#32
  | .wfi => .c32 0x10500073#32
  | .dret => .c32 0x7b200073#32
  | .mul rd rs1 rs2 => .c32 (encR 0b0000001#7 0b000#3 0b0110011#7 rd rs1 rs2)
  | .mulh rd rs1 rs2 => .c32 (encR 0b0000001#7 0b001#3 0b0110011#7 rd rs1 rs2)
  | .mulhsu rd rs1 rs2 => .c32 (encR 0b0000001#7 0b010#3 0b0110011#7 rd rs1 rs2)
  | .mulhu rd rs1 rs2 => .c32 (encR 0b0000001#7 0b011#3 0b0110011#7 rd rs1 rs2)
  | .div rd rs1 rs2 => .c32 (encR 0b0000001#7 0b100#3 0b0110011#7 rd rs1 rs2)
  | .divu rd rs1 rs2 => .c32 (encR 0b0000001#7 0b101#3 0b0110011#7 rd rs1 rs2)
  | .rem rd rs1 rs2 => .c32 (encR 0b0000001#7 0b110#3 0b0110011#7 rd rs1 rs2)
  | .remu rd rs1 rs2 => .c32 (encR 0b0000001#7 0b111#3 0b0110011#7 rd rs1 rs2)
  | .lrW rd rs1 aq rl => .c32 (encAmo 0b00010#5 rd rs1 0 aq rl)
  | .scW rd rs1 rs2 aq rl => .c32 (encAmo 0b00011#5 rd rs1 rs2 aq rl)
  | .amoswapW rd rs1 rs2 aq rl => .c32 (encAmo 0b00001#5 rd rs1 rs2 aq rl)
  | .amoaddW rd rs1 rs2 aq rl => .c32 (encAmo 0b00000#5 rd rs1 rs2 aq rl)
  | .amoxorW rd rs1 rs2 aq rl => .c32 (encAmo 0b00100#5 rd rs1 rs2 aq rl)
  | .amoandW rd rs1 rs2 aq rl => .c32 (encAmo 0b01100#5 rd rs1 rs2 aq rl)
  | .amoorW rd rs1 rs2 aq rl => .c32 (encAmo 0b01000#5 rd rs1 rs2 aq rl)
  | .amominW rd rs1 rs2 aq rl => .c32 (encAmo 0b10000#5 rd rs1 rs2 aq rl)
  | .amomaxW rd rs1 rs2 aq rl => .c32 (encAmo 0b10100#5 rd rs1 rs2 aq rl)
  | .amominuW rd rs1 rs2 aq rl => .c32 (encAmo 0b11000#5 rd rs1 rs2 aq rl)
  | .amomaxuW rd rs1 rs2 aq rl => .c32 (encAmo 0b11100#5 rd rs1 rs2 aq rl)
  | .csrrw rd rs1 csr => .c32 (encI 0b001#3 0b1110011#7 rd rs1 csr)
  | .csrrs rd rs1 csr => .c32 (encI 0b010#3 0b1110011#7 rd rs1 csr)
  | .csrrc rd rs1 csr => .c32 (encI 0b011#3 0b1110011#7 rd rs1 csr)
  | .csrrwi rd uimm csr => .c32 (encCsrI 0b101#3 rd uimm csr)
  | .csrrsi rd uimm csr => .c32 (encCsrI 0b110#3 rd uimm csr)
  | .csrrci rd uimm csr => .c32 (encCsrI 0b111#3 rd uimm csr)
  | .cAddi4spn rd imm =>
    .c16 (0b000#3 ++ imm.extractLsb' 4 2 ++ imm.extractLsb' 6 4 ++ imm.extractLsb' 2 1 ++ imm.extractLsb' 3 1
      ++ reg3 rd ++ 0b00#2)
  | .cLw rd rs1 imm => .c16 (encCLw 0b010#3 rs1 rd imm)
  | .cSw rs1 rs2 imm => .c16 (encCLw 0b110#3 rs1 rs2 imm)
  | .cNop imm => .c16 (encCI 0b000#3 0 imm 0b01#2)
  | .cAddi rd imm => .c16 (encCI 0b000#3 rd imm 0b01#2)
  | .cJal off => .c16 (encCJ 0b001#3 off)
  | .cLi rd imm => .c16 (encCI 0b010#3 rd imm 0b01#2)
  | .cAddi16sp imm =>
    .c16 (0b011#3 ++ imm.extractLsb' 9 1 ++ reg5 2 ++ imm.extractLsb' 4 1 ++ imm.extractLsb' 6 1
      ++ imm.extractLsb' 7 2 ++ imm.extractLsb' 5 1 ++ 0b01#2)
  | .cLui rd imm => .c16 (encCI 0b011#3 rd imm 0b01#2)
  | .cSrli rd sh => .c16 (encCBAlu 0b00#2 0#1 rd sh)
  | .cSrai rd sh => .c16 (encCBAlu 0b01#2 0#1 rd sh)
  | .cAndi rd imm => .c16 (encCBAlu 0b10#2 (imm.extractLsb' 5 1) rd (imm.extractLsb' 0 5))
  | .cSub rd rs2 => .c16 (encCA 0b00#2 rd rs2)
  | .cXor rd rs2 => .c16 (encCA 0b01#2 rd rs2)
  | .cOr rd rs2 => .c16 (encCA 0b10#2 rd rs2)
  | .cAnd rd rs2 => .c16 (encCA 0b11#2 rd rs2)
  | .cJ off => .c16 (encCJ 0b101#3 off)
  | .cBeqz rs1 off => .c16 (encCB 0b110#3 rs1 off)
  | .cBnez rs1 off => .c16 (encCB 0b111#3 rs1 off)
  | .cSlli rd sh => .c16 (encCI 0b000#3 rd (0#1 ++ sh) 0b10#2)
  | .cLwsp rd imm =>
    .c16 (0b010#3 ++ imm.extractLsb' 5 1 ++ reg5 rd ++ imm.extractLsb' 2 3 ++ imm.extractLsb' 6 2 ++ 0b10#2)
  | .cJr rs1 => .c16 (encCR 0b1000#4 rs1 0)
  | .cMv rd rs2 => .c16 (encCR 0b1000#4 rd rs2)
  | .cEbreak => .c16 (encCR 0b1001#4 0 0)
  | .cJalr rs1 => .c16 (encCR 0b1001#4 rs1 0)
  | .cAdd rd rs2 => .c16 (encCR 0b1001#4 rd rs2)
  | .cSwsp rs2 imm => .c16 (0b110#3 ++ imm.extractLsb' 2 4 ++ imm.extractLsb' 6 2 ++ reg5 rs2 ++ 0b10#2)

/-- The bytes of an encoding in memory order (R170, R261). -/
def Code.bytes : Code → List Byte
  | .c16 h => [h.extractLsb' 0 8, h.extractLsb' 8 8]
  | .c32 w => [w.extractLsb' 0 8, w.extractLsb' 8 8, w.extractLsb' 16 8, w.extractLsb' 24 8]

/-- The length of an encoding in bytes (R261). -/
def Code.length : Code → Nat
  | .c16 _ => 2
  | .c32 _ => 4

/-- The instruction bits zero-extended to 32 bits, which an illegal instruction writes to mtval (R525, R280). -/
def Code.zext : Code → Word
  | .c16 h => h.zeroExtend 32
  | .c32 w => w

/-- The bytes the opcode table's word `w` of `nbits` bits stands for, with the bits above `nbits` zero, up to the
longest instruction, four bytes. -/
def tableBytes (nbits w : Nat) : List Byte := (Code.c32 (BitVec.ofNat 32 (w % 2 ^ nbits))).bytes

/-- The instruction the decoder reads from an opcode-table word of `nbits` bits. -/
def decodeTableWord (nbits w : Nat) : Option Instr :=
  match decode (tableBytes nbits w) with
  | .ok (i, _) => some i
  | .error _ => none

end Sys2Proof
end

