-- ==== Sys2Proof/Config.lean ====
section
/-! DEFINITION. The build arguments and open parameters of the machine (R9, R12, 92 section 2), and the free
values: opaque constants that stand for what the spec leaves open (93 section 1). -/

namespace Sys2Proof

/-- A core-local block: present or not, and where (R9, R176 to R178). -/
structure Placement where
  enable : Bool
  /-- Region 0..15 (`RV_*_REGION`). -/
  region : Nat
  /-- Byte offset in the region (`RV_*_OFFSET`). -/
  offset : Nat
  /-- Size in KB (`RV_*_SIZE`). -/
  sizeKB : Nat
deriving DecidableEq, Repr, Inhabited

/-- One access window (R190). -/
structure Window where
  enable : Bool
  addr   : Word
  mask   : Word
deriving DecidableEq, Repr, Inhabited

/-- The trap value policy of R525 (D18). -/
inductive MtvalPolicy where
  | swerv
  | zero
deriving DecidableEq, Repr, Inhabited

/-- How core-local is predicted from the base register (R194, D5). -/
inductive RegionPred where
  | region
  | range
deriving DecidableEq, Repr, Inhabited

/-- `AMO_FAULT_KIND`: the cause a faulting amo reports, 5 or 7 (R196, D7). -/
inductive AmoFaultKind where
  | load
  | store
deriving DecidableEq, Repr, Inhabited

/-- Build arguments (R9), input buses constant for a run (R11, R752) and open parameters (R12, 92 section 2).
Which values are legal is `BuildConfig.legal` (R10, R190, R791). -/
structure BuildConfig where
  iccm : Placement
  dccm : Placement
  pic  : Placement
  /-- `RV_PIC_TOTAL_INT`, the number of external interrupt sources (R601). -/
  picTotalInt : Nat
  /-- Sources whose gateway is the simple one; every other gateway is configurable (`GW_CONFIGURABLE`, R605). -/
  simpleGateways : List Nat
  /-- Single thread or dual thread (`NUM_THREADS`, R9). -/
  dualThread : Bool
  /-- `FAST_INT_REDIRECT` (R650). -/
  fastRedirect : Bool
  icacheEnable : Bool
  /-- `RV_ICACHE_ECC`: parity (false) or ECC (true) (R143). -/
  icacheEcc : Bool
  /-- I-cache size in KB (R9). -/
  icacheSizeKB : Nat
  /-- I-cache ways, 2 or 4 (R9). -/
  icacheWays : Nat
  /-- I-cache line size in bytes, 32 or 64 (R9). -/
  icacheLine : Nat
  instWindows : List Window
  dataWindows : List Window
  /-- `rst_vec[31:1]` (R752). -/
  rstVec : BitVec 31
  /-- `core_id[31:4]` (R54). -/
  coreId : BitVec 28
  /-- `NUM_TRIGGERS` (R67, D24). -/
  numTriggers : Nat
  mtvalPolicy : MtvalPolicy
  regionPred : RegionPred
  amoFaultKind : AmoFaultKind
  /-- `BUS_IFU_AFTER_LSU` = ordered (R232). -/
  ifuOrdered : Bool
  /-- `PAUSE_ENDS_ON_DISABLED_INT` (R121, R703, D33). -/
  pauseEndsOnDisabledInt : Bool
deriving DecidableEq, Repr, Inhabited

namespace Config

/-- A free word (log 3): the value of the draw numbered `draw`, for the use named by `key`. -/
opaque freeWord (draw key : Nat) : Word

/-- A free byte (log 3). -/
opaque freeByte (draw key : Nat) : Byte

/-- A free choice between two behaviours (log 3). -/
opaque freeBool (draw key : Nat) : Bool

/-- A free count of microarchitectural events (R687, U22, log 3). -/
opaque freeCount (draw key : Nat) : Nat

/-- Whether `jal` and `jalr` count as event 24, branches committed (R687: not stated; log 29). -/
opaque jumpCountsAsBranch : Bool

/-- Whether `jal` and `jalr` count as event 26, branches taken (R687: not stated; log 29). -/
opaque jumpCountsAsTaken : Bool

end Config

end Sys2Proof
end

