-- ==== Sys2Proof/Machine/SparseMap.lean ====
section
/-! DEFINITION. Sparse maps in one canonical form: (key, value) pairs, keys strictly rising, no entry equal to what an
unlisted key reads as. Memories, error statuses and interrupt sources are such maps. -/

namespace Sys2Proof.Machine

/-- What key `k` reads as; `d` is what an unlisted key reads as. -/
def mapGet {α : Type} (d : α) : List (Nat × α) → Nat → α
  | [], _ => d
  | (k', v) :: m, k => if k = k' then v else mapGet d m k

/-- Write `v` at `k`, keeping the canonical form: writing `d` removes the entry. -/
def mapSet {α : Type} [DecidableEq α] (d : α) : List (Nat × α) → Nat → α → List (Nat × α)
  | [], k, v => if v = d then [] else [(k, v)]
  | (k', v') :: m, k, v =>
    if k < k' then (if v = d then (k', v') :: m else (k, v) :: (k', v') :: m)
    else if k = k' then (if v = d then m else (k, v) :: m)
    else (k', v') :: mapSet d m k v

/-- Every key of the map is above `k`. -/
def mapAbove {α : Type} (k : Nat) : List (Nat × α) → Bool
  | [] => true
  | (k', _) :: m => decide (k < k') && mapAbove k m

/-- The canonical form. -/
def mapWf {α : Type} [DecidableEq α] (d : α) : List (Nat × α) → Bool
  | [] => true
  | (k, v) :: m => mapAbove k m && decide (v ≠ d) && mapWf d m

end Sys2Proof.Machine
end

