-- ==== Sys2Proof/Machine/State.lean ====
section
/-! DEFINITION. Everything the spec gives the machine, as plain data, and the machine right after reset.
INVENTORY.md lists every piece with its rule. -/

namespace Sys2Proof.Machine

/-! ## Memories -/

/-- A byte memory in canonical form; an unlisted address reads 0 (DESIGN CHOICE, unsafe: log 6). -/
abbrev Memory := List Host.Cell

/-- The error status of one 32-bit word of ICCM or DCCM (R235, R239). -/
inductive EccStatus where
  /-- Never written since reset (R239). -/
  | unknown
  /-- Initialised by no store and no DMA write, but written back by a correction or by the read half of a store of part of
  it: it has data and check bits (R236, R239, R240, log 7). -/
  | settled
  /-- First written by this hart, which has not executed a `fence` since (R239). -/
  | fresh (h : HartId)
  /-- Fresh, with a single-bit error (R235, R239). -/
  | freshSingle (h : HartId)
  /-- Fresh, with a double-bit error (R235, R239). -/
  | freshDouble (h : HartId)
  | ok
  | single
  | double
deriving DecidableEq, Repr, Inhabited

/-- ICCM or DCCM: its bytes by address, and the status of its words by address / 4; an unlisted word is `unknown`. -/
structure CoreMem where
  cells : Memory
  ecc   : List (Nat × EccStatus)
deriving DecidableEq, Repr, Inhabited

/-- Snapshot of consecutive bytes from `base`: an I-cache line (R231) or a prefetched packet (R202). -/
structure CacheLine where
  base  : Nat
  bytes : List Byte
deriving DecidableEq, Repr, Inhabited

/-- What answers a range of bus addresses (R12, R215). -/
inductive SocKind where
  /-- Memory-like: a read returns the last value written. -/
  | memory
  /-- Device-like: reads and writes may have side effects and may answer anything. -/
  | device
  /-- No target: the bus answers with an error. -/
  | error
deriving DecidableEq, Repr, Inhabited

/-- One range of the SoC memory map (R12). -/
structure SocRange where
  base : Nat
  size : Nat
  kind : SocKind
deriving DecidableEq, Repr, Inhabited

/-- One transaction the SoC has seen on a hart's LSU interface (R222 to R226); `data` is the bytes a write enables, by
address, empty for a read. -/
structure BusTxn where
  hart : HartId
  write : Bool
  addr : Word
  size : Nat
  data : List (Nat × Byte)
deriving DecidableEq, Repr, Inhabited

/-- A DMA access under way, one 32-bit word a step (R248): in the DCCM or the ICCM, the words still to access with the
data to write, the words read, whether one had an uncorrectable error. -/
structure DmaJob where
  dccm : Bool
  read : Bool
  todo : List (Nat × Word)
  done : List Word
  bad  : Bool
deriving DecidableEq, Repr, Inhabited

/-- The response to the last DMA access (R245, R246). -/
inductive DmaResp where
  | none
  | data (words : List Word)
  | ok
  | error
deriving DecidableEq, Repr, Inhabited

/-! ## State of one hart -/

/-- The activity states of R33; Paused is `Running` with `Power.pausing`. -/
inductive Activity where
  | idle
  | running
  | sleep
  | dbgHalt
deriving DecidableEq, Repr, Inhabited

/-- Trap and interrupt CSRs of one hart (R48, R49, R55, R57 to R60, R104). Values are kept legal by the writes. -/
structure TrapCsrs where
  mstatus  : Word
  mie      : Word
  mtvec    : Word
  mscratch : Word
  mepc     : Word
  mcause   : Word
  mtval    : Word
  mscause  : BitVec 4
deriving DecidableEq, Repr, Inhabited

/-- An event selector and its counter (R62, R66). -/
structure Hpm where
  event : Word
  count : BitVec 64
deriving DecidableEq, Repr, Inhabited

/-- Counters of one hart (R61 to R66); `hpm3` to `hpm6` are `mhpmevent3..6` with `mhpmcounter3..6`. -/
structure Counters where
  mcountinhibit : Word
  mcycle   : BitVec 64
  minstret : BitVec 64
  hpm3 : Hpm
  hpm4 : Hpm
  hpm5 : Hpm
  hpm6 : Hpm
deriving DecidableEq, Repr, Inhabited

/-- Internal timers of one hart (R115 to R117); `held` requests last to the next instruction boundary (R674). -/
structure Timers where
  mitcnt0 : Word
  mitb0   : Word
  mitctl0 : Word
  mitcnt1 : Word
  mitb1   : Word
  mitctl1 : Word
  held0   : Bool
  held1   : Bool
deriving DecidableEq, Repr, Inhabited

/-- One debug trigger (R68, R69). -/
structure Trigger where
  tdata1 : Word
  tdata2 : Word
deriving DecidableEq, Repr, Inhabited

/-- Debug and diagnostic CSRs of one hart (R67 to R71, R140 to R143). -/
structure DebugCsrs where
  tselect  : Word
  triggers : List Trigger
  dcsr     : Word
  dpc      : Word
  dicawics : Word
  dicad0   : Word
  dicad0h  : Word
  dicad1   : Word
deriving DecidableEq, Repr, Inhabited

/-- Debug control of one hart: the four request bits of R708, an entry to Debug Mode still to be made (with its
`dcsr.cause`), single step in progress (R709), `debug_brkpt_status` (R706), the timeout counter (R122). -/
structure DebugCtl where
  dbgHalt   : Bool
  dbgResume : Bool
  mpcHalt   : Bool
  mpcRun    : Bool
  pending   : Option (BitVec 3)
  stepping  : Bool
  brkpt     : Bool
  timeout   : Nat
deriving DecidableEq, Repr, Inhabited

/-- The acknowledges of one hart that are not functions of its other state (R701, R702, R707): `cpu_halt_ack`,
`cpu_run_ack`, whether `mpc_debug_run_ack` waits for `cpu_run_req`, and whether it is held on a hart that runs no more. -/
structure Acks where
  cpuHalt : Bool
  cpuRun  : Bool
  runHeld : Bool
  mpcRun  : Bool
deriving DecidableEq, Repr, Inhabited

/-- Earlier values of `mtvec`, `meipt` and `meicurpl`, overwritten with interrupts enabled, that the next interrupt may
still use (R775, U14). -/
structure LateCsrs where
  mtvec     : List Word
  prithresh : List (BitVec 4)
  currpri   : List (BitVec 4)
deriving DecidableEq, Repr, Inhabited

/-- No earlier value is left. -/
def LateCsrs.settled : LateCsrs := { mtvec := [], prithresh := [], currpri := [] }

/-- PIC CSRs of one hart; priorities in internal order (R602, R620 to R625). -/
structure PicCsrs where
  meivt     : Word
  claimid   : BitVec 8
  prithresh : BitVec 4
  clidpri   : BitVec 4
  currpri   : BitVec 4
deriving DecidableEq, Repr, Inhabited

/-- Power control of one hart (R79, R120, R121, R123). -/
structure Power where
  haltie     : Bool
  pausing    : Bool
  pauseCount : Word
  mfdhs      : Word
deriving DecidableEq, Repr, Inhabited

/-- Why a fast-redirect lookup failed (R651). -/
inductive FastFail where
  | ecc
  | dccmRegion
  | nonDccm
deriving DecidableEq, Repr, Inhabited

/-- D-bus error capture and pending NMI requests of one hart (R77, R78, R102). -/
structure NmiState where
  mdseac : Word
  locked : Bool
  pin    : Bool
  store  : Bool
  load   : Bool
  fast   : Option FastFail
deriving DecidableEq, Repr, Inhabited

/-- A DCCM store waiting in the store queue: bytes of one word (R229). -/
structure SqEntry where
  addr : Word
  data : List Byte
deriving DecidableEq, Repr, Inhabited

/-- A bus store waiting in the write buffer (R220, R223). -/
structure WbEntry where
  addr : Word
  data : List Byte
  sideEffect : Bool
deriving DecidableEq, Repr, Inhabited

/-- A load that committed before its data came back (R228): its register, `x0` where a later instruction has overwritten it,
its size and extension, and the bytes it has read already (R195). -/
structure PendingLoad where
  rd     : Reg
  size   : Nat
  signed : Bool
  got    : List CacheLine
deriving DecidableEq, Repr, Inhabited

/-- A bus response still on its way to the hart (R227, R228, R562); `load`: the load that still waits for its data. -/
structure BusResp where
  store : Bool
  addr  : Word
  error : Bool
  sideEffect : Bool
  load  : Option PendingLoad := none
deriving DecidableEq, Repr, Inhabited

/-- What reading a 32-bit word of ICCM or DCCM finds: an uncorrectable error, the data, whether a single-bit error was
corrected, whether the data is arbitrary, and whether the word counts as uninitialised for the reader, so that its own
queued stores may be missed too (R235 to R239). -/
structure WordRead where
  bad       : Bool
  data      : Word
  fixed     : Bool
  arbitrary : Bool
  uninit    : Bool
deriving DecidableEq, Repr, Inhabited

/-- A part of a misaligned load, read before the step of the load: its bytes and, in the DCCM, what reading its word found
(R195, R236). -/
structure AheadPart where
  line : CacheLine
  word : Option WordRead
deriving DecidableEq, Repr, Inhabited

/-- Buffers of one hart, oldest entry first (R76, R229, R232); `ifuBusy`: a fetch transaction is outstanding (R712);
`ahead`: parts the next instruction, a misaligned load, has read already (R195); `slowLoads`: the SoC answers the
hart's loads later (R228). -/
structure Buffers where
  sq       : List SqEntry
  wb       : List WbEntry
  inflight : List BusResp
  prefetch : List CacheLine
  ifuBusy  : Bool
  ahead    : List AheadPart
  slowLoads : Bool
deriving DecidableEq, Repr, Inhabited

/-- Input pins of one hart (R11). -/
structure Pins where
  softInt    : Bool
  timerInt   : Bool
  cpuHaltReq : Bool
  cpuRunReq  : Bool
  mpcHaltReq : Bool
  mpcRunReq  : Bool
  mpcResetRunReq : Bool
deriving DecidableEq, Repr, Inhabited

/-- Everything one hart owns (R32). Slot 0 of `regs` is never written and never read (R34). -/
structure Hart where
  regs     : Vector Word 32
  pc       : Word
  activity : Activity
  /-- The load reservation: the reserved address, if any (R75). -/
  res      : Option Word
  trap     : TrapCsrs
  ctr      : Counters
  tmr      : Timers
  dbg      : DebugCsrs
  dctl     : DebugCtl
  pic      : PicCsrs
  pwr      : Power
  nmi      : NmiState
  buf      : Buffers
  pins     : Pins
  acks     : Acks
  late     : LateCsrs
deriving DecidableEq, Repr

/-! ## State of the core -/

/-- One external interrupt source (R605 to R617): priority (internal order), enable, delegation, gateway type (edge) and
polarity (active low), IP flop, and the level of its pin. -/
structure PicSource where
  prio : BitVec 4
  inten : Bool
  del  : Bool
  edge : Bool
  low  : Bool
  ip   : Bool
  pin  : Bool
deriving DecidableEq, Repr, Inhabited

/-- A source after reset (R85). -/
def PicSource.initial : PicSource :=
  { prio := 0, inten := false, del := false, edge := false, low := false, ip := false, pin := false }

/-- Everything the harts share (R32), and the SoC's memory as the core sees it. -/
structure Shared where
  mrac     : Word
  /-- Earlier values of `mrac` that data accesses of a hart may still use before its `fence` (R771, U13). -/
  mracOld  : List (HartId × Word)
  /-- Earlier values of `mrac` that fetches of a hart may still use before its `fence.i` (R100, R771, U13). -/
  mracOldFetch : List (HartId × Word)
  micect   : Word
  miccmect : Word
  mdccmect : Word
  start1   : Bool
  mnmipdel : Word
  mfdht    : Word
  mfdc     : Word
  /-- Earlier values of `mfdc` that a hart may still use before its `fence.i` (R772, U13). -/
  mfdcOld  : List (HartId × Word)
  mcgc     : Word
  priord   : Bool
  sources  : List (Nat × PicSource)
  nmiPin   : Bool
  nmiVec   : BitVec 31
  iccm     : CoreMem
  dccm     : CoreMem
  icache   : List CacheLine
  /-- The I-cache was written through `dicago` since the last flush (R144, U7). -/
  icPoison : Bool
  bus      : Memory
  /-- Earlier values of bytes that an IFU read not ordered after LSU writes may still return (R232). -/
  ifuOld   : List (Nat × Byte)
  soc      : List SocRange
  dmaJob   : Option DmaJob
  dmaResp  : DmaResp
  busLog   : List BusTxn
deriving DecidableEq, Repr, Inhabited

/-- A move of an agent other than a running hart (R30): the environment's choices, pending in `State.script`. -/
inductive Action where
  /-- `h` takes the next hart step (R720, U29). -/
  | select (h : HartId)
  /-- `h` takes a step now, between the other actions of the script (R30, R248, R250, U29). -/
  | run (h : HartId)
  /-- One clock step (R680). -/
  | tick
  /-- The oldest store of `h`'s store queue reaches the DCCM (R229). -/
  | drainSq (h : HartId)
  /-- The oldest `n + 1` stores of `h`'s write buffer reach the bus, as one transaction where they merge (R226). -/
  | drainWb (h : HartId) (n : Nat)
  /-- The `i`-th outstanding response of `h` arrives (R227). -/
  | busResponse (h : HartId) (i : Nat)
  /-- The oldest store and the oldest load response of `h` arrive in one clock cycle (R562). -/
  | busResponseBoth (h : HartId)
  /-- From now on the SoC answers loads of `h` later, or at once (R228). -/
  | slowLoads (h : HartId) (b : Bool)
  /-- The misaligned load `h` is about to execute reads its part of `n` bytes at `a` now (R195, R173). -/
  | readAhead (h : HartId) (a : Word) (n : Nat)
  /-- Loads of `h` that wait read their part of `n` bytes at `a` from the bus now (R173, R195, R228). -/
  | answerPart (h : HartId) (a : Word) (n : Nat)
  /-- DMA read of `n` bytes (R245). -/
  | dmaRead (a : Word) (n : Nat)
  /-- DMA write of `n` bytes with byte enables `strobe` (R246). -/
  | dmaWrite (a : Word) (n : Nat) (strobe : BitVec 8) (data : BitVec 64)
  /-- The next word of the DMA access under way (R248). -/
  | dmaNext
  /-- The IFU fills the I-cache line of `a` (R231). -/
  | icFill (a : Word)
  /-- Line `i` of the I-cache is dropped (R231). -/
  | icDrop (i : Nat)
  /-- A parity or ECC error is found in the I-cache; the lines of the set, `bases`, are dropped (R237). -/
  | icError (bases : List Nat)
  /-- `h` fetches the 16-byte packet at `a` ahead of execution (R202). -/
  | prefetch (h : HartId) (a : Word)
  /-- `h` discards what it has prefetched. -/
  | prefetchDrop (h : HartId)
  /-- A fetch transaction of `h` becomes outstanding, or completes (R712). -/
  | ifuBusy (h : HartId) (b : Bool)
  /-- The IFU side has caught up with all LSU writes (R232). -/
  | ifuSync
  /-- The environment sets the status of an ICCM word (R235). -/
  | eccIccm (a : Word) (e : EccStatus)
  /-- The environment sets the status of a DCCM word (R235). -/
  | eccDccm (a : Word) (e : EccStatus)
  /-- A fetch that is never executed corrects an ICCM word (R237, R239). -/
  | iccmCorrect (a : Word)
  | softInt (h : HartId) (b : Bool)
  | timerInt (h : HartId) (b : Bool)
  /-- The level of `extintsrc_req[s]` (R600). -/
  | extInt (s : Nat) (b : Bool)
  /-- The level of `nmi_int` (R561). -/
  | nmiInt (b : Bool)
  | nmiVec (v : BitVec 31)
  | cpuHaltReq (h : HartId) (b : Bool)
  | cpuRunReq (h : HartId) (b : Bool)
  | mpcHaltReq (h : HartId) (b : Bool)
  | mpcRunReq (h : HartId) (b : Bool)
  | mpcResetRunReq (h : HartId) (b : Bool)
  /-- PAUSE of `h` ends now: the skid of R703. -/
  | pauseEnd (h : HartId)
  /-- The debugger requests halt of `h` (R705, R708). -/
  | debugHalt (h : HartId)
  /-- The debugger requests resume of `h`, or a single step if `dcsr.step` is set (R708, R709). -/
  | debugResume (h : HartId)
  /-- The debugger executes one instruction on the halted hart `h` (R705). -/
  | debugExec (h : HartId) (i : Instr)
  /-- The debugger writes register `r` of the halted hart `h` (R705). -/
  | debugSetReg (h : HartId) (r : Reg) (v : Word)
  /-- Another bus master, or the debug bus master, writes a byte of bus memory (R215, R705). -/
  | busWrite (a : Word) (b : Byte)
  /-- The SoC memory map becomes `m` (R12, R31). -/
  | setSoc (m : List SocRange)
  /-- `rst_l` (R750); with `halted`, the debugger holds `haltreq` through the reset (R714). -/
  | reset (halted : Bool)
deriving DecidableEq, Repr

/-- The whole machine. `cfg` is fixed for a run; `cur`, `script` and `draws` are the model's own (log 1, log 3): the hart
that moves next, the environment's pending actions, and how many free values have been drawn. -/
structure State where
  cfg    : BuildConfig
  h0     : Hart
  h1     : Hart
  sh     : Shared
  cur    : HartId
  script : List Action
  draws  : Nat
deriving DecidableEq, Repr

/-- Why the model stops with a fault. -/
inductive Fault where
  /-- Raised by the step of an action that names hart T1 in a single-thread build (R9, R753). Safe: the machine has no
  such hart. -/
  | noSuchHart
deriving DecidableEq, Repr

/-- Why the model refuses to step. -/
inductive Refusal where
  /-- Raised by `exec` for an instruction without a meaning. Safe. -/
  | notModelled (mnemonic : String)
  /-- Raised by `step` when `cfg` breaks the rules of R791, which asks a model to reject it. Safe. -/
  | illegalConfiguration
  /-- Raised by the actions of the PMU pins on a protocol violation (R704, U10: refuse). Safe. -/
  | pmuProtocolViolation
  /-- Raised by the actions of the MPC pins, and by reset, on a protocol violation (R707, R754, U11: refuse). Safe. -/
  | mpcProtocolViolation
  /-- Raised by the debugger's reset while a hart has bus transactions outstanding (R756, U12: refuse). Safe. -/
  | resetDuringBusTraffic
deriving DecidableEq, Repr

/-! ## Reset (R85, R86, R750 to R755) -/

/-- The address a 31-bit vector bus gives (R39). -/
def vectorAddr (v : BitVec 31) : Word := v ++ 0#1

/-- Pins not driven by anything (R762, log 5). -/
def Pins.idle : Pins :=
  { softInt := false, timerInt := false, cpuHaltReq := false, cpuRunReq := false, mpcHaltReq := false,
    mpcRunReq := false, mpcResetRunReq := true }

/-- Trap CSRs at reset: `mie`, `mscause` and `mstatus.MIE` by R85, R86 and D22; the rest PRESUMED (log 4). -/
def TrapCsrs.initial : TrapCsrs :=
  { mstatus := 0x00001800#32, mie := 0, mtvec := 0, mscratch := 0, mepc := 0, mcause := 0, mtval := 0, mscause := 0 }

/-- A trigger at reset, PRESUMED (log 4). -/
def Trigger.initial : Trigger := { tdata1 := 0x23E00000#32, tdata2 := 0 }

/-- An event counter at reset (D22). -/
def Hpm.initial : Hpm := { event := 0, count := 0 }

/-- Counters at reset (R85, D22). -/
def Counters.initial : Counters :=
  { mcountinhibit := 0, mcycle := 0, minstret := 0, hpm3 := Hpm.initial, hpm4 := Hpm.initial, hpm5 := Hpm.initial,
    hpm6 := Hpm.initial }

/-- Internal timers at reset (R85). -/
def Timers.initial : Timers :=
  { mitcnt0 := 0, mitb0 := 0xFFFFFFFF#32, mitctl0 := 1, mitcnt1 := 0, mitb1 := 0xFFFFFFFF#32, mitctl1 := 1,
    held0 := false, held1 := false }

/-- Debug CSRs at reset (R85, D24; `dcsr`, `dpc` and the triggers PRESUMED, log 4). -/
def DebugCsrs.initial (numTriggers : Nat) : DebugCsrs :=
  { tselect := 0, triggers := List.replicate numTriggers Trigger.initial, dcsr := 0x40000003#32, dpc := 0,
    dicawics := 0, dicad0 := 0, dicad0h := 0, dicad1 := 0 }

/-- Debug control at reset (R751). -/
def DebugCtl.initial : DebugCtl :=
  { dbgHalt := false, dbgResume := false, mpcHalt := false, mpcRun := false, pending := none, stepping := false,
    brkpt := false, timeout := 0 }

/-- A hart at reset, `Idle` (R85, R86, R751). -/
def Hart.initial (cfg : BuildConfig) (pins : Pins) : Hart :=
  { regs := Vector.replicate 32 0
    pc := vectorAddr cfg.rstVec
    activity := .idle
    res := none
    trap := TrapCsrs.initial
    ctr := Counters.initial
    tmr := Timers.initial
    dbg := DebugCsrs.initial cfg.numTriggers
    dctl := DebugCtl.initial
    pic := { meivt := 0, claimid := 0, prithresh := 0, clidpri := 0, currpri := 0 }
    pwr := { haltie := true, pausing := false, pauseCount := 0, mfdhs := 0 }
    nmi := { mdseac := 0, locked := false, pin := false, store := false, load := false, fast := none }
    buf := { sq := [], wb := [], inflight := [], prefetch := [], ifuBusy := false, ahead := [], slowLoads := false }
    pins := pins
    acks := { cpuHalt := false, cpuRun := false, runHeld := false, mpcRun := false }
    late := LateCsrs.settled }

/-- A memory nothing has written. -/
def CoreMem.initial : CoreMem := { cells := [], ecc := [] }

/-- The core's shared registers at reset (R85), with no memory content. -/
def Shared.initial (soc : List SocRange) (nmiVec : BitVec 31) : Shared :=
  { mrac := 0, mracOld := [], mracOldFetch := [], mfdcOld := [], micect := 0, miccmect := 0, mdccmect := 0, start1 := false, mnmipdel := 1, mfdht := 0,
    mfdc := 0x00070040#32, mcgc := 0, priord := false, sources := [], nmiPin := false, nmiVec := nmiVec,
    iccm := CoreMem.initial, dccm := CoreMem.initial, icache := [], icPoison := false, bus := [], ifuOld := [],
    soc := soc, dmaJob := none, dmaResp := .none, busLog := [] }

/-- The build of `State.reset`: the example map of R183 with a PIC block as in R197, dual thread, the defaults of 92
section 2 (DESIGN CHOICE, log 5). -/
def exampleConfig : BuildConfig :=
  { iccm := { enable := true, region := 0, offset := 0x40000, sizeKB := 128 }
    dccm := { enable := true, region := 0, offset := 0x80000, sizeKB := 128 }
    pic := { enable := true, region := 0, offset := 0x100000, sizeKB := 32 }
    picTotalInt := 31
    simpleGateways := []
    dualThread := true
    fastRedirect := false
    icacheEnable := true
    icacheEcc := true
    icacheSizeKB := 32
    icacheWays := 4
    icacheLine := 64
    instWindows := []
    dataWindows := []
    rstVec := 0x20000#31
    coreId := 0
    numTriggers := 4
    mtvalPolicy := .swerv
    regionPred := .region
    amoFaultKind := .store
    ifuOrdered := true
    pauseEndsOnDisabledInt := false }

/-- The SoC map of `State.reset`: regions 1 to 15 are memory (DESIGN CHOICE, log 8). -/
def exampleSoc : List SocRange := [{ base := 0x10000000, size := 0xF0000000, kind := .memory }]

/-- The machine right after reset (R85, R86, R751 to R754): T0 runs at the reset vector, T1 is idle. -/
def State.reset : State :=
  { cfg := exampleConfig
    h0 := { Hart.initial exampleConfig Pins.idle with activity := .running }
    h1 := Hart.initial exampleConfig Pins.idle
    sh := Shared.initial exampleSoc 0x28000#31
    cur := .t0
    script := []
    draws := 0 }

end Sys2Proof.Machine
end

