-- ==== Sys2Proof/Machine/MemMap.lean ====
section
/-! DEFINITION. The address map: regions, core-local blocks, access windows, and which builds are legal
(R175 to R192, R791). Pure functions of the configuration. -/

namespace Sys2Proof.Machine

/-- The region of an address, `a[31:28]` (R171). -/
def regionOf (a : Word) : Nat := a.toNat / 2 ^ 28

/-- First address of a block (R176). -/
def Placement.base (p : Placement) : Nat := p.region * 2 ^ 28 + p.offset

/-- Size of a block in bytes. -/
def Placement.bytes (p : Placement) : Nat := p.sizeKB * 1024

/-- The address lies in the block (R176 to R178). -/
def Placement.contains (p : Placement) (a : Word) : Bool :=
  p.enable && decide (Placement.base p ≤ a.toNat) && decide (a.toNat < Placement.base p + Placement.bytes p)

/-- The address lies in the block's region (R179). -/
def Placement.ownsRegion (p : Placement) (a : Word) : Bool := p.enable && decide (regionOf a = p.region)

/-- `inICCM` (R176). -/
def inIccm (c : BuildConfig) (a : Word) : Bool := Placement.contains c.iccm a

/-- `inDCCM` (R177). -/
def inDccm (c : BuildConfig) (a : Word) : Bool := Placement.contains c.dccm a

/-- `inPIC` (R178). -/
def inPic (c : BuildConfig) (a : Word) : Bool := Placement.contains c.pic a

/-- `iccmRegion` (R179). -/
def iccmRegion (c : BuildConfig) (a : Word) : Bool := Placement.ownsRegion c.iccm a

/-- `dlocalRegion` (R179). -/
def dlocalRegion (c : BuildConfig) (a : Word) : Bool := Placement.ownsRegion c.dccm a || Placement.ownsRegion c.pic a

/-- How an address is classed by the core-local prediction of R194. -/
def predictLocal (c : BuildConfig) (a : Word) : Bool :=
  match c.regionPred with
  | .region => dlocalRegion c a
  | .range => inDccm c a || inPic c a

/-- Membership in a window (R190). -/
def Window.covers (w : Window) (a : Word) : Bool := w.enable && decide (a ||| w.mask = w.addr ||| w.mask)

/-- No window is enabled, or one covers the address (R191, R192). -/
def windowsAllow (ws : List Window) (a : Word) : Bool := !(ws.any (·.enable)) || ws.any (Window.covers · a)

/-- `instOK` (R191). -/
def instOk (c : BuildConfig) (a : Word) : Bool := windowsAllow c.instWindows a

/-- `dataOK` (R192). -/
def dataOk (c : BuildConfig) (a : Word) : Bool := windowsAllow c.dataWindows a

/-- `mrac.sideeffect` of the region of `a` (R100, R186). -/
def sideEffect (mrac : Word) (a : Word) : Bool := mrac.getLsbD (2 * regionOf a + 1)

/-- `mrac.cacheable` of the region of `a` (R100, R186). -/
def cacheable (mrac : Word) (a : Word) : Bool := mrac.getLsbD (2 * regionOf a)

/-! ## Legal builds (R9, R10, R190, R791) -/

/-- A window obeys the four validity rules of R190. -/
def Window.legal (w : Window) : Bool :=
  decide (w.addr &&& 0x3F#32 = 0) && decide (w.mask &&& 0x3F#32 = 0x3F#32) && decide (w.mask &&& (w.mask + 1) = 0)
    && decide (w.addr &&& w.mask = 0)

/-- The power of two a block of this size is aligned to: 48 KB to 64 KB (R10). -/
def Placement.align (p : Placement) : Nat := if p.sizeKB = 48 then 64 * 1024 else Placement.bytes p

/-- A block is absent, or has one of the sizes, is aligned and stays in its region (R10). -/
def Placement.legal (p : Placement) (sizes : List Nat) : Bool :=
  !p.enable ||
    (sizes.contains p.sizeKB && decide (p.region < 16) && decide (p.offset % Placement.align p = 0)
      && decide (p.offset + Placement.bytes p ≤ 2 ^ 28))

/-- Two blocks do not overlap (R10). -/
def Placement.apart (p q : Placement) : Bool :=
  !p.enable || !q.enable || decide (Placement.base p + Placement.bytes p ≤ Placement.base q)
    || decide (Placement.base q + Placement.bytes q ≤ Placement.base p)

/-- A build the rules of R9, R10, R190 and R791 admit. The size, ways and line size of the I-cache are checked only where
`RV_ICACHE_ENABLE` is 1, and region, offset and size of a memory or of the PIC only where it is enabled (DESIGN CHOICE: R9
does not say whether the ranges bind a part that is absent; log 37). -/
def BuildConfig.legal (c : BuildConfig) : Bool :=
  Placement.legal c.iccm [4, 8, 16, 32, 64, 128, 256, 512]
    && Placement.legal c.dccm [4, 8, 16, 32, 48, 64, 128, 256, 512]
    && Placement.legal c.pic [32, 64, 128, 256]
    && Placement.apart c.iccm c.dccm && Placement.apart c.iccm c.pic && Placement.apart c.dccm c.pic
    && decide (2 ≤ c.picTotalInt) && decide (c.picTotalInt ≤ 255)
    && (!c.icacheEnable || ([16, 32, 64, 128, 256].contains c.icacheSizeKB && [2, 4].contains c.icacheWays
      && [32, 64].contains c.icacheLine))
    && decide (c.instWindows.length ≤ 8) && decide (c.dataWindows.length ≤ 8)
    && c.instWindows.all Window.legal && c.dataWindows.all Window.legal

end Sys2Proof.Machine
end

