-- ==== Sys2Proof/Machine/Ops.lean ====
section
/-! DEFINITION. The named operations over the state: harts, registers, free values, counting and retiring, taking an
exception and returning from one (R550, R551, R570). -/

namespace Sys2Proof.Machine

/-! ## Harts and registers -/

/-- One hart of the machine. -/
def State.hart (s : State) : HartId → Hart
  | .t0 => s.h0
  | .t1 => s.h1

/-- Replace one hart. -/
def State.setHart (s : State) (i : HartId) (h : Hart) : State :=
  match i with
  | .t0 => { s with h0 := h }
  | .t1 => { s with h1 := h }

/-- The executing hart. -/
def State.me (s : State) : Hart := s.hart s.cur

/-- Replace the executing hart. -/
def State.setMe (s : State) (h : Hart) : State := s.setHart s.cur h

/-- `x[r]`: x0 reads 0 (R14, R34). -/
def Hart.reg (h : Hart) (r : Reg) : Word := if r = 0 then 0 else h.regs.get r

/-- `x[r] <- v`: a write to x0 is discarded (R14, R34). -/
def Hart.setReg (h : Hart) (r : Reg) (v : Word) : Hart :=
  if r = 0 then h else { h with regs := h.regs.set r.val v }

/-- A load that still waits and whose register `r` is written meanwhile: its own write is lost (R228). -/
def BusResp.overwritten (q : BusResp) (r : Reg) : BusResp :=
  match q.load with
  | some p => if p.rd = r then { q with load := some { p with rd := 0 } } else q
  | none => q

/-- Register `r` is written: the write of an older load that still waits is lost (R228). -/
def Buffers.overwrite (b : Buffers) (r : Reg) : Buffers :=
  { b with inflight := b.inflight.map (fun q => q.overwritten r) }

/-- `x[r] <- v` by an instruction, younger than every load that still waits (R228). -/
def Hart.writeReg (h : Hart) (r : Reg) (v : Word) : Hart := { h.setReg r v with buf := h.buf.overwrite r }

/-- `x[r]` of the executing hart. -/
def State.reg (s : State) (r : Reg) : Word := s.me.reg r

/-- `x[r] <- v` on the executing hart. -/
def State.setReg (s : State) (r : Reg) (v : Word) : State := s.setMe (s.me.writeReg r v)

/-- The next draw of free values (log 3). -/
def State.draw (s : State) : State := { s with draws := s.draws + 1 }

/-- The current value of a register, or any of its earlier values that may still be in use, freely (U13, U14). -/
def pickOld {α : Type} (draw key : Nat) (olds : List α) (now : α) : α :=
  match olds with
  | [] => now
  | v :: vs => (v :: vs ++ [now]).getD (Config.freeCount draw key % (vs.length + 2)) now

/-! ## Bits -/

/-- `v` with bit `i` set to `b`. -/
def putBit (v : Word) (i : Nat) (b : Bool) : Word :=
  if b then v ||| (1#32 <<< i) else v &&& ~~~(1#32 <<< i)

/-- Bit 0 cleared: instruction addresses are even (R38, R58). -/
def evenPc (a : Word) : Word := a &&& 0xFFFFFFFE#32

/-- `mstatus.MIE` (R48). -/
def Hart.mie (h : Hart) : Bool := h.trap.mstatus.getLsbD 3

/-- `mstatus.MPIE` (R48). -/
def Hart.mpie (h : Hart) : Bool := h.trap.mstatus.getLsbD 7

/-- `dcsr.stopcount` (R70). -/
def Hart.stopcount (h : Hart) : Bool := h.dbg.dcsr.getLsbD 10

/-! ## Counting and retiring (R681 to R687) -/

/-- Whether the performance counters of the hart run: in Active, and in `db-halt` unless `stopcount` (R683). -/
def Hart.countersRun (h : Hart) : Bool :=
  match h.activity with
  | .running => true
  | .dbgHalt => !h.stopcount
  | .idle => false
  | .sleep => false

/-- An event counter after `n` occurrences of its event, unless inhibited (R66, R682). -/
def Hpm.add (c : Hpm) (inhibited : Bool) (n : Nat) : Hpm :=
  if inhibited then c else { c with count := c.count + BitVec.ofNat 64 n }

/-- How often the selected event occurs in a list of events; selector 0 counts nothing (R682, R686). -/
def occurrences (c : Hpm) (evs : List Nat) : Nat := if c.event = 0 then 0 else evs.count c.event.toNat

/-- Count events on the four event counters, whatever the activity state (R682). -/
def Counters.countEvents (c : Counters) (evs : List Nat) : Counters :=
  { c with
    hpm3 := c.hpm3.add (c.mcountinhibit.getLsbD 3) (occurrences c.hpm3 evs)
    hpm4 := c.hpm4.add (c.mcountinhibit.getLsbD 4) (occurrences c.hpm4 evs)
    hpm5 := c.hpm5.add (c.mcountinhibit.getLsbD 5) (occurrences c.hpm5 evs)
    hpm6 := c.hpm6.add (c.mcountinhibit.getLsbD 6) (occurrences c.hpm6 evs) }

/-- One more retired instruction, unless `mcountinhibit.IR` (R65, R681). -/
def Counters.retireOne (c : Counters) : Counters :=
  if c.mcountinhibit.getLsbD 2 then c else { c with minstret := c.minstret + 1 }

/-- Count events on a hart whose counters run (R682, R683). -/
def Hart.countEvents (h : Hart) (evs : List Nat) : Hart :=
  if h.countersRun then { h with ctr := h.ctr.countEvents evs } else h

/-- The events every committed instruction of `len` bytes counts: 4, and 5 or 6 (R686). -/
def lengthEvents (len : Nat) : List Nat := if len = 2 then [4, 5] else [4, 6]

/-- Count a retired instruction of `len` bytes with its own events (R681, R686). -/
def Hart.retire (h : Hart) (len : Nat) (evs : List Nat) : Hart :=
  if h.countersRun then { h with ctr := (h.ctr.countEvents (lengthEvents len ++ evs)).retireOne } else h

/-- `pc <- target` (R14). -/
def Hart.jump (h : Hart) (target : Word) : Hart := { h with pc := target }

/-- The address after an instruction of `len` bytes (R37). -/
def Hart.nextPc (h : Hart) (len : Nat) : Word := h.pc + BitVec.ofNat 32 len

/-- The executing hart retires an instruction of `len` bytes and goes on at `target`. -/
def State.completeAt (s : State) (len : Nat) (evs : List Nat) (target : Word) : State :=
  s.setMe ((s.me.retire len evs).jump target)

/-- The executing hart retires an instruction of `len` bytes and goes on after it (R37). -/
def State.complete (s : State) (len : Nat) (evs : List Nat) : State := s.completeAt len evs (s.me.nextPc len)

/-! ## Taking a trap and returning from it -/

/-- The value of `mstatus` after trap entry: `MPIE <- MIE; MIE <- 0` (R550). -/
def mstatusEntry (v : Word) : Word := putBit (putBit v 7 (v.getLsbD 3)) 3 false

/-- The value of `mstatus` after `mret`: `MIE <- MPIE; MPIE <- 1` (R570). -/
def mstatusReturn (v : Word) : Word := putBit (putBit v 3 (v.getLsbD 7)) 7 true

/-- `{BASE, 0b00}` of `mtvec` (R49, R551). -/
def Hart.trapBase (h : Hart) : Word := h.trap.mtvec &&& 0xFFFFFFFC#32

/-- Where an interrupt goes under a value of `mtvec`: the base, or `BASE + 4 * cause` in Vectored mode (R551). -/
def interruptTarget (mtvec cause : Word) : Word :=
  let base := mtvec &&& 0xFFFFFFFC#32
  if mtvec.getLsbD 0 then base + ((cause &&& 0x7FFFFFFF#32) <<< 2) else base

/-- Trap entry of one hart, for an exception, an interrupt or an NMI: one indivisible step (R550). -/
def Hart.enterTrap (h : Hart) (cause : Word) (secondary : BitVec 4) (tval target : Word) : Hart :=
  { h with
    trap := { h.trap with
      mepc := evenPc h.pc
      mcause := cause
      mscause := secondary
      mtval := tval
      mstatus := mstatusEntry h.trap.mstatus }
    res := none
    pc := target }

/-- Raise an exception on the executing hart: event 37, and the trap entry of R550 to `{BASE, 0b00}` (R551). On a hart in
`db-halt` (an instruction the debugger executes) no trap is taken (PRESUMED, log 19). -/
def State.raise (s : State) (cause : Word) (secondary : BitVec 4) (tval : Word) : State :=
  if s.me.activity = .dbgHalt then s
  else s.setMe ((s.me.countEvents [37]).enterTrap cause secondary tval s.me.trapBase)

/-- The `mtval` of causes other than 4 to 7: the value of the `swerv` policy, or 0 (R525). -/
def policyTval (c : BuildConfig) (v : Word) : Word :=
  match c.mtvalPolicy with
  | .swerv => v
  | .zero => 0

/-- Raise illegal instruction for these instruction bits (R531, R525). -/
def State.raiseIllegal (s : State) (bits : Word) : State := s.raise 2 0 (policyTval s.cfg bits)

/-- Return from a trap: `pc <- mepc`, the `MIE`/`MPIE` shuffle, the reservation cleared (R570). -/
def Hart.returnFromTrap (h : Hart) : Hart :=
  { h with
    trap := { h.trap with mstatus := mstatusReturn h.trap.mstatus }
    res := none
    pc := evenPc h.trap.mepc }

end Sys2Proof.Machine
end

