-- ==== Sys2Proof/Machine/Operands.lean ====
section
/-! DEFINITION. Operand forms: immediates, effective addresses, compressed register numbers, byte and word assembly
(R14, R170, R266 to R270, R283, R285). -/

namespace Sys2Proof.Machine

/-- `sext_N(v)` (R14). -/
def sext {n : Nat} (v : BitVec n) : Word := v.signExtend 32

/-- `zext_N(v)` (R14). -/
def zext {n : Nat} (v : BitVec n) : Word := v.zeroExtend 32

/-- The U-type immediate `{imm, 0x000}` (R269). -/
def uImm (imm : BitVec 20) : Word := imm ++ 0#12

/-- The c.lui immediate: six bits at 17:12, sign-extended (R283). -/
def cluiImm (imm : BitVec 6) : Word := sext (imm ++ 0#12)

/-- The register a three-bit field names (R285). -/
def xreg (r : CReg) : Reg := ⟨8 + r.val, by omega⟩

/-- The registers an instruction reads: those that must have their value before it executes (R228). -/
def instrSources : Instr → List Reg
  | .lui _ _ => []
  | .auipc _ _ => []
  | .addi _ rs1 _ => [rs1]
  | .slti _ rs1 _ => [rs1]
  | .sltiu _ rs1 _ => [rs1]
  | .xori _ rs1 _ => [rs1]
  | .ori _ rs1 _ => [rs1]
  | .andi _ rs1 _ => [rs1]
  | .slli _ rs1 _ => [rs1]
  | .srli _ rs1 _ => [rs1]
  | .srai _ rs1 _ => [rs1]
  | .add _ rs1 rs2 => [rs1, rs2]
  | .sub _ rs1 rs2 => [rs1, rs2]
  | .sll _ rs1 rs2 => [rs1, rs2]
  | .slt _ rs1 rs2 => [rs1, rs2]
  | .sltu _ rs1 rs2 => [rs1, rs2]
  | .xor _ rs1 rs2 => [rs1, rs2]
  | .srl _ rs1 rs2 => [rs1, rs2]
  | .sra _ rs1 rs2 => [rs1, rs2]
  | .or _ rs1 rs2 => [rs1, rs2]
  | .and _ rs1 rs2 => [rs1, rs2]
  | .jal _ _ => []
  | .jalr _ rs1 _ => [rs1]
  | .beq rs1 rs2 _ => [rs1, rs2]
  | .bne rs1 rs2 _ => [rs1, rs2]
  | .blt rs1 rs2 _ => [rs1, rs2]
  | .bge rs1 rs2 _ => [rs1, rs2]
  | .bltu rs1 rs2 _ => [rs1, rs2]
  | .bgeu rs1 rs2 _ => [rs1, rs2]
  | .lb _ rs1 _ => [rs1]
  | .lh _ rs1 _ => [rs1]
  | .lw _ rs1 _ => [rs1]
  | .lbu _ rs1 _ => [rs1]
  | .lhu _ rs1 _ => [rs1]
  | .sb rs1 rs2 _ => [rs1, rs2]
  | .sh rs1 rs2 _ => [rs1, rs2]
  | .sw rs1 rs2 _ => [rs1, rs2]
  | .fence _ _ _ _ _ => []
  | .fenceI _ _ _ => []
  | .ecall => []
  | .ebreak => []
  | .mret => []
  | .wfi => []
  | .dret => []
  | .mul _ rs1 rs2 => [rs1, rs2]
  | .mulh _ rs1 rs2 => [rs1, rs2]
  | .mulhsu _ rs1 rs2 => [rs1, rs2]
  | .mulhu _ rs1 rs2 => [rs1, rs2]
  | .div _ rs1 rs2 => [rs1, rs2]
  | .divu _ rs1 rs2 => [rs1, rs2]
  | .rem _ rs1 rs2 => [rs1, rs2]
  | .remu _ rs1 rs2 => [rs1, rs2]
  | .lrW _ rs1 _ _ => [rs1]
  | .scW _ rs1 rs2 _ _ => [rs1, rs2]
  | .amoswapW _ rs1 rs2 _ _ => [rs1, rs2]
  | .amoaddW _ rs1 rs2 _ _ => [rs1, rs2]
  | .amoxorW _ rs1 rs2 _ _ => [rs1, rs2]
  | .amoandW _ rs1 rs2 _ _ => [rs1, rs2]
  | .amoorW _ rs1 rs2 _ _ => [rs1, rs2]
  | .amominW _ rs1 rs2 _ _ => [rs1, rs2]
  | .amomaxW _ rs1 rs2 _ _ => [rs1, rs2]
  | .amominuW _ rs1 rs2 _ _ => [rs1, rs2]
  | .amomaxuW _ rs1 rs2 _ _ => [rs1, rs2]
  | .csrrw _ rs1 _ => [rs1]
  | .csrrs _ rs1 _ => [rs1]
  | .csrrc _ rs1 _ => [rs1]
  | .csrrwi _ _ _ => []
  | .csrrsi _ _ _ => []
  | .csrrci _ _ _ => []
  | .cAddi4spn _ _ => [2]
  | .cLw _ rs1 _ => [xreg rs1]
  | .cSw rs1 rs2 _ => [xreg rs1, xreg rs2]
  | .cNop _ => []
  | .cAddi rd _ => [rd]
  | .cJal _ => []
  | .cLi _ _ => []
  | .cAddi16sp _ => [2]
  | .cLui _ _ => []
  | .cSrli rd _ => [xreg rd]
  | .cSrai rd _ => [xreg rd]
  | .cAndi rd _ => [xreg rd]
  | .cSub rd rs2 => [xreg rd, xreg rs2]
  | .cXor rd rs2 => [xreg rd, xreg rs2]
  | .cOr rd rs2 => [xreg rd, xreg rs2]
  | .cAnd rd rs2 => [xreg rd, xreg rs2]
  | .cJ _ => []
  | .cBeqz rs1 _ => [xreg rs1]
  | .cBnez rs1 _ => [xreg rs1]
  | .cSlli rd _ => [rd]
  | .cLwsp _ _ => [2]
  | .cJr rs1 => [rs1]
  | .cMv _ rs2 => [rs2]
  | .cEbreak => []
  | .cJalr rs1 => [rs1]
  | .cAdd rd rs2 => [rd, rs2]
  | .cSwsp rs2 _ => [rs2, 2]

/-- The effective address `x[rs1] + sext(imm)` (R171). -/
def State.effAddr (s : State) (rs1 : Reg) (imm : BitVec 12) : Word := s.reg rs1 + sext imm

/-- A loaded value extended to 32 bits: `sext_8` or `sext_16` of a signed byte or half word, else as it is (R351 to
R355). -/
def extendLoad (n : Nat) (signed : Bool) (v : Word) : Word :=
  match n, signed with
  | 1, true => sext (v.extractLsb' 0 8)
  | 2, true => sext (v.extractLsb' 0 16)
  | _, _ => v

/-- Byte `i` of a word, byte 0 the least significant (R170). -/
def byteOf (w : Word) (i : Nat) : Byte := w.extractLsb' (8 * i) 8

/-- The low `n` bytes of a word in memory order (R170). -/
def bytesOf (w : Word) (n : Nat) : List Byte := (List.range n).map (byteOf w)

/-- The word whose low bytes are these, in memory order, the rest 0 (R170). -/
def wordOf : List Byte → Word
  | [] => 0
  | b :: bs => (wordOf bs <<< 8) ||| b.zeroExtend 32

end Sys2Proof.Machine
end

