-- ==== Sys2Proof/Machine/CoreLocal.lean ====
section
/-! DEFINITION. ICCM and DCCM: bytes, words, error statuses, the store queues (R229, R235 to R240). -/

namespace Sys2Proof.Machine

/-- A byte of a memory; an unlisted address reads 0 (log 6). -/
def readByte (m : Memory) (a : Nat) : Byte := mapGet 0 m a

/-- Write a byte of a memory, keeping the canonical form. -/
def writeByte (m : Memory) (a : Nat) (b : Byte) : Memory := mapSet 0 m a b

/-- Write consecutive bytes from `a`. -/
def writeBytes (m : Memory) (a : Nat) : List Byte → Memory
  | [] => m
  | b :: bs => writeBytes (writeByte m a b) (a + 1) bs

/-- The bytes at `a .. a + n - 1`. -/
def readBytes (m : Memory) (a n : Nat) : List Byte := (List.range n).map (fun i => readByte m (a + i))

/-- The canonical form of a memory. -/
def Memory.wf (m : Memory) : Bool := mapWf 0 m

/-- The status of word `i` (byte address / 4). -/
def CoreMem.status (m : CoreMem) (i : Nat) : EccStatus := mapGet .unknown m.ecc i

/-- Set the status of word `i`. -/
def CoreMem.setStatus (m : CoreMem) (i : Nat) (e : EccStatus) : CoreMem :=
  { m with ecc := mapSet .unknown m.ecc i e }

/-- The stored bytes of word `i`. -/
def CoreMem.word (m : CoreMem) (i : Nat) : Word := wordOf (readBytes m.cells (4 * i) 4)

/-- Store all four bytes of word `i`. -/
def CoreMem.setWord (m : CoreMem) (i : Nat) (w : Word) : CoreMem :=
  { m with cells := writeBytes m.cells (4 * i) (bytesOf w 4) }

/-- Both parts are in canonical form. -/
def CoreMem.wf (m : CoreMem) : Bool := mapWf 0 m.cells && mapWf .unknown m.ecc

/-- The errors a written word may have (R235). -/
inductive WordError where
  | none
  | single
  | double
deriving DecidableEq, Repr

/-- The error of a word, by its status. -/
def EccStatus.error : EccStatus → WordError
  | .unknown => .none
  | .settled => .none
  | .fresh _ => .none
  | .freshSingle _ => .single
  | .freshDouble _ => .double
  | .ok => .none
  | .single => .single
  | .double => .double

/-- The hart that initialised a word since its last `fence`, if one did (R239). -/
def EccStatus.owner : EccStatus → Option HartId
  | .fresh h => some h
  | .freshSingle h => some h
  | .freshDouble h => some h
  | .unknown => Option.none
  | .settled => Option.none
  | .ok => Option.none
  | .single => Option.none
  | .double => Option.none

/-- No store and no DMA write has initialised the word (R239). -/
def EccStatus.uninitialised : EccStatus → Bool
  | .unknown => true
  | .settled => true
  | .fresh _ => false
  | .freshSingle _ => false
  | .freshDouble _ => false
  | .ok => false
  | .single => false
  | .double => false

/-- The status with another error; a word that was only written back is, with an error, as one never written (DESIGN CHOICE,
log 7). -/
def EccStatus.withError (st : EccStatus) (e : WordError) : EccStatus :=
  match st.uninitialised, st.owner, e with
  | true, _, .none => .settled
  | true, _, .single => .unknown
  | true, _, .double => .unknown
  | false, some h, .none => .fresh h
  | false, some h, .single => .freshSingle h
  | false, some h, .double => .freshDouble h
  | false, Option.none, .none => .ok
  | false, Option.none, .single => .single
  | false, Option.none, .double => .double

/-- Read word `i`: by a hart (`reader`) or, for `none`, by DMA. With `cecd` nothing is checked and a word in error has
arbitrary data (R235, U5). A word never written behaves as the environment chooses (R239, U6, log 7). A word this hart
initialised since its last `fence` reads arbitrary data, and so does one that its store in the store queue (`queued`) is to
initialise (R239). -/
def CoreMem.readWord (m : CoreMem) (cecd : Bool) (reader : Option HartId) (queued : Bool) (draw i : Nat) : WordRead :=
  let free := Config.freeWord draw i
  match m.status i with
  | .unknown =>
    let c := Config.freeCount draw i % 3
    if cecd || c = 0 then { bad := false, data := free, fixed := false, arbitrary := true, uninit := true }
    else if c = 1 then { bad := false, data := free, fixed := true, arbitrary := true, uninit := true }
    else { bad := true, data := m.word i, fixed := false, arbitrary := false, uninit := true }
  | st =>
    let own := reader.isSome && st.owner == reader || queued && st.uninitialised
    let data := if own then free else m.word i
    match st.error with
    | .none => { bad := false, data := data, fixed := false, arbitrary := own, uninit := own }
    | .single =>
      if cecd then { bad := false, data := free, fixed := false, arbitrary := true, uninit := own }
      else { bad := false, data := data, fixed := true, arbitrary := own, uninit := own }
    | .double =>
      if cecd then { bad := false, data := free, fixed := false, arbitrary := true, uninit := own }
      else { bad := true, data := data, fixed := false, arbitrary := own, uninit := own }

/-- The words `i` that bytes `a .. a + n - 1` touch. -/
def touchedWords (a : Word) (n : Nat) : List Nat :=
  let i := a.toNat / 4
  let j := (a.toNat + n - 1) / 4
  if i = j then [i] else [i, j]

/-- Write back a corrected word: a word never written gets the data it was read as, but is not initialised by that
(R236, R237, R239). A word that has no
single-bit error any more, where it was read ahead, stays as it is (DESIGN CHOICE, log 10). -/
def CoreMem.repair (m : CoreMem) (i : Nat) (r : WordRead) : CoreMem :=
  if r.fixed then
    match m.status i with
    | .unknown => (m.setWord i r.data).setStatus i .settled
    | st => if st.error = .single then m.setStatus i (st.withError .none) else m
  else m

/-- What a read-modify-write leaves in the array before its new bytes: the word as read, with its check bits
(R239, R240). A word the reader initialised since its `fence` stays so: the read half finds arbitrary data there, as a load
does, and leaves it in the array, so that the word's other bytes are arbitrary for every reader from then on, after the
`fence` too (DESIGN CHOICE: R239 names only a load; log 7). -/
def CoreMem.settleForWrite (m : CoreMem) (i : Nat) (r : WordRead) : CoreMem :=
  let n := if r.arbitrary then m.setWord i r.data else m
  match m.status i with
  | .unknown => n.setStatus i .settled
  | st => if st.error = .none then n else n.setStatus i (st.withError .none)

/-- The status of a word after all its bytes are written by hart `h`, which initialises it if nothing has (R239). -/
def statusAfterFullWrite (h : HartId) (st : EccStatus) : EccStatus :=
  if st.uninitialised then .fresh h else st.withError .none

/-- The status of a word after hart `h` has stored part of it, which initialises it if the read half has written it back and
nothing else has written it (R239, R240). -/
def statusAfterPartWrite (h : HartId) (st : EccStatus) : EccStatus := if st = .settled then .fresh h else st

/-- The status of a word after a `fence` of hart `h`: what it initialised is initialised (R239). -/
def EccStatus.afterFence (st : EccStatus) (h : HartId) : EccStatus :=
  if st.owner = some h then
    match st.error with
    | .none => .ok
    | .single => .single
    | .double => .double
  else st

/-- The statuses after a `fence` of hart `h` (R239). -/
def CoreMem.fenced (m : CoreMem) (h : HartId) : CoreMem :=
  { m with ecc := m.ecc.map (fun p => (p.1, p.2.afterFence h)) }

/-- `mfdc` as an agent finds it: the register, or, where no `fence.i` has followed a write, an earlier value, freely
(R772, U13). `who` is a hart; DMA may find what either hart may. -/
def State.mfdcFor (s : State) (who : Option HartId) : Word :=
  pickOld s.draws 1 ((s.sh.mfdcOld.filter (fun p => who.isNone || who == some p.1)).map (·.2)) s.sh.mfdc

/-- `mrac` as a data access of hart `h` finds it: the register, or, where no `fence` has followed a write, an earlier
value, freely (R771, U13). -/
def State.mracFor (s : State) (h : HartId) : Word :=
  pickOld s.draws 2 ((s.sh.mracOld.filter (fun p => p.1 == h)).map (·.2)) s.sh.mrac

/-- `mrac` for the executing hart's data accesses. -/
def State.dataMrac (s : State) : Word := s.mracFor s.cur

/-- `mfdc.cecd` as an agent finds it (R130). -/
def State.cecd (s : State) (who : Option HartId) : Bool := (s.mfdcFor who).getLsbD 8

/-- An error counter after one more error: `count` wraps in 27 bits, `thresh` stays (R105 to R107). -/
def bumpErrorCounter (v : Word) : Word := (v &&& 0xF8000000#32) ||| ((v + 1) &&& 0x07FFFFFF#32)

/-- An error counter after `n` more errors. -/
def bumpErrorCounterBy : Nat → Word → Word
  | 0, v => v
  | n + 1, v => bumpErrorCounterBy n (bumpErrorCounter v)

/-! ## Bytes read before they are used -/

/-- A byte of a line. -/
def CacheLine.byteAt (l : CacheLine) (a : Nat) : Option Byte :=
  if l.base ≤ a then l.bytes[a - l.base]? else none

/-- The byte the first line that covers `a` holds. -/
def lineByte (a : Nat) : List CacheLine → Option Byte
  | [] => none
  | l :: ls =>
    match l.byteAt a with
    | some b => some b
    | none => lineByte a ls

/-- Bytes from `a` on, those the lines hold replaced by what the lines hold (R195). -/
def overlay (ls : List CacheLine) (a : Nat) : List Byte → List Byte
  | [] => []
  | b :: bs => (lineByte a ls).getD b :: overlay ls (a + 1) bs

/-! ## The DCCM as the harts read and write it -/

/-- The byte at `b` if the entry stores it. -/
def SqEntry.byteAt (e : SqEntry) (b : Nat) : Option Byte :=
  if e.addr.toNat ≤ b then e.data[b - e.addr.toNat]? else none

/-- The youngest queued byte at `b` (R229). -/
def sqLookup (b : Nat) : List SqEntry → Option Byte
  | [] => none
  | e :: q =>
    match sqLookup b q with
    | some v => some v
    | none => e.byteAt b

/-- Byte `b` as hart-side data: queued, else the array; a word that is uninitialised for the hart is arbitrary throughout
(R229, R239). -/
def dccmByte (sq : List SqEntry) (r : WordRead) (b : Nat) : Byte :=
  if r.uninit then byteOf r.data (b % 4)
  else
    match sqLookup b sq with
    | some v => v
    | none => byteOf r.data (b % 4)

/-- The size of the largest naturally aligned access at `a` of at most `n` bytes: 4, 2 or 1. -/
def partSize (a n : Nat) : Nat := if a % 4 = 0 ∧ 4 ≤ n then 4 else if a % 2 = 0 ∧ 2 ≤ n then 2 else 1

/-- Naturally aligned accesses, at most `fuel` of them, that cover `n` bytes at `a`, lowest first. -/
def partsFrom : Nat → Nat → Nat → List (Nat × Nat)
  | 0, _, _ => []
  | fuel + 1, a, n =>
    if n = 0 then [] else (a, partSize a n) :: partsFrom fuel (a + partSize a n) (n - partSize a n)

/-- The parts of an access to `n` bytes at `a`: where each begins, and its size. An aligned access is one part; a misaligned
one is several naturally aligned, independent accesses (R173, R195, D3; which ones: DESIGN CHOICE, log 10). -/
def parts (a n : Nat) : List (Nat × Nat) := partsFrom n a n

/-- What was read ahead of the parts of a misaligned load of `n` bytes at `a` (R195). -/
def aheadOf (ahead : List AheadPart) (a n : Nat) : List AheadPart :=
  ahead.filter (fun p => decide (p.line.bytes.length < n) && (parts a n).contains (p.line.base, p.line.bytes.length))

/-- Two reads of one word by parts of one load: an error if either found one, corrected if either was; the data is the
first one's. -/
def WordRead.merge (r q : WordRead) : WordRead := { r with bad := r.bad || q.bad, fixed := r.fixed || q.fixed }

/-- What the parts in word `i` that were read ahead found. -/
def wordsAhead (ps : List AheadPart) (i : Nat) : List WordRead :=
  (ps.filter (fun p => decide (p.line.base / 4 = i))).filterMap (·.word)

/-- Every byte of `n` at `a` that lies in word `i` was read ahead. -/
def coveredAhead (ps : List AheadPart) (a n i : Nat) : Bool :=
  (List.range n).all (fun k => decide ((a + k) / 4 ≠ i) || (lineByte (a + k) (ps.map (·.line))).isSome)

/-- What the words of a load of `n` bytes at `a` read as: what its parts read ahead found, with what the load's own step
finds (`rs`) for a word of which it still reads a byte (R195, R236). -/
def withAhead (ps : List AheadPart) (a n : Nat) (rs : List (Nat × WordRead)) : List (Nat × WordRead) :=
  rs.map (fun p => (p.1,
    match wordsAhead ps p.1 with
    | [] => p.2
    | q :: qs => if coveredAhead ps a n p.1 then qs.foldl WordRead.merge q else (q :: qs).foldl WordRead.merge p.2))

/-- A store of the hart to word `i` waits in its store queue (R229). -/
def Hart.storeQueued (h : Hart) (i : Nat) : Bool := h.buf.sq.any (fun e => decide (e.addr.toNat / 4 = i))

/-- What hart `h` finds when it reads word `i` of the DCCM (R235 to R239). -/
def State.readDccm (s : State) (h : HartId) (i : Nat) : WordRead :=
  s.sh.dccm.readWord (s.cecd (some h)) (some h) ((s.hart h).storeQueued i) s.draws i

/-- What the executing hart finds when it reads the words of an access. -/
def dccmReads (s : State) (a : Word) (n : Nat) : List (Nat × WordRead) :=
  (touchedWords a n).map (fun i => (i, s.readDccm s.cur i))

/-- How many corrected words. -/
def countFixed (rs : List (Nat × WordRead)) : Nat := rs.countP (·.2.fixed)

/-- Apply the corrections of a load: write back and count (R236). -/
def repairDccm (s : State) (rs : List (Nat × WordRead)) : State :=
  { s with sh := { s.sh with
      dccm := rs.foldl (fun m p => m.repair p.1 p.2) s.sh.dccm
      mdccmect := bumpErrorCounterBy (countFixed rs) s.sh.mdccmect } }

/-- Apply the read half of a read-modify-write: the words as read, corrections counted (R236, R240). -/
def settleDccm (s : State) (rs : List (Nat × WordRead)) : State :=
  { s with sh := { s.sh with
      dccm := rs.foldl (fun m p => m.settleForWrite p.1 p.2) s.sh.dccm
      mdccmect := bumpErrorCounterBy (countFixed rs) s.sh.mdccmect } }

/-- The bytes of a DCCM load of the executing hart, given what its words read as. -/
def dccmLoadBytes (s : State) (rs : List (Nat × WordRead)) (a : Word) (n : Nat) : List Byte :=
  (List.range n).map (fun k =>
    let b := a.toNat + k
    match rs.find? (fun p => p.1 = b / 4) with
    | some p => dccmByte s.me.buf.sq p.2 b
    | none => 0)

/-- The parts of a store with their bytes, lowest first (R173, R195; their order: DESIGN CHOICE, log 10). -/
def splitStore (a : Word) (data : List Byte) : List (Word × List Byte) :=
  (parts a.toNat data.length).map (fun p =>
    (a + BitVec.ofNat 32 (p.1 - a.toNat), (data.drop (p.1 - a.toNat)).take p.2))

/-- Append a store to a hart's store queue, a misaligned one part by part (R173, R195, R229). -/
def Hart.pushSq (h : Hart) (a : Word) (data : List Byte) : Hart :=
  { h with buf := { h.buf with sq := h.buf.sq ++ (splitStore a data).map (fun p => { addr := p.1, data := p.2 }) } }

/-- Clear a reservation on the word of `a` (R413). -/
def Hart.clearResAt (h : Hart) (a : Nat) : Hart :=
  match h.res with
  | some r => if r.toNat / 4 = a / 4 then { h with res := none } else h
  | none => h

/-- A queued store reaches the DCCM array, clearing the other hart's reservation on its word (R229, R239, R413). A store of a
whole word sets the word's error status here and not before: until it leaves the queue its own hart's loads find the
status the word had (DESIGN CHOICE: R229 and R239 do not say when; log 11). A word that nothing has initialised is from
here on this hart's, until its `fence` (R239). -/
def writeSqEntry (s : State) (i : HartId) (e : SqEntry) : State :=
  let w := e.addr.toNat / 4
  let m := { s.sh.dccm with cells := writeBytes s.sh.dccm.cells e.addr.toNat e.data }
  let m := m.setStatus w
    (if e.data.length = 4 then statusAfterFullWrite i (m.status w) else statusAfterPartWrite i (m.status w))
  ({ s with sh := { s.sh with dccm := m } }).setHart i.other ((s.hart i.other).clearResAt e.addr.toNat)

/-- Replace the store queue of a hart. -/
def State.setSq (s : State) (i : HartId) (q : List SqEntry) : State :=
  s.setHart i { s.hart i with buf := { (s.hart i).buf with sq := q } }

/-- The oldest store of the queue reaches the array (R229). -/
def drainSqOne (s : State) (i : HartId) : State :=
  match (s.hart i).buf.sq with
  | [] => s
  | e :: q => writeSqEntry (s.setSq i q) i e

/-- The whole store queue drains, oldest first (R229). -/
def drainSqAll (s : State) (i : HartId) : State :=
  (s.hart i).buf.sq.foldl (fun t e => writeSqEntry t i e) (s.setSq i [])

end Sys2Proof.Machine
end

