-- ==== Sys2Proof/Machine/Bus.lean ====
section
/-! DEFINITION. The system bus as the LSU sees it: the SoC oracle, the write buffer, loads, bus errors and the fence
(R215, R220 to R228, R234, R562). -/

namespace Sys2Proof.Machine

/-- What answers a bus address; an address in no range answers with an error (R12, R215, log 8). -/
def socKind : List SocRange → Nat → SocKind
  | [], _ => .error
  | r :: m, a => if r.base ≤ a ∧ a < r.base + r.size then r.kind else socKind m a

/-- Whether a transaction at `a` is answered with an error: never by memory, always where nothing answers, as it pleases
by a device. -/
def busError (s : State) (a : Nat) : Bool :=
  match socKind s.sh.soc a with
  | .memory => false
  | .device => Config.freeBool s.draws a
  | .error => true

/-- Whether a transaction for `n` bytes at `a` is answered with an error: if one of its bytes is. -/
def busErrorIn (s : State) (a n : Nat) : Bool := (List.range n).any (fun k => busError s (a + k))

/-- The byte a bus read returns: memory its content, anything else an arbitrary byte (R215, R227). -/
def busByte (s : State) (a : Nat) : Byte :=
  match socKind s.sh.soc a with
  | .memory => readByte s.sh.bus a
  | .device => Config.freeByte s.draws a
  | .error => Config.freeByte s.draws a

/-- `mfdc.sepd` as a hart finds it (R130, R223). -/
def State.sepd (s : State) (i : HartId) : Bool := (s.mfdcFor (some i)).getLsbD 6

/-- `mfdc.elfd` as a hart finds it (R130, R224). -/
def State.elfd (s : State) (i : HartId) : Bool := (s.mfdcFor (some i)).getLsbD 11

/-- `mfdc.wbcd` as a hart finds it (R130, R226). -/
def State.wbcd (s : State) (i : HartId) : Bool := (s.mfdcFor (some i)).getLsbD 2

/-! ## Responses -/

/-- A bus error reported to a hart: capture the address (bits 2:0 arbitrary, U28), lock, request the NMI; while locked
the error is gated (R102, R562). -/
def NmiState.capture (n : NmiState) (store : Bool) (addr : Word) (free : Word) : NmiState :=
  if n.locked then n
  else { n with
    mdseac := (addr &&& 0xFFFFFFF8#32) ||| (free &&& 7#32)
    locked := true
    store := n.store || store
    load := n.load || !store }

/-- A bus error of a transaction at `addr` is reported to hart `i`. -/
def reportError (s : State) (i : HartId) (store : Bool) (addr : Word) : State :=
  (s.setHart i { s.hart i with nmi := (s.hart i).nmi.capture store addr (Config.freeWord s.draws 0) }).draw

/-- The data of a load arrives at hart `i`: read now, but for the bytes read before; an error leaves the whole register
free, whatever the load's size; a register a later instruction has overwritten stays (R195, R227, R228, R562, U4). -/
def deliverLoad (s : State) (i : HartId) (a : Word) (p : PendingLoad) : State :=
  let write (t : State) (v : Word) : State := t.setHart i ((t.hart i).setReg p.rd v)
  match (List.range p.size).find? (fun k => busError s (a.toNat + k)) with
  | some k => write (reportError s i false (a + BitVec.ofNat 32 k)) (Config.freeWord s.draws 1)
  | none =>
    write s.draw
      (extendLoad p.size p.signed
        (wordOf (overlay p.got a.toNat ((List.range p.size).map (fun j => busByte s (a.toNat + j))))))

/-- A response arrives at hart `i`. -/
def deliver (s : State) (i : HartId) (r : BusResp) : State :=
  match r.load with
  | some p => deliverLoad s i r.addr p
  | none => if r.error then reportError s i r.store r.addr else s

/-- Replace the outstanding responses of a hart. -/
def State.setInflight (s : State) (i : HartId) (q : List BusResp) : State :=
  s.setHart i { s.hart i with buf := { (s.hart i).buf with inflight := q } }

/-- All outstanding responses of a hart arrive, oldest first (R234). -/
def deliverAll (s : State) (i : HartId) : State :=
  (s.hart i).buf.inflight.foldl (fun t r => deliver t i r) (s.setInflight i [])

/-- The outstanding responses of a hart that `sel` selects arrive, oldest first. -/
def deliverWhere (s : State) (i : HartId) (sel : BusResp → Bool) : State :=
  let q := (s.hart i).buf.inflight
  (q.filter sel).foldl (fun t r => deliver t i r) (s.setInflight i (q.filter (fun r => !sel r)))

/-- The bytes of `n` at `a` that lie in the aligned 8-byte blocks of `m` bytes at `b`: the first one's address, and how
many. -/
def inBlocks (b m a n : Nat) : Option (Nat × Nat) :=
  let lo := max a (b / 8 * 8)
  let hi := min (a + n) ((b + m - 1) / 8 * 8 + 8)
  if lo < hi then some (lo, hi - lo) else none

/-- The `m` bytes at `b`, if they are a part of an access to `n` bytes at `a` (R173, R195). -/
def asPart (b m a n : Nat) : Option (Nat × Nat) := if (parts a n).contains (b, m) then some (b, m) else none

/-- Which bytes a load that still waits is to read, where `which` says so of the access to `n` bytes at `a`. -/
def BusResp.toRead (r : BusResp) (which : Nat → Nat → Option (Nat × Nat)) : Option (Nat × Nat) :=
  match r.load with
  | some p => which r.addr.toNat p.size
  | none => none

/-- A load that still waits has read these bytes, as the bus has them now; bytes read before stay (R228). -/
def PendingLoad.readNow (p : PendingLoad) (s : State) (a n : Nat) : PendingLoad :=
  { p with got := p.got ++ [{ base := a, bytes := (List.range n).map (fun k => busByte s (a + k)) }] }

/-- A load that still waits reads the bytes `which` names; its register is written when its response arrives (R221,
R228). -/
def readOne (s : State) (i : HartId) (which : Nat → Nat → Option (Nat × Nat)) (r : BusResp) : State :=
  let put (t : State) (q : BusResp) : State := t.setInflight i ((t.hart i).buf.inflight ++ [q])
  match r.load, r.toRead which with
  | some p, some q => (put s { r with load := some (p.readNow s q.1 q.2) }).draw
  | _, _ => put s r

/-- The loads of a hart that still wait read the bytes `which` names, oldest first (R221, R228). -/
def readPending (s : State) (i : HartId) (which : Nat → Nat → Option (Nat × Nat)) : State :=
  let q := (s.hart i).buf.inflight
  if q.any (fun r => (r.toRead which).isSome) then q.foldl (fun t r => readOne t i which r) (s.setInflight i []) else s

/-- Before a further transaction for `n` bytes at `a` is issued: with `mfdc.sepd` a side-effect store blocks until its
response has arrived (R223); earlier loads of the same blocks, sent before it, read the bus before it does (R221; DESIGN
CHOICE, log 9). -/
def awaitEarlier (s : State) (i : HartId) (a n : Nat) : State :=
  let t :=
    if s.sepd i && (s.hart i).buf.inflight.any (fun r => r.store && r.sideEffect) then
      deliverWhere s i (fun r => r.store && r.sideEffect)
    else s
  readPending t i (inBlocks a n)

/-- What an instruction needs before it executes: every register it reads that a load still has to write (R228); `x0` is
never waited for. -/
def State.settle (s : State) (i : Instr) : State :=
  deliverWhere s s.cur (fun r =>
    match r.load with
    | some p => p.rd != 0 && (instrSources i).contains p.rd
    | none => false)

/-- A transaction of hart `i` becomes outstanding. -/
def issue (s : State) (i : HartId) (t : BusTxn) (r : BusResp) : State :=
  ({ s with sh := { s.sh with busLog := s.sh.busLog ++ [t] } }).setInflight i ((s.hart i).buf.inflight ++ [r])

/-! ## Writes -/

/-- The earlier values of bytes that an IFU read may still return after a write at `a` (R232): one more, unless the write
is ordered before later fetches (`ordered`, or by the SoC), which leaves none for its byte. -/
def noteOld (s : State) (a : Nat) (ordered : Bool) : List (Nat × Byte) :=
  if s.cfg.ifuOrdered || ordered then s.sh.ifuOld.filter (fun p => p.1 ≠ a)
  else s.sh.ifuOld ++ [(a, readByte s.sh.bus a)]

/-- One byte of a bus write reaches memory, if memory answers there (R215). -/
def busWriteByte (s : State) (ordered : Bool) (a : Nat) (b : Byte) : State :=
  match socKind s.sh.soc a with
  | .memory =>
    { s with sh := { s.sh with bus := writeByte s.sh.bus a b, ifuOld := noteOld s a ordered } }
  | .device => s
  | .error => s

/-- Consecutive bytes of a bus write reach memory. -/
def busWriteBytes (s : State) (ordered : Bool) (a : Nat) : List Byte → State
  | [] => s
  | b :: bs => busWriteBytes (busWriteByte s ordered a b) ordered (a + 1) bs

/-- Pair bytes with their addresses. -/
def addressed (a : Nat) : List Byte → List (Nat × Byte)
  | [] => []
  | b :: bs => (a, b) :: addressed (a + 1) bs

/-- The bus answers a store with an error: for one of its bytes. -/
def WbEntry.errs (e : WbEntry) (s : State) : Bool := busErrorIn s e.addr.toNat e.data.length

/-- A buffered store becomes one bus write (R220, R223). With `sepd` a side-effect store is ordered before later fetches
(R232). -/
def writeWbEntry (s : State) (i : HartId) (e : WbEntry) : State :=
  let s := awaitEarlier s i e.addr.toNat e.data.length
  let err := e.errs s
  let t : BusTxn :=
    { hart := i, write := true, addr := e.addr, size := e.data.length, data := addressed e.addr.toNat e.data }
  let s := issue s i t { store := true, addr := e.addr, error := err, sideEffect := e.sideEffect }
  (if err then s else busWriteBytes s (e.sideEffect && s.sepd i) e.addr.toNat e.data).draw

/-- Replace the write buffer of a hart. -/
def State.setWb (s : State) (i : HartId) (q : List WbEntry) : State :=
  s.setHart i { s.hart i with buf := { (s.hart i).buf with wb := q } }

/-- The whole write buffer drains, oldest first (R222, R224). -/
def drainWbAll (s : State) (i : HartId) : State :=
  (s.hart i).buf.wb.foldl (fun t e => writeWbEntry t i e) (s.setWb i [])

/-- Whether stores may leave as one transaction: coalescing enabled, no side effects, one aligned 8-byte block (R226). -/
def mergeable (s : State) (i : HartId) : List WbEntry → Bool
  | [] => false
  | e :: q => !s.wbcd i && (e :: q).all (fun x => !x.sideEffect && decide (x.addr.toNat / 8 = e.addr.toNat / 8))

/-- Override or append an addressed byte. -/
def putPair : List (Nat × Byte) → Nat × Byte → List (Nat × Byte)
  | [], p => [p]
  | q :: m, p => if q.1 = p.1 then p :: m else q :: putPair m p

/-- The bytes of stores by address, the youngest of each (R226). -/
def mergedBytes (es : List WbEntry) : List (Nat × Byte) :=
  (es.flatMap (fun e => addressed e.addr.toNat e.data)).foldl putPair []

/-- Merged stores become one byte-enabled write of their aligned 8-byte block; each store is answered as it would be
alone, so that memory does not see the merging (R226). -/
def writeMerged (s : State) (i : HartId) (base : Word) (es : List WbEntry) : State :=
  let s := awaitEarlier s i base.toNat 8
  let t : BusTxn := { hart := i, write := true, addr := base, size := 8, data := mergedBytes es }
  let u := issue s i t { store := true, addr := base, error := es.any (·.errs s), sideEffect := false }
  ((mergedBytes (es.filter (fun e => !e.errs s))).foldl (fun t p => busWriteByte t false p.1 p.2) u).draw

/-- The oldest stores leave the write buffer: the first `n + 1` as one transaction where they may merge, else the oldest
alone (R220, R226). -/
def drainWbSome (s : State) (i : HartId) (n : Nat) : State :=
  match (s.hart i).buf.wb with
  | [] => s
  | e :: q =>
    let es := (e :: q).take (n + 1)
    if 1 < es.length && mergeable s i es then
      writeMerged (s.setWb i ((e :: q).drop (n + 1))) i (e.addr &&& 0xFFFFFFF8#32) es
    else writeWbEntry (s.setWb i q) i e

/-- A store of the executing hart to the bus enters its write buffer, a misaligned one part by part; side-effect stores are
aligned and keep their exact size (R173, R195, R220, R223). -/
def busStore (s : State) (a : Word) (data : List Byte) : State :=
  let se := sideEffect s.dataMrac a
  let es := (splitStore a data).map (fun p => ({ addr := p.1, data := p.2, sideEffect := se } : WbEntry))
  s.setMe { s.me with buf := { s.me.buf with wb := s.me.buf.wb ++ es } }

/-! ## Fence -/

/-- The buffers of hart `i` drain: the write buffer to the bus, every response received, the store queue to the DCCM
(R229, R234, R700). -/
def drainHart (s : State) (i : HartId) : State := drainSqAll (deliverAll (drainWbAll s i) i) i

/-- What `fence` does on hart `i`: the write buffer drained and every response received, the store queue drained, the
words this hart initialised settled, updates of `mrac` in effect for its loads and stores (R100, R234, R239, R771). -/
def fenceHart (s : State) (i : HartId) : State :=
  let s := drainHart s i
  { s with sh := { s.sh with dccm := s.sh.dccm.fenced i, mracOld := s.sh.mracOld.filter (fun p => p.1 ≠ i) } }

/-! ## Loads -/

/-- The byte at `b` if the entry stores it. -/
def WbEntry.byteAt (e : WbEntry) (b : Nat) : Option Byte :=
  if e.addr.toNat ≤ b then e.data[b - e.addr.toNat]? else none

/-- The youngest buffered byte at `b` (R224). -/
def wbLookup (b : Nat) : List WbEntry → Option Byte
  | [] => none
  | e :: q =>
    match wbLookup b q with
    | some v => some v
    | none => e.byteAt b

/-- All bytes of an access, if the write buffer holds each of them (R224 case 1). -/
def forwarded (q : List WbEntry) (a : Nat) : Nat → Option (List Byte)
  | 0 => some []
  | n + 1 =>
    match wbLookup a q, forwarded q (a + 1) n with
    | some b, some bs => some (b :: bs)
    | _, _ => none

/-- Whether the write buffer holds some byte of the access (R224 case 2). -/
def partlyBuffered (q : List WbEntry) (a n : Nat) : Bool :=
  (List.range n).any (fun k => (wbLookup (a + k) q).isSome)

/-- A read transaction and the bytes of the load it is for: the first one's address, and how many. -/
structure LoadTxn where
  txn   : BusTxn
  first : Word
  count : Nat

/-- The transactions of a load: its exact size for a side-effect load, else the aligned 8-byte blocks (R222, R224). -/
def loadTxns (i : HartId) (a : Word) (n : Nat) (se : Bool) : List LoadTxn :=
  if se then [{ txn := { hart := i, write := false, addr := a, size := n, data := [] }, first := a, count := n }]
  else
    let b := a &&& 0xFFFFFFF8#32
    let k := 8 - a.toNat % 8
    let block (c : Word) : BusTxn := { hart := i, write := false, addr := c, size := 8, data := [] }
    if n ≤ k then [{ txn := block b, first := a, count := n }]
    else [{ txn := block b, first := a, count := k }, { txn := block (b + 8), first := b + 8, count := n - k }]

/-- The bus answers a read transaction with an error. -/
def LoadTxn.errs (p : LoadTxn) (s : State) : Bool := busErrorIn s p.first.toNat p.count

/-- One read transaction of hart `i` is issued; of one answered at once only an error response stays outstanding
(R227, log 9). -/
def issueLoad (s : State) (i : HartId) (p : LoadTxn) (err se : Bool) : State :=
  let s := awaitEarlier s i p.first.toNat p.count
  if err then issue s i p.txn { store := false, addr := p.first, error := true, sideEffect := se }
  else { s with sh := { s.sh with busLog := s.sh.busLog ++ [p.txn] } }

/-- What a bus load comes to: its bytes; any register value, where a transaction is answered with an error (U4); or, where
the SoC answers later, the state with its transactions issued. -/
inductive BusLoadResult where
  | bytes (bs : List Byte) (s : State)
  | failed (v : Word) (s : State)
  | later (s : State)

/-- The parts of a bus load of `n` bytes at `a` that were read ahead. -/
def Hart.busAhead (h : Hart) (a n : Nat) : List CacheLine := (aheadOf h.buf.ahead a n).map (·.line)

/-- A bus read of the executing hart: the value's bytes, those of the parts read ahead as they were read; any value of the
register if a transaction answers with an error (R195, R227, R562, U4); no value yet where the SoC answers later (R228).
A part read ahead is used also where the rest of the access drains the write buffer first (R224 case 2): the parts are
read independently (R173; DESIGN CHOICE, log 10). -/
def busRead (s : State) (a : Word) (n : Nat) (se : Bool) : BusLoadResult :=
  let txns := loadTxns s.cur a n se
  if s.me.buf.slowLoads then .later (txns.foldl (fun t p => issueLoad t s.cur p false se) s).draw
  else if txns.any (·.errs s) then
    .failed (Config.freeWord s.draws 2)
      (txns.foldl (fun t p => issueLoad t s.cur p (p.errs s) se) s).draw
  else
    .bytes (overlay (s.me.busAhead a.toNat n) a.toNat ((List.range n).map (fun k => busByte s (a.toNat + k))))
      (txns.foldl (fun t p => issueLoad t s.cur p false se) s).draw

/-- The bytes of `n` at `a` that an idempotent read of hart `i` gets from the write buffer: all of them on a full match,
unless `elfd` or a side-effect store holds one (R223, R224 case 1). -/
def forwardTo (s : State) (i : HartId) (a n : Nat) : Option (List Byte) :=
  let q := (s.hart i).buf.wb
  match forwarded q a n, s.elfd i || partlyBuffered (q.filter (·.sideEffect)) a n with
  | some bs, false => some bs
  | _, _ => none

/-- What an idempotent read of `n` bytes at `a` that is not forwarded does first: the write buffer drains if it holds some
byte (R224 cases 2 and 3). -/
def drainForRead (s : State) (i : HartId) (a n : Nat) : State :=
  if partlyBuffered (s.hart i).buf.wb a n then drainWbAll s i else s

/-- A load of the executing hart from the bus (R222, R224): a side-effect load drains the write buffer first; an
idempotent load forwards on a full match, drains on any other match, else passes the buffer. -/
def busLoad (s : State) (a : Word) (n : Nat) : BusLoadResult :=
  if sideEffect s.dataMrac a then busRead (drainWbAll s s.cur) a n true
  else
    match forwardTo s s.cur a.toNat n with
    | some bs => .bytes bs s
    | none => busRead (drainForRead s s.cur a.toNat n) a n false

/-- A load of the executing hart whose data comes later stays outstanding; an older load of the same register that still
waits no longer writes it (R228). -/
def deferLoad (s : State) (a : Word) (rd : Reg) (n : Nat) (signed se : Bool) : State :=
  s.setInflight s.cur ((s.me.buf.overwrite rd).inflight ++
    [{ store := false, addr := a, error := false, sideEffect := se,
       load := some { rd := rd, size := n, signed := signed, got := s.me.busAhead a.toNat n } }])

/-! ## A misaligned load read part by part (R173, R195) -/

/-- A part that hart `i` has read ahead. -/
def State.pushAhead (s : State) (i : HartId) (p : AheadPart) : State :=
  let h := s.hart i
  s.setHart i { h with buf := { h.buf with ahead := h.buf.ahead ++ [p] } }

/-- Hart `i` reads `n` bytes at `a`, inside one word of the DCCM: what the word reads as, an error included, is kept for
the load, which traps on it or counts its correction (R195, R229, R235, R236, R239). -/
def readAheadDccm (s : State) (i : HartId) (a n : Nat) : State :=
  let r := s.readDccm i (a / 4)
  let bs := (List.range n).map (fun k => dccmByte (s.hart i).buf.sq r (a + k))
  (s.pushAhead i { line := { base := a, bytes := bs }, word := some r }).draw

/-- Hart `i` reads `n` bytes at `a`, inside one aligned double word of bus memory without side effects: forwarded from its
write buffer, or read from the bus, by the cases of R224 for the part alone (R173, R195). -/
def readAheadBus (s : State) (i : HartId) (a n : Nat) : State :=
  match forwardTo s i a n with
  | some bs => s.pushAhead i { line := { base := a, bytes := bs }, word := none }
  | none =>
    let t := awaitEarlier (drainForRead s i a n) i a n
    let bs := (List.range n).map (fun k => busByte t (a + k))
    (t.pushAhead i { line := { base := a, bytes := bs }, word := none }).draw

/-- Running hart `i` reads a part of the load it is about to execute, naturally aligned, once: in the DCCM, or in bus
memory without side effects (R173, R195; DESIGN CHOICE, log 10). -/
def readAhead (s : State) (i : HartId) (a : Word) (n : Nat) : State :=
  let h := s.hart i
  let again := h.buf.ahead.any (fun p => decide (p.line.base = a.toNat))
  if h.activity = .running ∧ h.pwr.pausing = false ∧ partSize a.toNat n = n ∧ again = false then
    if inDccm s.cfg a then readAheadDccm s i a.toNat n
    else if !inPic s.cfg a && !sideEffect (s.mracFor i) a
        && (List.range n).all (fun k => socKind s.sh.soc (a.toNat + k) == .memory) then
      readAheadBus s i a.toNat n
    else s
  else s

end Sys2Proof.Machine
end

