-- ==== Sys2Proof/Machine/Debug.lean ====
section
/-! DEFINITION. Debug Mode entry and exit, and the triggers (R705 to R709, R716). -/

namespace Sys2Proof.Machine

/-- Replace the field of `v` at bits `lo + w - 1 .. lo`. -/
def putField {w : Nat} (v : Word) (lo : Nat) (f : BitVec w) : Word :=
  (v &&& ~~~((BitVec.allOnes w).zeroExtend 32 <<< lo)) ||| (f.zeroExtend 32 <<< lo)

/-- `dcsr.ebreakm` (R70). -/
def Hart.ebreakm (h : Hart) : Bool := h.dbg.dcsr.getLsbD 15

/-- `dcsr.stepie` (R70). -/
def Hart.stepie (h : Hart) : Bool := h.dbg.dcsr.getLsbD 11

/-- `dcsr.step` (R70). -/
def Hart.stepBit (h : Hart) : Bool := h.dbg.dcsr.getLsbD 2

/-- In Debug Mode: halted, or executing a single-stepped instruction (R705, R709). -/
def Hart.debugMode (h : Hart) : Bool := h.activity == .dbgHalt || h.dctl.stepping

/-- `mpc_debug_run_ack`: asserted while the request is and the hart runs, but not before `cpu_run_req` where a PMU halt was
pending; then held as long as the request, whatever the hart does (R707, R710). -/
def Hart.mpcRunAck (h : Hart) : Bool :=
  h.pins.mpcRunReq && (h.acks.mpcRun || (h.activity == .running && !h.dctl.stepping && !h.acks.runHeld))

/-- The hart becomes `db-halt`: `dpc` and `dcsr.cause` written, reservation cleared, the request bits of every side that
asks for the halt set (R705, R708); `debug_brkpt_status` stays through a single step (R706). `mpc`: the halt was asked for
by the MPC; an entry by a breakpoint or trigger sets Debug Halt (PRESUMED, log 19). Requests of the internal timers held
to this boundary stay held (DESIGN CHOICE, log 22). `mpc_debug_run_ack`, once asserted, is held (R707). -/
def Hart.haltForDebug (h : Hart) (cause : BitVec 3) (mpc : Bool) : Hart :=
  { h with
    activity := .dbgHalt
    res := none
    dbg := { h.dbg with dpc := evenPc h.pc, dcsr := putField h.dbg.dcsr 6 cause }
    dctl := { h.dctl with
      dbgHalt := h.dctl.dbgHalt || !mpc || h.dctl.pending.isSome
      mpcHalt := h.dctl.mpcHalt || mpc || h.pins.mpcHaltReq
      pending := none
      stepping := false
      brkpt := h.dctl.brkpt || decide (cause = 1) || decide (cause = 2) }
    acks := { h.acks with mpcRun := h.mpcRunAck } }

/-- Hart `i` is quiesced: its buffers drained, its instruction fetches finished (R229, R700). No `fence` is executed: a word
the hart initialised stays so (R239), and so do earlier values of `mrac` (R771). -/
def quiesce (s : State) (i : HartId) : State :=
  let t := drainHart s i
  t.setHart i { t.hart i with buf := { (t.hart i).buf with ifuBusy := false } }

/-- Entry to Debug Mode at an instruction boundary: the hart is quiesced first (R229, R700, R705). -/
def enterDebug (s : State) (i : HartId) (cause : BitVec 3) (mpc : Bool) : State :=
  let t := quiesce s i
  t.setHart i ((t.hart i).haltForDebug cause mpc)

/-- Bus transactions of the hart, its fetches among them, are not finished (R712). -/
def Hart.busBusy (h : Hart) : Bool := !h.buf.wb.isEmpty || !h.buf.inflight.isEmpty || h.buf.ifuBusy

/-- A breakpoint or trigger to Debug Mode (R706). With the timeout enabled and bus transactions unfinished the request
stays pending, and may be forced (R712); else the hart enters at once. In a single step the step's own entry has priority
(R704, log 20). -/
def requestDebug (s : State) (cause : BitVec 3) : State :=
  let h := s.me
  if h.dctl.stepping then s.setMe { h with dctl := { h.dctl with brkpt := true } }
  else if s.sh.mfdht.getLsbD 0 && h.busBusy then
    s.setMe { h with dctl := { h.dctl with pending := some (h.dctl.pending.getD cause) } }
  else enterDebug s s.cur cause false

/-- Exit from Debug Mode: `pc <- dpc`, the internal state bits and the timeout counter cleared (R705, R708, R122). With a
PMU halt request pending `mpc_debug_run_ack` waits for `cpu_run_req` (R707). -/
def Hart.leaveDebug (h : Hart) : Hart :=
  { h with
    activity := .running
    res := none
    pc := evenPc h.dbg.dpc
    dctl := { h.dctl with
      dbgHalt := false
      dbgResume := false
      mpcHalt := false
      mpcRun := false
      brkpt := false
      timeout := 0 }
    acks := { h.acks with runHeld := h.pins.cpuHaltReq } }

/-- Every side that halted the hart has released it (R708, Table 6-1). -/
def DebugCtl.released (d : DebugCtl) : Bool :=
  (d.dbgHalt || d.mpcHalt) && (!d.dbgHalt || d.dbgResume) && (!d.mpcHalt || d.mpcRun)

/-- Leave `db-halt` if every side has released the hart (R708). -/
def Hart.tryLeave (h : Hart) : Hart :=
  if h.activity = .dbgHalt ∧ h.dctl.released then h.leaveDebug else h

/-- Leave `db-halt` for one instruction; the timeout counter is cleared (R709, R122). -/
def Hart.beginStep (h : Hart) : Hart :=
  { h with
    activity := .running
    res := none
    pc := evenPc h.dbg.dpc
    dctl := { h.dctl with stepping := true, dbgResume := false, timeout := 0 } }

/-- A Debug Resume request: ignored unless the Debug Halt bit is set; with `dcsr.step` a single step, ignored between an
MPC halt and its run (R708, R709). -/
def Hart.resumeRequest (h : Hart) : Hart :=
  if h.activity = .dbgHalt ∧ h.dctl.dbgHalt then
    if h.stepBit then (if h.dctl.mpcHalt && !h.dctl.mpcRun then h else h.beginStep)
    else ({ h with dctl := { h.dctl with dbgResume := true } }).tryLeave
  else h

/-! ## Outputs of a hart to the PMU and the MPC (R701 to R707) -/

/-- `cpu_halt_ack` (R701, log 24). -/
def Hart.cpuHaltAck (h : Hart) : Bool := h.acks.cpuHalt

/-- `cpu_run_ack` (R702, log 24). -/
def Hart.cpuRunAck (h : Hart) : Bool := h.acks.cpuRun

/-- `cpu_halt_status` (R701). -/
def Hart.cpuHaltStatus (h : Hart) : Bool := h.activity == .sleep

/-- `debug_mode_status`: not low during a single step (R705, R709). -/
def Hart.debugModeStatus (h : Hart) : Bool := h.debugMode

/-- `debug_brkpt_status` (R706). -/
def Hart.debugBrkptStatus (h : Hart) : Bool := h.dctl.brkpt

/-- `mpc_debug_halt_ack`: held while the request is asserted and the hart is in `db-halt` (R707, R710). -/
def Hart.mpcHaltAck (h : Hart) : Bool := h.pins.mpcHaltReq && h.activity == .dbgHalt

/-! ## Triggers (R68, R69, R716; layout and data match PRESUMED, log 18) -/

/-- What a trigger may match: an instruction about to execute, or a load or store it is about to perform. -/
inductive TriggerEvent where
  | execute (pc : Word)
  | access (pc : Word) (load store : Bool) (a data : Word)
deriving DecidableEq, Repr

/-- `tdata1.action` = 1: enter Debug Mode. -/
def Trigger.toDebug (t : Trigger) : Bool := t.tdata1.extractLsb' 12 4 == 1#4

/-- `tdata1.chain`. -/
def Trigger.chain (t : Trigger) : Bool := t.tdata1.getLsbD 11

/-- `v` equals `tdata2`, or does outside the low bits below the lowest zero bit of `tdata2` with `match` = 1 (R716). -/
def Trigger.valueMatches (t : Trigger) (v : Word) : Bool :=
  let low := t.tdata2 &&& ~~~(t.tdata2 + 1)
  if t.tdata1.getLsbD 7 then decide (v ||| low = t.tdata2 ||| low) else decide (v = t.tdata2)

/-- The trigger matches the address of the instruction (R716). -/
def Trigger.matchesPc (t : Trigger) (pc : Word) : Bool :=
  t.tdata1.getLsbD 2 && !t.tdata1.getLsbD 19 && t.valueMatches pc

/-- The trigger matches the event; an access also matches where its instruction does, for a chain that asks for both
(R716). With `select` = 1 only the data of a store is compared. -/
def Trigger.matchesEvent (t : Trigger) (e : TriggerEvent) : Bool :=
  t.tdata1.getLsbD 6 &&
    match e with
    | .execute pc => t.matchesPc pc
    | .access pc load store a data =>
      t.matchesPc pc ||
        (if t.tdata1.getLsbD 19 then store && t.tdata1.getLsbD 1 && t.valueMatches data
         else ((load && t.tdata1.getLsbD 0) || (store && t.tdata1.getLsbD 1)) && t.valueMatches a)

/-- Which triggers fire: a chained trigger only if the next one also matches, the next one only if the chained one does;
one whose action is the breakpoint exception only if `mstatus.MIE` = 1 (R716, R532). `prev`: the trigger before is
chained and does not match. -/
def firing (e : TriggerEvent) (mie : Bool) : Bool → List Trigger → List Bool
  | _, [] => []
  | prev, t :: ts =>
    let m := t.matchesEvent e
    let next := match ts with
      | [] => false
      | u :: _ => u.matchesEvent e
    (m && !prev && (!t.chain || next) && (t.toDebug || mie)) :: firing e mie (t.chain && !m) ts

/-- Set `hit` on the triggers that fired (R716). -/
def markHits : List Trigger → List Bool → List Trigger
  | t :: ts, b :: bs => (if b then { t with tdata1 := putBit t.tdata1 20 true } else t) :: markHits ts bs
  | ts, _ => ts

/-- The triggers of the executing hart that fire at an event: whether one of them enters Debug Mode, and the state with
their `hit` bits set (R716). They do not act in `db-halt`. -/
def triggerHit (s : State) (e : TriggerEvent) : Option (Bool × State) :=
  let ts := s.me.dbg.triggers
  let f := firing e s.me.mie false ts
  if s.me.activity = .dbgHalt || !f.any id then none
  else
    some ((ts.zip f).any (fun p => p.2 && p.1.toDebug),
      s.setMe { s.me with dbg := { s.me.dbg with triggers := markHits ts f } })

/-- What triggers that fired do: entry to Debug Mode with cause 2, or exception 3 with `mscause` 1 (R532, R706). -/
def triggerEffect (toDebug : Bool) (s : State) : State :=
  if toDebug then requestDebug s 2 else s.raise 3 1 (policyTval s.cfg s.me.pc)

/-- What the triggers of the executing hart do at an event, before the instruction takes effect: nothing, entry to Debug
Mode, or the exception (R532, R706, R716). -/
def triggerAction (s : State) (e : TriggerEvent) : Option State :=
  match triggerHit s e with
  | some p => some (triggerEffect p.1 p.2)
  | none => none

end Sys2Proof.Machine
end

