-- ==== Sys2Proof/Machine/Pic.lean ====
section
/-! DEFINITION. The programmable interrupt controller: gateways, evaluation, memory-mapped registers, capture
(R600 to R651). -/

namespace Sys2Proof.Machine

/-- One source. -/
def Shared.source (c : Shared) (n : Nat) : PicSource := mapGet PicSource.initial c.sources n

/-- Replace one source. -/
def Shared.setSource (c : Shared) (n : Nat) (p : PicSource) : Shared :=
  { c with sources := mapSet PicSource.initial c.sources n p }

/-- Update one source. -/
def State.modSource (s : State) (n : Nat) (f : PicSource → PicSource) : State :=
  { s with sh := s.sh.setSource n (f (s.sh.source n)) }

/-- The gateway of source `n` is configurable (R605, R607). -/
def configurable (cfg : BuildConfig) (n : Nat) : Bool := !cfg.simpleGateways.contains n

/-- Source `n` exists (R601). -/
def sourceExists (cfg : BuildConfig) (n : Nat) : Bool := decide (1 ≤ n) && decide (n ≤ cfg.picTotalInt)

/-- The input made active-high (R606). -/
def PicSource.act (p : PicSource) : Bool := p.pin != p.low

/-- `req[S]`: the gateway's request (R605, R606). -/
def picReq (cfg : BuildConfig) (n : Nat) (p : PicSource) : Bool :=
  if configurable cfg n then (if p.edge then p.ip else p.act) else p.pin

/-- The pin of a source changes; an edge-type gateway latches a 0 to 1 transition (R606). -/
def PicSource.setPin (p : PicSource) (b : Bool) : PicSource :=
  let q := { p with pin := b }
  { q with ip := p.ip || (p.edge && !p.act && q.act) }

/-! ## Evaluation (R630 to R634) -/

/-- Source `n` is a candidate for the hart (R630). -/
def picCandidate (cfg : BuildConfig) (h : HartId) (n : Nat) (p : PicSource) : Bool :=
  sourceExists cfg n && picReq cfg n p && p.inten && decide (p.prio ≠ 0) && (p.del == decide (h = .t1))

/-- The winner so far against one more candidate of higher ID: the higher priority, the lower ID among equals (R631). -/
def picBetter (best : Nat × BitVec 4) (n : Nat) (p : PicSource) : Nat × BitVec 4 :=
  if best.2.toNat < p.prio.toNat then (n, p.prio) else best

/-- `winid` and `maxpri` of a hart; `(0, 0)` without a candidate (R631), and in a build without the PIC, where no source
wins while the PIC's CSRs stay as they are (DESIGN CHOICE, log 39). -/
def picWinner (cfg : BuildConfig) (c : Shared) (h : HartId) : Nat × BitVec 4 :=
  if cfg.pic.enable then
    c.sources.foldl (fun best e => if picCandidate cfg h e.1 e.2 then picBetter best e.1 e.2 else best) (0, 0)
  else (0, 0)

/-- `mexintirq[h]`: the maximum priority is above both thresholds (R632). -/
def mexintirq (s : State) (i : HartId) : Bool :=
  let m := (picWinner s.cfg s.sh i).2
  decide ((s.hart i).pic.prithresh.toNat < m.toNat) && decide ((s.hart i).pic.currpri.toNat < m.toNat)

/-- `mexintirq[h]` as the next interrupt finds it: after a write of `meipt` or `meicurpl` with interrupts enabled, under the
old or the new value, freely (R775, U14). -/
def lateExtirq (s : State) (i : HartId) : Bool :=
  let h := s.hart i
  let m := (picWinner s.cfg s.sh i).2
  decide ((pickOld s.draws 4 h.late.prithresh h.pic.prithresh).toNat < m.toNat)
    && decide ((pickOld s.draws 5 h.late.currpri h.pic.currpri).toNat < m.toNat)

/-- `mhwakeup[h]`: the maximum priority is 15 (R634). -/
def mhwakeup (s : State) (i : HartId) : Bool := (picWinner s.cfg s.sh i).2 == 15#4

/-- The claim: winner's ID and priority are captured (R640). -/
def capture (s : State) (i : HartId) : State :=
  let w := picWinner s.cfg s.sh i
  s.setHart i { s.hart i with
    pic := { (s.hart i).pic with claimid := BitVec.ofNat 8 w.1, clidpri := w.2 } }

/-- A priority field as firmware reads or writes it: inverted in reverse order (R602). -/
def priorityView (priord : Bool) (p : BitVec 4) : BitVec 4 := if priord then ~~~p else p

/-! ## Memory-mapped registers (R610 to R617) -/

/-- The registers of the block. -/
inductive PicReg where
  | mpiccfg
  | meipl (n : Nat)
  | meip (x : Nat)
  | meitp (x : Nat)
  | meie (n : Nat)
  | meigwctrl (n : Nat)
  | meigwclr (n : Nat)
  | meidel (n : Nat)
  | unused
deriving DecidableEq, Repr

/-- Which register stands at an offset of the block (R610, R611). -/
def picRegAt (cfg : BuildConfig) (off : Nat) : PicReg :=
  let n := off % 0x1000 / 4
  match off / 0x1000 with
  | 0 => if sourceExists cfg n then .meipl n else .unused
  | 1 =>
    if n ≤ cfg.picTotalInt / 32 then .meip n
    else if 0x200 ≤ n ∧ n - 0x200 ≤ cfg.picTotalInt / 32 ∧ cfg.dualThread then .meitp (n - 0x200)
    else .unused
  | 2 => if sourceExists cfg n then .meie n else .unused
  | 3 => if n = 0 then .mpiccfg else .unused
  | 4 => if sourceExists cfg n && configurable cfg n then .meigwctrl n else .unused
  | 5 => if sourceExists cfg n && configurable cfg n then .meigwclr n else .unused
  | 6 => if sourceExists cfg n && cfg.dualThread then .meidel n else .unused
  | _ => .unused

/-- The pending bits of a word of 32 sources, those a predicate keeps (R614, R615). -/
def pendingWord (s : State) (x : Nat) (keep : PicSource → Bool) : Word :=
  (List.range 32).foldl
    (fun v y =>
      let n := 32 * x + y
      let p := s.sh.source n
      putBit v y (sourceExists s.cfg n && picReq s.cfg n p && keep p)) 0

/-- What the executing hart reads from a register of the block (R611 to R617). -/
def picLoadReg (s : State) (r : PicReg) : Word :=
  match r with
  | .mpiccfg => if s.sh.priord then 1 else 0
  | .meipl n => zext (priorityView s.sh.priord (s.sh.source n).prio)
  | .meip x => pendingWord s x (fun _ => true)
  | .meitp x => pendingWord s x (fun p => p.del == decide (s.cur = .t1))
  | .meie n => if (s.sh.source n).inten then 1 else 0
  | .meigwctrl n => putBit (putBit 0 0 (s.sh.source n).low) 1 (s.sh.source n).edge
  | .meigwclr _ => 0
  | .meidel n => if (s.sh.source n).del then 1 else 0
  | .unused => 0

/-- The register at an address of the block. -/
def picRegOf (cfg : BuildConfig) (a : Word) : PicReg := picRegAt cfg (a.toNat - Placement.base cfg.pic)

/-- A word load from the block by the executing hart (R610, R611). -/
def picLoad (s : State) (a : Word) : Word := picLoadReg s (picRegOf s.cfg a)

/-- A write of a register of the block (R611 to R617). After a write to `meigwctrlS` the IP flop is arbitrary
(R606, U16). -/
def picStoreReg (s : State) (r : PicReg) (v : Word) : State :=
  match r with
  | .mpiccfg => { s with sh := { s.sh with priord := v.getLsbD 0 } }
  | .meipl n =>
    s.modSource n (fun p => { p with prio := priorityView s.sh.priord (v.extractLsb' 0 4) })
  | .meip _ => s
  | .meitp _ => s
  | .meie n => s.modSource n (fun p => { p with inten := v.getLsbD 0 })
  | .meigwctrl n =>
    (s.modSource n (fun p =>
      { p with low := v.getLsbD 0, edge := v.getLsbD 1, ip := Config.freeBool s.draws n })).draw
  | .meigwclr n => s.modSource n (fun p => { p with ip := false })
  | .meidel n => s.modSource n (fun p => { p with del := v.getLsbD 0 })
  | .unused => s

/-- A word store to the block (R610, R611). -/
def picStore (s : State) (a v : Word) : State := picStoreReg s (picRegOf s.cfg a) v

end Sys2Proof.Machine
end

