-- ==== Sys2Proof/Machine/Access.lean ====
section
/-! DEFINITION. Data accesses of the executing hart: the checks of R193, loads, stores and atomic accesses. -/

namespace Sys2Proof.Machine

/-- The causes an access reports: address misaligned, access fault (R193). -/
structure AccessCauses where
  misaligned : Word
  fault      : Word
deriving DecidableEq, Repr

/-- Loads and `lr.w`. -/
def loadCauses : AccessCauses := { misaligned := 4, fault := 5 }

/-- Stores and `sc.w`. -/
def storeCauses : AccessCauses := { misaligned := 6, fault := 7 }

/-- `amo*.w` (R196, D7). -/
def amoCauses (c : BuildConfig) : AccessCauses :=
  match c.amoFaultKind with
  | .load => { misaligned := 6, fault := 5 }
  | .store => { misaligned := 6, fault := 7 }

/-- Steps 1 to 5 of R193 for `n` bytes at `a`, reached from the base register value `base`: the exception's cause and
secondary cause, if any. -/
def addressCheck (c : BuildConfig) (mrac : Word) (k : AccessCauses) (base a : Word) (n : Nat) :
    Option (Word × BitVec 4) :=
  let e := a + BitVec.ofNat 32 (n - 1)
  if 2 ^ 32 ≤ a.toNat + n - 1 ∨ regionOf e ≠ regionOf a then some (k.misaligned, 2)
  else if !dlocalRegion c a && sideEffect mrac a && decide (a.toNat % n ≠ 0) then some (k.misaligned, 1)
  else if dlocalRegion c a && !(inDccm c a && inDccm c e) && !(inPic c a && inPic c e) then some (k.fault, 2)
  else if !dlocalRegion c a && !(dataOk c a && dataOk c e) then some (k.fault, 3)
  else if predictLocal c base != predictLocal c a then some (k.fault, 5)
  else none

/-- Steps 1 to 6 of R193: the checks of a load or store. -/
def dataCheck (c : BuildConfig) (mrac : Word) (k : AccessCauses) (base a : Word) (n : Nat) : Option (Word × BitVec 4) :=
  match addressCheck c mrac k base a n with
  | some t => some t
  | none => if inPic c a && (decide (n ≠ 4) || decide (a.toNat % 4 ≠ 0)) then some (k.fault, 6) else none

/-- The checks of an atomic access: step 7 of R193 stands in the place of step 6, so that an unaligned access to the PIC
block reports 7, as R533, the list of R196 and D6 say (log 13). -/
def atomicCheck (c : BuildConfig) (mrac : Word) (k : AccessCauses) (a : Word) : Option (Word × BitVec 4) :=
  match addressCheck c mrac k a a 4 with
  | some t => some t
  | none => if decide (a.toNat % 4 ≠ 0) || !(inDccm c a && inDccm c (a + 3)) then some (k.fault, 7) else none

/-- The address is not core-local data: the access goes to the bus (R181). -/
def toBus (c : BuildConfig) (a : Word) : Bool := !inDccm c a && !inPic c a

/-- What an access comes to: an exception, the value for the register and the state after it, or, for a bus load whose data comes later, the
state with its transactions issued (R228). -/
inductive AccessResult where
  | trap (cause : Word) (secondary : BitVec 4) (s : State)
  | value (v : Word) (s : State)
  | later (s : State)

/-- A load of `n` bytes of the executing hart: the value extended, but for a bus load that failed (R193, R222 to R229, R250,
U4); of the parts it has read ahead, the bytes and the errors it found then (R195, R236). -/
def memLoad (s : State) (base a : Word) (n : Nat) (signed : Bool) : AccessResult :=
  match dataCheck s.cfg s.dataMrac loadCauses base a n with
  | some t => .trap t.1 t.2 s
  | none =>
    if inDccm s.cfg a then
      let early := aheadOf s.me.buf.ahead a.toNat n
      let rs := withAhead early a.toNat n (dccmReads s a n)
      if rs.any (·.2.bad) then .trap loadCauses.fault 1 s.draw
      else
        .value (extendLoad n signed (wordOf (overlay (early.map (·.line)) a.toNat (dccmLoadBytes s rs a n))))
          (repairDccm s rs).draw
    else if inPic s.cfg a then .value (extendLoad n signed (picLoad s a)) s
    else
      match busLoad s a n with
      | .bytes bs t => .value (extendLoad n signed (wordOf bs)) t
      | .failed v t => .value v t
      | .later t => .later t

/-- A store of the low `n` bytes of `v` by the executing hart (R193, R220, R229, R240); the value is 0. An aligned word
store to the DCCM reads nothing and checks no ECC. -/
def memStore (s : State) (base a : Word) (n : Nat) (v : Word) : AccessResult :=
  match dataCheck s.cfg s.dataMrac storeCauses base a n with
  | some t => .trap t.1 t.2 s
  | none =>
    if inDccm s.cfg a then
      if n = 4 ∧ a.toNat % 4 = 0 then .value 0 (s.setMe (s.me.pushSq a (bytesOf v n)))
      else
        let rs := dccmReads s a n
        if rs.any (·.2.bad) then .trap storeCauses.fault 1 s.draw
        else
          let t := (settleDccm s rs).draw
          .value 0 (t.setMe (t.me.pushSq a (bytesOf v n)))
    else if inPic s.cfg a then .value 0 (picStore s a v)
    else .value 0 (busStore s a (bytesOf v n))

/-- The checked read of an atomic access: the word in the DCCM (R196, R236, R238). -/
def atomicRead (s : State) (k : AccessCauses) (a : Word) : AccessResult :=
  match atomicCheck s.cfg s.dataMrac k a with
  | some t => .trap t.1 t.2 s
  | none =>
    let r := s.readDccm s.cur (a.toNat / 4)
    if r.bad then .trap k.fault 1 s.draw
    else .value r.data (repairDccm s [(a.toNat / 4, r)]).draw

/-- The write of an atomic access, directly on the DCCM, clearing the other hart's reservation on the word
(R229, R239, R412, R413). -/
def atomicWrite (s : State) (a v : Word) : State :=
  let i := a.toNat / 4
  let m := s.sh.dccm.setWord i v
  let m := m.setStatus i (statusAfterFullWrite s.cur (m.status i))
  let o := s.cur.other
  ({ s with sh := { s.sh with dccm := m } }).setHart o ((s.hart o).clearResAt a.toNat)

/-- Events of a committed load (R686): 11, 13 if misaligned, 55 if on the bus. -/
def loadEvents (c : BuildConfig) (a : Word) (n : Nat) : List Nat :=
  [11] ++ (if a.toNat % n = 0 then [] else [13]) ++ (if toBus c a then [55] else [])

/-- Events of a committed store (R686): 12, 14 if misaligned, 56 if on the bus. -/
def storeEvents (c : BuildConfig) (a : Word) (n : Nat) : List Nat :=
  [12] ++ (if a.toNat % n = 0 then [] else [14]) ++ (if toBus c a then [56] else [])

/-- A load instruction of `len` bytes: `x[rd] <- extend(MemRead(x[rs1] + off, n))` (R351 to R355); where the SoC answers
later it commits before `rd` is written (R228). -/
def State.loadInstr (s : State) (len n : Nat) (signed : Bool) (rd rs1 : Reg) (off : Word) : State :=
  let a := s.reg rs1 + off
  match triggerAction s (.access s.me.pc true false a 0) with
  | some t => t
  | none =>
    match memLoad s (s.reg rs1) a n signed with
    | .trap c m t => t.raise c m a
    | .value v t => (t.setReg rd v).complete len (loadEvents s.cfg a n)
    | .later t => (deferLoad t a rd n signed (sideEffect s.dataMrac a)).complete len (loadEvents s.cfg a n)

/-- A store instruction of `len` bytes: `MemWrite(x[rs1] + off, n, x[rs2])` (R356 to R358). -/
def State.storeInstr (s : State) (len n : Nat) (rs1 rs2 : Reg) (off : Word) : State :=
  let a := s.reg rs1 + off
  match triggerAction s (.access s.me.pc false true a (s.reg rs2)) with
  | some t => t
  | none =>
    match memStore s (s.reg rs1) a n (s.reg rs2) with
    | .trap c m t => t.raise c m a
    | .value _ t | .later t => t.complete len (storeEvents s.cfg a n)

end Sys2Proof.Machine
end

