-- ==== Sys2Proof/Machine/Flags.lean ====
section
/-! DEFINITION. The machine has no flags (R40): branches and set-less-than compare registers. Those comparisons. -/

namespace Sys2Proof.Machine

/-- `signed(a) < signed(b)`. -/
def lessSigned (a b : Word) : Bool := decide (a.toInt < b.toInt)

/-- `unsigned(a) < unsigned(b)`. -/
def lessUnsigned (a b : Word) : Bool := decide (a.toNat < b.toNat)

/-- The 32-bit value 1 or 0 of a comparison (R304, R305, R314, R315). -/
def boolWord (b : Bool) : Word := if b then 1 else 0

end Sys2Proof.Machine
end

