-- ==== Sys2Proof/Machine/Atomics.lean ====
section
/-! DEFINITION. The atomic instructions (R410 to R426). `aq` and `rl` are ignored (R412). -/

namespace Sys2Proof.Machine

/-- `lr.w`: the implicit fence, then the triggers (log 18), the checks, the word, the reservation (R411, R415). -/
def State.loadReserved (s : State) (rd rs1 : Reg) : State :=
  let a := s.reg rs1
  let f := fenceHart s s.cur
  match triggerAction f (.access s.me.pc true false a 0) with
  | some t => t
  | none =>
    match atomicRead f loadCauses a with
    | .trap c m t => t.raise c m a
    | .value v t =>
      let u := t.setReg rd v
      (u.setMe { u.me with res := some a }).complete 4 [52]
    | .later t => t

/-- `sc.w`: the implicit fence, then the triggers, whether or not it will store (log 18), the checks, then the store if
this hart holds a reservation on `a`; 0 or 1 to `rd`; the reservation is gone, also where a check fails (R411, R413 (a),
R416). -/
def State.storeConditional (s : State) (rd rs1 rs2 : Reg) : State :=
  let a := s.reg rs1
  let f := fenceHart s s.cur
  match triggerAction f (.access s.me.pc false true a (s.reg rs2)) with
  | some t => t
  | none =>
    match atomicRead f storeCauses a with
    | .trap c m t => (t.setMe { t.me with res := none }).raise c m a
    | .value _ t =>
      let holds := decide (t.me.res = some a)
      let u := if holds then atomicWrite t a (s.reg rs2) else t
      let w := u.setReg rd (boolWord (!holds))
      (w.setMe { w.me with res := none }).complete 4 [53]
    | .later t => t

/-- An `amo*.w`: the implicit fence, then the triggers, the checks, then the old word to `rd` and `op(old, x[rs2])` to memory
in one step (R411, R417, R426). A store trigger on data compares `x[rs2]`, not the word that is stored (DESIGN CHOICE: no
rule says which; log 18). -/
def State.amo (s : State) (op : Word → Word → Word) (rd rs1 rs2 : Reg) : State :=
  let a := s.reg rs1
  let f := fenceHart s s.cur
  match triggerAction f (.access s.me.pc true true a (s.reg rs2)) with
  | some t => t
  | none =>
    match atomicRead f (amoCauses s.cfg) a with
    | .trap c m t => t.raise c m a
    | .value v t => ((atomicWrite t a (op v (s.reg rs2))).setReg rd v).complete 4 [51]
    | .later t => t

/-- `lr.w` (R415). -/
def execLrW (rd rs1 : Reg) (_aq _rl : BitVec 1) (s : State) : Host.Outcome State Fault Refusal :=
  .next (s.loadReserved rd rs1)

/-- `sc.w` (R416). -/
def execScW (rd rs1 rs2 : Reg) (_aq _rl : BitVec 1) (s : State) : Host.Outcome State Fault Refusal :=
  .next (s.storeConditional rd rs1 rs2)

/-- `amoswap.w` (R417). -/
def execAmoswapW (rd rs1 rs2 : Reg) (_aq _rl : BitVec 1) (s : State) : Host.Outcome State Fault Refusal :=
  .next (s.amo (fun _ b => b) rd rs1 rs2)

/-- `amoadd.w` (R418). -/
def execAmoaddW (rd rs1 rs2 : Reg) (_aq _rl : BitVec 1) (s : State) : Host.Outcome State Fault Refusal :=
  .next (s.amo (fun a b => a + b) rd rs1 rs2)

/-- `amoxor.w` (R419). -/
def execAmoxorW (rd rs1 rs2 : Reg) (_aq _rl : BitVec 1) (s : State) : Host.Outcome State Fault Refusal :=
  .next (s.amo (fun a b => a ^^^ b) rd rs1 rs2)

/-- `amoand.w` (R420). -/
def execAmoandW (rd rs1 rs2 : Reg) (_aq _rl : BitVec 1) (s : State) : Host.Outcome State Fault Refusal :=
  .next (s.amo (fun a b => a &&& b) rd rs1 rs2)

/-- `amoor.w` (R421). -/
def execAmoorW (rd rs1 rs2 : Reg) (_aq _rl : BitVec 1) (s : State) : Host.Outcome State Fault Refusal :=
  .next (s.amo (fun a b => a ||| b) rd rs1 rs2)

/-- `amomin.w` (R422). -/
def execAmominW (rd rs1 rs2 : Reg) (_aq _rl : BitVec 1) (s : State) : Host.Outcome State Fault Refusal :=
  .next (s.amo (fun a b => if lessSigned a b then a else b) rd rs1 rs2)

/-- `amomax.w` (R423). -/
def execAmomaxW (rd rs1 rs2 : Reg) (_aq _rl : BitVec 1) (s : State) : Host.Outcome State Fault Refusal :=
  .next (s.amo (fun a b => if lessSigned b a then a else b) rd rs1 rs2)

/-- `amominu.w` (R424). -/
def execAmominuW (rd rs1 rs2 : Reg) (_aq _rl : BitVec 1) (s : State) : Host.Outcome State Fault Refusal :=
  .next (s.amo (fun a b => if lessUnsigned a b then a else b) rd rs1 rs2)

/-- `amomaxu.w` (R425). -/
def execAmomaxuW (rd rs1 rs2 : Reg) (_aq _rl : BitVec 1) (s : State) : Host.Outcome State Fault Refusal :=
  .next (s.amo (fun a b => if lessUnsigned b a then a else b) rd rs1 rs2)

end Sys2Proof.Machine
end

