-- ==== Sys2Proof/Machine/Alu.lean ====
section
/-! DEFINITION. The integer computational instructions of RV32I (R300 to R325). -/

namespace Sys2Proof.Machine

/-- `x[rd] <- v` and on to the next instruction: what every computational instruction ends with (R300). -/
def State.writeBack (s : State) (len : Nat) (evs : List Nat) (rd : Reg) (v : Word) : State :=
  (s.setReg rd v).complete len evs

/-- The event of an ALU operation (R686, R687). -/
def aluEvents : List Nat := [15]

/-- `v << n` (R309, R314). -/
def shiftLeft (v : Word) (n : BitVec 5) : Word := v <<< n.toNat

/-- Logical `v >> n` (R310, R318). -/
def shiftRight (v : Word) (n : BitVec 5) : Word := v >>> n.toNat

/-- Arithmetic `v >> n` (R311, R319). -/
def shiftRightArith (v : Word) (n : BitVec 5) : Word := v.sshiftRight n.toNat

/-- `x[rs2][4:0]` (R314). -/
def shiftAmount (v : Word) : BitVec 5 := v.extractLsb' 0 5

/-- An OP-IMM instruction with a sign-extended immediate (R303 to R308). -/
def State.opImm (s : State) (f : Word → Word → Word) (rd rs1 : Reg) (imm : BitVec 12) : State :=
  s.writeBack 4 aluEvents rd (f (s.reg rs1) (sext imm))

/-- An OP-IMM shift (R309 to R311). -/
def State.opShift (s : State) (f : Word → BitVec 5 → Word) (rd rs1 : Reg) (shamt : BitVec 5) : State :=
  s.writeBack 4 aluEvents rd (f (s.reg rs1) shamt)

/-- An OP instruction (R312 to R321). -/
def State.opReg (s : State) (f : Word → Word → Word) (rd rs1 rs2 : Reg) : State :=
  s.writeBack 4 aluEvents rd (f (s.reg rs1) (s.reg rs2))

/-- `lui` (R301). -/
def execLui (rd : Reg) (imm : BitVec 20) (s : State) : Host.Outcome State Fault Refusal :=
  .next (s.writeBack 4 aluEvents rd (uImm imm))

/-- `auipc` (R302). -/
def execAuipc (rd : Reg) (imm : BitVec 20) (s : State) : Host.Outcome State Fault Refusal :=
  .next (s.writeBack 4 aluEvents rd (s.me.pc + uImm imm))

/-- `addi` (R303). -/
def execAddi (rd rs1 : Reg) (imm : BitVec 12) (s : State) : Host.Outcome State Fault Refusal :=
  .next (s.opImm (fun a b => a + b) rd rs1 imm)

/-- `slti` (R304). -/
def execSlti (rd rs1 : Reg) (imm : BitVec 12) (s : State) : Host.Outcome State Fault Refusal :=
  .next (s.opImm (fun a b => boolWord (lessSigned a b)) rd rs1 imm)

/-- `sltiu` (R305). -/
def execSltiu (rd rs1 : Reg) (imm : BitVec 12) (s : State) : Host.Outcome State Fault Refusal :=
  .next (s.opImm (fun a b => boolWord (lessUnsigned a b)) rd rs1 imm)

/-- `xori` (R306). -/
def execXori (rd rs1 : Reg) (imm : BitVec 12) (s : State) : Host.Outcome State Fault Refusal :=
  .next (s.opImm (fun a b => a ^^^ b) rd rs1 imm)

/-- `ori` (R307). -/
def execOri (rd rs1 : Reg) (imm : BitVec 12) (s : State) : Host.Outcome State Fault Refusal :=
  .next (s.opImm (fun a b => a ||| b) rd rs1 imm)

/-- `andi` (R308). -/
def execAndi (rd rs1 : Reg) (imm : BitVec 12) (s : State) : Host.Outcome State Fault Refusal :=
  .next (s.opImm (fun a b => a &&& b) rd rs1 imm)

/-- `slli` (R309). -/
def execSlli (rd rs1 : Reg) (shamt : BitVec 5) (s : State) : Host.Outcome State Fault Refusal :=
  .next (s.opShift shiftLeft rd rs1 shamt)

/-- `srli` (R310). -/
def execSrli (rd rs1 : Reg) (shamt : BitVec 5) (s : State) : Host.Outcome State Fault Refusal :=
  .next (s.opShift shiftRight rd rs1 shamt)

/-- `srai` (R311). -/
def execSrai (rd rs1 : Reg) (shamt : BitVec 5) (s : State) : Host.Outcome State Fault Refusal :=
  .next (s.opShift shiftRightArith rd rs1 shamt)

/-- `add` (R312). -/
def execAdd (rd rs1 rs2 : Reg) (s : State) : Host.Outcome State Fault Refusal :=
  .next (s.opReg (fun a b => a + b) rd rs1 rs2)

/-- `sub` (R313). -/
def execSub (rd rs1 rs2 : Reg) (s : State) : Host.Outcome State Fault Refusal :=
  .next (s.opReg (fun a b => a - b) rd rs1 rs2)

/-- `sll` (R314). -/
def execSll (rd rs1 rs2 : Reg) (s : State) : Host.Outcome State Fault Refusal :=
  .next (s.opReg (fun a b => shiftLeft a (shiftAmount b)) rd rs1 rs2)

/-- `slt` (R315). -/
def execSlt (rd rs1 rs2 : Reg) (s : State) : Host.Outcome State Fault Refusal :=
  .next (s.opReg (fun a b => boolWord (lessSigned a b)) rd rs1 rs2)

/-- `sltu` (R316). -/
def execSltu (rd rs1 rs2 : Reg) (s : State) : Host.Outcome State Fault Refusal :=
  .next (s.opReg (fun a b => boolWord (lessUnsigned a b)) rd rs1 rs2)

/-- `xor` (R317). -/
def execXor (rd rs1 rs2 : Reg) (s : State) : Host.Outcome State Fault Refusal :=
  .next (s.opReg (fun a b => a ^^^ b) rd rs1 rs2)

/-- `srl` (R318). -/
def execSrl (rd rs1 rs2 : Reg) (s : State) : Host.Outcome State Fault Refusal :=
  .next (s.opReg (fun a b => shiftRight a (shiftAmount b)) rd rs1 rs2)

/-- `sra` (R319). -/
def execSra (rd rs1 rs2 : Reg) (s : State) : Host.Outcome State Fault Refusal :=
  .next (s.opReg (fun a b => shiftRightArith a (shiftAmount b)) rd rs1 rs2)

/-- `or` (R320). -/
def execOr (rd rs1 rs2 : Reg) (s : State) : Host.Outcome State Fault Refusal :=
  .next (s.opReg (fun a b => a ||| b) rd rs1 rs2)

/-- `and` (R321). -/
def execAnd (rd rs1 rs2 : Reg) (s : State) : Host.Outcome State Fault Refusal :=
  .next (s.opReg (fun a b => a &&& b) rd rs1 rs2)

end Sys2Proof.Machine
end

