-- ==== Sys2Proof/Machine/Control.lean ====
section
/-! DEFINITION. Jumps and conditional branches (R330 to R340). -/

namespace Sys2Proof.Machine

/-- The events of `jal` and `jalr`; whether they count as 24 and 26 is open (R687, log 29). -/
def jumpEvents : List Nat :=
  (if Config.jumpCountsAsBranch then [24] else []) ++ (if Config.jumpCountsAsTaken then [26] else [])

/-- The events of a conditional branch (R686, R687). -/
def branchEvents (taken : Bool) : List Nat := if taken then [24, 26] else [24]

/-- A jump of `len` bytes: `x[rd] <- pc + len; pc <- target` (R331, R332, R440). -/
def State.jumpInstr (s : State) (len : Nat) (rd : Reg) (target : Word) : State :=
  (s.setReg rd (s.me.nextPc len)).completeAt len jumpEvents target

/-- A conditional branch of `len` bytes (R333 to R338, R440). -/
def State.branchInstr (s : State) (len : Nat) (taken : Bool) (off : Word) : State :=
  s.completeAt len (branchEvents taken) (if taken then s.me.pc + off else s.me.nextPc len)

/-- `jal` (R331). -/
def execJal (rd : Reg) (off : BitVec 21) (s : State) : Host.Outcome State Fault Refusal :=
  .next (s.jumpInstr 4 rd (s.me.pc + sext off))

/-- `jalr` (R332). -/
def execJalr (rd rs1 : Reg) (imm : BitVec 12) (s : State) : Host.Outcome State Fault Refusal :=
  .next (s.jumpInstr 4 rd (evenPc (s.effAddr rs1 imm)))

/-- `beq` (R333). -/
def execBeq (rs1 rs2 : Reg) (off : BitVec 13) (s : State) : Host.Outcome State Fault Refusal :=
  .next (s.branchInstr 4 (s.reg rs1 == s.reg rs2) (sext off))

/-- `bne` (R334). -/
def execBne (rs1 rs2 : Reg) (off : BitVec 13) (s : State) : Host.Outcome State Fault Refusal :=
  .next (s.branchInstr 4 (s.reg rs1 != s.reg rs2) (sext off))

/-- `blt` (R335). -/
def execBlt (rs1 rs2 : Reg) (off : BitVec 13) (s : State) : Host.Outcome State Fault Refusal :=
  .next (s.branchInstr 4 (lessSigned (s.reg rs1) (s.reg rs2)) (sext off))

/-- `bge` (R336). -/
def execBge (rs1 rs2 : Reg) (off : BitVec 13) (s : State) : Host.Outcome State Fault Refusal :=
  .next (s.branchInstr 4 (!lessSigned (s.reg rs1) (s.reg rs2)) (sext off))

/-- `bltu` (R337). -/
def execBltu (rs1 rs2 : Reg) (off : BitVec 13) (s : State) : Host.Outcome State Fault Refusal :=
  .next (s.branchInstr 4 (lessUnsigned (s.reg rs1) (s.reg rs2)) (sext off))

/-- `bgeu` (R338). -/
def execBgeu (rs1 rs2 : Reg) (off : BitVec 13) (s : State) : Host.Outcome State Fault Refusal :=
  .next (s.branchInstr 4 (!lessUnsigned (s.reg rs1) (s.reg rs2)) (sext off))

end Sys2Proof.Machine
end

