-- ==== Sys2Proof/Machine/LoadStore.lean ====
section
/-! DEFINITION. Loads and stores (R350 to R359). -/

namespace Sys2Proof.Machine

/-- `lb` (R351). -/
def execLb (rd rs1 : Reg) (imm : BitVec 12) (s : State) : Host.Outcome State Fault Refusal :=
  .next (s.loadInstr 4 1 true rd rs1 (sext imm))

/-- `lh` (R352). -/
def execLh (rd rs1 : Reg) (imm : BitVec 12) (s : State) : Host.Outcome State Fault Refusal :=
  .next (s.loadInstr 4 2 true rd rs1 (sext imm))

/-- `lw` (R353). -/
def execLw (rd rs1 : Reg) (imm : BitVec 12) (s : State) : Host.Outcome State Fault Refusal :=
  .next (s.loadInstr 4 4 false rd rs1 (sext imm))

/-- `lbu` (R354). -/
def execLbu (rd rs1 : Reg) (imm : BitVec 12) (s : State) : Host.Outcome State Fault Refusal :=
  .next (s.loadInstr 4 1 false rd rs1 (sext imm))

/-- `lhu` (R355). -/
def execLhu (rd rs1 : Reg) (imm : BitVec 12) (s : State) : Host.Outcome State Fault Refusal :=
  .next (s.loadInstr 4 2 false rd rs1 (sext imm))

/-- `sb` (R356). -/
def execSb (rs1 rs2 : Reg) (imm : BitVec 12) (s : State) : Host.Outcome State Fault Refusal :=
  .next (s.storeInstr 4 1 rs1 rs2 (sext imm))

/-- `sh` (R357). -/
def execSh (rs1 rs2 : Reg) (imm : BitVec 12) (s : State) : Host.Outcome State Fault Refusal :=
  .next (s.storeInstr 4 2 rs1 rs2 (sext imm))

/-- `sw` (R358). -/
def execSw (rs1 rs2 : Reg) (imm : BitVec 12) (s : State) : Host.Outcome State Fault Refusal :=
  .next (s.storeInstr 4 4 rs1 rs2 (sext imm))

end Sys2Proof.Machine
end

