-- ==== Sys2Proof/Machine/Fetch.lean ====
section
/-! DEFINITION. Instruction fetch: checks per parcel, ICCM, I-cache, prefetched packets, the IFU side of the bus; and
`fence.i` (R200 to R203, R231, R232, R237). -/

namespace Sys2Proof.Machine

/-- The parcel at `a`, if lines hold both its bytes. -/
def lineParcel (ls : List CacheLine) (a : Nat) : Option Half :=
  match lineByte a ls, lineByte (a + 1) ls with
  | some b0, some b1 => some (halfOfBytes b0 b1)
  | _, _ => none

/-- The `n` bytes at `a`, if lines hold them all. -/
def lineBytes (ls : List CacheLine) (a : Nat) : Nat → Option (List Byte)
  | 0 => some []
  | n + 1 =>
    match lineByte a ls, lineBytes ls (a + 1) n with
    | some b, some bs => some (b :: bs)
    | _, _ => none

/-- The byte an IFU read of the bus returns: where LSU writes are not yet ordered before it, the new byte or any of the
values it had since (R215, R232). -/
def ifuByte (s : State) (a : Nat) : Byte :=
  let olds := (s.sh.ifuOld.filter (fun p => p.1 = a)).map (·.2)
  olds.getD (Config.freeCount s.draws a % (olds.length + 1)) (busByte s a)

/-- The snapshot of `n` bytes the IFU reads from the bus at `a`, or `none` where the bus answers with an error. -/
def ifuSnapshot (s : State) (a n : Nat) : Option (List Byte) :=
  if (List.range n).any (fun k => busError s (a + k)) then none
  else some ((List.range n).map (fun k => ifuByte s (a + k)))

/-- Whether an IFU read of these two bytes uses a free value. -/
def ifuFree (s : State) (a : Nat) : Bool :=
  socKind s.sh.soc a == .device || s.sh.ifuOld.any (fun p => p.1 = a || p.1 = a + 1)

/-- The half of a word at an even address. -/
def halfAt (w : Word) (a : Nat) : Half := if a % 4 = 0 then w.extractLsb' 0 16 else w.extractLsb' 16 16

/-- What fetching a parcel comes to: its bits, or an instruction access fault with its secondary cause. -/
inductive ParcelResult where
  | ok (h : Half) (s : State)
  | fault (secondary : BitVec 4) (s : State)

/-- A parcel of the ICCM (R201, R237, R238): a correctable error is written back and counted. -/
def iccmParcel (s : State) (a : Nat) : ParcelResult :=
  let i := a / 4
  let r := s.sh.iccm.readWord (s.cecd (some s.cur)) none false s.draws i
  let t := if r.arbitrary || r.bad then s.draw else s
  if r.bad then .fault 1 t
  else if r.fixed then
    .ok (halfAt r.data a)
      { t with sh := { t.sh with iccm := t.sh.iccm.repair i r, miccmect := bumpErrorCounter t.sh.miccmect } }
  else .ok (halfAt r.data a) t

/-- A parcel fetched from the I-cache, or through the IFU bus interface: a fault if one of its bytes is answered with an
error (R200, R201, R231). -/
def busParcel (s : State) (p : Word) : ParcelResult :=
  let a := p.toNat
  match lineParcel s.sh.icache a with
  | some h => .ok h s
  | none =>
    let t := if ifuFree s a then s.draw else s
    if busErrorIn s a 2 then .fault 9 t
    else .ok (halfOfBytes (ifuByte s a) (ifuByte s (a + 1))) t

/-- `mrac.cacheable` for a fetch of hart `i` at `p`, under the register or a value of it from before the hart's last
`fence.i` (R100, R771). -/
def fetchCacheable (s : State) (i : HartId) (p : Word) : Bool :=
  cacheable s.sh.mrac p || s.sh.mracOldFetch.any (fun e => e.1 == i && cacheable e.2 p)

/-- After a write through `dicago` a fetch of hart `i` from a cacheable address may find anything (R144, U7); in a build
without an I-cache too (DESIGN CHOICE: the spec is silent; log 35). -/
def fetchAltered (s : State) (i : HartId) (p : Word) : Bool := s.sh.icPoison && fetchCacheable s i p

/-- A parcel outside the ICCM. After a write through `dicago` a fetch from a cacheable address may return anything, or go
on as otherwise (R144, U7); so also in a build with `RV_ICACHE_ENABLE` = 0 (DESIGN CHOICE: the spec is silent; log 35). -/
def outsideParcel (s : State) (p : Word) : ParcelResult :=
  if fetchAltered s s.cur p then
    if Config.freeBool s.draws p.toNat then
      .ok (halfOfBytes (Config.freeByte s.draws p.toNat) (Config.freeByte s.draws (p.toNat + 1))) s.draw
    else busParcel s.draw p
  else busParcel s p

/-- The packet of `n` bytes at `base` that hart `i` fetches outside the ICCM: anything after a write through `dicago`, else
the snapshot of a line in the I-cache, else the bus; `none` where the bus answers with an error (R144, R202, R231). -/
def outsidePacket (s : State) (i : HartId) (base n : Nat) : Option (List Byte) :=
  if fetchAltered s i (BitVec.ofNat 32 base) && Config.freeBool s.draws base then
    some ((List.range n).map (fun k => Config.freeByte s.draws (base + k)))
  else
    match lineBytes s.sh.icache base n with
    | some bs => some bs
    | none => ifuSnapshot s base n

/-- Fetch the parcel at `p`: the checks of R201 in order, then what the hart has prefetched, then the memory. A prefetched
packet was fetched when it was prefetched, from the I-cache line present then or from the bus (R202, R231); until it is
discarded the hart executes from it, whatever lines are filled or dropped meanwhile (R232). -/
def fetchParcel (s : State) (p : Word) : ParcelResult :=
  if iccmRegion s.cfg p && !inIccm s.cfg p then .fault 2 s
  else if !iccmRegion s.cfg p && !instOk s.cfg p then .fault 3 s
  else
    match lineParcel s.me.buf.prefetch p.toNat with
    | some h => .ok h s
    | none => if iccmRegion s.cfg p then iccmParcel s p.toNat else outsideParcel s p

/-- What fetching an instruction comes to: its bits, or an instruction access fault: the secondary cause and the address
of the parcel that faulted (R525). -/
inductive FetchResult where
  | code (c : Code) (s : State)
  | fault (secondary : BitVec 4) (parcel : Word) (s : State)

/-- `Fetch(pc)` (R200, R262). -/
def fetch (s : State) : FetchResult :=
  let pc := s.me.pc
  match fetchParcel s pc with
  | .fault m t => .fault m pc t
  | .ok p0 t =>
    if isLongParcel p0 then
      match fetchParcel t (pc + 2) with
      | .fault m u => .fault m (pc + 2) u
      | .ok p1 u => .code (.c32 (wordOfParcels p0 p1)) u
    else .code (.c16 p0) t

/-- What `fence.i` does on hart `i`: the fence, the whole I-cache invalidated, what the hart has prefetched discarded,
updates of `mfdc`, and of `mrac` for its fetches, in effect (R100, R232, R771, R772). -/
def fenceIHart (s : State) (i : HartId) : State :=
  let t := fenceHart s i
  let u := { t with sh := { t.sh with
    icache := []
    icPoison := false
    mfdcOld := t.sh.mfdcOld.filter (fun p => p.1 ≠ i)
    mracOldFetch := t.sh.mracOldFetch.filter (fun p => p.1 ≠ i) } }
  u.setHart i { u.hart i with buf := { (u.hart i).buf with prefetch := [] } }

end Sys2Proof.Machine
end

