-- ==== Sys2Proof/Machine/System.lean ====
section
/-! DEFINITION. Fences, environment call, breakpoint, trap return, wait, debug return (R370 to R377). -/

namespace Sys2Proof.Machine

/-- Count the executing hart's events without retiring an instruction. -/
def State.countEvents (s : State) (evs : List Nat) : State := s.setMe (s.me.countEvents evs)

/-- `ebreak` and `c.ebreak`, counted, not retired: Debug Mode if `dcsr.ebreakm`, else the breakpoint exception; in
`db-halt` control returns to the debugger (PRESUMED, log 19) (R373, R464). -/
def State.breakpoint (s : State) : State :=
  let t := s.countEvents [19]
  if t.me.activity = .dbgHalt then t
  else if t.me.ebreakm then requestDebug t 1
  else t.raise 3 2 (policyTval t.cfg t.me.pc)

/-- `fence`: every field is ignored (R370, R234). -/
def execFence (_rd _rs1 : Reg) (_fm _pred _succ : BitVec 4) (s : State) : Host.Outcome State Fault Refusal :=
  .next ((fenceHart s s.cur).complete 4 [21])

/-- `fence.i`: every field is ignored (R371, R232). -/
def execFenceI (_rd _rs1 : Reg) (_imm : BitVec 12) (s : State) : Host.Outcome State Fault Refusal :=
  .next ((fenceIHart s s.cur).complete 4 [22])

/-- `ecall`: counted, not retired (R372, R537). -/
def execEcall (s : State) : Host.Outcome State Fault Refusal :=
  .next ((s.countEvents [20]).raise 0x0000000B#32 0 0)

/-- `ebreak` (R373). -/
def execEbreak (s : State) : Host.Outcome State Fault Refusal :=
  .next (s.breakpoint)

/-- `mret` (R374, R570). -/
def execMret (s : State) : Host.Outcome State Fault Refusal :=
  .next (s.setMe (s.me.retire 4 [23]).returnFromTrap)

/-- `wfi`: a NOP, counted as an ALU operation (R375). -/
def execWfi (s : State) : Host.Outcome State Fault Refusal :=
  .next (s.complete 4 aluEvents)

/-- `dret`: in `db-halt` a resume request, not counted as a retired instruction (DESIGN CHOICE, log 19); ignored while
single-stepping; else illegal (R377, R709). -/
def execDret (s : State) : Host.Outcome State Fault Refusal :=
  .next
    (if s.me.activity = .dbgHalt then s.setMe s.me.resumeRequest
     else if s.me.dctl.stepping then s.complete 4 []
     else s.raiseIllegal (encode .dret).zext)

end Sys2Proof.Machine
end

