-- ==== Sys2Proof/Machine/Compressed.lean ====
section
/-! DEFINITION. The compressed instructions: each has the effect of its expansion, with lengths of two bytes (R440 to R468). -/

namespace Sys2Proof.Machine

/-- `c.addi4spn` (R441). -/
def execCAddi4spn (rd : CReg) (imm : BitVec 10) (s : State) : Host.Outcome State Fault Refusal :=
  .next (s.writeBack 2 aluEvents (xreg rd) (s.reg 2 + zext imm))

/-- `c.lw` (R442). -/
def execCLw (rd rs1 : CReg) (imm : BitVec 7) (s : State) : Host.Outcome State Fault Refusal :=
  .next (s.loadInstr 2 4 false (xreg rd) (xreg rs1) (zext imm))

/-- `c.sw` (R443). -/
def execCSw (rs1 rs2 : CReg) (imm : BitVec 7) (s : State) : Host.Outcome State Fault Refusal :=
  .next (s.storeInstr 2 4 (xreg rs1) (xreg rs2) (zext imm))

/-- `c.nop` (R444). -/
def execCNop (_imm : BitVec 6) (s : State) : Host.Outcome State Fault Refusal :=
  .next (s.complete 2 aluEvents)

/-- `c.addi` (R445). -/
def execCAddi (rd : Reg) (imm : BitVec 6) (s : State) : Host.Outcome State Fault Refusal :=
  .next (s.writeBack 2 aluEvents rd (s.reg rd + sext imm))

/-- `c.jal` (R446). -/
def execCJal (off : BitVec 12) (s : State) : Host.Outcome State Fault Refusal :=
  .next (s.jumpInstr 2 1 (s.me.pc + sext off))

/-- `c.li` (R447). -/
def execCLi (rd : Reg) (imm : BitVec 6) (s : State) : Host.Outcome State Fault Refusal :=
  .next (s.writeBack 2 aluEvents rd (sext imm))

/-- `c.addi16sp` (R448). -/
def execCAddi16sp (imm : BitVec 10) (s : State) : Host.Outcome State Fault Refusal :=
  .next (s.writeBack 2 aluEvents 2 (s.reg 2 + sext imm))

/-- `c.lui` (R449). -/
def execCLui (rd : Reg) (imm : BitVec 6) (s : State) : Host.Outcome State Fault Refusal :=
  .next (s.writeBack 2 aluEvents rd (cluiImm imm))

/-- `c.srli` (R450). -/
def execCSrli (rd : CReg) (shamt : BitVec 5) (s : State) : Host.Outcome State Fault Refusal :=
  .next (s.writeBack 2 aluEvents (xreg rd) (shiftRight (s.reg (xreg rd)) shamt))

/-- `c.srai` (R451). -/
def execCSrai (rd : CReg) (shamt : BitVec 5) (s : State) : Host.Outcome State Fault Refusal :=
  .next (s.writeBack 2 aluEvents (xreg rd) (shiftRightArith (s.reg (xreg rd)) shamt))

/-- `c.andi` (R452). -/
def execCAndi (rd : CReg) (imm : BitVec 6) (s : State) : Host.Outcome State Fault Refusal :=
  .next (s.writeBack 2 aluEvents (xreg rd) (s.reg (xreg rd) &&& sext imm))

/-- `c.sub` (R453). -/
def execCSub (rd rs2 : CReg) (s : State) : Host.Outcome State Fault Refusal :=
  .next (s.writeBack 2 aluEvents (xreg rd) (s.reg (xreg rd) - s.reg (xreg rs2)))

/-- `c.xor` (R454). -/
def execCXor (rd rs2 : CReg) (s : State) : Host.Outcome State Fault Refusal :=
  .next (s.writeBack 2 aluEvents (xreg rd) (s.reg (xreg rd) ^^^ s.reg (xreg rs2)))

/-- `c.or` (R455). -/
def execCOr (rd rs2 : CReg) (s : State) : Host.Outcome State Fault Refusal :=
  .next (s.writeBack 2 aluEvents (xreg rd) (s.reg (xreg rd) ||| s.reg (xreg rs2)))

/-- `c.and` (R456). -/
def execCAnd (rd rs2 : CReg) (s : State) : Host.Outcome State Fault Refusal :=
  .next (s.writeBack 2 aluEvents (xreg rd) (s.reg (xreg rd) &&& s.reg (xreg rs2)))

/-- `c.j` (R457). -/
def execCJ (off : BitVec 12) (s : State) : Host.Outcome State Fault Refusal :=
  .next (s.jumpInstr 2 0 (s.me.pc + sext off))

/-- `c.beqz` (R458). -/
def execCBeqz (rs1 : CReg) (off : BitVec 9) (s : State) : Host.Outcome State Fault Refusal :=
  .next (s.branchInstr 2 (s.reg (xreg rs1) == 0) (sext off))

/-- `c.bnez` (R459). -/
def execCBnez (rs1 : CReg) (off : BitVec 9) (s : State) : Host.Outcome State Fault Refusal :=
  .next (s.branchInstr 2 (s.reg (xreg rs1) != 0) (sext off))

/-- `c.slli` (R460). -/
def execCSlli (rd : Reg) (shamt : BitVec 5) (s : State) : Host.Outcome State Fault Refusal :=
  .next (s.writeBack 2 aluEvents rd (shiftLeft (s.reg rd) shamt))

/-- `c.lwsp` (R461). -/
def execCLwsp (rd : Reg) (imm : BitVec 8) (s : State) : Host.Outcome State Fault Refusal :=
  .next (s.loadInstr 2 4 false rd 2 (zext imm))

/-- `c.jr` (R462). -/
def execCJr (rs1 : Reg) (s : State) : Host.Outcome State Fault Refusal :=
  .next (s.jumpInstr 2 0 (evenPc (s.reg rs1)))

/-- `c.mv` (R463). -/
def execCMv (rd rs2 : Reg) (s : State) : Host.Outcome State Fault Refusal :=
  .next (s.writeBack 2 aluEvents rd (s.reg rs2))

/-- `c.ebreak` (R464). -/
def execCEbreak (s : State) : Host.Outcome State Fault Refusal :=
  .next (s.breakpoint)

/-- `c.jalr` (R465). -/
def execCJalr (rs1 : Reg) (s : State) : Host.Outcome State Fault Refusal :=
  .next (s.jumpInstr 2 1 (evenPc (s.reg rs1)))

/-- `c.add` (R466). -/
def execCAdd (rd rs2 : Reg) (s : State) : Host.Outcome State Fault Refusal :=
  .next (s.writeBack 2 aluEvents rd (s.reg rd + s.reg rs2))

/-- `c.swsp` (R467). -/
def execCSwsp (rs2 : Reg) (imm : BitVec 8) (s : State) : Host.Outcome State Fault Refusal :=
  .next (s.storeInstr 2 4 2 rs2 (zext imm))

end Sys2Proof.Machine
end

