-- ==== Sys2Proof/Machine/MulDiv.lean ====
section
/-! DEFINITION. Multiplication and division (R390 to R399). -/

namespace Sys2Proof.Machine

/-- Bits 63:32 of an exact product (R392 to R394). -/
def highProduct (p : Int) : Word := (BitVec.ofInt 64 p).extractLsb' 32 32

/-- The overflow case of signed division, `-2^31 / -1` (R395, R399). -/
def divOverflow (a b : Word) : Bool := decide (a = 0x80000000#32) && decide (b = 0xFFFFFFFF#32)

/-- Signed quotient, rounded toward zero, with the fixed results of R399 (R395). -/
def divSigned (a b : Word) : Word :=
  if b = 0 then 0xFFFFFFFF#32
  else if divOverflow a b then 0x80000000#32
  else BitVec.ofInt 32 (a.toInt.tdiv b.toInt)

/-- Unsigned quotient (R396, R399). -/
def divUnsigned (a b : Word) : Word := if b = 0 then 0xFFFFFFFF#32 else BitVec.ofNat 32 (a.toNat / b.toNat)

/-- Signed remainder, with the sign of the dividend (R397, R399). -/
def remSigned (a b : Word) : Word :=
  if b = 0 then a
  else if divOverflow a b then 0
  else BitVec.ofInt 32 (a.toInt - b.toInt * a.toInt.tdiv b.toInt)

/-- Unsigned remainder (R398, R399). -/
def remUnsigned (a b : Word) : Word := if b = 0 then a else BitVec.ofNat 32 (a.toNat % b.toNat)

/-- A multiply or divide instruction: `x[rd] <- f(x[rs1], x[rs2])`, counting its event (R390, R686). -/
def State.mulDiv (s : State) (event : Nat) (f : Word → Word → Word) (rd rs1 rs2 : Reg) : State :=
  s.writeBack 4 [event] rd (f (s.reg rs1) (s.reg rs2))

/-- `mul` (R391). -/
def execMul (rd rs1 rs2 : Reg) (s : State) : Host.Outcome State Fault Refusal :=
  .next (s.mulDiv 9 (fun a b => a * b) rd rs1 rs2)

/-- `mulh` (R392). -/
def execMulh (rd rs1 rs2 : Reg) (s : State) : Host.Outcome State Fault Refusal :=
  .next (s.mulDiv 9 (fun a b => highProduct (a.toInt * b.toInt)) rd rs1 rs2)

/-- `mulhsu` (R393). -/
def execMulhsu (rd rs1 rs2 : Reg) (s : State) : Host.Outcome State Fault Refusal :=
  .next (s.mulDiv 9 (fun a b => highProduct (a.toInt * (b.toNat : Int))) rd rs1 rs2)

/-- `mulhu` (R394). -/
def execMulhu (rd rs1 rs2 : Reg) (s : State) : Host.Outcome State Fault Refusal :=
  .next (s.mulDiv 9 (fun a b => highProduct ((a.toNat : Int) * (b.toNat : Int))) rd rs1 rs2)

/-- `div` (R395). -/
def execDiv (rd rs1 rs2 : Reg) (s : State) : Host.Outcome State Fault Refusal :=
  .next (s.mulDiv 10 (divSigned) rd rs1 rs2)

/-- `divu` (R396). -/
def execDivu (rd rs1 rs2 : Reg) (s : State) : Host.Outcome State Fault Refusal :=
  .next (s.mulDiv 10 (divUnsigned) rd rs1 rs2)

/-- `rem` (R397). -/
def execRem (rd rs1 rs2 : Reg) (s : State) : Host.Outcome State Fault Refusal :=
  .next (s.mulDiv 10 (remSigned) rd rs1 rs2)

/-- `remu` (R398). -/
def execRemu (rd rs1 rs2 : Reg) (s : State) : Host.Outcome State Fault Refusal :=
  .next (s.mulDiv 10 (remUnsigned) rd rs1 rs2)

end Sys2Proof.Machine
end

