-- ==== Sys2Proof/Machine/Interrupts.lean ====
section
/-! DEFINITION. Pending interrupts and NMIs, the order in which they are taken, Sleep and its wake-up
(R540 to R564, R650, R701, R702). -/

namespace Sys2Proof.Machine

/-- `hit(0)`: internal timer 0 is at or above its bound (R672). -/
def Timers.hit0 (t : Timers) : Bool := decide (t.mitb0.toNat ≤ t.mitcnt0.toNat)

/-- `hit(1)` (R672). -/
def Timers.hit1 (t : Timers) : Bool := decide (t.mitb1.toNat ≤ t.mitcnt1.toNat)

/-- `reached`: `count >= 2^thresh` (R108). -/
def errorReached (v : Word) : Bool :=
  decide (2 ^ (v.extractLsb' 27 5).toNat ≤ (v.extractLsb' 0 27).toNat)

/-- `mceip` (R108, R544). -/
def Shared.mceip (c : Shared) : Bool := errorReached c.micect || errorReached c.miccmect || errorReached c.mdccmect

/-- `mip` of a hart (R56). -/
def mipOf (s : State) (i : HartId) : Word :=
  let h := s.hart i
  putBit (putBit (putBit (putBit (putBit (putBit 0 30 s.sh.mceip) 29 h.tmr.hit0) 28 h.tmr.hit1) 11 (mexintirq s i))
    7 h.pins.timerInt) 3 h.pins.softInt

/-- The requests an interrupt may be taken for: `mip`, the external one as the next interrupt finds it (R775), with the
internal-timer requests held to this boundary (R674). -/
def requests (s : State) (i : HartId) : Word :=
  let h := s.hart i
  let m := putBit (mipOf s i) 11 (lateExtirq s i)
  putBit (putBit m 29 (m.getLsbD 29 || h.tmr.held0)) 28 (m.getLsbD 28 || h.tmr.held1)

/-- The interrupts in priority order, highest first, by bit number (R547). -/
def interruptOrder : List Nat := [11, 30, 3, 7, 29, 28]

/-- The highest-priority interrupt that is pending and enabled in `mie` (R546, R547), whatever `mstatus.MIE` holds. -/
def enabledInterrupt (s : State) (i : HartId) : Option Nat :=
  interruptOrder.find? (fun b => (requests s i).getLsbD b && (s.hart i).trap.mie.getLsbD b)

/-- Interrupts are masked during a single step unless `dcsr.stepie` (R709). -/
def Hart.stepMasks (h : Hart) : Bool := h.dctl.stepping && !h.stepie

/-- The interrupt to take at this boundary (R546, R547). -/
def readyInterrupt (s : State) (i : HartId) : Option Nat :=
  if (s.hart i).mie && !(s.hart i).stepMasks then enabledInterrupt s i else none

/-- `mcause` of the interrupt at bit `b` (R540). -/
def interruptCause (b : Nat) : Word := 0x80000000#32 ||| BitVec.ofNat 32 b

/-- The event an interrupt counts: 38 for the timers, 39 for external (R550, R686). -/
def interruptEvents (b : Nat) : List Nat :=
  if b = 11 then [39] else if b = 7 ∨ b = 29 ∨ b = 28 then [38] else []

/-- The held internal-timer requests end at the instruction boundary (R674). -/
def Hart.dropHeld (h : Hart) : Hart := { h with tmr := { h.tmr with held0 := false, held1 := false } }

/-- Some NMI is requested (R78). -/
def NmiState.any (n : NmiState) : Bool := n.pin || n.store || n.load || n.fast.isSome

/-- `mcause` of a fast-redirect failure (R651). -/
def fastCause : FastFail → Word
  | .ecc => 0xF0001000#32
  | .dccmRegion => 0xF0001001#32
  | .nonDccm => 0xF0001002#32

/-- The NMI to take, and what remains requested: D-bus error (load before store, R562), then fast interrupt, then pin
(R564, D26). -/
def NmiState.next (n : NmiState) : Option (Word × NmiState) :=
  if n.load then some (0xF0000001#32, { n with load := false })
  else if n.store then some (0xF0000000#32, { n with store := false })
  else
    match n.fast with
    | some f => some (fastCause f, { n with fast := none })
    | none => if n.pin then some (0, { n with pin := false }) else none

/-- Take the NMI with this cause: the whole of trap entry, at `{nmi_vec, 0}` (R560, D19). -/
def takeNmi (s : State) (cause : Word) (rest : NmiState) : State :=
  let h := ({ s.me with nmi := rest, pwr := { s.me.pwr with pausing := false } } : Hart).dropHeld
  s.setMe (h.enterTrap cause 0 0 (vectorAddr s.sh.nmiVec))

/-- A hart that takes an interrupt: a pause ends (R703), held requests end (R674), earlier values of the CSRs of R775 are
out of use (U14), the events are counted. -/
def Hart.beginInterrupt (h : Hart) (evs : List Nat) : Hart :=
  (({ h with pwr := { h.pwr with pausing := false }, late := LateCsrs.settled } : Hart).countEvents evs).dropHeld

/-- `mtvec` as the next interrupt finds it: after a write with interrupts enabled the old or the new value, freely
(R775, U14). -/
def State.lateMtvec (s : State) : Word := pickOld s.draws 3 s.me.late.mtvec s.me.trap.mtvec

/-- Take the interrupt at bit `b` in the standard way (R550, R551). -/
def takeInterrupt (s : State) (b : Nat) : State :=
  s.setMe ((s.me.beginInterrupt (interruptEvents b)).enterTrap (interruptCause b) 0 0
    (interruptTarget s.lateMtvec (interruptCause b)))

/-- `meihap` of a hart (R622). -/
def Hart.meihap (h : Hart) : Word := h.pic.meivt ||| (zext h.pic.claimid <<< 2)

/-- Take the external interrupt in a fast-redirect build: capture, look the handler up in the DCCM, enter there; a failed
lookup requests an NMI instead; without a DCCM every lookup is one outside it (DESIGN CHOICE, log 36) (R650, R651). -/
def takeFastInterrupt (s : State) : State :=
  let s := capture s s.cur
  let v := s.me.meihap
  let fail (t : State) (f : FastFail) : State :=
    t.setMe ({ t.me with nmi := { t.me.nmi with fast := some f } } : Hart).dropHeld
  if !Placement.ownsRegion s.cfg.dccm v then fail s .nonDccm
  else if !inDccm s.cfg v then fail s .dccmRegion
  else
    let rs := dccmReads s v 4
    if rs.any (·.2.bad) then fail s.draw .ecc
    else
      let target := evenPc (wordOf (dccmLoadBytes s rs v 4))
      let t := (repairDccm s rs).draw
      t.setMe ((t.me.beginInterrupt [39]).enterTrap (interruptCause 11) 0 0 target)

/-- Take the interrupt at bit `b`. -/
def takeReady (s : State) (b : Nat) : State :=
  if b = 11 ∧ s.cfg.fastRedirect then takeFastInterrupt s else takeInterrupt s b

/-! ## Sleep -/

/-- A quiesced hart is in Sleep: reservation cleared, a PMU halt request acknowledged, `mpc_debug_run_ack` held
(R701, R413, R707). -/
def Hart.sleeps (h : Hart) : Hart :=
  { h with
    activity := .sleep
    res := none
    acks := { h.acks with cpuHalt := h.acks.cpuHalt || h.pins.cpuHaltReq, mpcRun := h.mpcRunAck } }

/-- The hart enters Sleep: quiesced first (R700, R701). -/
def enterSleep (s : State) (i : HartId) : State :=
  let t := quiesce s i
  t.setHart i (t.hart i).sleeps

/-- The interrupts that can wake a sleeping hart beside the external one, by bit number: software, timer, and each
internal timer whose `halt_en` is set (R673, R702). -/
def Hart.wakeBits (h : Hart) : List Nat :=
  [3, 7] ++ (if h.tmr.mitctl0.getLsbD 1 then [29] else []) ++ (if h.tmr.mitctl1.getLsbD 1 then [28] else [])

/-- A wake-up event of a sleeping hart; a requested NMI of any kind is one (DEDUCED, log 23) (R702, R564, D37). -/
def wakeEvent (s : State) (i : HartId) : Bool :=
  let h := s.hart i
  h.pins.cpuRunReq || h.nmi.any
    || (mhwakeup s i && h.mie && h.trap.mie.getLsbD 11)
    || (h.mie && h.wakeBits.any (fun b => (requests s i).getLsbD b && h.trap.mie.getLsbD b))

/-- The hart leaves Sleep, acknowledging a PMU run request (R702, R413). -/
def Hart.wake (h : Hart) : Hart :=
  { h with
    activity := .running
    res := none
    acks := { h.acks with cpuRun := h.acks.cpuRun || h.pins.cpuRunReq } }

end Sys2Proof.Machine
end

