-- ==== Sys2Proof/Machine/Csr.lean ====
section
/-! DEFINITION. The CSR space: numbers, permissions, reads, writes with their legal-value rules and side effects
(R42 to R71, R100 to R144, R500, R508, R509, R602, R620 to R625). -/

namespace Sys2Proof.Machine

/-- The CSRs (R43, R44); `hpm` indices 0 to 3 are counters 3 to 6, `zero` stands for counters and selectors 7 to 31. -/
inductive CsrName where
  | mstatus | misa | mie | mtvec | mcountinhibit
  | mhpmevent (n : Fin 4) | mhpmeventZero
  | mscratch | mepc | mcause | mtval | mip
  | tselect | tdata1 | tdata2 | dcsr | dpc
  | mcycle | minstret | mhpmcounter (n : Fin 4) | mhpmcounterZero
  | mcycleh | minstreth | mhpmcounterh (n : Fin 4) | mhpmcounterhZero
  | mvendorid | marchid | mimpid | mhartid
  | mrac | mcpc | dmst | mpmc
  | dicawics | dicad0 | dicad1 | dicago | dicad0h
  | mfdht | mfdhs
  | mitcnt0 | mitb0 | mitctl0 | mitcnt1 | mitb1 | mitctl1
  | micect | miccmect | mdccmect
  | mcgc | mfdc | mhartstart | mnmipdel | mscause
  | mdeau | meivt | meipt | meicpct | meicidpl | meicurpl
  | mdseac | mhartnum | meihap
deriving DecidableEq, Repr

/-- Which CSR a number names (R43, R44, R63); `none` for every other number (R45). -/
def csrName (csr : BitVec 12) : Option CsrName :=
  let a := csr.toNat
  if 0x327 ≤ a ∧ a ≤ 0x33F then some .mhpmeventZero
  else if 0xB07 ≤ a ∧ a ≤ 0xB1F then some .mhpmcounterZero
  else if 0xB87 ≤ a ∧ a ≤ 0xB9F then some .mhpmcounterhZero
  else
    match a with
    | 0x300 => some .mstatus
    | 0x301 => some .misa
    | 0x304 => some .mie
    | 0x305 => some .mtvec
    | 0x320 => some .mcountinhibit
    | 0x323 => some (.mhpmevent 0)
    | 0x324 => some (.mhpmevent 1)
    | 0x325 => some (.mhpmevent 2)
    | 0x326 => some (.mhpmevent 3)
    | 0x340 => some .mscratch
    | 0x341 => some .mepc
    | 0x342 => some .mcause
    | 0x343 => some .mtval
    | 0x344 => some .mip
    | 0x7A0 => some .tselect
    | 0x7A1 => some .tdata1
    | 0x7A2 => some .tdata2
    | 0x7B0 => some .dcsr
    | 0x7B1 => some .dpc
    | 0x7C0 => some .mrac
    | 0x7C2 => some .mcpc
    | 0x7C4 => some .dmst
    | 0x7C6 => some .mpmc
    | 0x7C8 => some .dicawics
    | 0x7C9 => some .dicad0
    | 0x7CA => some .dicad1
    | 0x7CB => some .dicago
    | 0x7CC => some .dicad0h
    | 0x7CE => some .mfdht
    | 0x7CF => some .mfdhs
    | 0x7D2 => some .mitcnt0
    | 0x7D3 => some .mitb0
    | 0x7D4 => some .mitctl0
    | 0x7D5 => some .mitcnt1
    | 0x7D6 => some .mitb1
    | 0x7D7 => some .mitctl1
    | 0x7F0 => some .micect
    | 0x7F1 => some .miccmect
    | 0x7F2 => some .mdccmect
    | 0x7F8 => some .mcgc
    | 0x7F9 => some .mfdc
    | 0x7FC => some .mhartstart
    | 0x7FE => some .mnmipdel
    | 0x7FF => some .mscause
    | 0xB00 => some .mcycle
    | 0xB02 => some .minstret
    | 0xB03 => some (.mhpmcounter 0)
    | 0xB04 => some (.mhpmcounter 1)
    | 0xB05 => some (.mhpmcounter 2)
    | 0xB06 => some (.mhpmcounter 3)
    | 0xB80 => some .mcycleh
    | 0xB82 => some .minstreth
    | 0xB83 => some (.mhpmcounterh 0)
    | 0xB84 => some (.mhpmcounterh 1)
    | 0xB85 => some (.mhpmcounterh 2)
    | 0xB86 => some (.mhpmcounterh 3)
    | 0xBC0 => some .mdeau
    | 0xBC8 => some .meivt
    | 0xBC9 => some .meipt
    | 0xBCA => some .meicpct
    | 0xBCB => some .meicidpl
    | 0xBCC => some .meicurpl
    | 0xF11 => some .mvendorid
    | 0xF12 => some .marchid
    | 0xF13 => some .mimpid
    | 0xF14 => some .mhartid
    | 0xFC0 => some .mdseac
    | 0xFC4 => some .mhartnum
    | 0xFC8 => some .meihap
    | _ => none

/-- The CSR number is read-only: `csr[11:10] = 0b11` (R47). -/
def csrReadOnly (csr : BitVec 12) : Bool := csr.extractLsb' 10 2 == 0b11#2

/-- The Debug-Mode-only CSRs (R46). -/
def CsrName.debugOnly : CsrName → Bool
  | .dcsr | .dpc | .dmst | .dicawics | .dicad0 | .dicad1 | .dicago | .dicad0h => true
  | _ => false

/-- The CSR an instruction reaches, or `none` where it raises illegal instruction: absent, read-only and written,
Debug-Mode-only outside `db-halt` (single-stepped instructions included), `meicpct` with fast redirect (R508). -/
def csrAccess (s : State) (csr : BitVec 12) (writes : Bool) : Option CsrName :=
  match csrName csr with
  | none => none
  | some n =>
    if writes && csrReadOnly csr then none
    else if n.debugOnly && s.me.activity != .dbgHalt then none
    else if n = .meicpct ∧ s.cfg.fastRedirect then none
    else some n

/-! ## Reading -/

/-- Counter 3 to 6 by index. -/
def Counters.get (c : Counters) (n : Fin 4) : Hpm :=
  match n with
  | 0 => c.hpm3
  | 1 => c.hpm4
  | 2 => c.hpm5
  | 3 => c.hpm6

/-- Replace counter 3 to 6 by index. -/
def Counters.set (c : Counters) (n : Fin 4) (h : Hpm) : Counters :=
  match n with
  | 0 => { c with hpm3 := h }
  | 1 => { c with hpm4 := h }
  | 2 => { c with hpm5 := h }
  | 3 => { c with hpm6 := h }

/-- Low half of a counter. -/
def lowHalf (v : BitVec 64) : Word := v.extractLsb' 0 32

/-- High half of a counter. -/
def highHalf (v : BitVec 64) : Word := v.extractLsb' 32 32

/-- Replace the low half (R64). -/
def setLow (v : BitVec 64) (w : Word) : BitVec 64 := highHalf v ++ w

/-- Replace the high half (R64). -/
def setHigh (v : BitVec 64) (w : Word) : BitVec 64 := w ++ lowHalf v

/-- The selected trigger; all zero where there is none (R68, U30). -/
def DebugCsrs.selected (d : DebugCsrs) : Trigger :=
  match d.triggers[d.tselect.toNat]? with
  | some t => t
  | none => { tdata1 := 0, tdata2 := 0 }

/-- Bytes of one way of the I-cache (R9). -/
def wayBytes (cfg : BuildConfig) : Nat := cfg.icacheSizeKB * 1024 / cfg.icacheWays

/-- Which bits of `dicawics` exist: the array, the ways, and the index bits of one way of the cache (R140). -/
def dicawicsMask (cfg : BuildConfig) : Word :=
  0x01000000#32 ||| (if cfg.icacheWays = 4 then 0x00300000#32 else 0x00100000#32)
    ||| (BitVec.ofNat 32 (wayBytes cfg - 1) &&& 0x0001FFF8#32)

/-- Which bits of `dicad0` exist under the selected array: all of a data word; of a tag the bits above the index, the LRU
bits of the set, the unused bits, valid (R141). -/
def dicad0Mask (cfg : BuildConfig) (dicawics : Word) : Word :=
  if dicawics.getLsbD 24 then
    BitVec.ofNat 32 ((2 ^ 32 / wayBytes cfg - 1) * 2 ^ 11) ||| (if cfg.icacheWays = 4 then 0x7FF#32 else 0x79F#32)
  else 0xFFFFFFFF#32

/-- Which bits of `dicad1` exist: by the I-cache protection and the selected array (R143). -/
def dicad1Mask (cfg : BuildConfig) (dicawics : Word) : Word :=
  match cfg.icacheEcc, dicawics.getLsbD 24 with
  | false, false => 0xF#32
  | false, true => 0x1#32
  | true, false => 0x7F#32
  | true, true => 0x1F#32

/-- The output `dec_tlu_mhartstart[h]`: bit `h` of `mhartstart`, the hart has been started (R111). -/
def Shared.decTluMhartstart (c : Shared) : HartId → Bool
  | .t0 => true
  | .t1 => c.start1

/-- `CSR[n]` as the executing hart reads it (R500): derived fields computed, trigger registers read 0. -/
def csrRead (s : State) (n : CsrName) : Word :=
  let h := s.me
  match n with
  | .mstatus => h.trap.mstatus
  | .misa => 0x40001105#32
  | .mie => h.trap.mie
  | .mtvec => h.trap.mtvec
  | .mcountinhibit => h.ctr.mcountinhibit
  | .mhpmevent k => (h.ctr.get k).event
  | .mhpmeventZero => 0
  | .mscratch => h.trap.mscratch
  | .mepc => h.trap.mepc
  | .mcause => h.trap.mcause
  | .mtval => h.trap.mtval
  | .mip => mipOf s s.cur
  | .tselect => h.dbg.tselect
  | .tdata1 => h.dbg.selected.tdata1
  | .tdata2 => h.dbg.selected.tdata2
  | .dcsr => putBit h.dbg.dcsr 3 h.nmi.any
  | .dpc => h.dbg.dpc
  | .mcycle => lowHalf h.ctr.mcycle
  | .minstret => lowHalf h.ctr.minstret
  | .mhpmcounter k => lowHalf (h.ctr.get k).count
  | .mhpmcounterZero => 0
  | .mcycleh => highHalf h.ctr.mcycle
  | .minstreth => highHalf h.ctr.minstret
  | .mhpmcounterh k => highHalf (h.ctr.get k).count
  | .mhpmcounterhZero => 0
  | .mvendorid => 0x00000045#32
  | .marchid => 0x00000011#32
  | .mimpid => 0x00000002#32
  | .mhartid => s.cfg.coreId ++ BitVec.ofNat 4 s.cur.toNat
  | .mrac => s.sh.mrac
  | .mcpc => 0
  | .dmst => 0
  | .mpmc => if h.pwr.haltie then 2 else 0
  | .dicawics => h.dbg.dicawics
  | .dicad0 => h.dbg.dicad0 &&& dicad0Mask s.cfg h.dbg.dicawics
  | .dicad1 => h.dbg.dicad1 &&& dicad1Mask s.cfg h.dbg.dicawics
  | .dicago => 0
  | .dicad0h => h.dbg.dicad0h
  | .mfdht => s.sh.mfdht
  | .mfdhs => h.pwr.mfdhs
  | .mitcnt0 => h.tmr.mitcnt0
  | .mitb0 => h.tmr.mitb0
  | .mitctl0 => h.tmr.mitctl0
  | .mitcnt1 => h.tmr.mitcnt1
  | .mitb1 => h.tmr.mitb1
  | .mitctl1 => h.tmr.mitctl1
  | .micect => s.sh.micect
  | .miccmect => s.sh.miccmect
  | .mdccmect => s.sh.mdccmect
  | .mcgc => s.sh.mcgc
  | .mfdc => s.sh.mfdc
  | .mhartstart => if s.sh.start1 then 3 else 1
  | .mnmipdel => s.sh.mnmipdel
  | .mscause => zext h.trap.mscause
  | .mdeau => 0
  | .meivt => h.pic.meivt
  | .meipt => zext (priorityView s.sh.priord h.pic.prithresh)
  | .meicpct => 0
  | .meicidpl => zext (priorityView s.sh.priord h.pic.clidpri)
  | .meicurpl => zext (priorityView s.sh.priord h.pic.currpri)
  | .mdseac => h.nmi.mdseac
  | .mhartnum => if s.cfg.dualThread then 2 else 1
  | .meihap => h.meihap

/-- The side effect of reading a CSR: only `dicago` has one, an I-cache array read whose data is arbitrary
(R144, U7, log 27). -/
def csrReadEffect (s : State) (n : CsrName) : State :=
  match n with
  | .dicago =>
    (s.setMe { s.me with dbg := { s.me.dbg with
        dicad0 := Config.freeWord s.draws 0 &&& dicad0Mask s.cfg s.me.dbg.dicawics
        dicad0h := Config.freeWord s.draws 1
        dicad1 := Config.freeWord s.draws 2 &&& dicad1Mask s.cfg s.me.dbg.dicawics } }).draw
  | _ => s

/-! ## Writing: legal values -/

/-- `mstatus`: `MIE` and `MPIE` writable, `MPP` = 3 (R48). -/
def legalMstatus (v : Word) : Word := (v &&& 0x00000088#32) ||| 0x00001800#32

/-- `mtvec`: `MODE` bit 1 hardwired 0 (R49). -/
def legalMtvec (v : Word) : Word := v &&& 0xFFFFFFFD#32

/-- `mie` (R55). -/
def legalMie (v : Word) : Word := v &&& 0x70000888#32

/-- `mcountinhibit` (R61). -/
def legalInhibit (v : Word) : Word := v &&& 0x0000007D#32

/-- `mhpmevent`: above 516 becomes 516 (R62). -/
def legalEvent (v : Word) : Word := if 516 < v.toNat then 516 else v

/-- The legal values of `mcause` (R59). -/
def legalCauses : List Word :=
  [0x00000000#32, 0x00000001#32, 0x00000002#32, 0x00000003#32, 0x00000004#32, 0x00000005#32, 0x00000006#32,
   0x00000007#32, 0x0000000B#32, 0x80000003#32, 0x80000007#32, 0x8000000B#32, 0x8000001C#32, 0x8000001D#32,
   0x8000001E#32, 0xF0000000#32, 0xF0000001#32, 0xF0001000#32, 0xF0001001#32, 0xF0001002#32]

/-- `mrac`: the pair `11` becomes `10` (R100). -/
def legalMrac (v : Word) : Word := v &&& ~~~((v >>> 1) &&& v &&& 0x55555555#32)

/-- An error counter and threshold: `thresh` above 26 becomes 26 (R105 to R107). -/
def legalErrorCounter (v : Word) : Word :=
  if 26 < (v.extractLsb' 27 5).toNat then (26#32 <<< 27) ||| (v &&& 0x07FFFFFF#32) else v

/-- `mfdc` (R130). -/
def legalMfdc (v : Word) : Word := v &&& 0x00070D4D#32

/-- `dcsr`: `ebreakm`, `stepie`, `stopcount`, `stoptime` and `step` writable (R70, log 19). -/
def legalDcsr (old v : Word) : Word := (old &&& 0xFFFF71FB#32) ||| (v &&& 0x00008E04#32)

/-- `tdata1`: type 2 with the writable fields of R68; `dmode` only from Debug Mode, `action` 1 only with `dmode`
(PRESUMED, log 18). -/
def legalTdata1 (inDebug : Bool) (v : Word) : Word :=
  let dmode := inDebug && v.getLsbD 27
  let action := dmode && v.extractLsb' 12 4 == 1#4
  putBit (putBit (0x23E00000#32 ||| (v &&& 0x001808C7#32)) 27 dmode) 12 action

/-- The index a write of `tselect` selects: one that exists (R67, log 18). -/
def legalTselect (numTriggers : Nat) (v : Word) : Word := BitVec.ofNat 32 (v.toNat % max 1 numTriggers)

/-- Write the selected trigger, unless it is a Debug Mode trigger written from machine mode (R68). -/
def DebugCsrs.modSelected (d : DebugCsrs) (inDebug : Bool) (f : Trigger → Trigger) : DebugCsrs :=
  let g := fun t : Trigger => if t.tdata1.getLsbD 27 && !inDebug then t else f t
  { d with triggers := d.triggers.modify d.tselect.toNat g }

/-! ## Writing: side effects -/

/-- T1 starts at the reset vector with nothing prefetched, running, or in `db-halt` by `mpc_reset_run_req[1]`, where an
MPC run request that was pending is then in effect (R704, R754, R755). A debugger's halt request stays pending until then
(DESIGN CHOICE, log 24). A `cpu_run_req` that is up already is never acknowledged: the hart runs, and R704 says that an
acknowledge may not be signaled then (DESIGN CHOICE, log 24). -/
def startT1 (s : State) : State :=
  let h : Hart := { s.h1 with pc := vectorAddr s.cfg.rstVec, buf := { s.h1.buf with prefetch := [] } }
  let g := h.haltForDebug 3 true
  { s with
    h1 := if h.pins.mpcResetRunReq then { h with activity := .running }
          else if h.pins.mpcRunReq then ({ g with dctl := { g.dctl with mpcRun := true } } : Hart).tryLeave
          else g
    sh := { s.sh with start1 := true } }

/-- The earlier value a write of a shared CSR leaves behind, for each hart that has been started (R771, R772, U13). -/
def State.oldFor (s : State) (v : Word) : List (HartId × Word) :=
  (.t0, v) :: (if s.sh.start1 then [(.t1, v)] else [])

/-- The earlier value a write of `mtvec`, `meipt` or `meicurpl` leaves behind: with interrupts enabled (R775, U14). -/
def Hart.lateIf {α : Type} (h : Hart) (v : α) : List α := if h.mie then [v] else []

/-- A write of `mpmc`: outside Debug Mode, `halt` puts the hart to Sleep, with `MIE` set if the new `haltie` is
(R120, D32); in Debug Mode only `haltie` is written. -/
def writeMpmc (s : State) (v : Word) : State :=
  let s := s.setMe { s.me with pwr := { s.me.pwr with haltie := v.getLsbD 1 } }
  if v.getLsbD 0 && !s.me.debugMode then
    let s := if v.getLsbD 1 then
        s.setMe { s.me with trap := { s.me.trap with mstatus := putBit s.me.trap.mstatus 3 true } }
      else s
    enterSleep s s.cur
  else s

/-- `CSR[n] <- v` by the executing hart, through the CSR's write rule, with its side effects (R500, R509). A write of
`dicago.go` marks the I-cache as altered in a build with `RV_ICACHE_ENABLE` = 0 too (DESIGN CHOICE: the spec is silent; log
35). -/
def csrWrite (s : State) (n : CsrName) (v : Word) : State :=
  let h := s.me
  let inDebug := h.activity == .dbgHalt
  match n with
  | .mstatus => s.setMe { h with trap := { h.trap with mstatus := legalMstatus v } }
  | .misa => s
  | .mie => s.setMe { h with trap := { h.trap with mie := legalMie v } }
  | .mtvec =>
    s.setMe { h with
      trap := { h.trap with mtvec := legalMtvec v }
      late := { h.late with mtvec := h.late.mtvec ++ h.lateIf h.trap.mtvec } }
  | .mcountinhibit => s.setMe { h with ctr := { h.ctr with mcountinhibit := legalInhibit v } }
  | .mhpmevent k => s.setMe { h with ctr := h.ctr.set k { h.ctr.get k with event := legalEvent v } }
  | .mhpmeventZero => s
  | .mscratch => s.setMe { h with trap := { h.trap with mscratch := v } }
  | .mepc => s.setMe { h with trap := { h.trap with mepc := evenPc v } }
  | .mcause =>
    if v ∈ legalCauses then s.setMe { h with trap := { h.trap with mcause := v } }
    else (s.setMe { h with trap := { h.trap with mcause := Config.freeWord s.draws 0 } }).draw
  | .mtval => s.setMe { h with trap := { h.trap with mtval := v } }
  | .mip => s
  | .tselect => s.setMe { h with dbg := { h.dbg with tselect := legalTselect h.dbg.triggers.length v } }
  | .tdata1 =>
    s.setMe { h with dbg := h.dbg.modSelected inDebug (fun t => { t with tdata1 := legalTdata1 inDebug v }) }
  | .tdata2 => s.setMe { h with dbg := h.dbg.modSelected inDebug (fun t => { t with tdata2 := v }) }
  | .dcsr => s.setMe { h with dbg := { h.dbg with dcsr := legalDcsr h.dbg.dcsr v } }
  | .dpc => s.setMe { h with dbg := { h.dbg with dpc := evenPc v } }
  | .mcycle => s.setMe { h with ctr := { h.ctr with mcycle := setLow h.ctr.mcycle v } }
  | .minstret => s.setMe { h with ctr := { h.ctr with minstret := setLow h.ctr.minstret v } }
  | .mhpmcounter k =>
    s.setMe { h with ctr := h.ctr.set k { h.ctr.get k with count := setLow (h.ctr.get k).count v } }
  | .mhpmcounterZero => s
  | .mcycleh => s.setMe { h with ctr := { h.ctr with mcycle := setHigh h.ctr.mcycle v } }
  | .minstreth => s.setMe { h with ctr := { h.ctr with minstret := setHigh h.ctr.minstret v } }
  | .mhpmcounterh k =>
    s.setMe { h with ctr := h.ctr.set k { h.ctr.get k with count := setHigh (h.ctr.get k).count v } }
  | .mhpmcounterhZero => s
  | .mvendorid => s
  | .marchid => s
  | .mimpid => s
  | .mhartid => s
  | .mrac =>
    { s with sh := { s.sh with
        mrac := legalMrac v
        mracOld := s.sh.mracOld ++ s.oldFor s.sh.mrac
        mracOldFetch := s.sh.mracOldFetch ++ s.oldFor s.sh.mrac } }
  | .mcpc => s.setMe { h with pwr := { h.pwr with pausing := true, pauseCount := v } }
  | .dmst =>
    if v.getLsbD 0 then fenceIHart s s.cur else if v.getLsbD 1 then fenceHart s s.cur else s
  | .mpmc => writeMpmc s v
  | .dicawics => s.setMe { h with dbg := { h.dbg with dicawics := v &&& dicawicsMask s.cfg } }
  | .dicad0 => s.setMe { h with dbg := { h.dbg with dicad0 := v &&& dicad0Mask s.cfg h.dbg.dicawics } }
  | .dicad1 => s.setMe { h with dbg := { h.dbg with dicad1 := v &&& dicad1Mask s.cfg h.dbg.dicawics } }
  | .dicago => if v.getLsbD 0 then { s with sh := { s.sh with icPoison := true } } else s
  | .dicad0h => s.setMe { h with dbg := { h.dbg with dicad0h := v } }
  | .mfdht => { s with sh := { s.sh with mfdht := v &&& 0x3F#32 } }
  | .mfdhs => s.setMe { h with pwr := { h.pwr with mfdhs := v &&& 3#32 } }
  | .mitcnt0 => s.setMe { h with tmr := { h.tmr with mitcnt0 := v } }
  | .mitb0 => s.setMe { h with tmr := { h.tmr with mitb0 := v } }
  | .mitctl0 => s.setMe { h with tmr := { h.tmr with mitctl0 := v &&& 7#32 } }
  | .mitcnt1 => s.setMe { h with tmr := { h.tmr with mitcnt1 := v } }
  | .mitb1 => s.setMe { h with tmr := { h.tmr with mitb1 := v } }
  | .mitctl1 => s.setMe { h with tmr := { h.tmr with mitctl1 := v &&& 0xF#32 } }
  | .micect => { s with sh := { s.sh with micect := legalErrorCounter v } }
  | .miccmect => { s with sh := { s.sh with miccmect := legalErrorCounter v } }
  | .mdccmect => { s with sh := { s.sh with mdccmect := legalErrorCounter v } }
  | .mcgc => { s with sh := { s.sh with mcgc := v &&& 0x1FF#32 } }
  | .mfdc => { s with sh := { s.sh with mfdc := legalMfdc v, mfdcOld := s.sh.mfdcOld ++ s.oldFor s.sh.mfdc } }
  | .mhartstart => if v.getLsbD 1 && s.cfg.dualThread && !s.sh.start1 then startT1 s else s
  | .mnmipdel =>
    let w := v &&& (if s.cfg.dualThread then 3#32 else 1#32)
    if w = 0 then s else { s with sh := { s.sh with mnmipdel := w } }
  | .mscause => s.setMe { h with trap := { h.trap with mscause := v.extractLsb' 0 4 } }
  | .mdeau => s.setMe { h with nmi := { h.nmi with locked := false } }
  | .meivt => s.setMe { h with pic := { h.pic with meivt := v &&& 0xFFFFFC00#32 } }
  | .meipt =>
    s.setMe { h with
      pic := { h.pic with prithresh := priorityView s.sh.priord (v.extractLsb' 0 4) }
      late := { h.late with prithresh := h.late.prithresh ++ h.lateIf h.pic.prithresh } }
  | .meicpct => capture s s.cur
  | .meicidpl => s.setMe { h with pic := { h.pic with clidpri := priorityView s.sh.priord (v.extractLsb' 0 4) } }
  | .meicurpl =>
    s.setMe { h with
      pic := { h.pic with currpri := priorityView s.sh.priord (v.extractLsb' 0 4) }
      late := { h.late with currpri := h.late.currpri ++ h.lateIf h.pic.currpri } }
  | .mdseac => s
  | .mhartnum => s
  | .meihap => s

/-! ## The six instructions -/

/-- The event a committed Zicsr instruction counts (R509, D16). -/
def csrEvents (rd : Reg) (writes : Bool) : List Nat :=
  if !writes then [16] else if rd = 0 then [18] else [17]

/-- A Zicsr instruction: one read-modify-write. Counters are incremented after the read and before the write
(R500, R501, R508, R509). `i` is the instruction, for the trap value of an illegal access. -/
def State.csrInstr (s : State) (i : Instr) (csr : BitVec 12) (rd : Reg) (reads writes : Bool) (f : Word → Word) :
    State :=
  match csrAccess s csr writes with
  | none => s.raiseIllegal (encode i).zext
  | some n =>
    let old := csrRead s n
    let t := if reads then csrReadEffect s n else s
    let u := (t.setReg rd old).complete 4 (csrEvents rd writes)
    if writes then csrWrite u n (f old) else u

end Sys2Proof.Machine
end

