-- ==== Sys2Proof/Machine/Zicsr.lean ====
section
/-! DEFINITION. The CSR instructions (R500 to R509). -/

namespace Sys2Proof.Machine

/-- `csrrw`: does not read with `rd = x0` (R502). -/
def execCsrrw (rd rs1 : Reg) (csr : BitVec 12) (s : State) : Host.Outcome State Fault Refusal :=
  let v := s.reg rs1
  .next (s.csrInstr (.csrrw rd rs1 csr) csr rd (decide (rd ≠ 0)) true (fun _ => v))

/-- `csrrs`: does not write with `rs1 = x0` (R503). -/
def execCsrrs (rd rs1 : Reg) (csr : BitVec 12) (s : State) : Host.Outcome State Fault Refusal :=
  let v := s.reg rs1
  .next (s.csrInstr (.csrrs rd rs1 csr) csr rd true (decide (rs1 ≠ 0)) (fun old => old ||| v))

/-- `csrrc`: does not write with `rs1 = x0` (R504). -/
def execCsrrc (rd rs1 : Reg) (csr : BitVec 12) (s : State) : Host.Outcome State Fault Refusal :=
  let v := s.reg rs1
  .next (s.csrInstr (.csrrc rd rs1 csr) csr rd true (decide (rs1 ≠ 0)) (fun old => old &&& ~~~v))

/-- `csrrwi`: does not read with `rd = x0` (R505). -/
def execCsrrwi (rd : Reg) (uimm : BitVec 5) (csr : BitVec 12) (s : State) : Host.Outcome State Fault Refusal :=
  .next (s.csrInstr (.csrrwi rd uimm csr) csr rd (decide (rd ≠ 0)) true (fun _ => zext uimm))

/-- `csrrsi`: does not write with `uimm = 0` (R506). -/
def execCsrrsi (rd : Reg) (uimm : BitVec 5) (csr : BitVec 12) (s : State) : Host.Outcome State Fault Refusal :=
  .next (s.csrInstr (.csrrsi rd uimm csr) csr rd true (decide (uimm ≠ 0)) (fun old => old ||| zext uimm))

/-- `csrrci`: does not write with `uimm = 0` (R507). -/
def execCsrrci (rd : Reg) (uimm : BitVec 5) (csr : BitVec 12) (s : State) : Host.Outcome State Fault Refusal :=
  .next (s.csrInstr (.csrrci rd uimm csr) csr rd true (decide (uimm ≠ 0)) (fun old => old &&& ~~~(zext uimm)))

end Sys2Proof.Machine
end

