-- ==== Sys2Proof/Machine/Env.lean ====
section
/-! DEFINITION. The agents other than the harts: clock, DMA, memory errors, instruction-side fills, pins, debugger
requests, reset (R30, R231, R235 to R248, R541, R561, R671 to R683, R701 to R714, R750 to R756). -/

namespace Sys2Proof.Machine

/-! ## Clock (R680) -/

/-- The increment condition of a timer with this control register (R671). -/
def Hart.timerRuns (h : Hart) (ctl : Word) : Bool :=
  ctl.getLsbD 0
    && (match h.activity with
      | .running => !h.pwr.pausing || ctl.getLsbD 2
      | .sleep => ctl.getLsbD 1
      | .idle => false
      | .dbgHalt => false)

/-- One clock step of the internal timers (R672 to R675): clear at the bound, else count; in cascade mode timer 1 counts
when timer 0 hits. An enabled interrupt is held to the next boundary (R674). -/
def Hart.tickTimers (h : Hart) : Hart :=
  let t := h.tmr
  let hold := h.mie && h.activity != .dbgHalt
  let inc1 := h.timerRuns t.mitctl1 && (!t.mitctl1.getLsbD 3 || t.hit0)
  { h with tmr := { t with
      mitcnt0 := if t.hit0 then 0 else if h.timerRuns t.mitctl0 then t.mitcnt0 + 1 else t.mitcnt0
      mitcnt1 := if t.hit1 then 0 else if inc1 then t.mitcnt1 + 1 else t.mitcnt1
      held0 := t.held0 || (t.hit0 && hold && h.trap.mie.getLsbD 29)
      held1 := t.held1 || (t.hit1 && hold && h.trap.mie.getLsbD 28) } }

/-- One clock step of the pause counter (R703). -/
def Hart.tickPause (h : Hart) : Hart :=
  if h.pwr.pausing && h.activity != .sleep then
    if h.pwr.pauseCount = 0 then { h with pwr := { h.pwr with pausing := false } }
    else { h with pwr := { h.pwr with pauseCount := h.pwr.pauseCount - 1 } }
  else h

/-- Events whose counts depend on the microarchitecture (R687). -/
def microEvents : List Nat :=
  [1, 2, 3, 7, 8, 25, 27, 28, 29, 30, 31, 32, 34, 35, 36, 40, 41, 42, 43, 44, 45, 46, 47, 48, 49, 50]

/-- What an event counter gains in one clock step: an arbitrary amount for a microarchitectural event, one for event 512
in Sleep (R683, R687, U22). -/
def tickGain (h : Hart) (c : Hpm) (draw key : Nat) : Nat :=
  if h.activity = .sleep then (if c.event = 512 then 1 else 0)
  else if h.countersRun && microEvents.contains c.event.toNat then Config.freeCount draw key
  else 0

/-- One clock step of the counters (R64, R680, R682). -/
def Hart.tickCounters (h : Hart) (draw : Nat) : Hart :=
  let c := h.ctr
  { h with ctr := { c with
      mcycle := if h.countersRun && !c.mcountinhibit.getLsbD 0 then c.mcycle + 1 else c.mcycle
      hpm3 := c.hpm3.add (c.mcountinhibit.getLsbD 3) (tickGain h c.hpm3 draw 3)
      hpm4 := c.hpm4.add (c.mcountinhibit.getLsbD 4) (tickGain h c.hpm4 draw 4)
      hpm5 := c.hpm5.add (c.mcountinhibit.getLsbD 5) (tickGain h c.hpm5 draw 5)
      hpm6 := c.hpm6.add (c.mcountinhibit.getLsbD 6) (tickGain h c.hpm6 draw 6) } }

/-- The pending entry to Debug Mode, with its cause and whether the MPC asked for it: the debugger's request, else the
MPC's pin (R704, R705, R707). -/
def Hart.debugRequest (h : Hart) : Option (BitVec 3 × Bool) :=
  match h.activity with
  | .running | .sleep =>
    match h.dctl.pending with
    | some c => some (c, false)
    | none => if h.pins.mpcHaltReq then some (3, true) else none
  | .idle => none
  | .dbgHalt => none

/-- The bytes of dropped stores are arbitrary afterwards (R712, U20). -/
def scrambleBytes (s : State) (a : Nat) : List Byte → State
  | [] => s
  | _ :: bs => scrambleBytes (busWriteByte s true a (Config.freeByte s.draws a)) (a + 1) bs

/-- The forced debug halt: outstanding bus transactions are dropped, loads among them never write their register, `mfdhs`
says which, the hart enters `db-halt` (R712, D34). -/
def forceDebug (s : State) (i : HartId) (cause : BitVec 3) (mpc : Bool) : State :=
  let b := (s.hart i).buf
  let lost := !b.wb.isEmpty || !b.inflight.isEmpty
  let t := (b.wb.foldl (fun t e => scrambleBytes t e.addr.toNat e.data) s).draw
  let t := drainSqAll ((t.setWb i []).setInflight i []) i
  let h := t.hart i
  let m := putBit (putBit h.pwr.mfdhs 1 (h.pwr.mfdhs.getLsbD 1 || lost)) 0 (h.pwr.mfdhs.getLsbD 0 || b.ifuBusy)
  t.setHart i
    (({ h with buf := { h.buf with ifuBusy := false, ahead := [] }, pwr := { h.pwr with mfdhs := m } } : Hart).haltForDebug cause mpc)

/-- One clock step of the forced-debug-halt timeout (R122, R712). -/
def tickTimeout (s : State) (i : HartId) : State :=
  let h := s.hart i
  match h.debugRequest with
  | none => s
  | some r =>
    if s.sh.mfdht.getLsbD 0 && h.busBusy then
      let n := h.dctl.timeout + 1
      let t := s.setHart i { h with dctl := { h.dctl with timeout := n } }
      if 2 ^ (s.sh.mfdht.extractLsb' 1 5).toNat ≤ n then forceDebug t i r.1 r.2 else t
    else s

/-- One clock step of a hart; an idle hart is held in reset (R671, R680). -/
def tickHart (s : State) (i : HartId) : State :=
  if (s.hart i).activity = .idle then s
  else tickTimeout (s.setHart i ((((s.hart i).tickCounters s.draws).tickTimers).tickPause)) i

/-- One clock step (R680). -/
def tick (s : State) : State := (tickHart (tickHart s .t0).draw .t1).draw

/-! ## DMA (R245 to R248) -/

/-- Count core-wide DMA events on every hart whose counters run (R682, R683). -/
def countDma (s : State) (evs : List Nat) : State :=
  { s with h0 := s.h0.countEvents evs, h1 := s.h1.countEvents evs }

/-- The 32-bit words an aligned DMA access covers, in the order they are accessed: the lower one first (DESIGN CHOICE: R248
and D3 do not order them; log 31). -/
def dmaWords (a : Word) (n : Nat) : List Nat := if n = 8 then [a.toNat / 4, a.toNat / 4 + 1] else [a.toNat / 4]

/-- The response of the DMA slave (R245). -/
def State.respond (s : State) (r : DmaResp) : State := { s with sh := { s.sh with dmaResp := r } }

/-- The ICCM or the DCCM after words were read, corrections written back and counted (R236, R237). -/
def coreRepair (s : State) (dccm : Bool) (rs : List (Nat × WordRead)) : State :=
  if dccm then repairDccm s rs
  else
    { s with sh := { s.sh with
        iccm := rs.foldl (fun m p => m.repair p.1 p.2) s.sh.iccm
        miccmect := bumpErrorCounterBy (countFixed rs) s.sh.miccmect } }

/-- One word of a DMA write: the whole word and its ECC (R238, R246). -/
def CoreMem.dmaSet (m : CoreMem) (p : Nat × Word) : CoreMem := (m.setWord p.1 p.2).setStatus p.1 .ok

/-- A word written by DMA: to the DCCM, where the reservations on it are lost (R413), or to the ICCM. -/
def dmaWriteWord (s : State) (dccm : Bool) (p : Nat × Word) : State :=
  if dccm then
    { s with
      h0 := s.h0.clearResAt (4 * p.1)
      h1 := s.h1.clearResAt (4 * p.1)
      sh := { s.sh with dccm := s.sh.dccm.dmaSet p } }
  else { s with sh := { s.sh with iccm := s.sh.iccm.dmaSet p } }

/-- The DMA access as it stands after its last word: the response, an error if a word had an uncorrectable one (R238,
R245). -/
def DmaJob.response (j : DmaJob) : DmaResp := if j.bad then .error else if j.read then .data j.done else .ok

/-- The access goes on, or is answered where no word is left. -/
def State.putJob (s : State) (j : DmaJob) : State :=
  match j.todo with
  | [] => { s with sh := { s.sh with dmaJob := none, dmaResp := j.response } }
  | _ :: _ => { s with sh := { s.sh with dmaJob := some j } }

/-- One word of a DMA access: each is a step of its own, each read word corrected and counted on its own
(R236, R237, R248). -/
def dmaWordStep (s : State) (j : DmaJob) (p : Nat × Word) (rest : List (Nat × Word)) : State :=
  if j.read then
    let r := (if j.dccm then s.sh.dccm else s.sh.iccm).readWord (s.cecd none) none false s.draws p.1
    (((coreRepair s j.dccm [(p.1, r)])).putJob
      { j with todo := rest, done := j.done ++ [r.data], bad := j.bad || r.bad }).draw
  else (dmaWriteWord s j.dccm p).putJob { j with todo := rest }

/-- The next word of the DMA access under way (R248). -/
def dmaNext (s : State) : State :=
  match s.sh.dmaJob with
  | none => s
  | some j =>
    match j.todo with
    | [] => s.putJob j
    | p :: rest => dmaWordStep s j p rest

/-- The DMA access under way runs to its end. -/
def dmaFinish (s : State) : State :=
  match s.sh.dmaJob with
  | none => s
  | some j => (() :: j.todo.map (fun _ => ())).foldl (fun t _ => dmaNext t) s

/-- A DMA access to the DCCM (`dccm`) or the ICCM begins with its first word, after the one under way. -/
def dmaBegin (s : State) (dccm read : Bool) (todo : List (Nat × Word)) : State :=
  let t := dmaFinish s
  dmaNext { t with sh := { t.sh with
    dmaJob := some { dccm := dccm, read := read, todo := todo, done := [], bad := false } } }

/-- The events of a DMA access: `read` or write, and the DCCM one (R686). -/
def dmaEvents (read dccm : Bool) : List Nat :=
  (if read then [513] else [514]) ++ (if dccm then (if read then [515] else [516]) else [])

/-- A DMA read: a bus error outside ICCM and DCCM and on misalignment (R245, R246). -/
def dmaRead (s : State) (a : Word) (n : Nat) : State :=
  let t := countDma s (dmaEvents true (inDccm s.cfg a))
  if (inDccm s.cfg a || inIccm s.cfg a) && [1, 2, 4, 8].contains n && decide (a.toNat % n = 0) then
    dmaBegin t (inDccm s.cfg a) true ((dmaWords a n).map (fun i => (i, 0)))
  else (dmaFinish t).respond .error

/-- The words a DMA write replaces, the lower one first (DESIGN CHOICE: R248 and D3 do not order them; log 31), or `none`
where its size, alignment or byte enables are not allowed (R246). -/
def dmaWriteWords (a : Word) (n : Nat) (strobe : BitVec 8) (data : BitVec 64) : Option (List (Nat × Word)) :=
  let i := a.toNat / 4
  let lo : Word := data.extractLsb' 0 32
  let hi : Word := data.extractLsb' 32 32
  if n = 8 ∧ a.toNat % 8 = 0 ∧ strobe = 0xFF#8 then some [(i, lo), (i + 1, hi)]
  else if a.toNat % 8 = 0 ∧ (n = 4 ∨ n = 8) ∧ strobe = 0x0F#8 then some [(i, lo)]
  else if n = 4 ∧ a.toNat % 8 = 4 ∧ strobe = 0xF0#8 then some [(i, hi)]
  else if n = 8 ∧ a.toNat % 8 = 0 ∧ strobe = 0xF0#8 then some [(i + 1, hi)]
  else none

/-- A DMA write: a bus error outside ICCM and DCCM and for a size, alignment or byte enables that are not allowed
(R245, R246). -/
def dmaWrite (s : State) (a : Word) (n : Nat) (strobe : BitVec 8) (data : BitVec 64) : State :=
  let t := countDma s (dmaEvents false (inDccm s.cfg a))
  match dmaWriteWords a n strobe data with
  | none => (dmaFinish t).respond .error
  | some ws =>
    if inDccm s.cfg a || inIccm s.cfg a then dmaBegin t (inDccm s.cfg a) false ws
    else (dmaFinish t).respond .error

/-! ## Instruction side (R202, R231, R237) -/

/-- An I-cache fill of the line of `a`, of the build's line size, cacheable under the register or a value of it that fetches
of a hart may still use before its `fence.i` (R9, R100, R231, R771). -/
def icFill (s : State) (a : Word) : State :=
  let size := s.cfg.icacheLine
  let base := a.toNat / size * size
  if s.cfg.icacheEnable && !iccmRegion s.cfg a && instOk s.cfg a
      && (cacheable s.sh.mrac a || s.sh.mracOldFetch.any (fun e => cacheable e.2 a)) then
    match ifuSnapshot s base size with
    | some bs =>
      ({ s with sh := { s.sh with
          icache := { base := base, bytes := bs } :: s.sh.icache.filter (fun l => l.base ≠ base) } }).draw
    | none => s.draw
  else s

/-- An I-cache parity or ECC error: the lines of the set are dropped and counted once (R105, R237). The environment may
report one in a build with `RV_ICACHE_ENABLE` = 0 too (DESIGN CHOICE: the spec is silent; log 35). -/
def icError (s : State) (bases : List Nat) : State :=
  { s with sh := { s.sh with
      icache := s.sh.icache.filter (fun l => !bases.contains l.base)
      micect := bumpErrorCounter s.sh.micect } }

/-- Hart `i` fetches the 16-byte packet at `a` ahead of execution; an idle hart fetches nothing. In the ICCM corrections
are written back and counted; a word in error gives no packet. Elsewhere the packet comes from the I-cache where its line
is present, else from the bus (R202, R231, R237, R753). -/
def prefetchPacket (s : State) (i : HartId) (a : Word) : State :=
  let base := a.toNat / 16 * 16
  let put (t : State) (bs : List Byte) : State :=
    let h := t.hart i
    t.setHart i { h with buf := { h.buf with prefetch := { base := base, bytes := bs } :: h.buf.prefetch } }
  if (s.hart i).activity = .idle then s
  else if iccmRegion s.cfg a then
    if inIccm s.cfg a then
      let rs := (List.range 4).map (fun k =>
        (base / 4 + k, s.sh.iccm.readWord (s.cecd (some i)) none false s.draws (base / 4 + k)))
      let t := (coreRepair s false rs).draw
      if rs.any (·.2.bad) then t else put t (rs.flatMap (fun p => bytesOf p.2.data 4))
    else s
  else if instOk s.cfg a then
    match outsidePacket s i base 16 with
    | some bs => (put s bs).draw
    | none => s.draw
  else s

/-- The environment changes the error of a word that holds data (R235). -/
def CoreMem.disturb (m : CoreMem) (i : Nat) (e : EccStatus) : CoreMem :=
  match m.status i with
  | .unknown => m
  | st => m.setStatus i (st.withError e.error)

/-- A fetch that is never executed corrects an ICCM word, and counts; a word never written may be found so, with free
data (R106, R237, R239). -/
def iccmCorrect (s : State) (a : Word) : State :=
  let i := a.toNat / 4
  let st := s.sh.iccm.status i
  if inIccm s.cfg a && !s.cecd none && (st == .unknown || st.error == .single) then
    (coreRepair s false
      [(i, { bad := false, data := Config.freeWord s.draws i, fixed := true, arbitrary := true, uninit := false })]).draw
  else s

/-! ## Pins and requests -/

/-- Update the pins of a hart. -/
def State.modPins (s : State) (i : HartId) (f : Pins → Pins) : State :=
  s.setHart i { s.hart i with pins := f (s.hart i).pins }

/-- The level of `nmi_int`: a rising edge requests an NMI on every hart `mnmipdel` names (R112, R561). -/
def setNmiPin (s : State) (b : Bool) : State :=
  let edge := b && !s.sh.nmiPin
  let ask := fun (h : Hart) (d : Bool) => if edge && d then { h with nmi := { h.nmi with pin := true } } else h
  { s with
    h0 := ask s.h0 (s.sh.mnmipdel.getLsbD 0)
    h1 := ask s.h1 (s.sh.mnmipdel.getLsbD 1)
    sh := { s.sh with nmiPin := b } }

/-- Update the acknowledges of a hart. -/
def State.modAcks (s : State) (i : HartId) (f : Acks → Acks) : State :=
  s.setHart i { s.hart i with acks := f (s.hart i).acks }

/-- The PMU halt pin: halt and run asked for at once is a protocol violation (R704, U10). `cpu_halt_ack` falls with the
request; a hart already in Sleep may acknowledge or not (R701, R704). -/
def setCpuHaltReq (s : State) (i : HartId) (b : Bool) : Host.Outcome State Fault Refusal :=
  let h := s.hart i
  if b && h.pins.cpuRunReq then .refused .pmuProtocolViolation
  else
    let asleep := h.activity == .sleep && Config.freeBool s.draws 6
    .next ((s.modPins i (fun p => { p with cpuHaltReq := b })).modAcks i
      (fun k => { k with cpuHalt := b && (k.cpuHalt || asleep) })).draw

/-- The PMU run pin; see `setCpuHaltReq`. It lets a held `mpc_debug_run_ack` go (R702, R704, R707). Only a hart that is
running when the request rises, or that the request wakes, is ever acknowledged: not one that is in `db-halt` then, nor one
that a debug halt takes from Sleep before the request wakes it, also where the request is still up after the exit
(DESIGN CHOICE: R704 does not say; log 24). -/
def setCpuRunReq (s : State) (i : HartId) (b : Bool) : Host.Outcome State Fault Refusal :=
  let h := s.hart i
  if b && h.pins.cpuHaltReq then .refused .pmuProtocolViolation
  else
    let awake := h.activity == .running && Config.freeBool s.draws 7
    .next ((s.modPins i (fun p => { p with cpuRunReq := b })).modAcks i
      (fun k => { k with cpuRun := b && (k.cpuRun || awake), runHeld := k.runHeld && !b })).draw

/-- The MPC halt pin. In `db-halt` the MPC Halt bit is set at once; else the hart halts at its next boundary. Halt while
run is asked for, and a second halt request in succession, are violations (R707, R708, U11). -/
def setMpcHaltReq (s : State) (i : HartId) (b : Bool) : Host.Outcome State Fault Refusal :=
  let h := s.hart i
  if b && !h.pins.mpcHaltReq && (h.pins.mpcRunReq || h.dctl.mpcHalt) then .refused .mpcProtocolViolation
  else
    let t := s.modPins i (fun p => { p with mpcHaltReq := b })
    if b && h.activity == .dbgHalt then
      .next (t.setHart i { t.hart i with dctl := { (t.hart i).dctl with mpcHalt := true } })
    else .next t

/-- The MPC run pin: allowed in `db-halt`, ignored there unless the MPC Halt bit is set; on an Idle hart it stays pending,
unless that hart is to start in Debug Mode. Run while halt is asked for, and a second run request in succession, are
violations; `mpc_debug_run_ack` falls with the request (R704, R707, R708, U11). -/
def setMpcRunReq (s : State) (i : HartId) (b : Bool) : Host.Outcome State Fault Refusal :=
  let h := s.hart i
  if b && !h.pins.mpcRunReq then
    match h.activity with
    | .idle =>
      if h.pins.mpcHaltReq || !h.pins.mpcResetRunReq then .refused .mpcProtocolViolation
      else .next (s.modPins i (fun p => { p with mpcRunReq := true }))
    | .running => .refused .mpcProtocolViolation
    | .sleep => .refused .mpcProtocolViolation
    | .dbgHalt =>
      if h.pins.mpcHaltReq || h.dctl.mpcRun then .refused .mpcProtocolViolation
      else
        let t := s.modPins i (fun p => { p with mpcRunReq := true })
        let g := t.hart i
        if h.dctl.mpcHalt then
          .next (t.setHart i ({ g with dctl := { g.dctl with mpcRun := true } } : Hart).tryLeave)
        else .next t
  else .next ((s.modPins i (fun p => { p with mpcRunReq := b })).modAcks i (fun k => { k with mpcRun := b && k.mpcRun }))

/-- A Thread Debug Halt request: in `db-halt` the Debug Halt bit is set, else the hart halts at its next boundary with
cause 3; on an Idle hart the request stays pending until it has been started (DESIGN CHOICE, log 24) (R705, R708). Where a
breakpoint or trigger to Debug Mode is still pending (R712), the request takes its place: the cause is 3 and
`debug_brkpt_status` stays low (DESIGN CHOICE, log 25). In `db-halt` with Debug Resume set (1110, waiting for MPC Run) the
request does not withdraw the resume, so that MPC Run still releases the hart (DESIGN CHOICE: R708 does not say; log
24). -/
def debugHaltRequest (s : State) (i : HartId) : State :=
  let h := s.hart i
  if h.activity = .dbgHalt then s.setHart i { h with dctl := { h.dctl with dbgHalt := true } }
  else s.setHart i { h with dctl := { h.dctl with pending := some 3 } }

/-! ## Reset (R750 to R756) -/

/-- A memory through `rst_l`: its bytes survive, nothing is assumed of their error status (R239, R750). -/
def CoreMem.afterReset (m : CoreMem) : CoreMem := { m with ecc := [] }

/-- The interrupt sources through `rst_l`: registers and IP flops at their reset values, the pins as they are. -/
def sourcesAfterReset (m : List (Nat × PicSource)) : List (Nat × PicSource) :=
  (m.map (fun p => (p.1, { PicSource.initial with pin := p.2.pin }))).filter (fun p => p.2 ≠ PicSource.initial)

/-- `rst_l`: the whole core state at its reset values; memories, pins and the SoC stay (R750 to R754). T0 runs, or enters
`db-halt` first: by `mpc_reset_run_req[0]`, by `haltreq` held through the reset (R714, R754), or by both, which sets both
request bits (DESIGN CHOICE, log 24). A `cpu_run_req` held through the reset is never acknowledged (DESIGN CHOICE, log
24). -/
def resetCore (s : State) (halted : Bool) : State :=
  let h0 := Hart.initial s.cfg s.h0.pins
  let asked : Hart := { h0 with dctl := { h0.dctl with pending := if halted then some 3 else none } }
  { s with
    h0 := if !h0.pins.mpcResetRunReq then asked.haltForDebug 3 true
          else if halted then asked.haltForDebug 3 false else { h0 with activity := .running }
    h1 := Hart.initial s.cfg s.h1.pins
    sh := { Shared.initial s.sh.soc s.sh.nmiVec with
      nmiPin := s.sh.nmiPin
      sources := sourcesAfterReset s.sh.sources
      iccm := s.sh.iccm.afterReset
      dccm := s.sh.dccm.afterReset
      bus := s.sh.bus
      ifuOld := s.sh.ifuOld
      busLog := s.sh.busLog }
    cur := .t0 }

/-- A hart has bus transactions outstanding or still to issue. -/
def Hart.busTraffic (h : Hart) : Bool := !h.buf.wb.isEmpty || !h.buf.inflight.isEmpty

/-- The MPC asks the hart to start in Debug Mode while it already asks it to run, which it may not do before the hart is
out of reset and in Debug Mode (R707, R754, U11). -/
def Pins.resetRunViolation (p : Pins) : Bool := !p.mpcResetRunReq && p.mpcRunReq

/-- The reset pin, or the debugger's reset, which is refused while bus transactions are outstanding (R756, U12). Both are
refused where the MPC breaks its protocol through the reset (R754, U11). -/
def doReset (s : State) (halted : Bool) : Host.Outcome State Fault Refusal :=
  if s.h0.pins.resetRunViolation || s.h1.pins.resetRunViolation then .refused .mpcProtocolViolation
  else if halted && (s.h0.busTraffic || s.h1.busTraffic) then .refused .resetDuringBusTraffic
  else .next (resetCore s halted)

end Sys2Proof.Machine
end

