-- ==== Sys2Proof/Machine/HartStep.lean ====
section
/-! DEFINITION. One step of a hart: the boundary between two instructions, then one instruction (R524, R546, R564,
R704). -/

namespace Sys2Proof.Machine

/-- Apply a function to a next state. -/
def mapNext (f : State → State) : Host.Outcome State Fault Refusal → Host.Outcome State Fault Refusal
  | .next s => .next (f s)
  | .fault r => .fault r
  | .refused r => .refused r

/-- A pending but disabled interrupt ends a pause, in builds where it does (R703, D33). -/
def disabledEndsPause (s : State) (i : HartId) : Bool :=
  s.cfg.pauseEndsOnDisabledInt && decide (requests s i ≠ 0)

/-- The NMI to take at this boundary (R564); none during a single step without `stepie` (R709). -/
def readyNmi (h : Hart) : Option (Word × NmiState) := if h.stepMasks then none else h.nmi.next

/-- The hart has a step to take: an instruction, an entry or a wake-up (R33, R702, R703). -/
def canStep (s : State) (i : HartId) : Bool :=
  let h := s.hart i
  match h.activity with
  | .idle => false
  | .dbgHalt => false
  | .sleep => h.debugRequest.isSome || wakeEvent s i
  | .running =>
    !h.pwr.pausing || h.debugRequest.isSome || (readyNmi h).isSome || (readyInterrupt s i).isSome
      || disabledEndsPause s i || h.pins.cpuHaltReq

/-- The instruction at `pc` is a breakpoint that enters Debug Mode (R706). -/
def debugBreakpoint (s : State) : Bool :=
  s.me.ebreakm &&
    match fetch s with
    | .fault _ _ _ => false
    | .code c _ =>
      match c.decode with
      | .ok i => i == .ebreak || i == .cEbreak
      | .error _ => false

/-- Triggers fired on the address of the instruction at `pc`. A breakpoint to Debug Mode there goes before a trigger to
Debug Mode (R704). -/
def fireExecute (toDebug : Bool) (s : State) : State :=
  if toDebug && debugBreakpoint s then s.breakpoint else triggerEffect toDebug s

/-- Fetch, decode and execute one instruction of the executing hart, in the priority order of R524, once the registers it
reads have their data (R228). -/
def runInstruction (s : State) : Host.Outcome State Fault Refusal :=
  match triggerHit s (.execute s.me.pc) with
  | some p => .next (fireExecute p.1 p.2)
  | none =>
    match fetch s with
    | .fault m p t => .next (t.raise 1 m (policyTval t.cfg p))
    | .code c t =>
      match c.decode with
      | .ok i => exec i (t.settle i)
      | .error _ => .next (t.raiseIllegal c.zext)

/-- After a single-stepped instruction, which took at least one clock step, the hart is back in `db-halt` with cause 4
(R673, R704, R709), before an NMI or an interrupt of that boundary (DESIGN CHOICE, log 40). That clock step comes after the instruction, so that it follows a stepped write of a timer or counter
(DESIGN CHOICE, log 20). -/
def endStep (s : State) : State :=
  if s.me.dctl.stepping && s.me.activity == .running then
    let t := tick s
    if t.me.activity = .running then enterDebug t t.cur 4 false else t
  else s

/-- An earlier value of a CSR may still be in use (U13, U14). -/
def State.unsettled (s : State) : Bool :=
  !s.sh.mracOld.isEmpty || !s.sh.mfdcOld.isEmpty || decide (s.h0.late ≠ .settled) || decide (s.h1.late ≠ .settled)

/-- The end of a hart's step: parts read for this instruction are used (R195); where an earlier value of a CSR may still
be in use the next step chooses anew (log 17). -/
def finishStep (s : State) : State :=
  let t := s.setMe { s.me with buf := { s.me.buf with ahead := [] } }
  if t.unsettled then t.draw else t

/-- The instruction begins: requests held to this boundary and a pause end (R674, R703). -/
def beginInstruction (s : State) : State :=
  s.setMe ({ s.me with pwr := { s.me.pwr with pausing := false } } : Hart).dropHeld

/-- What the executing hart does at a boundary instead of an instruction, where no Debug Mode entry is requested
(`hartMove`): NMI, then interrupt, then PMU halt (log 23); a hart still paused does nothing (R546, R564, R704). -/
def boundary (s : State) : Option State :=
  match readyNmi s.me with
  | some r => some (takeNmi s r.1 r.2)
  | none =>
    match readyInterrupt s s.cur with
    | some b => some (takeReady s b)
    | none =>
      if s.me.pins.cpuHaltReq && !s.me.debugMode then some (enterSleep s s.cur)
      else if s.me.pwr.pausing && !disabledEndsPause s s.cur then some s
      else none

/-- A sleeping hart wakes. -/
def wakeUp (s : State) : State := if s.me.activity = .sleep then s.setMe s.me.wake else s

/-- What the executing hart does in its step. A Debug Mode entry that is requested goes before an NMI or an interrupt of the
same boundary (DESIGN CHOICE: R704 and R705 rank it above power control only; log 40). -/
def hartMove (s : State) : Host.Outcome State Fault Refusal :=
  match s.me.debugRequest with
  | some r => .next (enterDebug s s.cur r.1 r.2)
  | none =>
    let s := wakeUp s
    match boundary s with
    | some t => .next t
    | none => mapNext endStep (runInstruction (beginInstruction s))

/-- One step of the executing hart. -/
def hartStep (s : State) : Host.Outcome State Fault Refusal := mapNext finishStep (hartMove s)

/-- The turn goes to the other hart, if it has a step to take (log 1). -/
def passTurn (s : State) : State := if canStep s s.cur.other then { s with cur := s.cur.other } else s

end Sys2Proof.Machine
end

