-- ==== Sys2Proof/Machine/Agents.lean ====
section
/-! DEFINITION. The environment's actions (R30). -/

namespace Sys2Proof.Machine

/-- The hart an action names. -/
def Action.hart? : Action → Option HartId
  | .select h | .run h | .slowLoads h _ | .readAhead h _ _ | .answerPart h _ _ | .drainSq h | .drainWb h _ | .busResponse h _
  | .busResponseBoth h | .prefetch h _ | .prefetchDrop h
  | .ifuBusy h _ | .softInt h _ | .timerInt h _ | .cpuHaltReq h _ | .cpuRunReq h _ | .mpcHaltReq h _
  | .mpcRunReq h _ | .mpcResetRunReq h _ | .pauseEnd h | .debugHalt h | .debugResume h | .debugExec h _
  | .debugSetReg h _ _ => some h
  | _ => none

/-- The `i`-th outstanding response of hart `h` arrives (R227). -/
def deliverAt (s : State) (h : HartId) (i : Nat) : State :=
  match (s.hart h).buf.inflight[i]? with
  | some r => deliver (s.setInflight h ((s.hart h).buf.inflight.eraseIdx i)) h r
  | none => s

/-- A store and a load response arrive in one clock cycle: the load's error has priority (R562). -/
def deliverBoth (s : State) (h : HartId) : State :=
  let load := deliverAt s h ((s.hart h).buf.inflight.findIdx (fun r => !r.store))
  deliverAt load h ((load.hart h).buf.inflight.findIdx (·.store))

/-- The debugger has control of the hart: in `db-halt`, with a Thread Debug Halt (R705, R708). -/
def Hart.debuggerOwns (h : Hart) : Bool := h.activity == .dbgHalt && h.dctl.dbgHalt

/-- The debugger executes an instruction on a halted hart: its `pc` stays, unless the instruction leaves `db-halt`
(R705). -/
def debugExec (s : State) (h : HartId) (i : Instr) : Host.Outcome State Fault Refusal :=
  if (s.hart h).debuggerOwns then
    mapNext
      (fun t =>
        let t := { finishStep t with cur := s.cur }
        if (t.hart h).activity = .dbgHalt then t.setHart h ((t.hart h).jump (s.hart h).pc) else t)
      (exec i (({ s with cur := h } : State).settle i))
  else .next s

/-- The debugger writes a register of a halted hart; a load that still had to write it no longer does (R228, R705). -/
def debugSetReg (s : State) (h : HartId) (r : Reg) (v : Word) : State :=
  if (s.hart h).debuggerOwns then s.setHart h ((s.hart h).writeReg r v) else s

/-- A hart takes a step, if it has one, in the midst of the environment's actions (U29). -/
def runHart (s : State) (h : HartId) : Host.Outcome State Fault Refusal :=
  if canStep s h then hartStep { s with cur := h } else .next s

/-- What an action does. -/
def perform (s : State) (a : Action) : Host.Outcome State Fault Refusal :=
  match a with
  | .select h => .next { s with cur := h }
  | .run h => runHart s h
  | .tick => .next (tick s)
  | .drainSq h => .next (drainSqOne s h)
  | .drainWb h n => .next (drainWbSome s h n)
  | .busResponse h i => .next (deliverAt s h i)
  | .busResponseBoth h => .next (deliverBoth s h)
  | .slowLoads h b => .next (s.setHart h { s.hart h with buf := { (s.hart h).buf with slowLoads := b } })
  | .readAhead h a n => .next (readAhead s h a n)
  | .answerPart h a n => .next (readPending s h (asPart a.toNat n))
  | .dmaNext => .next (dmaNext s)
  | .dmaRead a n => .next (dmaRead s a n)
  | .dmaWrite a n strobe data => .next (dmaWrite s a n strobe data)
  | .icFill a => .next (icFill s a)
  | .icDrop i => .next { s with sh := { s.sh with icache := s.sh.icache.eraseIdx i } }
  | .icError bases => .next (icError s bases)
  | .prefetch h a => .next (prefetchPacket s h a)
  | .prefetchDrop h => .next (s.setHart h { s.hart h with buf := { (s.hart h).buf with prefetch := [] } })
  | .ifuBusy h b => .next (s.setHart h { s.hart h with buf := { (s.hart h).buf with ifuBusy := b } })
  | .ifuSync => .next { s with sh := { s.sh with ifuOld := [] } }
  | .eccIccm a e => .next { s with sh := { s.sh with iccm := s.sh.iccm.disturb (a.toNat / 4) e } }
  | .eccDccm a e => .next { s with sh := { s.sh with dccm := s.sh.dccm.disturb (a.toNat / 4) e } }
  | .iccmCorrect a => .next (iccmCorrect s a)
  | .softInt h b => .next (s.modPins h (fun p => { p with softInt := b }))
  | .timerInt h b => .next (s.modPins h (fun p => { p with timerInt := b }))
  | .extInt n b => .next (if sourceExists s.cfg n then s.modSource n (·.setPin b) else s)
  | .nmiInt b => .next (setNmiPin s b)
  | .nmiVec v => .next { s with sh := { s.sh with nmiVec := v } }
  | .cpuHaltReq h b => setCpuHaltReq s h b
  | .cpuRunReq h b => setCpuRunReq s h b
  | .mpcHaltReq h b => setMpcHaltReq s h b
  | .mpcRunReq h b => setMpcRunReq s h b
  | .mpcResetRunReq h b => .next (s.modPins h (fun p => { p with mpcResetRunReq := b }))
  | .pauseEnd h => .next (s.setHart h { s.hart h with pwr := { (s.hart h).pwr with pausing := false } })
  | .debugHalt h => .next (debugHaltRequest s h)
  | .debugResume h => .next (s.setHart h (s.hart h).resumeRequest)
  | .debugExec h i => debugExec s h i
  | .debugSetReg h r v => .next (debugSetReg s h r v)
  | .busWrite a b => .next (busWriteByte s true a.toNat b)
  | .setSoc m => .next { s with sh := { s.sh with soc := m } }
  | .reset halted => doReset s halted

/-- An action is performed; naming T1 in a single-thread build is a fault (R9). -/
def act (s : State) (a : Action) : Host.Outcome State Fault Refusal :=
  if a.hart? = some .t1 ∧ !s.cfg.dualThread then .fault .noSuchHart else perform s a

/-- The hart that steps when no action is pending: the one whose turn it is, if it has a step to take, else the other. -/
def takeTurn (s : State) : Option State :=
  if canStep s s.cur then some s
  else if canStep s s.cur.other then some { s with cur := s.cur.other }
  else none

/-- A step of a build the rules of R791 allow; a build they forbid is rejected. -/
def ifLegal (s : State) (o : Host.Outcome State Fault Refusal) : Host.Outcome State Fault Refusal :=
  if BuildConfig.legal s.cfg then o else .refused .illegalConfiguration

/-- The step of a hart: the one whose turn it is moves and the turn passes; with no hart to move, the clock ticks. -/
def stepHart (s : State) : Host.Outcome State Fault Refusal :=
  match takeTurn s with
  | some t => mapNext passTurn (hartStep t)
  | none => .next (tick s)

/-- One step of the machine (log 1): a pending action of the environment moves; else the DMA access under way; else a hart
steps. -/
def machineStep (s : State) : Host.Outcome State Fault Refusal :=
  match s.script with
  | a :: rest => ifLegal s (act { s with script := rest } a)
  | [] => ifLegal s (if s.sh.dmaJob.isSome then .next (dmaNext s) else stepHart s)

/-- The next instruction's bytes, stored where the executing hart fetches them: in the ICCM if `pc` is there, else in bus
memory (log 2). -/
def storeAtFetch (s : State) (bytes : List Byte) : State :=
  let a := s.me.pc
  let t := s.setMe { s.me with buf := { s.me.buf with prefetch := [] } }
  let t := { t with sh := { t.sh with dmaJob := none } }
  if inIccm s.cfg a then
    let m := { t.sh.iccm with cells := writeBytes t.sh.iccm.cells a.toNat bytes }
    let m := (touchedWords a bytes.length).foldl (fun m i => m.setStatus i .ok) m
    { t with sh := { t.sh with iccm := m } }
  else
    let soc := if socKind t.sh.soc a.toNat = .memory then t.sh.soc
      else { base := a.toNat, size := bytes.length, kind := .memory } :: t.sh.soc
    { t with sh := { t.sh with
        bus := writeBytes t.sh.bus a.toNat bytes, icache := [], icPoison := false, ifuOld := [], soc := soc } }

end Sys2Proof.Machine
end

