-- ==== Sys2Proof/Machine/Step.lean ====
section
/-! DEFINITION. The step of the machine, and the placement of an instruction where the next step fetches. -/

namespace Sys2Proof.Machine

/-- One step of the machine. -/
def step (s : State) : Host.Outcome State Fault Refusal := machineStep s

/-- `s` with the instruction of an opcode-table word stored where the executing hart fetches next, and no environment
action before it (log 2). -/
def State.withFetchWord (s : State) (nbits w : Nat) : State :=
  storeAtFetch { s with script := [] } (tableBytes nbits w)

end Sys2Proof.Machine
end

