-- ==== Sys2Proof/Safety.lean ====
section
/-! DEFINITION. The terms claims are stated in: what a byte of memory reads as, what an instruction leaves alone, a taken
exception, and the invariant of the machine's registers and memories. -/

namespace Sys2Proof.Machine

/-! ## Memory as a hart sees it -/

/-- The byte a data access of hart `i` finds at `a`: in the DCCM its youngest queued store, else the array (R229);
elsewhere the youngest store of its write buffer, else the bus memory (R224). -/
def byteSeen (s : State) (i : HartId) (a : Word) : Byte :=
  if inDccm s.cfg a then (sqLookup a.toNat (s.hart i).buf.sq).getD (readByte s.sh.dccm.cells a.toNat)
  else (wbLookup a.toNat (s.hart i).buf.wb).getD (readByte s.sh.bus a.toNat)

/-- The byte of the ICCM at `a`. -/
def iccmByte (s : State) (a : Word) : Byte := readByte s.sh.iccm.cells a.toNat

/-- `a` is one of the `n` bytes at `base`. -/
def inRange (a base : Word) (n : Nat) : Prop := base.toNat ≤ a.toNat ∧ a.toNat < base.toNat + n

/-- No byte of memory reads otherwise, for either hart. -/
def MemorySame (s t : State) : Prop :=
  ∀ a : Word, (∀ i : HartId, byteSeen t i a = byteSeen s i a) ∧ iccmByte t a = iccmByte s a

/-- The `n` bytes at `base` read as those of `v` for the executing hart; every other byte reads as before, for the other
hart every byte does (R229, R220). -/
def MemoryStored (s t : State) (base : Word) (n : Nat) (v : Word) : Prop :=
  ∀ a : Word,
    (inRange a base n → byteSeen t s.cur a = byteOf v (a.toNat - base.toNat))
      ∧ (¬ inRange a base n → byteSeen t s.cur a = byteSeen s s.cur a)
      ∧ byteSeen t s.cur.other a = byteSeen s s.cur.other a ∧ iccmByte t a = iccmByte s a

/-- The half word a hart sees at `a`, little-endian (R170). -/
def halfSeen (s : State) (i : HartId) (a : Word) : Half := byteSeen s i (a + 1) ++ byteSeen s i a

/-- The word a hart sees at `a`, little-endian (R170). -/
def wordSeen (s : State) (i : HartId) (a : Word) : Word :=
  byteSeen s i (a + 3) ++ byteSeen s i (a + 2) ++ byteSeen s i (a + 1) ++ byteSeen s i a

/-- The executing hart sees the same bytes. -/
def ViewSame (s t : State) : Prop := ∀ a : Word, byteSeen t s.cur a = byteSeen s s.cur a

/-! ## Frames -/

/-- The hart's registers `x0..x31` are unchanged but for `rd`, which holds `v`, or 0 for `x0` (R34). -/
def RegWritten (s t : State) (rd : Reg) (v : Word) : Prop :=
  t.reg rd = (if rd = 0 then 0 else v) ∧ ∀ r : Reg, r ≠ rd → t.reg r = s.reg r

/-- No general register changes. -/
def RegsSame (s t : State) : Prop := ∀ r : Reg, t.reg r = s.reg r

/-- Every trap, timer, debug, interrupt, power and NMI register of a hart, its activity and its pins are the same. -/
def Hart.SystemSame (h g : Hart) : Prop :=
  g.trap = h.trap ∧ g.tmr = h.tmr ∧ g.dbg = h.dbg ∧ g.dctl = h.dctl ∧ g.pic = h.pic ∧ g.pwr = h.pwr ∧ g.nmi = h.nmi
    ∧ g.activity = h.activity ∧ g.pins = h.pins ∧ g.acks = h.acks ∧ g.late = h.late

/-- The other hart, the build and whose turn it is are the same. -/
def OthersSame (s t : State) : Prop :=
  t.cfg = s.cfg ∧ t.cur = s.cur ∧ t.hart s.cur.other = s.hart s.cur.other

/-- An instruction of `len` bytes with these events retires; its hart's special registers but the counters, and the
build and the other hart, stay. -/
def Retires (s t : State) (len : Nat) (evs : List Nat) : Prop :=
  OthersSame s t ∧ Hart.SystemSame s.me t.me ∧ t.me.ctr = (s.me.retire len evs).ctr

/-- An instruction that changes `rd` (`x0`: no register), `pc` and counters only: reservation, shared registers and every
byte of memory stay, and so do the buffers, but that a load that still waits no longer writes `rd` (R228). -/
def LocalOnly (s t : State) (len : Nat) (evs : List Nat) (rd : Reg) : Prop :=
  Retires s t len evs ∧ t.me.res = s.me.res ∧ t.me.buf = s.me.buf.overwrite rd ∧ t.sh = s.sh ∧ MemorySame s t

/-- `x[rd] <- v`, on to the next instruction, nothing else (R300). -/
def Computes (s t : State) (len : Nat) (evs : List Nat) (rd : Reg) (v : Word) : Prop :=
  RegWritten s t rd v ∧ t.me.pc = s.me.pc + BitVec.ofNat 32 len ∧ LocalOnly s t len evs rd

/-- `x[rd] <- pc + len`, `pc <- target`, nothing else (R331, R332). -/
def Jumps (s t : State) (len : Nat) (rd : Reg) (target : Word) : Prop :=
  RegWritten s t rd (s.me.pc + BitVec.ofNat 32 len) ∧ t.me.pc = target ∧ LocalOnly s t len jumpEvents rd

/-- A branch: no register changes, `pc` moves by `off` if taken, else past the instruction (R333 to R338). -/
def Branches (s t : State) (len : Nat) (taken : Prop) (off : Word) : Prop :=
  RegsSame s t ∧ (taken → t.me.pc = s.me.pc + off ∧ LocalOnly s t len [24, 26] 0)
    ∧ (¬ taken → t.me.pc = s.me.pc + BitVec.ofNat 32 len ∧ LocalOnly s t len [24] 0)

/-- Trap entry on the executing hart: the saved `pc` and causes, the `MIE` stack, the reservation gone, `pc` at the
target; the event counters count the events `evs`, no other counter moves; every general register and the other trap
registers stay, as do the other hart, the shared state and every byte of memory (R550, R682). -/
def TrapEntry (s t : State) (evs : List Nat) (cause : Word) (secondary : BitVec 4) (tval target : Word) : Prop :=
  t.me.trap.mepc = evenPc s.me.pc ∧ t.me.trap.mcause = cause ∧ t.me.trap.mscause = secondary ∧ t.me.trap.mtval = tval
    ∧ t.me.mpie = s.me.mie ∧ t.me.mie = false
    ∧ t.me.trap.mstatus &&& 0xFFFFFF77#32 = s.me.trap.mstatus &&& 0xFFFFFF77#32
    ∧ t.me.pc = target ∧ t.me.res = none
    ∧ t.me.trap.mie = s.me.trap.mie ∧ t.me.trap.mtvec = s.me.trap.mtvec ∧ t.me.trap.mscratch = s.me.trap.mscratch
    ∧ t.me.ctr.minstret = s.me.ctr.minstret ∧ t.me.ctr.mcycle = s.me.ctr.mcycle
    ∧ t.me.ctr = (s.me.countEvents evs).ctr
    ∧ RegsSame s t ∧ OthersSame s t ∧ t.sh = s.sh ∧ MemorySame s t

/-- An exception: the trap entry of R550 to `{BASE, 0b00}` (R551), every other register of the hart the same (R527). -/
def Traps (s t : State) (evs : List Nat) (cause : Word) (secondary : BitVec 4) (tval : Word) : Prop :=
  TrapEntry s t evs cause secondary tval (s.me.trap.mtvec &&& 0xFFFFFFFC#32)
    ∧ t.me.tmr = s.me.tmr ∧ t.me.dbg = s.me.dbg ∧ t.me.dctl = s.me.dctl ∧ t.me.pic = s.me.pic ∧ t.me.pwr = s.me.pwr
    ∧ t.me.nmi = s.me.nmi ∧ t.me.buf = s.me.buf ∧ t.me.activity = s.me.activity ∧ t.me.pins = s.me.pins
    ∧ t.me.acks = s.me.acks ∧ t.me.late = s.me.late

/-- The other hart as it was, but that its reservation may be gone (R413). -/
def OtherKept (s t : State) : Prop :=
  t.cfg = s.cfg ∧ t.cur = s.cur
    ∧ (t.hart s.cur.other = s.hart s.cur.other
      ∨ t.hart s.cur.other = { s.hart s.cur.other with res := none })

/-- The instruction bits as a word: a parcel zero-extended (R525). -/
def instrBits (i : Instr) : Word := (encode i).zext

/-! ## Forms of data accesses -/

/-- A load or store form: the instruction, its length, the size of its access, its base register, its offset, its data
register, and for a load whether it sign-extends. -/
structure AccessForm where
  instr  : Instr
  len    : Nat
  size   : Nat
  base   : Reg
  off    : Word
  data   : Reg
  signed : Bool

/-- The loads (R351 to R355, R442, R461). -/
def loadForms (rd rs1 : Reg) (imm : BitVec 12) (cd cs : CReg) (imm7 : BitVec 7) (imm8 : BitVec 8) : List AccessForm :=
  [⟨.lb rd rs1 imm, 4, 1, rs1, imm.signExtend 32, rd, true⟩,
   ⟨.lh rd rs1 imm, 4, 2, rs1, imm.signExtend 32, rd, true⟩,
   ⟨.lw rd rs1 imm, 4, 4, rs1, imm.signExtend 32, rd, false⟩,
   ⟨.lbu rd rs1 imm, 4, 1, rs1, imm.signExtend 32, rd, false⟩,
   ⟨.lhu rd rs1 imm, 4, 2, rs1, imm.signExtend 32, rd, false⟩,
   ⟨.cLw cd cs imm7, 2, 4, xreg cs, imm7.zeroExtend 32, xreg cd, false⟩,
   ⟨.cLwsp rd imm8, 2, 4, 2, imm8.zeroExtend 32, rd, false⟩]

/-- The stores (R356 to R358, R443, R467). -/
def storeForms (rs1 rs2 : Reg) (imm : BitVec 12) (cs cb : CReg) (imm7 : BitVec 7) (imm8 : BitVec 8) : List AccessForm :=
  [⟨.sb rs1 rs2 imm, 4, 1, rs1, imm.signExtend 32, rs2, false⟩,
   ⟨.sh rs1 rs2 imm, 4, 2, rs1, imm.signExtend 32, rs2, false⟩,
   ⟨.sw rs1 rs2 imm, 4, 4, rs1, imm.signExtend 32, rs2, false⟩,
   ⟨.cSw cs cb imm7, 2, 4, xreg cs, imm7.zeroExtend 32, xreg cb, false⟩,
   ⟨.cSwsp rs2 imm8, 2, 4, 2, imm8.zeroExtend 32, rs2, false⟩]

/-- The effective address of a form (R171, R350). -/
def AccessForm.addr (f : AccessForm) (s : State) : Word := s.reg f.base + f.off

/-- What the first six checks of R193 find for a load form. -/
def AccessForm.loadCheck (f : AccessForm) (s : State) : Option (Word × BitVec 4) :=
  dataCheck s.cfg s.dataMrac loadCauses (s.reg f.base) (f.addr s) f.size

/-- What the first six checks of R193 find for a store form. -/
def AccessForm.storeCheck (f : AccessForm) (s : State) : Option (Word × BitVec 4) :=
  dataCheck s.cfg s.dataMrac storeCauses (s.reg f.base) (f.addr s) f.size

/-- The value a load form finds in the bytes the executing hart sees, little-endian, extended as the form says
(R351 to R355). -/
def AccessForm.value (f : AccessForm) (s : State) : Word :=
  let a := f.addr s
  match f.size, f.signed with
  | 1, true => (byteSeen s s.cur a).signExtend 32
  | 1, false => (byteSeen s s.cur a).zeroExtend 32
  | 2, true => (halfSeen s s.cur a).signExtend 32
  | 2, false => (halfSeen s s.cur a).zeroExtend 32
  | _, _ => wordSeen s s.cur a

/-- Whether the form's address is a multiple of its size (R172). -/
def AccessForm.aligned (f : AccessForm) (s : State) : Bool := decide ((f.addr s).toNat % f.size = 0)

/-- The nine `amo*.w` with what they store, from the old word and `x[rs2]` (R417 to R425). -/
def amoForms (rd rs1 rs2 : Reg) (aq rl : BitVec 1) : List (Instr × (Word → Word → Word)) :=
  [(.amoswapW rd rs1 rs2 aq rl, fun _ b => b),
   (.amoaddW rd rs1 rs2 aq rl, fun a b => a + b),
   (.amoxorW rd rs1 rs2 aq rl, fun a b => a ^^^ b),
   (.amoandW rd rs1 rs2 aq rl, fun a b => a &&& b),
   (.amoorW rd rs1 rs2 aq rl, fun a b => a ||| b),
   (.amominW rd rs1 rs2 aq rl, fun a b => if a.toInt < b.toInt then a else b),
   (.amomaxW rd rs1 rs2 aq rl, fun a b => if b.toInt < a.toInt then a else b),
   (.amominuW rd rs1 rs2 aq rl, fun a b => if a.toNat < b.toNat then a else b),
   (.amomaxuW rd rs1 rs2 aq rl, fun a b => if b.toNat < a.toNat then a else b)]

/-- A Zicsr form: the instruction, whether it writes, and the value it writes from the old one (R502 to R507). -/
structure CsrForm where
  instr  : Instr
  writes : Bool
  value  : Word → Word

/-- The six Zicsr instructions on one CSR (R500, R502 to R507). -/
def csrForms (s : State) (rd rs1 : Reg) (uimm : BitVec 5) (csr : BitVec 12) : List CsrForm :=
  [⟨.csrrw rd rs1 csr, true, fun _ => s.reg rs1⟩,
   ⟨.csrrs rd rs1 csr, decide (rs1 ≠ 0), fun old => old ||| s.reg rs1⟩,
   ⟨.csrrc rd rs1 csr, decide (rs1 ≠ 0), fun old => old &&& ~~~(s.reg rs1)⟩,
   ⟨.csrrwi rd uimm csr, true, fun _ => uimm.zeroExtend 32⟩,
   ⟨.csrrsi rd uimm csr, decide (uimm ≠ 0), fun old => old ||| uimm.zeroExtend 32⟩,
   ⟨.csrrci rd uimm csr, decide (uimm ≠ 0), fun old => old &&& ~~~(uimm.zeroExtend 32)⟩]

/-- The CSRs whose reading may change, beside itself, when a CSR is read or written by an instruction: the pending bits a
register feeds, the capture, the pointer built from `meivt`, the selected trigger, what going to Sleep and the fences may do,
the I-cache array read and the layout the selected array gives. -/
def CsrName.affects : CsrName → List CsrName
  | .mitcnt0 | .mitb0 | .mitcnt1 | .mitb1 | .micect | .miccmect | .mdccmect | .meipt | .meicurpl => [.mip]
  | .meicpct => [.meicidpl, .meihap]
  | .meivt => [.meihap]
  | .tselect => [.tdata1, .tdata2]
  | .mpmc => [.mstatus, .mdseac, .dcsr]
  | .dmst => [.mdseac, .dcsr]
  | .dicago => [.dicad0, .dicad0h, .dicad1]
  | .dicawics => [.dicad0, .dicad1]
  | _ => []

/-- The CSRs that count retired instructions and their events (R65, R66). -/
def CsrName.counts : CsrName → Bool
  | .minstret | .minstreth | .mhpmcounter _ | .mhpmcounterh _ => true
  | _ => false

/-- The aligned DCCM word at `a` becomes `v`, every other byte of the DCCM stays. -/
def WordReplaced (s t : State) (a v : Word) : Prop :=
  ∀ b : Word, readByte t.sh.dccm.cells b.toNat
    = if a.toNat ≤ b.toNat ∧ b.toNat < a.toNat + 4 then byteOf v (b.toNat - a.toNat)
      else readByte s.sh.dccm.cells b.toNat

/-- The aligned DCCM word at `a` becomes `v`, every other byte of the DCCM, and all else the harts share, stay. -/
def WordStored (s t : State) (a v : Word) : Prop :=
  WordReplaced s t a v
    ∧ (∀ i : Nat, t.sh.dccm.status i = s.sh.dccm.status i) ∧ t.sh = { s.sh with dccm := t.sh.dccm }

/-! ## Conditions on a state -/

/-- No trigger of the executing hart may match an access: `execute`, `store` and `load` are 0 in each (R68). -/
def QuietTriggers (s : State) : Prop := ∀ t ∈ s.me.dbg.triggers, t.tdata1.extractLsb' 0 3 = 0#3

/-- Each word the `n` bytes at `a` touch was written and has no ECC error (R235, R239). -/
def CleanWords (s : State) (a : Word) (n : Nat) : Prop := ∀ i ∈ touchedWords a n, s.sh.dccm.status i = .ok

/-- Each of these DCCM words was written and has at most a single-bit error (R235). -/
def Correctable (s : State) (l : List Nat) : Prop := ∀ i ∈ l, s.sh.dccm.status i ∈ [EccStatus.ok, .single]

/-- The words `l` of the DCCM have no error any more, `mdccmect` counts one more for each that had a single-bit error; the
other words' status, the threshold and all else the harts share, but the bytes of the DCCM, stay (R106, R107, R236). -/
def Corrected (s t : State) (l : List Nat) : Prop :=
  (∀ i, t.sh.dccm.status i = if i ∈ l then .ok else s.sh.dccm.status i)
    ∧ t.sh.mdccmect.extractLsb' 0 27 = s.sh.mdccmect.extractLsb' 0 27
      + BitVec.ofNat 27 (l.countP (fun i => s.sh.dccm.status i == .single))
    ∧ t.sh.mdccmect.extractLsb' 27 5 = s.sh.mdccmect.extractLsb' 27 5
    ∧ t.sh = { s.sh with dccm := t.sh.dccm, mdccmect := t.sh.mdccmect }

/-- The SoC answers every bus address with memory. -/
def BusIsMemory (s : State) : Prop := ∀ a : Word, socKind s.sh.soc a.toNat = .memory

/-- No load of a hart still waits for its data (R228). -/
def Hart.NoPendingLoads (h : Hart) : Prop := ∀ r ∈ h.buf.inflight, r.load = none

/-- No error response and no load is outstanding for a hart. -/
def Hart.NoBusErrors (h : Hart) : Prop := h.NoPendingLoads ∧ ∀ r ∈ h.buf.inflight, r.error = false

/-- Every store in the write buffer of a hart lies inside the address space, as the check R193 (1) leaves it. -/
def Hart.wbInSpace (h : Hart) : Bool := h.buf.wb.all (fun e => decide (e.addr.toNat + e.data.length ≤ 2 ^ 32))

/-- A load of the executing hart reads all its bytes itself, and gets them at once: no part was read ahead (R195), the SoC
does not answer later (R228). -/
def LoadsAtOnce (s : State) : Prop := s.me.buf.ahead = [] ∧ s.me.buf.slowLoads = false

/-- The executing hart steps next: a legal build, no action of the environment pending, no DMA access under way. -/
def HartsMove (s : State) : Prop := BuildConfig.legal s.cfg = true ∧ s.script = [] ∧ s.sh.dmaJob = none

/-- Nothing is to be done at the next boundary of the executing hart but its next instruction: it runs, and no debug
request, NMI, interrupt or PMU halt request is pending (R546, R564, R704). -/
def RunsNext (s : State) : Prop :=
  HartsMove s ∧ s.me.activity = .running ∧ s.me.pwr.pausing = false ∧ s.me.debugRequest = none
    ∧ readyNmi s.me = none ∧ readyInterrupt s s.cur = none ∧ s.me.pins.cpuHaltReq = false

/-- The four bytes of a memory at `pc` and after it, modulo 2^32 (R203, D8). -/
def codeBytes (m : Memory) (pc : Word) : List Byte :=
  (List.range 4).map (fun k => readByte m (pc + BitVec.ofNat 32 k).toNat)

/-- The `n` bytes at an even `pc` are fetched from the memory `m` as it is: from the ICCM, written and without ECC error, or
from bus memory inside the instruction windows, with nothing cached, prefetched or not yet ordered (R200, R201). -/
def CodeAt (s : State) (m : Memory) (n : Nat) : Prop :=
  s.me.pc.toNat % 2 = 0 ∧ s.me.buf.prefetch = []
    ∧ ((m = s.sh.iccm.cells ∧ ∀ k < n, inIccm s.cfg (s.me.pc + BitVec.ofNat 32 k) = true
          ∧ s.sh.iccm.status ((s.me.pc + BitVec.ofNat 32 k).toNat / 4) = .ok)
      ∨ (m = s.sh.bus ∧ s.sh.icPoison = false ∧ s.sh.icache = [] ∧ s.sh.ifuOld = []
        ∧ ∀ k < n, iccmRegion s.cfg (s.me.pc + BitVec.ofNat 32 k) = false
          ∧ instOk s.cfg (s.me.pc + BitVec.ofNat 32 k) = true
          ∧ socKind s.sh.soc (s.me.pc + BitVec.ofNat 32 k).toNat = .memory))

/-! ## The invariant -/

/-- Every memory and map of the machine is in its canonical form. -/
def State.canonical (s : State) : Bool :=
  Memory.wf s.sh.bus && s.sh.iccm.wf && s.sh.dccm.wf && mapWf PicSource.initial s.sh.sources

/-- The legal values of a hart's registers: `mstatus`, `mie`, `mtvec`, `mepc`, the inhibits, the event selectors, the timer
controls, `meivt`, `mfdhs`, the fixed fields of `dcsr` and of the triggers; `pc`, `mepc` and `dpc` are even; buffered
stores lie inside the address space (R193, R38, R48, R49, R55, R58, R61, R62, R117, R123, R620, R68, R70). -/
def Hart.legal (cfg : BuildConfig) (h : Hart) : Bool :=
  decide (h.trap.mstatus &&& 0xFFFFFF77#32 = 0x00001800#32)
    && decide (h.trap.mie &&& 0x8FFFF777#32 = 0)
    && decide (h.trap.mtvec &&& 2#32 = 0)
    && decide (h.trap.mepc &&& 1#32 = 0) && decide (h.pc &&& 1#32 = 0) && decide (h.dbg.dpc &&& 1#32 = 0)
    && decide (h.ctr.mcountinhibit &&& 0xFFFFFF82#32 = 0)
    && decide (h.ctr.hpm3.event.toNat ≤ 516) && decide (h.ctr.hpm4.event.toNat ≤ 516)
    && decide (h.ctr.hpm5.event.toNat ≤ 516) && decide (h.ctr.hpm6.event.toNat ≤ 516)
    && decide (h.tmr.mitctl0.toNat < 8) && decide (h.tmr.mitctl1.toNat < 16)
    && decide (h.pic.meivt &&& 0x3FF#32 = 0) && decide (h.pwr.mfdhs.toNat < 4)
    && decide (h.dbg.dcsr &&& 0xF0000003#32 = 0x40000003#32)
    && decide (h.dbg.triggers.length = cfg.numTriggers)
    && h.dbg.triggers.all (fun t => t.tdata1 &&& 0xF7E00000#32 == 0x23E00000#32)
    && h.wbInSpace

/-- The legal values of the shared registers, the error counters' thresholds among them (R100, R105 to R107, R112,
R122, R130, R131). -/
def Shared.legal (c : Shared) : Bool :=
  decide (c.mrac &&& (c.mrac >>> 1) &&& 0x55555555#32 = 0)
    && decide ((c.micect.extractLsb' 27 5).toNat ≤ 26) && decide ((c.miccmect.extractLsb' 27 5).toNat ≤ 26)
    && decide ((c.mdccmect.extractLsb' 27 5).toNat ≤ 26)
    && decide (c.mnmipdel ≠ 0) && decide (c.mnmipdel.toNat < 4)
    && decide (c.mfdht.toNat < 64) && decide (c.mfdc &&& 0xFFF8F2B2#32 = 0) && decide (c.mcgc.toNat < 512)

/-- Every register of the machine holds a legal value; T1 is idle until it is started, and in a single-thread build
(R111, R754, R755). -/
def State.legal (s : State) : Bool :=
  s.h0.legal s.cfg && s.h1.legal s.cfg && s.sh.legal
    && (s.sh.start1 || decide (s.h1.activity = .idle)) && (s.cfg.dualThread || decide (s.h1.activity = .idle))

end Sys2Proof.Machine
end

