-- ==== Sys2Proof/Certificates/Slice0/Obligations.lean ====
section
/-! DEFINITION. The statements for the provers. -/

open Sys2Proof Sys2Proof.Machine

/-! ## Encodings -/

/-- Words the spec's encoding tables and examples give, read from their bytes (R276, R286). -/
def Obligations.DecodesSpecWords : Prop :=
  decode [0xB3, 0x02, 0x73, 0x00] = .ok (.add 5 6 7, [])
    ∧ decode [0xB7, 0x52, 0x34, 0x12] = .ok (.lui 5 0x12345, [])
    ∧ decode [0x63, 0x90, 0x62, 0x80] = .ok (.bne 5 6 (-4096), [])
    ∧ decode [0xEF, 0x00, 0x00, 0x80] = .ok (.jal 1 (-0x100000), [])
    ∧ decode [0x83, 0x22, 0x81, 0x00] = .ok (.lw 5 2 8, [])
    ∧ decode [0xA3, 0x0F, 0x73, 0xFE] = .ok (.sb 6 7 (-1), [])
    ∧ decode [0xB3, 0x22, 0x73, 0x02] = .ok (.mulhsu 5 6 7, [])
    ∧ decode [0xAF, 0x22, 0x75, 0x1E] = .ok (.scW 5 10 7 1 1, [])
    ∧ decode [0xF3, 0x12, 0x03, 0x34] = .ok (.csrrw 5 6 0x340, [])
    ∧ decode [0x73, 0x00, 0x20, 0x30] = .ok (.mret, [])
    ∧ decode [0xFC, 0x1F] = .ok (.cAddi4spn 7 1020, [])
    ∧ decode [0x01, 0x71] = .ok (.cAddi16sp (-512), [])
    ∧ decode [0x81, 0xD3] = .ok (.cBeqz 7 (-256), [])
    ∧ decode [0xFD, 0x2F] = .ok (.cJal 2046, [])
    ∧ decode [0xA2, 0xDF] = .ok (.cSwsp 8 252, [])

/-- Every well-formed instruction, encoded and decoded, is itself; the bytes after it are left. -/
def Obligations.DecodeOfEncode : Prop :=
  ∀ (i : Instr) (rest : List Byte), i.wellFormed = true → decode ((encode i).bytes ++ rest) = .ok (i, rest)

/-- What decodes is well-formed, and its encoding is the code it was decoded from: no two codes stand for one instruction,
and no bit of a code is dropped. -/
def Obligations.EncodeOfDecode : Prop :=
  ∀ (c : Code) (i : Instr), c.decode = .ok i → i.wellFormed = true ∧ encode i = c

/-- 32-bit words outside the major opcodes, the illegal function codes inside them (R275, R277, R278), and the compressed
encodings R287 lists, are refused. -/
def Obligations.IllegalCodesRefused : Prop :=
  (∀ w : Word,
    let op := w.extractLsb' 0 7
    let f3 := w.extractLsb' 12 3
    let f7 := w.extractLsb' 25 7
    let f5 := w.extractLsb' 27 5
    (op ∉ [0b0000011#7, 0b0001111#7, 0b0010011#7, 0b0010111#7, 0b0100011#7, 0b0101111#7, 0b0110011#7, 0b0110111#7,
        0b1100011#7, 0b1100111#7, 0b1101111#7, 0b1110011#7]
      ∨ op = 0b0000011#7 ∧ f3 ∈ [3#3, 6#3, 7#3]
      ∨ op = 0b0100011#7 ∧ f3 ∈ [3#3, 4#3, 5#3, 6#3, 7#3]
      ∨ op = 0b1100011#7 ∧ f3 ∈ [2#3, 3#3]
      ∨ op = 0b1100111#7 ∧ f3 ≠ 0#3
      ∨ op = 0b0001111#7 ∧ f3 ∉ [0#3, 1#3]
      ∨ op = 0b0010011#7 ∧ f3 = 1#3 ∧ f7 ≠ 0#7
      ∨ op = 0b0010011#7 ∧ f3 = 5#3 ∧ f7 ∉ [0#7, 0b0100000#7]
      ∨ op = 0b0110011#7 ∧ f7 ∉ [0#7, 0b0100000#7, 0b0000001#7]
      ∨ op = 0b0110011#7 ∧ f7 = 0b0100000#7 ∧ f3 ∉ [0#3, 5#3]
      ∨ op = 0b0101111#7 ∧ f3 ≠ 0b010#3
      ∨ op = 0b0101111#7 ∧ f5 ∉ [0b00010#5, 0b00011#5, 0b00001#5, 0b00000#5, 0b00100#5, 0b01100#5, 0b01000#5, 0b10000#5,
        0b10100#5, 0b11000#5, 0b11100#5]
      ∨ op = 0b0101111#7 ∧ f5 = 0b00010#5 ∧ w.extractLsb' 20 5 ≠ 0#5
      ∨ op = 0b1110011#7 ∧ f3 = 4#3
      ∨ op = 0b1110011#7 ∧ f3 = 0#3
        ∧ w ∉ [0x00000073#32, 0x00100073#32, 0x30200073#32, 0x10500073#32, 0x7B200073#32])
    → ∃ e, decode32 w = .error e)
    ∧ ∀ c : Half,
      let q := c.extractLsb' 0 2
      let f3 := c.extractLsb' 13 3
      (c = 0
        ∨ q = 0#2 ∧ f3 = 0#3 ∧ c.extractLsb' 5 8 = 0#8
        ∨ q = 0#2 ∧ f3 ∈ [1#3, 3#3, 4#3, 5#3, 7#3]
        ∨ q = 1#2 ∧ f3 = 3#3 ∧ c.extractLsb' 12 1 = 0#1 ∧ c.extractLsb' 2 5 = 0#5
        ∨ q = 1#2 ∧ f3 = 4#3 ∧ c.extractLsb' 10 2 = 3#2 ∧ c.extractLsb' 12 1 = 1#1
        ∨ q = 1#2 ∧ f3 = 4#3 ∧ c.extractLsb' 10 2 ∈ [0#2, 1#2] ∧ c.extractLsb' 12 1 = 1#1
        ∨ q = 2#2 ∧ f3 = 0#3 ∧ c.extractLsb' 12 1 = 1#1
        ∨ q = 2#2 ∧ f3 ∈ [1#3, 3#3, 5#3, 7#3]
        ∨ q = 2#2 ∧ f3 = 2#3 ∧ c.extractLsb' 7 5 = 0#5
        ∨ c = 0x8002#16)
      → ∃ e, decode16 c = .error e

/-! ## The step -/

/-- When a hart's next step is an instruction and the bytes at its `pc` decode to `i`, the step is `exec i`: before it,
requests held to the boundary are dropped and loads that still have to write a register that `i` reads do so; after it a
single step ends, parts read ahead are forgotten and the turn is passed on. Who steps next is the model's choice (log 1). -/
def Obligations.StepRunsDecoded : Prop :=
  ∀ (s : State) (m : Memory) (i : Instr) (rest : List Byte), RunsNext s → QuietTriggers s →
    CodeAt s m (encode i).length → decode (codeBytes m s.me.pc) = .ok (i, rest) →
    step s = mapNext passTurn (mapNext finishStep (mapNext endStep (exec i ((beginInstruction s).settle i))))

/-- Where the bytes at `pc` are no instruction, the step takes the illegal-instruction exception; a fetch from the
ICCM's region outside the ICCM, or outside the instruction windows, takes instruction access fault; the trap value is
that of the policy (R201, R525, R530, R531, R550). Who steps next is the model's choice (log 1). -/
def Obligations.StepTakesFetchExceptions : Prop :=
  ∀ s : State, RunsNext s → QuietTriggers s → s.me.dctl.stepping = false →
    (∀ (m : Memory) (e : DecodeError), decode (codeBytes m s.me.pc) = .error e →
      let p0 : Half := readByte m (s.me.pc + 1).toNat ++ readByte m s.me.pc.toNat
      let p1 : Half := readByte m (s.me.pc + 3).toNat ++ readByte m (s.me.pc + 2).toNat
      let long : Bool := p0.extractLsb' 0 2 == 0b11#2
      CodeAt s m (if long then 4 else 2) →
      ∃ t, step s = .next (passTurn (finishStep t))
        ∧ Traps (beginInstruction s) t [37] 2 0 (policyTval s.cfg (if long then p1 ++ p0 else 0#16 ++ p0)))
      ∧ (iccmRegion s.cfg s.me.pc = true → inIccm s.cfg s.me.pc = false →
        ∃ t, step s = .next (passTurn (finishStep t)) ∧ Traps (beginInstruction s) t [37] 1 2 (policyTval s.cfg s.me.pc))
      ∧ (iccmRegion s.cfg s.me.pc = false → instOk s.cfg s.me.pc = false →
        ∃ t, step s = .next (passTurn (finishStep t)) ∧ Traps (beginInstruction s) t [37] 1 3 (policyTval s.cfg s.me.pc))

/-! ## Integer computation -/

/-- `lui auipc addi slti sltiu xori ori andi` and `add sub slt sltu xor or and` (R301 to R308, R312, R313, R315 to R317,
R320, R321). That they count as event 15 is the model's reading (log 29). -/
def Obligations.IntegerOps : Prop :=
  (∀ (s : State) (rd rs1 : Reg) (upper : BitVec 20) (imm : BitVec 12),
      let a := s.reg rs1
      let b : Word := imm.signExtend 32
      (∃ t, exec (.lui rd upper) s = .next t ∧ Computes s t 4 [15] rd (upper.zeroExtend 32 <<< 12))
        ∧ (∃ t, exec (.auipc rd upper) s = .next t ∧ Computes s t 4 [15] rd (s.me.pc + (upper.zeroExtend 32 <<< 12)))
        ∧ (∃ t, exec (.addi rd rs1 imm) s = .next t ∧ Computes s t 4 [15] rd (a + b))
        ∧ (∃ t, exec (.slti rd rs1 imm) s = .next t ∧ Computes s t 4 [15] rd (if a.toInt < imm.toInt then 1 else 0))
        ∧ (∃ t, exec (.sltiu rd rs1 imm) s = .next t ∧ Computes s t 4 [15] rd (if a.toNat < b.toNat then 1 else 0))
        ∧ (∃ t, exec (.xori rd rs1 imm) s = .next t ∧ Computes s t 4 [15] rd (a ^^^ b))
        ∧ (∃ t, exec (.ori rd rs1 imm) s = .next t ∧ Computes s t 4 [15] rd (a ||| b))
        ∧ ∃ t, exec (.andi rd rs1 imm) s = .next t ∧ Computes s t 4 [15] rd (a &&& b))
    ∧ ∀ (s : State) (rd rs1 rs2 : Reg),
      let a := s.reg rs1
      let b := s.reg rs2
      (∃ t, exec (.add rd rs1 rs2) s = .next t ∧ Computes s t 4 [15] rd (a + b))
        ∧ (∃ t, exec (.sub rd rs1 rs2) s = .next t ∧ Computes s t 4 [15] rd (a - b))
        ∧ (∃ t, exec (.slt rd rs1 rs2) s = .next t ∧ Computes s t 4 [15] rd (if a.toInt < b.toInt then 1 else 0))
        ∧ (∃ t, exec (.sltu rd rs1 rs2) s = .next t ∧ Computes s t 4 [15] rd (if a.toNat < b.toNat then 1 else 0))
        ∧ (∃ t, exec (.xor rd rs1 rs2) s = .next t ∧ Computes s t 4 [15] rd (a ^^^ b))
        ∧ (∃ t, exec (.or rd rs1 rs2) s = .next t ∧ Computes s t 4 [15] rd (a ||| b))
        ∧ ∃ t, exec (.and rd rs1 rs2) s = .next t ∧ Computes s t 4 [15] rd (a &&& b)

/-- The six shifts, as multiplication and floor division by a power of two (R309 to R311, R314, R318, R319). That they
count as event 15 is the model's reading (log 29). -/
def Obligations.Shifts : Prop :=
  ∀ (s : State) (rd rs1 rs2 : Reg) (sh : BitVec 5),
    let a := s.reg rs1
    let n := (s.reg rs2).toNat % 32
    (∃ t, exec (.slli rd rs1 sh) s = .next t ∧ Computes s t 4 [15] rd (BitVec.ofNat 32 (a.toNat * 2 ^ sh.toNat)))
      ∧ (∃ t, exec (.srli rd rs1 sh) s = .next t ∧ Computes s t 4 [15] rd (BitVec.ofNat 32 (a.toNat / 2 ^ sh.toNat)))
      ∧ (∃ t, exec (.srai rd rs1 sh) s = .next t ∧ Computes s t 4 [15] rd (BitVec.ofInt 32 (a.toInt / 2 ^ sh.toNat)))
      ∧ (∃ t, exec (.sll rd rs1 rs2) s = .next t ∧ Computes s t 4 [15] rd (BitVec.ofNat 32 (a.toNat * 2 ^ n)))
      ∧ (∃ t, exec (.srl rd rs1 rs2) s = .next t ∧ Computes s t 4 [15] rd (BitVec.ofNat 32 (a.toNat / 2 ^ n)))
      ∧ ∃ t, exec (.sra rd rs1 rs2) s = .next t ∧ Computes s t 4 [15] rd (BitVec.ofInt 32 (a.toInt / 2 ^ n))

/-- The four multiplications, from the exact product (R391 to R394). -/
def Obligations.Products : Prop :=
  ∀ (s : State) (rd rs1 rs2 : Reg),
    let a := s.reg rs1
    let b := s.reg rs2
    (∃ t, exec (.mul rd rs1 rs2) s = .next t ∧ Computes s t 4 [9] rd (BitVec.ofInt 32 (a.toInt * b.toInt)))
      ∧ (∃ t, exec (.mulh rd rs1 rs2) s = .next t
        ∧ Computes s t 4 [9] rd (BitVec.ofInt 32 (a.toInt * b.toInt / 2 ^ 32)))
      ∧ (∃ t, exec (.mulhsu rd rs1 rs2) s = .next t
        ∧ Computes s t 4 [9] rd (BitVec.ofInt 32 (a.toInt * (b.toNat : Int) / 2 ^ 32)))
      ∧ ∃ t, exec (.mulhu rd rs1 rs2) s = .next t
        ∧ Computes s t 4 [9] rd (BitVec.ofNat 32 (a.toNat * b.toNat / 2 ^ 32))

/-- The four divisions; a zero divisor and the overflow do not trap. For a non-zero divisor the dividend is quotient times
divisor plus remainder, the remainder below the divisor, and in the signed pair of the dividend's sign (R395 to R399). -/
def Obligations.Quotients : Prop :=
  ∀ (s : State) (rd rs1 rs2 : Reg),
    let a := s.reg rs1
    let b := s.reg rs2
    let q : Word := if b = 0 then 0xFFFFFFFF#32 else BitVec.ofInt 32 (a.toInt.tdiv b.toInt)
    let qu : Word := if b = 0 then 0xFFFFFFFF#32 else BitVec.ofNat 32 (a.toNat / b.toNat)
    let r : Word := if b = 0 then a else BitVec.ofInt 32 (a.toInt.tmod b.toInt)
    let ru : Word := if b = 0 then a else BitVec.ofNat 32 (a.toNat % b.toNat)
    (∃ t, exec (.div rd rs1 rs2) s = .next t ∧ Computes s t 4 [10] rd q)
      ∧ (∃ t, exec (.divu rd rs1 rs2) s = .next t ∧ Computes s t 4 [10] rd qu)
      ∧ (∃ t, exec (.rem rd rs1 rs2) s = .next t ∧ Computes s t 4 [10] rd r)
      ∧ (∃ t, exec (.remu rd rs1 rs2) s = .next t ∧ Computes s t 4 [10] rd ru)
      ∧ (b ≠ 0 → a = q * b + r ∧ r.toInt.natAbs < b.toInt.natAbs ∧ (r = 0 ∨ (r.toInt < 0 ↔ a.toInt < 0))
        ∧ a = qu * b + ru ∧ ru.toNat < b.toNat)

/-- The compressed computational instructions have their expansion's result, two bytes long (R440, R441, R445, R447 to
R456, R460, R463, R466). That they count as event 15 is the model's reading (log 29). -/
def Obligations.CompressedOps : Prop :=
  ∀ (s : State) (rd rs2 : Reg) (cd cs : CReg) (imm6 : BitVec 6) (imm10 : BitVec 10) (sh : BitVec 5),
    let d := s.reg (xreg cd)
    let r := s.reg (xreg cs)
    let i : Word := imm6.signExtend 32
    (∃ t, exec (.cAddi4spn cd imm10) s = .next t
        ∧ Computes s t 2 [15] (xreg cd) (s.reg 2 + imm10.zeroExtend 32))
      ∧ (∃ t, exec (.cAddi rd imm6) s = .next t ∧ Computes s t 2 [15] rd (s.reg rd + i))
      ∧ (∃ t, exec (.cLi rd imm6) s = .next t ∧ Computes s t 2 [15] rd i)
      ∧ (∃ t, exec (.cAddi16sp imm10) s = .next t ∧ Computes s t 2 [15] 2 (s.reg 2 + imm10.signExtend 32))
      ∧ (∃ t, exec (.cLui rd imm6) s = .next t ∧ Computes s t 2 [15] rd (i <<< 12))
      ∧ (∃ t, exec (.cSrli cd sh) s = .next t
        ∧ Computes s t 2 [15] (xreg cd) (BitVec.ofNat 32 (d.toNat / 2 ^ sh.toNat)))
      ∧ (∃ t, exec (.cSrai cd sh) s = .next t
        ∧ Computes s t 2 [15] (xreg cd) (BitVec.ofInt 32 (d.toInt / 2 ^ sh.toNat)))
      ∧ (∃ t, exec (.cAndi cd imm6) s = .next t ∧ Computes s t 2 [15] (xreg cd) (d &&& i))
      ∧ (∃ t, exec (.cSub cd cs) s = .next t ∧ Computes s t 2 [15] (xreg cd) (d - r))
      ∧ (∃ t, exec (.cXor cd cs) s = .next t ∧ Computes s t 2 [15] (xreg cd) (d ^^^ r))
      ∧ (∃ t, exec (.cOr cd cs) s = .next t ∧ Computes s t 2 [15] (xreg cd) (d ||| r))
      ∧ (∃ t, exec (.cAnd cd cs) s = .next t ∧ Computes s t 2 [15] (xreg cd) (d &&& r))
      ∧ (∃ t, exec (.cSlli rd sh) s = .next t
        ∧ Computes s t 2 [15] rd (BitVec.ofNat 32 ((s.reg rd).toNat * 2 ^ sh.toNat)))
      ∧ (∃ t, exec (.cMv rd rs2) s = .next t ∧ Computes s t 2 [15] rd (s.reg rs2))
      ∧ ∃ t, exec (.cAdd rd rs2) s = .next t ∧ Computes s t 2 [15] rd (s.reg rd + s.reg rs2)

/-- `wfi` and `c.nop` only move on and count (R375, R444). That they count as event 15 is the model's reading (log
29). -/
def Obligations.Nops : Prop :=
  ∀ (s : State) (imm : BitVec 6),
    (∃ t, exec .wfi s = .next t ∧ RegsSame s t ∧ t.me.pc = s.me.pc + 4 ∧ LocalOnly s t 4 [15] 0)
      ∧ ∃ t, exec (.cNop imm) s = .next t ∧ RegsSame s t ∧ t.me.pc = s.me.pc + 2 ∧ LocalOnly s t 2 [15] 0

/-! ## Control transfer -/

/-- `jal` and `jalr`: the link, and the target with bit 0 cleared, from the old `x[rs1]`; the six conditional branches
(R331 to R339). Whether jumps count as branches is open (log 29). -/
def Obligations.JumpsAndBranches : Prop :=
  (∀ (s : State) (rd rs1 : Reg) (off : BitVec 21) (imm : BitVec 12),
      (∃ t, exec (.jal rd off) s = .next t ∧ Jumps s t 4 rd (s.me.pc + off.signExtend 32))
        ∧ ∃ t, exec (.jalr rd rs1 imm) s = .next t ∧ Jumps s t 4 rd ((s.reg rs1 + imm.signExtend 32) &&& ~~~1#32))
    ∧ ∀ (s : State) (rs1 rs2 : Reg) (off : BitVec 13),
      let a := s.reg rs1
      let b := s.reg rs2
      let o : Word := off.signExtend 32
      (∃ t, exec (.beq rs1 rs2 off) s = .next t ∧ Branches s t 4 (a = b) o)
        ∧ (∃ t, exec (.bne rs1 rs2 off) s = .next t ∧ Branches s t 4 (a ≠ b) o)
        ∧ (∃ t, exec (.blt rs1 rs2 off) s = .next t ∧ Branches s t 4 (a.toInt < b.toInt) o)
        ∧ (∃ t, exec (.bge rs1 rs2 off) s = .next t ∧ Branches s t 4 (b.toInt ≤ a.toInt) o)
        ∧ (∃ t, exec (.bltu rs1 rs2 off) s = .next t ∧ Branches s t 4 (a.toNat < b.toNat) o)
        ∧ ∃ t, exec (.bgeu rs1 rs2 off) s = .next t ∧ Branches s t 4 (b.toNat ≤ a.toNat) o

/-- The compressed jumps and branches; the link is `pc + 2` (R446, R457 to R459, R462, R465). Whether jumps count as
branches is open (log 29). -/
def Obligations.CompressedControl : Prop :=
  ∀ (s : State) (rs1 : Reg) (cs : CReg) (off : BitVec 12) (off9 : BitVec 9),
    (∃ t, exec (.cJal off) s = .next t ∧ Jumps s t 2 1 (s.me.pc + off.signExtend 32))
      ∧ (∃ t, exec (.cJ off) s = .next t ∧ Jumps s t 2 0 (s.me.pc + off.signExtend 32))
      ∧ (∃ t, exec (.cJr rs1) s = .next t ∧ Jumps s t 2 0 (s.reg rs1 &&& ~~~1#32))
      ∧ (∃ t, exec (.cJalr rs1) s = .next t ∧ Jumps s t 2 1 (s.reg rs1 &&& ~~~1#32))
      ∧ (∃ t, exec (.cBeqz cs off9) s = .next t
        ∧ Branches s t 2 (s.reg (xreg cs) = 0) (off9.signExtend 32))
      ∧ ∃ t, exec (.cBnez cs off9) s = .next t
        ∧ Branches s t 2 (s.reg (xreg cs) ≠ 0) (off9.signExtend 32)

/-! ## Loads and stores -/

/-- The first six checks of a data access in their order, over every byte of the access where the rule names its first
and last byte (R192, R193). -/
def Obligations.AccessChecks : Prop :=
  ∀ (c : BuildConfig) (mrac : Word) (k : AccessCauses) (base a : Word) (n : Nat), BuildConfig.legal c = true →
    n ∈ [1, 2, 4] →
    let e := a.toNat + n - 1
    let every (p : Word → Bool) : Bool := (List.range n).all (fun i => p (a + BitVec.ofNat 32 i))
    dataCheck c mrac k base a n =
      if 2 ^ 32 ≤ e ∨ e / 2 ^ 28 ≠ a.toNat / 2 ^ 28 then some (k.misaligned, 2)
      else if dlocalRegion c a = false ∧ sideEffect mrac a = true ∧ a.toNat % n ≠ 0 then some (k.misaligned, 1)
      else if dlocalRegion c a = true ∧ every (inDccm c) = false ∧ every (inPic c) = false then some (k.fault, 2)
      else if dlocalRegion c a = false ∧ every (dataOk c) = false then some (k.fault, 3)
      else if predictLocal c base ≠ predictLocal c a then some (k.fault, 5)
      else if inPic c a = true ∧ (n ≠ 4 ∨ a.toNat % 4 ≠ 0) then some (k.fault, 6)
      else none

/-- A load or store that fails a check takes its exception with `mtval` the effective address, counted as event 37, and
changes no register and no byte (R193, R359, R527). -/
def Obligations.AccessTraps : Prop :=
  ∀ (s : State) (r q : Reg) (imm : BitVec 12) (cd cs : CReg) (imm7 : BitVec 7) (imm8 : BitVec 8),
    QuietTriggers s → s.me.activity ≠ .dbgHalt →
    (∀ f ∈ loadForms r q imm cd cs imm7 imm8, ∀ p, f.loadCheck s = some p →
      ∃ t, exec f.instr s = .next t ∧ Traps s t [37] p.1 p.2 (f.addr s))
      ∧ ∀ f ∈ storeForms r q imm cd cs imm7 imm8, ∀ p, f.storeCheck s = some p →
        ∃ t, exec f.instr s = .next t ∧ Traps s t [37] p.1 p.2 (f.addr s)

/-- A load from the DCCM reads the bytes the hart sees there, its own queued stores first, at any alignment, and changes
nothing else (R193, R195, R229, R351 to R355). Of a misaligned load a part may have been read ahead (log 10): this is
the load that reads all its bytes itself. -/
def Obligations.DccmLoads : Prop :=
  ∀ (s : State) (r q : Reg) (imm : BitVec 12) (cd cs : CReg) (imm7 : BitVec 7) (imm8 : BitVec 8),
    BuildConfig.legal s.cfg = true → QuietTriggers s → s.me.buf.ahead = [] →
    ∀ f ∈ loadForms r q imm cd cs imm7 imm8, f.loadCheck s = none → inDccm s.cfg (f.addr s) = true →
      CleanWords s (f.addr s) f.size →
      ∃ t, exec f.instr s = .next t
        ∧ Computes s t f.len (if f.aligned s then [11] else [11, 13]) f.data (f.value s)

/-- A load from memory on the bus reads the bytes the hart sees there: its own buffered stores, forwarded or drained
first, else the memory. The other hart may see those stores from then on, nothing else. Where the SoC answers later the
load completes with no register changed, and its value goes to `rd` when the response arrives (R222 to R224, R228,
R351 to R355). That memory never errs, and that an answer comes at once or stays outstanding as the environment says,
is the model's choice (log 8, log 9). -/
def Obligations.BusLoads : Prop :=
  ∀ (s : State) (r q : Reg) (imm : BitVec 12) (cd cs : CReg) (imm7 : BitVec 7) (imm8 : BitVec 8),
    BuildConfig.legal s.cfg = true → QuietTriggers s → s.canonical = true → BusIsMemory s → s.me.NoBusErrors →
    s.me.wbInSpace = true → s.me.buf.ahead = [] →
    ∀ f ∈ loadForms r q imm cd cs imm7 imm8, f.loadCheck s = none → toBus s.cfg (f.addr s) = true →
      let evs := if f.aligned s then [11, 55] else [11, 13, 55]
      (s.me.buf.slowLoads = false →
        ∃ t, exec f.instr s = .next t
          ∧ RegWritten s t f.data (f.value s) ∧ t.me.pc = s.me.pc + BitVec.ofNat 32 f.len
          ∧ Retires s t f.len evs
          ∧ ViewSame s t ∧ t.me.res = s.me.res ∧ t.me.buf.sq = s.me.buf.sq
          ∧ t.sh = { s.sh with bus := t.sh.bus, ifuOld := t.sh.ifuOld, busLog := t.sh.busLog }
          ∧ ∀ a : Word, byteSeen t s.cur.other a = byteSeen s s.cur.other a ∨ (wbLookup a.toNat s.me.buf.wb).isSome)
        ∧ (s.me.buf.slowLoads = true → s.me.buf.wb = [] →
          ∃ t u, exec f.instr s = .next t
            ∧ RegsSame s t ∧ t.me.pc = s.me.pc + BitVec.ofNat 32 f.len ∧ Retires s t f.len evs ∧ MemorySame s t
            ∧ t.me.res = s.me.res ∧ t.sh = { s.sh with busLog := t.sh.busLog }
            ∧ perform t (.busResponse s.cur (t.me.buf.inflight.length - 1)) = .next u
            ∧ RegWritten s u f.data (f.value s) ∧ u.me.pc = t.me.pc ∧ u.sh = t.sh)

/-- Errors of the DCCM: a word with a double-bit error, found by the load or by a part it read ahead, traps with secondary
cause 1 and is left as it is; every load, every store of part of a word, and every atomic of words with single-bit errors
runs on the corrected data, which is written back and counted (R193, R236, R238, R240, R426). That each corrected word
counts once, and when a part may be read ahead, is the model's choice (log 10, log 11), that a failing `sc.w` reads the
word too is its reading (log 12). -/
def Obligations.DccmErrors : Prop :=
  ∀ (s : State) (r q p : Reg) (imm : BitVec 12) (cd cs : CReg) (imm7 : BitVec 7) (imm8 : BitVec 8) (aq rl : BitVec 1),
    BuildConfig.legal s.cfg = true → QuietTriggers s → s.me.activity ≠ .dbgHalt → s.cecd (some s.cur) = false →
    (∀ f ∈ loadForms r q imm cd cs imm7 imm8, f.loadCheck s = none → inDccm s.cfg (f.addr s) = true →
      ((s.me.buf.ahead = [] ∧ ∃ i ∈ touchedWords (f.addr s) f.size, (s.sh.dccm.status i).error = .double)
        ∨ ∃ p ∈ aheadOf s.me.buf.ahead (f.addr s).toNat f.size, ∃ w, p.word = some w ∧ w.bad = true) →
      ∃ t, exec f.instr s = .next t ∧ Traps s t [37] 5 1 (f.addr s))
      ∧ (∀ f ∈ storeForms r q imm cd cs imm7 imm8, f.storeCheck s = none → inDccm s.cfg (f.addr s) = true →
        ¬ (f.size = 4 ∧ f.aligned s = true) →
        (∃ i ∈ touchedWords (f.addr s) f.size, (s.sh.dccm.status i).error = .double) →
        ∃ t, exec f.instr s = .next t ∧ Traps s t [37] 7 1 (f.addr s))
      ∧ (s.canonical = true →
        (∀ f ∈ loadForms r q imm cd cs imm7 imm8, s.me.buf.ahead = [] → f.loadCheck s = none →
          inDccm s.cfg (f.addr s) = true → Correctable s (touchedWords (f.addr s) f.size) →
          ∃ t, exec f.instr s = .next t ∧ RegWritten s t f.data (f.value s)
            ∧ t.me.pc = s.me.pc + BitVec.ofNat 32 f.len ∧ Retires s t f.len (if f.aligned s then [11] else [11, 13])
            ∧ t.me.res = s.me.res ∧ t.me.buf = s.me.buf.overwrite f.data ∧ MemorySame s t
            ∧ Corrected s t (touchedWords (f.addr s) f.size))
        ∧ ∀ f ∈ storeForms r q imm cd cs imm7 imm8, f.storeCheck s = none → inDccm s.cfg (f.addr s) = true →
          ¬ (f.size = 4 ∧ f.aligned s = true) → Correctable s (touchedWords (f.addr s) f.size) →
          ∃ t, exec f.instr s = .next t ∧ RegsSame s t
            ∧ t.me.pc = s.me.pc + BitVec.ofNat 32 f.len ∧ Retires s t f.len (if f.aligned s then [12] else [12, 14])
            ∧ t.me.res = s.me.res ∧ t.me.buf = { s.me.buf with sq := t.me.buf.sq }
            ∧ MemoryStored s t (f.addr s) f.size (s.reg f.data)
            ∧ Corrected s t (touchedWords (f.addr s) f.size))
      ∧ (let u := fenceHart s s.cur
        let a := s.reg q
        let old := wordSeen u u.cur a
        let w := [a.toNat / 4]
        s.canonical = true → u.cecd (some s.cur) = false → u.sh.dccm.status (a.toNat / 4) = .single →
        (∀ k : AccessCauses, atomicCheck s.cfg s.sh.mrac k a = none) →
        (∃ t, exec (.lrW r q aq rl) s = .next t ∧ RegWritten u t r old ∧ t.me.pc = s.me.pc + 4 ∧ t.me.res = some a
            ∧ Retires u t 4 [52] ∧ t.me.buf = u.me.buf ∧ MemorySame u t ∧ Corrected u t w)
          ∧ (∃ t, exec (.scW r q p aq rl) s = .next t ∧ RegWritten u t r (if s.me.res = some a then 0 else 1)
            ∧ t.me.pc = s.me.pc + 4 ∧ t.me.res = none ∧ Hart.SystemSame u.me t.me
            ∧ t.me.ctr = (s.me.retire 4 [53]).ctr ∧ t.me.buf = u.me.buf ∧ OtherKept u t ∧ Corrected u t w
            ∧ (s.me.res = some a → WordReplaced u t a (s.reg p)) ∧ (s.me.res ≠ some a → MemorySame u t))
          ∧ ∀ f ∈ amoForms r q p aq rl, ∃ t, exec f.1 s = .next t ∧ RegWritten u t r old ∧ t.me.pc = s.me.pc + 4
            ∧ t.me.res = s.me.res ∧ Hart.SystemSame u.me t.me ∧ t.me.ctr = (s.me.retire 4 [51]).ctr
            ∧ t.me.buf = u.me.buf ∧ OtherKept u t ∧ Corrected u t w ∧ WordReplaced u t a (f.2 old (s.reg p)))

/-- A store to the DCCM or the bus: for the storing hart the stored bytes read as stored, every other byte as before; the
other hart sees nothing yet; no register changes (R193, R195, R220, R229, R240, R356 to R358). That the error status of a word stays as
it is until its store leaves the queue is the model's choice (log 11). -/
def Obligations.Stores : Prop :=
  ∀ (s : State) (r q : Reg) (imm : BitVec 12) (cd cs : CReg) (imm7 : BitVec 7) (imm8 : BitVec 8),
    BuildConfig.legal s.cfg = true → QuietTriggers s →
    ∀ f ∈ storeForms r q imm cd cs imm7 imm8, f.storeCheck s = none → inPic s.cfg (f.addr s) = false →
      (inDccm s.cfg (f.addr s) = true → (f.size = 4 ∧ f.aligned s = true) ∨ CleanWords s (f.addr s) f.size) →
      ∃ t, exec f.instr s = .next t
        ∧ RegsSame s t ∧ t.me.pc = s.me.pc + BitVec.ofNat 32 f.len
        ∧ Retires s t f.len ((if f.aligned s then [12] else [12, 14]) ++ (if inDccm s.cfg (f.addr s) then [] else [56]))
        ∧ t.sh = s.sh ∧ t.me.res = s.me.res ∧ MemoryStored s t (f.addr s) f.size (s.reg f.data)

/-- A load of what the hart has just stored at the same address reads it back: `sw` and `lw`, `sh` and `lhu`, `sb` and
`lbu` (R195, R224, R229). -/
def Obligations.StoreThenLoad : Prop :=
  ∀ (s : State) (rd rs1 rs2 : Reg) (imm : BitVec 12),
    BuildConfig.legal s.cfg = true → QuietTriggers s → s.canonical = true → LoadsAtOnce s →
    let a := s.reg rs1 + imm.signExtend 32
    let runs (n : Nat) (store load : Instr) (v : Word) : Prop :=
      dataCheck s.cfg s.dataMrac storeCauses (s.reg rs1) a n = none →
      (inDccm s.cfg a = true ∧ CleanWords s a n ∨ toBus s.cfg a = true ∧ BusIsMemory s) →
      ∃ t u, exec store s = .next t ∧ exec load t = .next u ∧ u.reg rd = if rd = 0 then 0 else v
    runs 4 (.sw rs1 rs2 imm) (.lw rd rs1 imm) (s.reg rs2)
      ∧ runs 2 (.sh rs1 rs2 imm) (.lhu rd rs1 imm) ((s.reg rs2).extractLsb' 0 16 |>.zeroExtend 32)
      ∧ runs 1 (.sb rs1 rs2 imm) (.lbu rd rs1 imm) ((s.reg rs2).extractLsb' 0 8 |>.zeroExtend 32)

/-- The oldest queued store reaches the DCCM: its hart sees what it saw, the other hart from now on sees its bytes
unless it has queued its own, and loses a reservation on their word (R229, R413). Stores that leave the write buffer,
one or merged into one transaction, leave in memory the youngest byte of each address, as one by one in order; the
storing hart sees what it saw (R220, R226). Only stores without side effects, of one aligned 8-byte block, with `wbcd` 0
are merged; a store with side effects leaves alone, as one write of its exact size (R223, R226). The entries of the queues are the model's (log 11, log 14). -/
def Obligations.StoreQueueDrains : Prop :=
  (∀ (s : State) (h : HartId) (e : SqEntry) (rest : List SqEntry), s.canonical = true → (s.hart h).buf.sq = e :: rest →
      ∃ t, perform s (.drainSq h) = .next t ∧ (t.hart h).buf.sq = rest
        ∧ t.hart h = { s.hart h with buf := { (s.hart h).buf with sq := rest } }
        ∧ (∀ a : Word, byteSeen t h a = byteSeen s h a)
        ∧ (∀ a : Word, byteSeen t h.other a =
            if inDccm s.cfg a = true ∧ e.addr.toNat ≤ a.toNat ∧ a.toNat < e.addr.toNat + e.data.length
                ∧ (sqLookup a.toNat (s.hart h.other).buf.sq).isNone
              then e.data.getD (a.toNat - e.addr.toNat) 0
            else byteSeen s h.other a)
        ∧ (t.hart h.other).res
          = (s.hart h.other).res.filter (fun r => decide (r.toNat / 4 ≠ e.addr.toNat / 4))
        ∧ t.hart h.other = { s.hart h.other with res := (t.hart h.other).res })
    ∧ ∀ (s : State) (h : HartId) (n : Nat) (e : WbEntry) (rest : List WbEntry), s.canonical = true → BusIsMemory s →
      (s.hart h).NoBusErrors → (s.hart h).wbInSpace = true → (s.hart h).buf.wb = e :: rest →
      ∃ t k, perform s (.drainWb h n) = .next t ∧ 1 ≤ k ∧ k ≤ n + 1
        ∧ (t.hart h).buf.wb = (e :: rest).drop k
        ∧ (1 < k → s.wbcd h = false
          ∧ ∀ x ∈ (e :: rest).take k, x.sideEffect = false ∧ x.addr.toNat / 8 = e.addr.toNat / 8)
        ∧ (k = 1 → t.sh.busLog = s.sh.busLog
          ++ [{ hart := h, write := true, addr := e.addr, size := e.data.length, data := addressed e.addr.toNat e.data }])
        ∧ (∀ a : Nat, readByte t.sh.bus a = (wbLookup a ((e :: rest).take k)).getD (readByte s.sh.bus a))
        ∧ (∀ a : Word, byteSeen t h a = byteSeen s h a)
        ∧ t.hart h = { s.hart h with buf := { (s.hart h).buf with
            wb := (t.hart h).buf.wb, inflight := (t.hart h).buf.inflight } }
        ∧ t.hart h.other = s.hart h.other
        ∧ t.sh = { s.sh with bus := t.sh.bus, ifuOld := t.sh.ifuOld, busLog := t.sh.busLog }
        ∧ t.sh.busLog.length = s.sh.busLog.length + 1

/-- A load from an address nothing answers on the bus completes, with any value, and its error response stays
outstanding; an error response that arrives is reported once: address captured, later errors gated until `mdeau` is
written, no other register changed; a write of `mdeau`, whatever its value, unlocks and keeps `mdseac` (R102, R103, R227,
R562). What answers an address, that the value comes at once, and the
captured bits 2:0 are the model's (log 8, log 9, log 15). -/
def Obligations.BusErrors : Prop :=
  (∀ (s : State) (r q : Reg) (imm : BitVec 12) (cd cs : CReg) (imm7 : BitVec 7) (imm8 : BitVec 8),
      BuildConfig.legal s.cfg = true → QuietTriggers s → s.me.buf.wb = [] → s.sepd s.cur = false →
      s.me.NoPendingLoads → s.me.buf.slowLoads = false →
      ∀ f ∈ loadForms r q imm cd cs imm7 imm8, f.loadCheck s = none → toBus s.cfg (f.addr s) = true →
        f.aligned s = true → socKind s.sh.soc (f.addr s).toNat = .error →
        ∃ v t, exec f.instr s = .next t ∧ RegWritten s t f.data v ∧ t.me.pc = s.me.pc + BitVec.ofNat 32 f.len
          ∧ t.me.nmi = s.me.nmi ∧ MemorySame s t
          ∧ t.me.buf.inflight = s.me.buf.inflight
            ++ [{ store := false, addr := f.addr s, error := true, sideEffect := sideEffect s.dataMrac (f.addr s) }])
    ∧ (∀ (s : State) (rd rs1 : Reg) (uimm : BitVec 5), ∀ f ∈ csrForms s rd rs1 uimm 0xBC0, f.writes = true →
        ∃ t, exec f.instr s = .next t ∧ RegWritten s t rd 0 ∧ t.me.pc = s.me.pc + 4
          ∧ t.me.nmi = { s.me.nmi with locked := false } ∧ t.me.buf = s.me.buf.overwrite rd ∧ t.sh = s.sh
          ∧ OthersSame s t)
    ∧ ∀ (s : State) (h : HartId) (i : Nat) (r : BusResp), (s.hart h).buf.inflight[i]? = some r → r.error = true →
        r.load = none →
        ∃ t, perform s (.busResponse h i) = .next t
          ∧ (t.hart h).buf.inflight = (s.hart h).buf.inflight.eraseIdx i
          ∧ t.hart h = { s.hart h with buf := (t.hart h).buf, nmi := (t.hart h).nmi }
          ∧ t.hart h.other = s.hart h.other ∧ t.sh = s.sh
          ∧ ((s.hart h).nmi.locked = true → (t.hart h).nmi = (s.hart h).nmi)
          ∧ ((s.hart h).nmi.locked = false →
            (t.hart h).nmi.locked = true
              ∧ (t.hart h).nmi.mdseac &&& 0xFFFFFFF8#32 = r.addr &&& 0xFFFFFFF8#32
              ∧ (t.hart h).nmi.store = ((s.hart h).nmi.store || r.store)
              ∧ (t.hart h).nmi.load = ((s.hart h).nmi.load || !r.store)
              ∧ (t.hart h).nmi.pin = (s.hart h).nmi.pin ∧ (t.hart h).nmi.fast = (s.hart h).nmi.fast)

/-! ## The interrupt controller's registers -/

/-- What a word load reads from the PIC block, its unused addresses among it (R610 to R617, R602). -/
def Obligations.PicLoads : Prop :=
  ∀ (s : State) (r q : Reg) (imm : BitVec 12) (cd cs : CReg) (imm7 : BitVec 7) (imm8 : BitVec 8),
    BuildConfig.legal s.cfg = true → QuietTriggers s →
    ∀ f ∈ loadForms r q imm cd cs imm7 imm8, f.loadCheck s = none → inPic s.cfg (f.addr s) = true →
      let off := (f.addr s).toNat - Placement.base s.cfg.pic
      let total := s.cfg.picTotalInt
      ∃ v t, exec f.instr s = .next t ∧ Computes s t f.len [11] f.data v
        ∧ (∀ n, 1 ≤ n → n ≤ total →
          let p := s.sh.source n
          (off = 4 * n → v = (if s.sh.priord then 15#4 - p.prio else p.prio).zeroExtend 32)
            ∧ (off = 0x2000 + 4 * n → v = if p.inten then 1 else 0)
            ∧ (off = 0x4000 + 4 * n → configurable s.cfg n = true →
              v = (if p.edge then 2 else 0) + (if p.low then 1 else 0))
            ∧ (off = 0x5000 + 4 * n → v = 0)
            ∧ (off = 0x6000 + 4 * n → s.cfg.dualThread = true → v = if p.del then 1 else 0))
        ∧ (∀ x, x ≤ total / 32 → ∀ y, y < 32 →
          let n := 32 * x + y
          let pending : Bool := decide (1 ≤ n) && decide (n ≤ total) && picReq s.cfg n (s.sh.source n)
          (off = 0x1000 + 4 * x → v.getLsbD y = pending)
            ∧ (off = 0x1800 + 4 * x → s.cfg.dualThread = true →
              v.getLsbD y = (pending && ((s.sh.source n).del == decide (s.cur = .t1)))))
        ∧ (off = 0x3000 → v = if s.sh.priord then 1 else 0)
        ∧ (off / 0x1000 = 3 → off ≠ 0x3000 → v = 0)
        ∧ (off / 0x1000 ∈ [0, 2, 4, 5, 6] → (off % 0x1000 = 0 ∨ off % 0x1000 > 4 * total) → v = 0)
        ∧ (off / 0x1000 ∈ [4, 5] → configurable s.cfg (off % 0x1000 / 4) = false → v = 0)
        ∧ (off / 0x1000 = 6 → s.cfg.dualThread = false → v = 0)
        ∧ (∀ x, x < 0x400 → off = 0x1000 + 4 * x → total / 32 < x →
          ¬ (0x200 ≤ x ∧ x - 0x200 ≤ total / 32 ∧ s.cfg.dualThread = true) → v = 0)
        ∧ (0x7000 ≤ off → v = 0)

/-- What a word store does to the PIC block: it writes the fields of the register, or nothing (R611 to R617, R602,
R608). The IP flop is free after a write of `meigwctrl` (log 28). -/
def Obligations.PicStores : Prop :=
  ∀ (s : State) (r q : Reg) (imm : BitVec 12) (cd cs : CReg) (imm7 : BitVec 7) (imm8 : BitVec 8),
    BuildConfig.legal s.cfg = true → QuietTriggers s → s.canonical = true →
    ∀ f ∈ storeForms r q imm cd cs imm7 imm8, f.storeCheck s = none → inPic s.cfg (f.addr s) = true →
      let off := (f.addr s).toNat - Placement.base s.cfg.pic
      let v := s.reg f.data
      ∃ t, exec f.instr s = .next t ∧ RegsSame s t ∧ t.me.pc = s.me.pc + BitVec.ofNat 32 f.len
        ∧ Retires s t f.len [12] ∧ MemorySame s t ∧ t.me.res = s.me.res ∧ t.me.buf = s.me.buf
        ∧ t.sh = { s.sh with sources := t.sh.sources, priord := t.sh.priord }
        ∧ t.sh.priord = (if off = 0x3000 then v.getLsbD 0 else s.sh.priord)
        ∧ ∀ n, (1 ≤ n → n ≤ s.cfg.picTotalInt →
            let p := s.sh.source n
            let w := t.sh.source n
            w.pin = p.pin
              ∧ w.prio = (if off = 4 * n then (if s.sh.priord then 15#4 - v.extractLsb' 0 4 else v.extractLsb' 0 4)
                  else p.prio)
              ∧ w.inten = (if off = 0x2000 + 4 * n then v.getLsbD 0 else p.inten)
              ∧ w.low = (if off = 0x4000 + 4 * n ∧ configurable s.cfg n = true then v.getLsbD 0 else p.low)
              ∧ w.edge = (if off = 0x4000 + 4 * n ∧ configurable s.cfg n = true then v.getLsbD 1 else p.edge)
              ∧ w.del = (if off = 0x6000 + 4 * n ∧ s.cfg.dualThread = true then v.getLsbD 0 else p.del)
              ∧ (¬ (off = 0x4000 + 4 * n ∧ configurable s.cfg n = true) →
                w.ip = (if off = 0x5000 + 4 * n ∧ configurable s.cfg n = true then false else p.ip)))
          ∧ (¬ (1 ≤ n ∧ n ≤ s.cfg.picTotalInt) → t.sh.source n = s.sh.source n)

/-! ## Fences -/

/-- What a fence does on a hart: its store queue, write buffer and outstanding responses are empty; a word it
initialised counts as initialised from then on; updates of `mrac` are in effect for its loads and stores, those for its
fetches stay as they are; its registers, but those that loads still had to write, and the other hart are kept; where the
bus is memory and no error is outstanding, the hart sees every byte it saw and no NMI is requested (R100, R234, R239, R413,
R771). The buffers' entries are the model's (log 11, log 14, log 17). -/
def Obligations.FenceDrains : Prop :=
  ∀ s : State,
    let u := fenceHart s s.cur
    u.me.buf.sq = [] ∧ u.me.buf.wb = [] ∧ u.me.buf.inflight = [] ∧ OtherKept s u
      ∧ u.me = { s.me with regs := u.me.regs, buf := u.me.buf, nmi := u.me.nmi }
      ∧ (s.me.NoPendingLoads → RegsSame s u)
      ∧ u.me.buf.prefetch = s.me.buf.prefetch
      ∧ u.sh = { s.sh with
          dccm := u.sh.dccm, bus := u.sh.bus, ifuOld := u.sh.ifuOld, busLog := u.sh.busLog, mracOld := u.sh.mracOld }
      ∧ u.dataMrac = s.sh.mrac
      ∧ (∀ i, (u.sh.dccm.status i).owner ≠ some s.cur)
      ∧ (s.canonical = true → ∀ i, s.sh.dccm.status i = .fresh s.cur → u.sh.dccm.status i = .ok)
      ∧ (s.canonical = true → BusIsMemory s → s.me.NoBusErrors → s.me.wbInSpace = true →
        ViewSame s u ∧ u.me.nmi = s.me.nmi)

/-- `fence` and `fence.i` perform the fence, whatever their fields, and move on; `fence.i` empties the I-cache and drops what
the hart has prefetched, and updates of `mfdc`, and of `mrac` for its fetches, are in effect for it (R100, R370, R371, R232,
R771, R772). In `db-halt` a write of `dmst` does what `fence.i` does, or what `fence` does, or nothing, by its bits 0 and 1
(R101, R232, R234). -/
def Obligations.Fences : Prop :=
  ∀ (s : State) (rd rs1 : Reg) (fm pred succ : BitVec 4) (imm : BitVec 12),
    let u := fenceHart s s.cur
    (∃ t, exec (.fence rd rs1 fm pred succ) s = .next t
        ∧ RegsSame u t ∧ t.me.pc = s.me.pc + 4 ∧ LocalOnly u t 4 [21] 0)
      ∧ (∃ t, exec (.fenceI rd rs1 imm) s = .next t
        ∧ RegsSame u t ∧ t.me.pc = s.me.pc + 4 ∧ Retires u t 4 [22] ∧ MemorySame u t
        ∧ t.sh = { u.sh with
            icache := [], icPoison := false, mfdcOld := t.sh.mfdcOld, mracOldFetch := t.sh.mracOldFetch }
        ∧ t.mfdcFor (some s.cur) = s.sh.mfdc ∧ (∀ p : Word, fetchCacheable t s.cur p = cacheable s.sh.mrac p)
        ∧ t.me.buf = { u.me.buf with prefetch := [] } ∧ t.me.res = s.me.res)
      ∧ (s.me.activity = .dbgHalt → s.me.NoPendingLoads →
        let v := s.reg rs1
        ∃ t, exec (.csrrw rd rs1 0x7C4) s = .next t
          ∧ RegWritten s t rd 0 ∧ t.me.pc = s.me.pc + 4 ∧ t.me.res = s.me.res
          ∧ Hart.SystemSame { s.me with nmi := t.me.nmi } t.me
          ∧ t.me.ctr = (s.me.retire 4 (if rd = 0 then [18] else [17])).ctr
          ∧ (v.getLsbD 0 = true → OthersSame u t ∧ t.me.nmi = u.me.nmi ∧ MemorySame u t
            ∧ t.me.buf = { u.me.buf with prefetch := [] }
            ∧ t.sh = { u.sh with
                icache := [], icPoison := false, mfdcOld := t.sh.mfdcOld, mracOldFetch := t.sh.mracOldFetch }
            ∧ t.mfdcFor (some s.cur) = s.sh.mfdc ∧ ∀ p : Word, fetchCacheable t s.cur p = cacheable s.sh.mrac p)
          ∧ (v.getLsbD 0 = false → v.getLsbD 1 = true →
            OthersSame u t ∧ t.me.nmi = u.me.nmi ∧ t.me.buf = u.me.buf ∧ t.sh = u.sh)
          ∧ (v.getLsbD 0 = false → v.getLsbD 1 = false →
            OthersSame s t ∧ t.me.nmi = s.me.nmi ∧ t.me.buf = s.me.buf ∧ t.sh = s.sh))

/-! ## Atomics -/

/-- `lr.w`: after the implicit fence the word of the DCCM goes to `rd` and the address is reserved (R411, R415). -/
def Obligations.LoadReserved : Prop :=
  ∀ (s : State) (rd rs1 : Reg) (aq rl : BitVec 1), QuietTriggers s →
    let u := fenceHart s s.cur
    let a := s.reg rs1
    atomicCheck s.cfg s.sh.mrac loadCauses a = none → u.sh.dccm.status (a.toNat / 4) = .ok →
    ∃ t, exec (.lrW rd rs1 aq rl) s = .next t
      ∧ RegWritten u t rd (wordSeen u u.cur a) ∧ t.me.pc = s.me.pc + 4 ∧ t.me.res = some a
      ∧ Retires u t 4 [52] ∧ t.me.buf = u.me.buf ∧ t.sh = u.sh ∧ MemorySame u t

/-- `sc.w`: with a reservation on exactly this address the word is stored at once and `rd` is 0; without one nothing
is stored and `rd` is 1; the reservation is gone either way, and also where the debugger executes a faulting one on a
halted hart (R413, R416). That a failing `sc.w` checks ECC too is the model's choice (log 12), that a halted hart takes no
trap is PRESUMED (log 19). -/
def Obligations.StoreConditional : Prop :=
  ∀ (s : State) (rd rs1 rs2 : Reg) (aq rl : BitVec 1), QuietTriggers s → s.canonical = true →
    let u := fenceHart s s.cur
    let a := s.reg rs1
    (atomicCheck s.cfg s.sh.mrac storeCauses a = none → u.sh.dccm.status (a.toNat / 4) = .ok →
      ∃ t, exec (.scW rd rs1 rs2 aq rl) s = .next t
        ∧ RegWritten u t rd (if s.me.res = some a then 0 else 1) ∧ t.me.pc = s.me.pc + 4 ∧ t.me.res = none
        ∧ Hart.SystemSame u.me t.me ∧ t.me.ctr = (s.me.retire 4 [53]).ctr ∧ t.me.buf = u.me.buf ∧ OtherKept u t
        ∧ (s.me.res = some a → WordStored u t a (s.reg rs2))
        ∧ (s.me.res ≠ some a → t.sh = u.sh ∧ OthersSame u t))
      ∧ (s.me.activity = .dbgHalt → atomicCheck s.cfg s.sh.mrac storeCauses a ≠ none →
        exec (.scW rd rs1 rs2 aq rl) s = .next (u.setMe { u.me with res := none }))

/-- The nine `amo*.w`: the old word to `rd`, the operation's result to memory in the same step; the hart's own reservation
stays, the other hart's on this word is lost (R413, R417 to R426). -/
def Obligations.AtomicMemoryOps : Prop :=
  ∀ (s : State) (rd rs1 rs2 : Reg) (aq rl : BitVec 1), QuietTriggers s → s.canonical = true →
    let u := fenceHart s s.cur
    let a := s.reg rs1
    let old := wordSeen u u.cur a
    atomicCheck s.cfg s.sh.mrac (amoCauses s.cfg) a = none → u.sh.dccm.status (a.toNat / 4) = .ok →
    ∀ f ∈ amoForms rd rs1 rs2 aq rl,
      ∃ t, exec f.1 s = .next t
        ∧ RegWritten u t rd old ∧ t.me.pc = s.me.pc + 4 ∧ t.me.res = s.me.res
        ∧ WordStored u t a (f.2 old (s.reg rs2))
        ∧ Hart.SystemSame u.me t.me ∧ t.me.ctr = (s.me.retire 4 [51]).ctr ∧ t.me.buf = u.me.buf
        ∧ OtherKept u t
        ∧ (∀ r, (t.hart s.cur.other).res = some r → r.toNat / 4 ≠ a.toNat / 4)

/-- The checks of an atomic access (R196), and the exception a failing one takes, after the implicit fence (R411); a word
with an uncorrectable error traps with secondary cause 1 (R238). An unaligned access to the PIC block reports 7, by R533,
R196's list and D6 over the order of R193 (log 13). That an `sc.w` without a reservation traps on an uncorrectable error
too is the model's reading (log 12). -/
def Obligations.AtomicTraps : Prop :=
  ∀ (s : State) (rd rs1 rs2 : Reg) (aq rl : BitVec 1) (p : Word × BitVec 4),
    QuietTriggers s → s.me.activity ≠ .dbgHalt →
    let u := fenceHart s s.cur
    let a := s.reg rs1
    (∀ k : AccessCauses, atomicCheck s.cfg s.sh.mrac k a
        = match dataCheck s.cfg s.sh.mrac k a a 4 with
          | some q => if q.2 = 6 then some (k.fault, 7) else some q
          | none =>
            if a.toNat % 4 = 0 ∧ inDccm s.cfg a = true ∧ inDccm s.cfg (a + 3) = true then none else some (k.fault, 7))
      ∧ (atomicCheck s.cfg s.sh.mrac { misaligned := 4, fault := 5 } a = some p →
        ∃ t, exec (.lrW rd rs1 aq rl) s = .next t ∧ Traps u t [37] p.1 p.2 a)
      ∧ (atomicCheck s.cfg s.sh.mrac { misaligned := 6, fault := 7 } a = some p →
        ∃ t, exec (.scW rd rs1 rs2 aq rl) s = .next t ∧ Traps u t [37] p.1 p.2 a)
      ∧ (atomicCheck s.cfg s.sh.mrac { misaligned := 6, fault := if s.cfg.amoFaultKind = .load then 5 else 7 } a = some p →
        ∀ f ∈ amoForms rd rs1 rs2 aq rl, ∃ t, exec f.1 s = .next t ∧ Traps u t [37] p.1 p.2 a)
      ∧ ((u.sh.dccm.status (a.toNat / 4)).error = .double → u.cecd (some s.cur) = false →
        (∀ k : AccessCauses, atomicCheck s.cfg s.sh.mrac k a = none) →
        (∃ t, exec (.lrW rd rs1 aq rl) s = .next t ∧ Traps u t [37] 5 1 a)
          ∧ (∃ t, exec (.scW rd rs1 rs2 aq rl) s = .next t ∧ Traps u t [37] 7 1 a)
          ∧ ∀ f ∈ amoForms rd rs1 rs2 aq rl, ∃ t, exec f.1 s = .next t
            ∧ Traps u t [37] (if s.cfg.amoFaultKind = .load then 5 else 7) 1 a)

/-! ## Environment calls, breakpoints, returns -/

/-- `ecall` takes exception 11, counted as events 20 and 37; `ebreak` and `c.ebreak` count event 19 and take exception 3
with secondary cause 2, counted as event 37, or with `dcsr.ebreakm` enter Debug Mode at this instruction with cause 1;
none is retired (R372, R373, R464, R532, R537, R686, R705, R706). That the entry sets the Debug Halt bit
(`dctl.dbgHalt = true`) and that a breakpoint in `db-halt` only counts are the model's PRESUMED choices (log 19); what it
does in a single step is the model's reading (log 20); that with the forced-halt timeout enabled and bus transactions
unfinished the entry stays pending is the model's choice (log 25). -/
def Obligations.EnvironmentTraps : Prop :=
  (∀ s : State, s.me.activity ≠ .dbgHalt → ∃ t, exec .ecall s = .next t ∧ Traps s t [20, 37] 11 0 0)
    ∧ ∀ (s : State) (i : Instr), i ∈ [.ebreak, .cEbreak] →
        (s.me.activity ≠ .dbgHalt → s.me.ebreakm = false →
          ∃ t, exec i s = .next t ∧ Traps s t [19, 37] 3 2 (policyTval s.cfg s.me.pc))
          ∧ (s.me.activity ≠ .dbgHalt → s.me.ebreakm = true → s.me.dctl.stepping = false → s.me.NoPendingLoads →
            s.sh.mfdht.getLsbD 0 = false ∨ s.me.busBusy = false →
            ∃ t, exec i s = .next t ∧ t.me.activity = .dbgHalt ∧ t.me.dbg.dpc = evenPc s.me.pc
              ∧ t.me.dbg.dcsr.extractLsb' 6 3 = 1#3 ∧ t.me.pc = s.me.pc ∧ t.me.res = none ∧ RegsSame s t
              ∧ t.me.trap = s.me.trap ∧ t.me.ctr = (s.me.countEvents [19]).ctr ∧ t.me.dctl.dbgHalt = true
              ∧ t.me.debugBrkptStatus = true ∧ t.me.busBusy = false ∧ t.me.buf.sq = [] ∧ OtherKept s t)
          ∧ (s.me.activity ≠ .dbgHalt → s.me.ebreakm = true → s.me.dctl.stepping = false → s.me.dctl.pending = none →
            s.sh.mfdht.getLsbD 0 = true → s.me.busBusy = true →
            ∃ t, exec i s = .next t ∧ t.me.dctl = { s.me.dctl with pending := some 1 } ∧ t.me.pc = s.me.pc
              ∧ t.me.activity = s.me.activity ∧ RegsSame s t ∧ t.me.trap = s.me.trap ∧ t.me.buf = s.me.buf ∧ t.sh = s.sh
              ∧ t.me.ctr = (s.me.countEvents [19]).ctr ∧ OthersSame s t)
          ∧ (s.me.activity ≠ .dbgHalt → s.me.ebreakm = true → s.me.dctl.stepping = true →
            ∃ t, exec i s = .next t
              ∧ t.me = { s.me with ctr := (s.me.countEvents [19]).ctr, dctl := { s.me.dctl with brkpt := true } }
              ∧ t.sh = s.sh ∧ OthersSame s t)
          ∧ (s.me.activity = .dbgHalt → ∃ t, exec i s = .next t
            ∧ t.me = { s.me with ctr := (s.me.countEvents [19]).ctr } ∧ t.sh = s.sh ∧ OthersSame s t)

/-- `mret`: `pc` from `mepc`, the `MIE` stack undone, the reservation gone, nothing else; right after an exception's entry it
goes back to the instruction that took it, with `MIE` as it was (R374, R550, R570). -/
def Obligations.TrapReturn : Prop :=
  (∀ s : State,
      ∃ t, exec .mret s = .next t
        ∧ t.me.pc = evenPc s.me.trap.mepc ∧ t.me.mie = s.me.mpie ∧ t.me.mpie = true ∧ t.me.res = none
        ∧ t.me.trap.mstatus &&& 0xFFFFFF77#32 = s.me.trap.mstatus &&& 0xFFFFFF77#32
        ∧ t.me.trap = { s.me.trap with mstatus := t.me.trap.mstatus }
        ∧ RegsSame s t ∧ OthersSame s t ∧ t.sh = s.sh ∧ MemorySame s t ∧ t.me.ctr = (s.me.retire 4 [23]).ctr
        ∧ t.me.tmr = s.me.tmr ∧ t.me.dbg = s.me.dbg ∧ t.me.dctl = s.me.dctl ∧ t.me.pic = s.me.pic
        ∧ t.me.pwr = s.me.pwr ∧ t.me.nmi = s.me.nmi ∧ t.me.buf = s.me.buf ∧ t.me.activity = s.me.activity)
    ∧ ∀ (s t : State) (evs : List Nat) (cause : Word) (secondary : BitVec 4) (tval : Word), s.me.pc.toNat % 2 = 0 →
        Traps s t evs cause secondary tval →
        ∃ u, exec .mret t = .next u ∧ u.me.pc = s.me.pc ∧ u.me.mie = s.me.mie ∧ RegsSame s u ∧ MemorySame s u

/-- `dret`: in `db-halt`, halted by the debugger alone and without `dcsr.step`, the hart leaves Debug Mode at `dpc`;
as a single-stepped instruction it is ignored; outside Debug Mode it is illegal (R377, R705, R708, R709). That it acts
as a resume request is the model's reading, and that it then counts nothing, neither a retired instruction nor an event,
with `stopcount` 0 too (`t.me.ctr = s.me.ctr`), the model's choice (log 19). -/
def Obligations.DebugReturn : Prop :=
  ∀ s : State,
    (s.me.activity = .dbgHalt → s.me.dctl.dbgHalt = true → s.me.dctl.mpcHalt = false → s.me.stepBit = false →
      ∃ t, exec .dret s = .next t ∧ t.me.activity = .running ∧ t.me.pc = evenPc s.me.dbg.dpc ∧ t.me.res = none
        ∧ t.me.dctl.dbgHalt = false ∧ t.me.dctl.dbgResume = false ∧ t.me.dctl.brkpt = false
        ∧ RegsSame s t ∧ t.me.trap = s.me.trap ∧ t.me.dbg = s.me.dbg ∧ t.me.ctr = s.me.ctr
        ∧ OthersSame s t ∧ t.sh = s.sh ∧ MemorySame s t)
      ∧ (s.me.activity ≠ .dbgHalt → s.me.dctl.stepping = true →
        ∃ t, exec .dret s = .next t ∧ RegsSame s t ∧ t.me.pc = s.me.pc + 4 ∧ LocalOnly s t 4 [] 0)
      ∧ (s.me.activity ≠ .dbgHalt → s.me.dctl.stepping = false →
        ∃ t, exec .dret s = .next t ∧ Traps s t [37] 2 0 (policyTval s.cfg 0x7B200073#32))

/-! ## CSRs -/

/-- Which CSR accesses are illegal: a number that does not exist, a write of a read-only one, a Debug Mode register outside
`db-halt`, `meicpct` with fast redirect; they take exception 2, with the instruction's bits in `mtval` (R43 to R47, R508,
R525). -/
def Obligations.CsrPermissions : Prop :=
  ∀ (s : State) (rd rs1 : Reg) (uimm : BitVec 5) (csr : BitVec 12), s.me.activity ≠ .dbgHalt →
    let a := csr.toNat
    let listed : Prop :=
      a ∈ [0x300, 0x301, 0x304, 0x305, 0x320, 0x340, 0x341, 0x342, 0x343, 0x344, 0x7A0, 0x7A1, 0x7A2, 0x7C0, 0x7C2,
          0x7C6, 0x7CE, 0x7CF, 0x7D2, 0x7D3, 0x7D4, 0x7D5, 0x7D6, 0x7D7]
        ∨ a ∈ [0x7F0, 0x7F1, 0x7F2, 0x7F8, 0x7F9, 0x7FC, 0x7FE, 0x7FF, 0xB00, 0xB02, 0xB80, 0xB82, 0xBC0, 0xBC8, 0xBC9,
          0xBCB, 0xBCC, 0xF11, 0xF12, 0xF13, 0xF14, 0xFC0, 0xFC4, 0xFC8]
        ∨ 0x323 ≤ a ∧ a ≤ 0x33F ∨ 0xB03 ≤ a ∧ a ≤ 0xB1F ∨ 0xB83 ≤ a ∧ a ≤ 0xB9F
        ∨ a = 0xBCA ∧ s.cfg.fastRedirect = false
    ∀ f ∈ csrForms s rd rs1 uimm csr,
      ((csrAccess s csr f.writes).isSome ↔ listed ∧ (f.writes = true → a < 0xC00))
        ∧ (csrAccess s csr f.writes = none →
          ∃ t, exec f.instr s = .next t ∧ Traps s t [37] 2 0 (policyTval s.cfg (instrBits f.instr)))

/-- The six CSR instructions put the old value into `rd` and move on; one that does not write does nothing else; one that
writes writes the operand, the old value with the operand's bits set, or the old value with them cleared, under the CSR's
own rules (`csrWrite`), which for `mscratch` keep it as it is (R500 to R509). A hart T1 that executes has been started. -/
def Obligations.CsrAccesses : Prop :=
  ∀ (s : State) (rd rs1 : Reg) (uimm : BitVec 5) (csr : BitVec 12) (n : CsrName),
    (s.cur = .t1 → s.sh.start1 = true) → s.me.NoPendingLoads →
    ∀ f ∈ csrForms s rd rs1 uimm csr, csrAccess s csr f.writes = some n →
      ∃ t, exec f.instr s = .next t ∧ RegWritten s t rd (csrRead s n) ∧ t.me.pc = s.me.pc + 4
        ∧ (f.writes = false → n ≠ .dicago → Computes s t 4 [16] rd (csrRead s n))
        ∧ (f.writes = true → ∃ u, t = csrWrite u n (f.value (csrRead s n)) ∧ RegWritten s u rd (csrRead s n)
          ∧ (n ≠ .dicago → Computes s u 4 (if rd = 0 then [18] else [17]) rd (csrRead s n)))
        ∧ (f.writes = true → csr = 0x340 → csrRead t .mscratch = f.value (csrRead s .mscratch))

/-- What a CSR instruction leaves alone: every other CSR but the counters of retired instructions and those fed by the
written one; the other hart, memory and the reservation, unless the write starts a hart, fences or sleeps (R509). -/
def Obligations.CsrFrames : Prop :=
  ∀ (s : State) (rd rs1 : Reg) (uimm : BitVec 5) (csr : BitVec 12) (n : CsrName),
    (s.cur = .t1 → s.sh.start1 = true) →
    ∀ f ∈ csrForms s rd rs1 uimm csr, csrAccess s csr f.writes = some n →
      ∃ t, exec f.instr s = .next t
        ∧ (∀ m : CsrName, m ≠ n → m ∉ n.affects → m.counts = false → csrRead t m = csrRead s m)
        ∧ (n ∉ [.mpmc, .dmst, .mhartstart] →
          OthersSame s t ∧ MemorySame s t ∧ t.me.res = s.me.res ∧ t.me.buf = s.me.buf.overwrite rd
            ∧ t.me.activity = s.me.activity ∧ t.me.pins = s.me.pins)

/-- What a written CSR reads back, from the value written (R48, R49, R55, R58 to R62, R64 to R71, R100 to R131, R140 to
R143, R620 to R625). What `tselect`, `tdata1` and `tdata2` keep (log 18) and the writable fields of `dcsr` (log 19) are
PRESUMED. -/
def Obligations.CsrReadBack : Prop :=
  ∀ (s : State) (rd rs1 : Reg),
    let v := s.reg rs1
    let back (csr : BitVec 12) (P : Word → Prop) : Prop :=
      ∃ t n, exec (.csrrw rd rs1 csr) s = .next t ∧ csrName csr = some n ∧ P (csrRead t n)
    (∀ p ∈ ([(0x300, (v &&& 0x88#32) ||| 0x1800#32), (0x304, v &&& 0x70000888#32), (0x305, v &&& ~~~2#32),
          (0x320, v &&& 0x7D#32), (0x340, v), (0x341, v &&& ~~~1#32), (0x343, v), (0x7FF, v &&& 0xF#32),
          (0xBC0, 0)] : List (BitVec 12 × Word))
        ++ ([(0x7C2, 0), (0x7C6, v &&& 2#32), (0x7CE, v &&& 0x3F#32), (0x7CF, v &&& 3#32), (0x7D2, v), (0x7D3, v),
          (0x7D4, v &&& 7#32), (0x7D5, v), (0x7D6, v), (0x7D7, v &&& 0xF#32), (0x7F8, v &&& 0x1FF#32),
          (0x7F9, v &&& 0x00070D4D#32)] : List (BitVec 12 × Word))
        ++ ([(0xB00, v), (0xB80, v), (0xB02, v), (0xB82, v), (0xB03, v), (0xB83, v), (0xB04, v), (0xB84, v), (0xB05, v),
          (0xB85, v), (0xB06, v), (0xB86, v)] : List (BitVec 12 × Word))
        ++ ([(0xBC8, v &&& ~~~0x3FF#32), (0xBC9, v &&& 0xF#32), (0xBCB, v &&& 0xF#32),
          (0xBCC, v &&& 0xF#32)] : List (BitVec 12 × Word)),
        back p.1 (· = p.2))
      ∧ (∀ csr ∈ ([0x323, 0x324, 0x325, 0x326] : List (BitVec 12)), back csr (·.toNat = min v.toNat 516))
      ∧ (∀ csr ∈ ([0x7F0, 0x7F1, 0x7F2] : List (BitVec 12)),
        back csr (fun w => w.extractLsb' 0 27 = v.extractLsb' 0 27
          ∧ (w.extractLsb' 27 5).toNat = min (v.extractLsb' 27 5).toNat 26))
      ∧ back 0x7C0 (fun w => ∀ y < 16, w.getLsbD (2 * y + 1) = v.getLsbD (2 * y + 1)
        ∧ w.getLsbD (2 * y) = (v.getLsbD (2 * y) && !v.getLsbD (2 * y + 1)))
      ∧ (v ∈ legalCauses → back 0x342 (· = v))
      ∧ (v.toNat < s.me.dbg.triggers.length → back 0x7A0 (· = v))
      ∧ (s.me.dbg.tselect.toNat < s.me.dbg.triggers.length →
        (s.me.dbg.selected.tdata1.getLsbD 27 = false → s.me.activity ≠ .dbgHalt →
          back 0x7A1 (· = 0x23E00000#32 ||| (v &&& 0x001808C7#32)) ∧ back 0x7A2 (· = v))
          ∧ (s.me.activity = .dbgHalt →
            back 0x7A1 (fun w => w &&& 0xF7FFEFFF#32 = 0x23E00000#32 ||| (v &&& 0x001808C7#32)
              ∧ w.getLsbD 27 = v.getLsbD 27 ∧ w.getLsbD 12 = (v.getLsbD 27 && v.extractLsb' 12 4 == 1#4))
              ∧ back 0x7A2 (· = v)))
      ∧ (s.me.activity = .dbgHalt → BuildConfig.legal s.cfg = true → s.cfg.icacheEnable = true →
        let way := s.cfg.icacheSizeKB * 1024 / s.cfg.icacheWays
        let tags := s.me.dbg.dicawics.getLsbD 24
        back 0x7B0 (fun w => w &&& 0x8E04#32 = v &&& 0x8E04#32
          ∧ w &&& 0xFFFF71FB#32 = csrRead s .dcsr &&& 0xFFFF71FB#32)
          ∧ back 0x7B1 (· = v &&& ~~~1#32)
          ∧ back 0x7C8 (fun w => ∀ i < 32, w.getLsbD i = (v.getLsbD i
            && (i == 24 || i == 20 || (i == 21 && s.cfg.icacheWays == 4) || (decide (3 ≤ i) && decide (2 ^ i < way)))))
          ∧ back 0x7C9 (fun w => ∀ i < 32, w.getLsbD i = (v.getLsbD i
            && (!tags || (decide (i < 11) && !((i == 5 || i == 6) && s.cfg.icacheWays == 2))
              || (decide (11 ≤ i) && decide (2 ^ (i - 11) * way < 2 ^ 32)))))
          ∧ back 0x7CC (· = v)
          ∧ back 0x7CA (· = v &&& (if s.cfg.icacheEcc then (if tags then 0x1F#32 else 0x7F#32)
            else (if tags then 1#32 else 0xF#32))))
      ∧ back 0x7FE (· = let w := if s.cfg.dualThread then v &&& 3#32 else v &&& 1#32
          if w = 0 then s.sh.mnmipdel else w)

/-- The constant CSRs: `misa` reads its constant and a write of it does nothing; `mvendorid`, `marchid`, `mimpid` read theirs
and a write is illegal; counters and event selectors 7 to 31 read 0 and a write does nothing. -/
def Obligations.ConstantCsrs : Prop :=
  (∀ (s : State) (rd rs1 : Reg),
      (∃ t, exec (.csrrs rd 0 0x301) s = .next t ∧ Computes s t 4 [16] rd 0x40001105#32)
        ∧ (∃ t, exec (.csrrw rd rs1 0x301) s = .next t
          ∧ Computes s t 4 (if rd = 0 then [18] else [17]) rd 0x40001105#32)
        ∧ ∀ p ∈ ([(0xF11, 0x45#32), (0xF12, 0x11#32), (0xF13, 0x2#32)] : List (BitVec 12 × Word)),
          (∃ t, exec (.csrrs rd 0 p.1) s = .next t ∧ Computes s t 4 [16] rd p.2)
            ∧ (s.me.activity ≠ .dbgHalt → ∃ t, exec (.csrrw rd rs1 p.1) s = .next t
              ∧ Traps s t [37] 2 0 (policyTval s.cfg (instrBits (.csrrw rd rs1 p.1)))))
    ∧ ∀ (s : State) (rd rs1 : Reg) (csr : BitVec 12),
        (0x327 ≤ csr.toNat ∧ csr.toNat ≤ 0x33F ∨ 0xB07 ≤ csr.toNat ∧ csr.toNat ≤ 0xB1F
          ∨ 0xB87 ≤ csr.toNat ∧ csr.toNat ≤ 0xB9F) →
        (∃ t, exec (.csrrs rd 0 csr) s = .next t ∧ Computes s t 4 [16] rd 0)
          ∧ ∃ t, exec (.csrrw rd rs1 csr) s = .next t ∧ Computes s t 4 (if rd = 0 then [18] else [17]) rd 0

/-- Counters 7 to 31, their high halves and their event selectors: each exists, reads 0, and may be written, which changes
nothing (R63). -/
def Obligations.HardwiredCounters : Prop :=
  ∀ (s : State) (csr : BitVec 12),
    (0x327 ≤ csr.toNat ∧ csr.toNat ≤ 0x33F ∨ 0xB07 ≤ csr.toNat ∧ csr.toNat ≤ 0xB1F
      ∨ 0xB87 ≤ csr.toNat ∧ csr.toNat ≤ 0xB9F) →
    ∃ n, csrAccess s csr true = some n ∧ csrAccess s csr false = some n ∧ csrRead s n = 0 ∧ ∀ v, csrWrite s n v = s

/-- Retiring an instruction: `minstret` and the event counters, while the hart's counters run and are not inhibited; other
counters and selectors stay (R65, R66, R681 to R683, R686). -/
def Obligations.RetireCounts : Prop :=
  ∀ (h : Hart) (len : Nat) (evs : List Nat) (k : Fin 4),
    let g := h.retire len evs
    let runs : Bool := h.activity == .running || (h.activity == .dbgHalt && !h.dbg.dcsr.getLsbD 10)
    let c := h.ctr.get k
    let counted := (([4] ++ (if len = 2 then [5] else [6]) ++ evs).filter (fun e => e = c.event.toNat ∧ e ≠ 0)).length
    g.ctr.minstret = (if runs && !h.ctr.mcountinhibit.getLsbD 2 then h.ctr.minstret + 1 else h.ctr.minstret)
      ∧ (g.ctr.get k).count = (if runs && !h.ctr.mcountinhibit.getLsbD (3 + k.val) then c.count + BitVec.ofNat 64 counted
        else c.count)
      ∧ (g.ctr.get k).event = c.event ∧ g.ctr.mcycle = h.ctr.mcycle
      ∧ g.ctr.mcountinhibit = h.ctr.mcountinhibit ∧ g = { h with ctr := g.ctr }

/-! ## Interrupts and NMIs -/

/-- `mceip` of both harts is pending exactly while one of the three error counters is at or above two to the power of its
threshold (R108). -/
def Obligations.CorrectableErrorPending : Prop :=
  ∀ (s : State) (i : HartId),
    let reached (r : Word) : Prop := 2 ^ (r.extractLsb' 27 5).toNat ≤ (r.extractLsb' 0 27).toNat
    ((mipOf s i).getLsbD 30 = true ↔ reached s.sh.micect ∨ reached s.sh.miccmect ∨ reached s.sh.mdccmect)
      ∧ (mipOf State.reset i).getLsbD 30 = false

/-- The interrupt ready at a boundary: the first in the order external, correctable error, software, timer, internal
timer 0, internal timer 1 that is pending and enabled, with `MIE` set (R56, R108, R546, R547, R674, R709), where no
earlier value of the PIC thresholds may still be in use (R775, log 17). How long a timer request is held (log 22) and
that no interrupt is taken while single-stepping with `dcsr.stepie` = 0 (log 20) are the model's reading. -/
def Obligations.InterruptPriority : Prop :=
  ∀ (s : State) (i : HartId) (b : Nat),
    let h := s.hart i
    let reached (r : Word) : Prop := 2 ^ (r.extractLsb' 27 5).toNat ≤ (r.extractLsb' 0 27).toNat
    let pending (n : Nat) : Prop :=
      n = 11 ∧ mexintirq s i = true
        ∨ n = 30 ∧ (reached s.sh.micect ∨ reached s.sh.miccmect ∨ reached s.sh.mdccmect)
        ∨ n = 3 ∧ h.pins.softInt = true ∨ n = 7 ∧ h.pins.timerInt = true
        ∨ n = 29 ∧ (h.tmr.mitb0.toNat ≤ h.tmr.mitcnt0.toNat ∨ h.tmr.held0 = true)
        ∨ n = 28 ∧ (h.tmr.mitb1.toNat ≤ h.tmr.mitcnt1.toNat ∨ h.tmr.held1 = true)
    let order := [11, 30, 3, 7, 29, 28]
    h.late = .settled →
    (readyInterrupt s i = some b ↔
      h.mie = true ∧ ¬ (h.dctl.stepping = true ∧ h.dbg.dcsr.getLsbD 11 = false)
        ∧ pending b ∧ h.trap.mie.getLsbD b = true
        ∧ ∀ c, order.idxOf c < order.idxOf b → ¬ (pending c ∧ h.trap.mie.getLsbD c = true))

/-- A ready interrupt is taken before the next instruction, at the base or, vectored, at `BASE + 4 * cause`; a pause
ends; nothing retires; a timer interrupt counts event 38, the external one event 39 (R546, R550, R551, R686, R703), where no earlier value of `mtvec` may still be in use (R775, log 17).
Who steps next is the model's choice (log 1). -/
def Obligations.InterruptTaken : Prop :=
  ∀ (s : State) (b : Nat), HartsMove s → s.me.activity = .running → s.me.debugRequest = none → readyNmi s.me = none →
    readyInterrupt s s.cur = some b → ¬ (b = 11 ∧ s.cfg.fastRedirect = true) → s.me.late.mtvec = [] →
    let base := s.me.trap.mtvec &&& 0xFFFFFFFC#32
    ∃ t, step s = .next (passTurn (finishStep t))
      ∧ TrapEntry s t (if b = 11 then [39] else if b ∈ [7, 28, 29] then [38] else [])
        (0x80000000#32 ||| BitVec.ofNat 32 b) 0 0
        (if s.me.trap.mtvec.getLsbD 0 then base + BitVec.ofNat 32 (4 * b) else base)
      ∧ t.me.pwr = { s.me.pwr with pausing := false } ∧ t.me.dbg = s.me.dbg ∧ t.me.pic = s.me.pic
      ∧ t.me.nmi = s.me.nmi ∧ t.me.buf = s.me.buf

/-- With fast redirect the external interrupt claims the winner and goes to the address its table entry in the DCCM
holds; a table outside the DCCM's region, outside the DCCM, or an entry with an uncorrectable error requests an NMI
(R650, R651). Who steps next, and what a build without a DCCM reports, are the model's choice (log 1, log 36). -/
def Obligations.FastInterruptTaken : Prop :=
  ∀ s : State, HartsMove s → s.me.activity = .running → s.me.debugRequest = none → readyNmi s.me = none →
    readyInterrupt s s.cur = some 11 → s.cfg.fastRedirect = true →
    let id : Word := BitVec.ofNat 32 ((picWinner s.cfg s.sh s.cur).1 % 256)
    let a := s.me.pic.meivt ||| (id <<< 2)
    ∃ t, step s = .next (passTurn (finishStep t))
      ∧ t.me.pic = { s.me.pic with
          claimid := BitVec.ofNat 8 (picWinner s.cfg s.sh s.cur).1, clidpri := (picWinner s.cfg s.sh s.cur).2 }
      ∧ (inDccm s.cfg a = true → CleanWords s a 4 → a.toNat % 4 = 0 → BuildConfig.legal s.cfg = true →
        TrapEntry s t [39] 0x8000000B#32 0 0 (evenPc (wordSeen s s.cur a)))
      ∧ (Placement.ownsRegion s.cfg.dccm a = false → t.me.nmi.fast = some .nonDccm ∧ t.me.pc = s.me.pc)
      ∧ (Placement.ownsRegion s.cfg.dccm a = true → inDccm s.cfg a = false →
        t.me.nmi.fast = some .dccmRegion ∧ t.me.pc = s.me.pc)
      ∧ (inDccm s.cfg a = true → a.toNat % 4 = 0 → s.cecd (some s.cur) = false → BuildConfig.legal s.cfg = true →
        s.sh.dccm.status (a.toNat / 4) = .double → t.me.nmi.fast = some .ecc ∧ t.me.pc = s.me.pc)

/-- A requested NMI is taken at the next boundary whatever `mstatus` and `mie` hold, at the NMI vector: D-bus error
first, load before store, then fast interrupt, then pin; its request, and only that, is cleared (R560, R562, R564).
That a load error goes before a store error is the model's choice (log 30). -/
def Obligations.NmiTaken : Prop :=
  ∀ s : State, HartsMove s → s.me.activity = .running → s.me.debugRequest = none → s.me.stepMasks = false →
    s.me.nmi.any = true →
    let n := s.me.nmi
    let cause : Word :=
      if n.load then 0xF0000001#32 else if n.store then 0xF0000000#32
      else match n.fast with
        | some .ecc => 0xF0001000#32
        | some .dccmRegion => 0xF0001001#32
        | some .nonDccm => 0xF0001002#32
        | none => 0
    ∃ t, step s = .next (passTurn (finishStep t)) ∧ TrapEntry s t [] cause 0 0 (s.sh.nmiVec ++ 0#1)
      ∧ t.me.nmi.load = false ∧ t.me.nmi.mdseac = n.mdseac ∧ t.me.nmi.locked = n.locked
      ∧ (n.load = true → t.me.nmi.store = n.store ∧ t.me.nmi.fast = n.fast ∧ t.me.nmi.pin = n.pin)
      ∧ (n.load = false → t.me.nmi.store = false ∧ (n.store = true → t.me.nmi.fast = n.fast ∧ t.me.nmi.pin = n.pin)
        ∧ (n.store = false → t.me.nmi.fast = none ∧ (n.fast ≠ none → t.me.nmi.pin = n.pin)
          ∧ (n.fast = none → t.me.nmi.pin = false)))

/-! ## The interrupt controller -/

/-- The winner of a hart: the highest priority among the pending, enabled, delegated sources that are not of priority 0, the
lowest ID among equals; the request and the wake-up compare it with the thresholds and with 15. -/
def Obligations.PicEvaluation : Prop :=
  ∀ (s : State) (i : HartId), s.canonical = true → s.cfg.pic.enable = true →
    let candidate (n : Nat) : Prop :=
      let p := s.sh.source n
      1 ≤ n ∧ n ≤ s.cfg.picTotalInt ∧ picReq s.cfg n p = true ∧ p.inten = true ∧ p.prio ≠ 0
        ∧ p.del = decide (i = .t1)
    let win := (picWinner s.cfg s.sh i).1
    let top := (picWinner s.cfg s.sh i).2.toNat
    (∀ n, candidate n → (s.sh.source n).prio.toNat ≤ top)
      ∧ ((∃ n, candidate n) → candidate win ∧ (s.sh.source win).prio.toNat = top
        ∧ ∀ n, candidate n → (s.sh.source n).prio.toNat = top → win ≤ n)
      ∧ ((¬ ∃ n, candidate n) → win = 0 ∧ top = 0)
      ∧ (mexintirq s i = true ↔ max (s.hart i).pic.prithresh.toNat (s.hart i).pic.currpri.toNat < top)
      ∧ (mhwakeup s i = true ↔ top = 15)

/-- A write of `meicpct` captures the winner's ID and priority, whatever the thresholds; `meihap` then points at its table
entry (R622, R623, R640). -/
def Obligations.ClaimCaptures : Prop :=
  ∀ (s : State) (rd rs1 : Reg), s.cfg.fastRedirect = false → s.me.pic.meivt &&& 0x3FF#32 = 0 →
    ∃ t, exec (.csrrw rd rs1 0xBCA) s = .next t
      ∧ RegWritten s t rd 0 ∧ t.me.pc = s.me.pc + 4 ∧ t.sh = s.sh ∧ OthersSame s t
      ∧ t.me.pic = { s.me.pic with
          claimid := BitVec.ofNat 8 (picWinner s.cfg s.sh s.cur).1, clidpri := (picWinner s.cfg s.sh s.cur).2 }
      ∧ csrRead t .meihap
        = s.me.pic.meivt + BitVec.ofNat 32 (4 * ((picWinner s.cfg s.sh s.cur).1 % 256))

/-- The gateway of a source follows its pin: level-triggered it requests while the input is active, edge-triggered it
latches a transition to active and keeps it (R605, R606). -/
def Obligations.GatewayFollowsPin : Prop :=
  ∀ (s : State) (n : Nat) (b : Bool), s.canonical = true → 1 ≤ n → n ≤ s.cfg.picTotalInt →
    let p := s.sh.source n
    ∃ t, perform s (.extInt n b) = .next t
      ∧ (configurable s.cfg n = false → picReq t.cfg n (t.sh.source n) = b)
      ∧ (configurable s.cfg n = true → p.edge = false → picReq t.cfg n (t.sh.source n) = (b != p.low))
      ∧ (configurable s.cfg n = true → p.edge = true → picReq t.cfg n (t.sh.source n)
        = (p.ip || ((p.pin == p.low) && (b != p.low))))
      ∧ (∀ k, k ≠ n → t.sh.source k = s.sh.source k)
      ∧ t = { s with sh := { s.sh with sources := t.sh.sources } }

/-! ## Clock, power, debug -/

/-- One clock step of a hart that is not idle: its timers count under their conditions and clear at their bounds,
timer 1 in cascade mode counts when timer 0 is at its bound; `mcycle` counts unless inhibited or stopped; a pause
counts down (R64, R671, R672, R675, R680, R703). The clear at the bound without the increment condition, and a pause
in `db-halt`, are the model's reading (log 21, log 22). -/
def Obligations.ClockTicks : Prop :=
  ∀ (s : State) (i : HartId), (s.hart i).activity ≠ .idle →
    let h := s.hart i
    let runs (ctl : Word) : Bool :=
      ctl.getLsbD 0 && (h.activity == .running && (!h.pwr.pausing || ctl.getLsbD 2) || h.activity == .sleep && ctl.getLsbD 1)
    let hit0 : Bool := decide (h.tmr.mitb0.toNat ≤ h.tmr.mitcnt0.toNat)
    let hit1 : Bool := decide (h.tmr.mitb1.toNat ≤ h.tmr.mitcnt1.toNat)
    let counts : Bool :=
      (h.activity == .running || (h.activity == .dbgHalt && !h.dbg.dcsr.getLsbD 10)) && !h.ctr.mcountinhibit.getLsbD 0
    ∃ t, perform s .tick = .next t
      ∧ (let g := t.hart i
        g.tmr.mitcnt0 = (if hit0 then 0 else if runs h.tmr.mitctl0 then h.tmr.mitcnt0 + 1 else h.tmr.mitcnt0)
          ∧ g.tmr.mitcnt1 = (if hit1 then 0
              else if runs h.tmr.mitctl1 && (!h.tmr.mitctl1.getLsbD 3 || hit0) then h.tmr.mitcnt1 + 1
              else h.tmr.mitcnt1)
          ∧ g.tmr.mitb0 = h.tmr.mitb0 ∧ g.tmr.mitb1 = h.tmr.mitb1 ∧ g.tmr.mitctl0 = h.tmr.mitctl0
          ∧ g.tmr.mitctl1 = h.tmr.mitctl1
          ∧ g.ctr.mcycle = (if counts then h.ctr.mcycle + 1 else h.ctr.mcycle) ∧ g.ctr.minstret = h.ctr.minstret
          ∧ (h.pwr.pausing = true → h.activity ≠ .sleep → h.pwr.pauseCount = 0 → g.pwr.pausing = false)
          ∧ (h.pwr.pausing = true → h.activity ≠ .sleep → h.pwr.pauseCount ≠ 0 →
            g.pwr.pausing = true ∧ g.pwr.pauseCount = h.pwr.pauseCount - 1)
          ∧ (∀ r : Reg, g.reg r = h.reg r) ∧ g.pc = h.pc ∧ g.trap = h.trap ∧ g.pic = h.pic)

/-- A write of 1 to `mpmc.halt` outside Debug Mode puts the hart to Sleep at the next instruction, quiesced, with
`MIE` set if the new `haltie` is; without `halt`, or in Debug Mode, only `haltie` is written. A write of `mcpc` starts
a pause of that many clock steps, and reads 0 (R120, R121, R413, R701, R703). That Sleep is entered in the same step
is the model's choice (log 23). -/
def Obligations.SleepAndPauseStart : Prop :=
  (∀ (s : State) (rd rs1 : Reg), s.me.NoPendingLoads →
      let v := s.reg rs1
      let halts : Bool := v.getLsbD 0 && s.me.activity != .dbgHalt && !s.me.dctl.stepping
      ∃ t, exec (.csrrw rd rs1 0x7C6) s = .next t
        ∧ RegWritten s t rd (if s.me.pwr.haltie then 2 else 0) ∧ t.me.pc = s.me.pc + 4 ∧ t.me.pwr.haltie = v.getLsbD 1
        ∧ t.me.activity = (if halts then .sleep else s.me.activity)
        ∧ t.me.mie = (s.me.mie || (halts && v.getLsbD 1))
        ∧ t.me.res = (if halts then none else s.me.res)
        ∧ (s.me.mpcRunAck = true → t.me.mpcRunAck = true)
        ∧ (halts = true → t.me.buf.sq = [] ∧ t.me.busBusy = false ∧ OtherKept s t)
        ∧ (halts = false → t.me.buf = s.me.buf ∧ t.sh = s.sh ∧ OthersSame s t))
    ∧ ∀ (s : State) (rd rs1 : Reg),
        ∃ t, exec (.csrrw rd rs1 0x7C2) s = .next t
          ∧ RegWritten s t rd 0 ∧ t.me.pc = s.me.pc + 4
          ∧ t.me.pwr = { s.me.pwr with pausing := true, pauseCount := s.reg rs1 }
          ∧ t.me.activity = s.me.activity ∧ t.me.trap = s.me.trap ∧ t.me.buf = s.me.buf.overwrite rd ∧ t.sh = s.sh
          ∧ OthersSame s t

/-- A sleeping hart wakes for an enabled software or timer interrupt, for an internal timer's whose `halt_en` is set,
for the external one where the PIC signals its wake-up, and for an NMI, and takes it; on `cpu_run_req` it runs its next
instruction. While every hart is idle, in `db-halt`, asleep without a wake-up event, or pausing without an event, only
the clock moves (R33, R673, R702, R703). That the wake-up and the interrupt are one step, that any NMI wakes, and that
the clock moves when no hart does, are the model's choice (log 1, log 23). -/
def Obligations.SleepEnds : Prop :=
  ∀ s : State, HartsMove s →
    (∀ b ∈ [3, 7, 11, 28, 29], s.me.activity = .sleep → s.me.debugRequest = none → readyNmi s.me = none →
      readyInterrupt s s.cur = some b → s.me.late.mtvec = [] →
      (b = 28 → s.me.tmr.mitctl1.getLsbD 1 = true) → (b = 29 → s.me.tmr.mitctl0.getLsbD 1 = true) →
      (b = 11 → mhwakeup s s.cur = true ∧ s.cfg.fastRedirect = false) →
      ∃ t, step s = .next (passTurn (finishStep t)) ∧ t.me.activity = .running
        ∧ TrapEntry (s.setMe s.me.wake) t (if b = 11 then [39] else if b ∈ [7, 28, 29] then [38] else [])
          (0x80000000#32 ||| BitVec.ofNat 32 b) 0 0
          (if s.me.trap.mtvec.getLsbD 0 then (s.me.trap.mtvec &&& 0xFFFFFFFC#32) + BitVec.ofNat 32 (4 * b)
            else s.me.trap.mtvec &&& 0xFFFFFFFC#32))
      ∧ (s.me.activity = .sleep → s.me.debugRequest = none → s.me.stepMasks = false → s.me.nmi.any = true →
        ∃ t, step s = .next (passTurn (finishStep t)) ∧ t.me.activity = .running
          ∧ t.me.pc = s.sh.nmiVec ++ 0#1 ∧ t.me.trap.mepc = evenPc s.me.pc ∧ RegsSame s t)
      ∧ (s.me.activity = .sleep → s.me.debugRequest = none → readyNmi s.me = none → readyInterrupt s s.cur = none →
        s.me.pins.cpuRunReq = true → s.me.pins.cpuHaltReq = false → s.me.pwr.pausing = false →
        let u := s.setMe s.me.wake
        u.me.activity = .running ∧ u.me.cpuRunAck = true ∧ u.me.pc = s.me.pc
          ∧ step s = mapNext passTurn (mapNext finishStep (mapNext endStep (runInstruction (beginInstruction u)))))
      ∧ ((∀ i : HartId,
          let h := s.hart i
          h.activity = .idle ∨ h.activity = .dbgHalt
            ∨ h.debugRequest = none ∧ h.nmi.any = false
              ∧ (h.activity = .sleep ∧ h.pins.cpuRunReq = false
                  ∧ ¬ (mhwakeup s i = true ∧ h.mie = true ∧ h.trap.mie.getLsbD 11 = true)
                  ∧ (h.mie = true → ∀ b ∈ h.wakeBits, ¬ ((requests s i).getLsbD b = true ∧ h.trap.mie.getLsbD b = true))
                ∨ h.activity = .running ∧ h.pwr.pausing = true ∧ h.pins.cpuHaltReq = false
                  ∧ readyInterrupt s i = none ∧ s.cfg.pauseEndsOnDisabledInt = false)) →
        step s = .next (tick s))

/-- Debug Mode: a requested hart enters `db-halt` at its next boundary with its `pc` in `dpc` and the cause in `dcsr`,
quiesced, and holds `mpc_debug_run_ack`; a hart the debugger halted leaves at `dpc` on the debugger's request; a single-stepped instruction takes a
clock step and ends in `db-halt` with cause 4 (R673, R700, R705, R708, R709). The state of a single step is the model's reading (log 19,
log 20); that an entry goes before an NMI or an interrupt of the same boundary is the model's choice (log 40). -/
def Obligations.DebugControl : Prop :=
  ∀ s : State,
    (∀ c mpc, HartsMove s → s.me.debugRequest = some (c, mpc) → s.me.NoPendingLoads →
      ∃ t, step s = .next (passTurn (finishStep t)) ∧ t.me.activity = .dbgHalt ∧ t.me.dbg.dpc = evenPc s.me.pc
        ∧ t.me.dbg.dcsr.extractLsb' 6 3 = c
        ∧ t.me.dbg.dcsr &&& 0xFFFFFE3F#32 = s.me.dbg.dcsr &&& 0xFFFFFE3F#32
        ∧ t.me.pc = s.me.pc ∧ t.me.res = none ∧ RegsSame s t ∧ t.me.trap = s.me.trap ∧ t.me.ctr = s.me.ctr
        ∧ t.me.buf.sq = [] ∧ t.me.busBusy = false ∧ OtherKept s t
        ∧ (s.me.mpcRunAck = true → t.me.mpcRunAck = true))
      ∧ (∀ h : HartId, (s.hart h).activity = .dbgHalt → (s.hart h).dctl.dbgHalt = true →
        (s.hart h).dctl.mpcHalt = false →
        ∃ t, perform s (.debugResume h) = .next t ∧ (t.hart h).activity = .running
          ∧ (t.hart h).pc = evenPc (s.hart h).dbg.dpc
          ∧ (t.hart h).res = none ∧ (t.hart h).dctl.stepping = ((s.hart h).stepBit || (s.hart h).dctl.stepping)
          ∧ (t.hart h).trap = (s.hart h).trap ∧ (∀ r : Reg, (t.hart h).reg r = (s.hart h).reg r)
          ∧ t.hart h.other = s.hart h.other ∧ t.sh = s.sh)
      ∧ (s.me.activity = .running → s.me.dctl.stepping = true → s.me.debugRequest = none → s.me.NoPendingLoads →
        (endStep s).me.activity = .dbgHalt ∧ (endStep s).me.dbg.dpc = evenPc s.me.pc
          ∧ (endStep s).me.dbg.dcsr.extractLsb' 6 3 = 4#3 ∧ (endStep s).me.dctl.stepping = false
          ∧ RegsSame s (endStep s) ∧ (endStep s).me.tmr = (tick s).me.tmr)
      ∧ (s.me.dctl.stepping = false → endStep s = s)

/-- An execute trigger on this `pc` whose action is the breakpoint exception, with `MIE` set and every other trigger
off: exception 3 with secondary cause 1 before the instruction runs, `hit` set (R532, R716). The layout and the match
are PRESUMED (log 18). -/
def Obligations.TriggerBreakpoint : Prop :=
  ∀ (s : State) (pre post : List Trigger) (k : Trigger), RunsNext s → s.me.mie = true → s.me.dctl.stepping = false →
    s.me.dbg.triggers = pre ++ k :: post →
    (∀ t ∈ pre ++ post, t.tdata1.extractLsb' 0 3 = 0#3 ∧ t.tdata1.getLsbD 11 = false) →
    k.tdata1.getLsbD 2 = true → k.tdata1.getLsbD 6 = true → k.tdata1.getLsbD 19 = false →
    k.tdata1.extractLsb' 7 9 = 0#9 → k.tdata2 = s.me.pc →
    ∃ t, step s = .next (passTurn (finishStep t))
      ∧ TrapEntry s t [37] 3 1 (policyTval s.cfg s.me.pc) (s.me.trap.mtvec &&& 0xFFFFFFFC#32)
      ∧ t.me.dbg = { s.me.dbg with triggers := pre ++ { k with tdata1 := putBit k.tdata1 20 true } :: post }

/-! ## DMA -/

/-- A 32-bit DMA write replaces one word of the DCCM or the ICCM and its check bits, and drops reservations on it; a
DMA read of the word then gives it back; a 64-bit write, of the DCCM or the ICCM, is two such steps. An address in
neither, and a size, alignment or byte enable R246 does not allow, gets a bus error and changes nothing (R238, R245,
R246, R248, R413). That the lower-addressed of its two words goes first, and the record of the access and of its
response, are the model's (log 31). -/
def Obligations.DmaAccesses : Prop :=
  (∀ (s : State) (a : Word) (data : BitVec 64), s.canonical = true → a.toNat % 4 = 0 → s.sh.dmaJob = none →
    let strobe : BitVec 8 := if a.toNat % 8 = 0 then 0x0F else 0xF0
    let w : Word := if a.toNat % 8 = 0 then data.extractLsb' 0 32 else data.extractLsb' 32 32
    let written (a w : Word) (m m' : CoreMem) : Prop :=
      (∀ b : Word, readByte m'.cells b.toNat
          = if a.toNat ≤ b.toNat ∧ b.toNat < a.toNat + 4 then byteOf w (b.toNat - a.toNat) else readByte m.cells b.toNat)
        ∧ ∀ i, m'.status i = if i = a.toNat / 4 then .ok else m.status i
    let core (c : Shared) : CoreMem := if inDccm s.cfg a then c.dccm else c.iccm
    (a.toNat % 8 = 0 → inDccm s.cfg a = true ∨ inIccm s.cfg a = true →
      ∃ t u, perform s (.dmaWrite a 8 0xFF data) = .next t ∧ t.sh.dmaJob.isSome = true
        ∧ written a (data.extractLsb' 0 32) (core s.sh) (core t.sh)
        ∧ perform t .dmaNext = .next u ∧ written (a + 4) (data.extractLsb' 32 32) (core t.sh) (core u.sh)
        ∧ u.sh = { s.sh with dccm := u.sh.dccm, iccm := u.sh.iccm, dmaResp := .ok }
        ∧ (if inDccm s.cfg a then u.sh.iccm = s.sh.iccm else u.sh.dccm = s.sh.dccm))
    ∧ ∃ t u, perform s (.dmaWrite a 4 strobe data) = .next t ∧ perform t (.dmaRead a 4) = .next u
      ∧ (∀ h : HartId, (∀ r : Reg, (t.hart h).reg r = (s.hart h).reg r) ∧ (t.hart h).pc = (s.hart h).pc
        ∧ (t.hart h).trap = (s.hart h).trap ∧ (t.hart h).buf = (s.hart h).buf)
      ∧ (inDccm s.cfg a = true → t.sh.dmaResp = .ok ∧ u.sh.dmaResp = .data [w] ∧ written a w s.sh.dccm t.sh.dccm
        ∧ t.sh = { s.sh with dccm := t.sh.dccm, dmaResp := .ok }
        ∧ ∀ h : HartId, (t.hart h).res = (s.hart h).res.filter (fun r => decide (r.toNat / 4 ≠ a.toNat / 4)))
      ∧ (inDccm s.cfg a = false → inIccm s.cfg a = true →
        t.sh.dmaResp = .ok ∧ u.sh.dmaResp = .data [w] ∧ written a w s.sh.iccm t.sh.iccm
          ∧ t.sh = { s.sh with iccm := t.sh.iccm, dmaResp := .ok } ∧ ∀ h : HartId, (t.hart h).res = (s.hart h).res)
      ∧ (inDccm s.cfg a = false → inIccm s.cfg a = false →
        t.sh = { s.sh with dmaResp := .error } ∧ u.sh = { s.sh with dmaResp := .error }))
    ∧ ∀ (s : State) (a : Word) (n : Nat) (strobe : BitVec 8) (data : BitVec 64), s.sh.dmaJob = none →
      let refused (act : Action) : Prop :=
        ∃ t, perform s act = .next t ∧ t.sh = { s.sh with dmaResp := .error }
          ∧ ∀ h : HartId, t.hart h = { s.hart h with ctr := (t.hart h).ctr }
      (n ∉ [4, 8] ∨ a.toNat % n ≠ 0 ∨ strobe ∉ [0x0F#8, 0xF0#8, 0xFF#8] → refused (.dmaWrite a n strobe data))
        ∧ (a.toNat % n ≠ 0 → refused (.dmaRead a n))

/-! ## Reset and starting T1 -/

/-- What `rst_l` leaves, from every state whose reset-run pin of T0 is high, and that of T1 where its run pin is: T0 runs at the reset vector and T1 is
idle; the registers the spec gives reset values hold them, `x1` to `x31` and the registers and IP flops of the interrupt
sources (priority 0, disabled, for T0, level-type and active-high) among them; nothing is pending, buffered, reserved or
cached; memory bytes survive (R36, R75 to R79, R85, R606, R750 to R754). A reset with a hart's reset-run pin low and its
run request up is refused (R754, U11). That memory bytes survive is the model's choice (log 32). -/
def Obligations.ResetValues : Prop :=
  (∀ (s : State) (h : HartId) (halted : Bool), (s.hart h).pins.mpcResetRunReq = false →
      (s.hart h).pins.mpcRunReq = true → perform s (.reset halted) = .refused .mpcProtocolViolation)
  ∧ ∀ s : State, s.h0.pins.mpcResetRunReq = true → (s.h1.pins.mpcRunReq = true → s.h1.pins.mpcResetRunReq = true) →
    ∃ t, perform s (.reset false) = .next t
      ∧ t.h0.activity = .running ∧ t.h0.pc = s.cfg.rstVec ++ 0#1 ∧ t.h1.activity = .idle
      ∧ (∀ h : HartId, let g := t.hart h
          (∀ r : Reg, g.reg r = 0) ∧ g.acks = { cpuHalt := false, cpuRun := false, runHeld := false, mpcRun := false } ∧ g.late = .settled
            ∧ g.res = none ∧ g.trap.mie = 0 ∧ g.trap.mscause = 0 ∧ g.mie = false
            ∧ g.tmr.mitcnt0 = 0 ∧ g.tmr.mitcnt1 = 0 ∧ g.tmr.mitb0 = 0xFFFFFFFF#32 ∧ g.tmr.mitb1 = 0xFFFFFFFF#32
            ∧ g.tmr.mitctl0 = 1 ∧ g.tmr.mitctl1 = 1
            ∧ g.pic.meivt = 0 ∧ g.pic.claimid = 0 ∧ g.pic.prithresh = 0 ∧ g.pic.clidpri = 0 ∧ g.pic.currpri = 0
            ∧ g.pwr.haltie = true ∧ g.pwr.pausing = false ∧ g.pwr.mfdhs = 0
            ∧ g.nmi.any = false ∧ g.nmi.locked = false ∧ g.nmi.mdseac = 0
            ∧ g.dbg.dicawics = 0 ∧ g.dbg.dicad0 = 0 ∧ g.dbg.dicad0h = 0 ∧ g.dbg.dicad1 = 0
            ∧ g.dctl.dbgHalt = false ∧ g.dctl.mpcHalt = false ∧ g.dctl.stepping = false
            ∧ g.buf.sq = [] ∧ g.buf.wb = [] ∧ g.buf.inflight = [] ∧ g.buf.prefetch = [] ∧ g.buf.ahead = [])
      ∧ (∀ n, t.sh.source n = { PicSource.initial with pin := (t.sh.source n).pin })
      ∧ t.sh.mrac = 0 ∧ t.sh.micect = 0 ∧ t.sh.miccmect = 0 ∧ t.sh.mdccmect = 0 ∧ t.sh.start1 = false
      ∧ t.sh.mnmipdel = 1 ∧ t.sh.mfdht = 0 ∧ t.sh.mfdc = 0x00070040#32 ∧ t.sh.mcgc = 0 ∧ t.sh.priord = false
      ∧ t.sh.icache = [] ∧ t.sh.mracOld = [] ∧ t.sh.mracOldFetch = [] ∧ t.sh.mfdcOld = [] ∧ t.sh.dmaJob = none
      ∧ t.sh.bus = s.sh.bus ∧ t.sh.iccm.cells = s.sh.iccm.cells ∧ t.sh.dccm.cells = s.sh.dccm.cells

/-- Writing 1 to `mhartstart.start1` starts T1 at the reset vector, once; in a single-thread build, and on a started
T1, the write does nothing; the outputs `dec_tlu_mhartstart[0/1]` are the bits of the register (R111, R754, R755). What the
MPC pin does at the start is read from R754 (log 24). -/
def Obligations.StartsT1 : Prop :=
  ∀ (s : State) (rd : Reg), s.cur = .t0 →
    ∃ t, exec (.csrrsi rd 2 0x7FC) s = .next t
      ∧ RegWritten s t rd (if s.sh.start1 then 3 else 1) ∧ t.h0.pc = s.h0.pc + 4
      ∧ (∀ h : HartId, t.sh.decTluMhartstart h = (csrRead t .mhartstart).getLsbD h.toNat)
      ∧ (s.cfg.dualThread = true → t.sh.decTluMhartstart .t1 = true)
      ∧ (s.cfg.dualThread = true → s.sh.start1 = false → s.h1.pins.mpcResetRunReq = true →
        t.h1 = { s.h1 with
            activity := .running, pc := s.cfg.rstVec ++ 0#1, buf := { s.h1.buf with prefetch := [] } }
          ∧ t.sh = { s.sh with start1 := true })
      ∧ (s.cfg.dualThread = true → s.sh.start1 = false → s.h1.pins.mpcResetRunReq = false →
        s.h1.pins.mpcRunReq = false →
        t.h1.activity = .dbgHalt ∧ t.h1.pc = s.cfg.rstVec ++ 0#1 ∧ t.sh = { s.sh with start1 := true })
      ∧ (s.cfg.dualThread = true → s.sh.start1 = false → s.h1.pins.mpcResetRunReq = false →
        s.h1.pins.mpcRunReq = true → s.h1.dctl.dbgHalt = false → s.h1.dctl.pending = none →
        t.h1.activity = .running ∧ t.h1.pc = evenPc (s.cfg.rstVec ++ 0#1) ∧ t.sh = { s.sh with start1 := true })
      ∧ (s.cfg.dualThread = false ∨ s.sh.start1 = true → t.h1 = s.h1 ∧ t.sh = s.sh)

/-! ## Invariants -/

/-- The machine after reset is canonical and legal. This rests on the model's own choices: the canonical form is the model's
(log 6); the reset values of `mstatus`, `mtvec`, `mepc`, `tdata1`, `dcsr` and `dpc` are PRESUMED (log 4); the build, with
its number of triggers and its vectors, is an example, DESIGN CHOICE (log 5). -/
def Obligations.ResetInvariants : Prop := State.reset.canonical = true ∧ State.reset.legal = true

/-- Every step keeps the memories, the error statuses and the interrupt sources in canonical form. The canonical form
is the model's (log 6). -/
def Obligations.StepKeepsCanonical : Prop :=
  ∀ s t : State, s.canonical = true → step s = .next t → t.canonical = true

/-- Every step keeps every register legal: the reserved bits of the CSRs, the bounds of their fields, even instruction
addresses, buffered stores inside the address space, and T1 idle until it is started (R193, R38, R48, R49, R55, R58, R61, R62, R68, R70, R100, R105, R111, R112,
R130). The layouts of `dcsr` and of the triggers are PRESUMED (log 18, log 19). -/
def Obligations.StepKeepsLegal : Prop :=
  ∀ s t : State, s.legal = true → step s = .next t → t.legal = true
end

