-- ==== Sys2Proof/Laws/State.lean ====
section
/-! SUPPORT. One lemma per field per update of the state, so that no later proof unfolds a record update. -/

namespace Sys2Proof.Machine

/-! ## `State.setHart`, `State.setMe`, `State.draw`, `State.setReg` -/

@[simp] theorem State.setHart_cfg (s : State) (i : HartId) (h : Hart) : (s.setHart i h).cfg = s.cfg := by
  cases i <;> rfl

@[simp] theorem State.setHart_sh (s : State) (i : HartId) (h : Hart) : (s.setHart i h).sh = s.sh := by
  cases i <;> rfl

@[simp] theorem State.setHart_cur (s : State) (i : HartId) (h : Hart) : (s.setHart i h).cur = s.cur := by
  cases i <;> rfl

@[simp] theorem State.setHart_script (s : State) (i : HartId) (h : Hart) : (s.setHart i h).script = s.script := by
  cases i <;> rfl

@[simp] theorem State.setHart_draws (s : State) (i : HartId) (h : Hart) : (s.setHart i h).draws = s.draws := by
  cases i <;> rfl

@[simp] theorem State.hart_setHart_self (s : State) (i : HartId) (h : Hart) : (s.setHart i h).hart i = h := by
  cases i <;> rfl

@[simp] theorem State.hart_setHart_other (s : State) (i : HartId) (h : Hart) :
    (s.setHart i h).hart i.other = s.hart i.other := by
  cases i <;> rfl

@[simp] theorem State.hart_other_setHart (s : State) (i : HartId) (h : Hart) :
    (s.setHart i.other h).hart i = s.hart i := by
  cases i <;> rfl

@[simp] theorem State.setHart_setHart (s : State) (i : HartId) (g h : Hart) :
    (s.setHart i g).setHart i h = s.setHart i h := by
  cases i <;> rfl

@[simp] theorem State.setHart_hart (s : State) (i : HartId) : s.setHart i (s.hart i) = s := by
  cases i <;> rfl

@[simp] theorem HartId.other_other (i : HartId) : i.other.other = i := by
  cases i <;> rfl

@[simp] theorem HartId.other_ne (i : HartId) : i.other ≠ i := by
  cases i <;> simp [HartId.other]

theorem State.hart_setHart (s : State) (i j : HartId) (h : Hart) :
    (s.setHart i h).hart j = if j = i then h else s.hart j := by
  cases i <;> cases j <;> rfl

@[simp] theorem State.setMe_cfg (s : State) (h : Hart) : (s.setMe h).cfg = s.cfg := by
  simp [State.setMe]

@[simp] theorem State.setMe_sh (s : State) (h : Hart) : (s.setMe h).sh = s.sh := by
  simp [State.setMe]

@[simp] theorem State.setMe_cur (s : State) (h : Hart) : (s.setMe h).cur = s.cur := by
  simp [State.setMe]

@[simp] theorem State.setMe_script (s : State) (h : Hart) : (s.setMe h).script = s.script := by
  simp [State.setMe]

@[simp] theorem State.setMe_draws (s : State) (h : Hart) : (s.setMe h).draws = s.draws := by
  simp [State.setMe]

@[simp] theorem State.me_setMe (s : State) (h : Hart) : (s.setMe h).me = h := by
  simp [State.setMe, State.me]

@[simp] theorem State.hart_cur (s : State) : s.hart s.cur = s.me := rfl

@[simp] theorem State.setMe_hart_cur (s : State) (h : Hart) : (s.setMe h).hart s.cur = h := by
  simp [State.setMe]

@[simp] theorem State.setMe_hart_other (s : State) (h : Hart) :
    (s.setMe h).hart s.cur.other = s.hart s.cur.other := by
  simp [State.setMe]

@[simp] theorem State.setMe_setMe (s : State) (g h : Hart) : (s.setMe g).setMe h = s.setMe h := by
  simp [State.setMe]

@[simp] theorem State.setMe_me (s : State) : s.setMe s.me = s :=
  State.setHart_hart s s.cur

@[simp] theorem State.draw_cfg (s : State) : s.draw.cfg = s.cfg := rfl

@[simp] theorem State.draw_h0 (s : State) : s.draw.h0 = s.h0 := rfl

@[simp] theorem State.draw_h1 (s : State) : s.draw.h1 = s.h1 := rfl

@[simp] theorem State.draw_sh (s : State) : s.draw.sh = s.sh := rfl

@[simp] theorem State.draw_cur (s : State) : s.draw.cur = s.cur := rfl

@[simp] theorem State.draw_script (s : State) : s.draw.script = s.script := rfl

@[simp] theorem State.draw_draws (s : State) : s.draw.draws = s.draws + 1 := rfl

@[simp] theorem State.draw_hart (s : State) (i : HartId) : s.draw.hart i = s.hart i := by
  cases i <;> rfl

@[simp] theorem State.draw_me (s : State) : s.draw.me = s.me :=
  State.draw_hart s s.cur

@[simp] theorem State.setReg_cfg (s : State) (r : Reg) (v : Word) : (s.setReg r v).cfg = s.cfg := by
  simp [State.setReg]

@[simp] theorem State.setReg_sh (s : State) (r : Reg) (v : Word) : (s.setReg r v).sh = s.sh := by
  simp [State.setReg]

@[simp] theorem State.setReg_cur (s : State) (r : Reg) (v : Word) : (s.setReg r v).cur = s.cur := by
  simp [State.setReg]

@[simp] theorem State.setReg_script (s : State) (r : Reg) (v : Word) : (s.setReg r v).script = s.script := by
  simp [State.setReg]

@[simp] theorem State.setReg_draws (s : State) (r : Reg) (v : Word) : (s.setReg r v).draws = s.draws := by
  simp [State.setReg]

@[simp] theorem State.setReg_me (s : State) (r : Reg) (v : Word) : (s.setReg r v).me = s.me.writeReg r v := by
  simp [State.setReg]

@[simp] theorem State.setReg_hart_other (s : State) (r : Reg) (v : Word) :
    (s.setReg r v).hart s.cur.other = s.hart s.cur.other := by
  simp [State.setReg]

/-! ## The shared registers replaced -/

@[simp] theorem State.withSh_hart (s : State) (c : Shared) (i : HartId) :
    ({ s with sh := c } : State).hart i = s.hart i := by
  cases i <;> rfl

@[simp] theorem State.withSh_me (s : State) (c : Shared) : ({ s with sh := c } : State).me = s.me :=
  State.withSh_hart s c s.cur

@[simp] theorem State.withScript_hart (s : State) (l : List Action) (i : HartId) :
    ({ s with script := l } : State).hart i = s.hart i := by
  cases i <;> rfl

@[simp] theorem State.withCur_hart (s : State) (c i : HartId) : ({ s with cur := c } : State).hart i = s.hart i := by
  cases i <;> rfl

/-! ## `Hart.setReg` -/

@[simp] theorem Hart.setReg_pc (h : Hart) (r : Reg) (v : Word) : (h.setReg r v).pc = h.pc := by
  unfold Hart.setReg; split <;> rfl

@[simp] theorem Hart.setReg_activity (h : Hart) (r : Reg) (v : Word) : (h.setReg r v).activity = h.activity := by
  unfold Hart.setReg; split <;> rfl

@[simp] theorem Hart.setReg_res (h : Hart) (r : Reg) (v : Word) : (h.setReg r v).res = h.res := by
  unfold Hart.setReg; split <;> rfl

@[simp] theorem Hart.setReg_trap (h : Hart) (r : Reg) (v : Word) : (h.setReg r v).trap = h.trap := by
  unfold Hart.setReg; split <;> rfl

@[simp] theorem Hart.setReg_ctr (h : Hart) (r : Reg) (v : Word) : (h.setReg r v).ctr = h.ctr := by
  unfold Hart.setReg; split <;> rfl

@[simp] theorem Hart.setReg_tmr (h : Hart) (r : Reg) (v : Word) : (h.setReg r v).tmr = h.tmr := by
  unfold Hart.setReg; split <;> rfl

@[simp] theorem Hart.setReg_dbg (h : Hart) (r : Reg) (v : Word) : (h.setReg r v).dbg = h.dbg := by
  unfold Hart.setReg; split <;> rfl

@[simp] theorem Hart.setReg_dctl (h : Hart) (r : Reg) (v : Word) : (h.setReg r v).dctl = h.dctl := by
  unfold Hart.setReg; split <;> rfl

@[simp] theorem Hart.setReg_pic (h : Hart) (r : Reg) (v : Word) : (h.setReg r v).pic = h.pic := by
  unfold Hart.setReg; split <;> rfl

@[simp] theorem Hart.setReg_pwr (h : Hart) (r : Reg) (v : Word) : (h.setReg r v).pwr = h.pwr := by
  unfold Hart.setReg; split <;> rfl

@[simp] theorem Hart.setReg_nmi (h : Hart) (r : Reg) (v : Word) : (h.setReg r v).nmi = h.nmi := by
  unfold Hart.setReg; split <;> rfl

@[simp] theorem Hart.setReg_buf (h : Hart) (r : Reg) (v : Word) : (h.setReg r v).buf = h.buf := by
  unfold Hart.setReg; split <;> rfl

@[simp] theorem Hart.setReg_pins (h : Hart) (r : Reg) (v : Word) : (h.setReg r v).pins = h.pins := by
  unfold Hart.setReg; split <;> rfl

@[simp] theorem Hart.setReg_acks (h : Hart) (r : Reg) (v : Word) : (h.setReg r v).acks = h.acks := by
  unfold Hart.setReg; split <;> rfl

@[simp] theorem Hart.setReg_late (h : Hart) (r : Reg) (v : Word) : (h.setReg r v).late = h.late := by
  unfold Hart.setReg; split <;> rfl

@[simp] theorem Hart.reg_zero (h : Hart) : h.reg 0 = 0 := rfl

theorem Hart.reg_setReg_self (h : Hart) (r : Reg) (v : Word) : (h.setReg r v).reg r = if r = 0 then 0 else v := by
  by_cases hr : r = 0
  · simp [Hart.reg, hr]
  · have : (h.regs.set r.val v)[r.val] = v := by simp
    simp only [Hart.reg, Hart.setReg, hr, if_false]
    exact this

theorem Hart.reg_setReg_ne (h : Hart) (r q : Reg) (v : Word) (hq : q ≠ r) : (h.setReg r v).reg q = h.reg q := by
  by_cases hr : r = 0
  · simp [Hart.setReg, hr]
  · have : r.val ≠ q.val := fun e => hq (Fin.ext e.symm)
    have h2 : (h.regs.set r.val v)[q.val] = h.regs[q.val] := by simp [Vector.getElem_set_ne, this]
    simp only [Hart.reg, Hart.setReg, hr, if_false]
    split
    · rfl
    · exact h2

/-! ## `Hart.writeReg`, `Buffers.overwrite` -/

@[simp] theorem Buffers.overwrite_sq (b : Buffers) (r : Reg) : (b.overwrite r).sq = b.sq := rfl

@[simp] theorem Buffers.overwrite_wb (b : Buffers) (r : Reg) : (b.overwrite r).wb = b.wb := rfl

@[simp] theorem Buffers.overwrite_prefetch (b : Buffers) (r : Reg) : (b.overwrite r).prefetch = b.prefetch := rfl

@[simp] theorem Buffers.overwrite_ifuBusy (b : Buffers) (r : Reg) : (b.overwrite r).ifuBusy = b.ifuBusy := rfl

@[simp] theorem Buffers.overwrite_ahead (b : Buffers) (r : Reg) : (b.overwrite r).ahead = b.ahead := rfl

@[simp] theorem Buffers.overwrite_slowLoads (b : Buffers) (r : Reg) : (b.overwrite r).slowLoads = b.slowLoads := rfl

/-- A response no load waits for is left as it is. -/
theorem BusResp.overwritten_noLoad {q : BusResp} (h : q.load = none) (r : Reg) : q.overwritten r = q := by
  simp [BusResp.overwritten, h]

/-- `x0` is never waited for. -/
theorem BusResp.overwritten_zero (q : BusResp) : q.overwritten 0 = q := by
  unfold BusResp.overwritten
  split
  · next p hp =>
    split
    · next h0 => cases q; cases p; simp_all
    · rfl
  · rfl

/-- Writing `x0` leaves the buffers as they are. -/
@[simp] theorem Buffers.overwrite_zero (b : Buffers) : b.overwrite 0 = b := by
  simp [Buffers.overwrite, BusResp.overwritten_zero]

/-- With no load waiting, writing a register leaves the buffers as they are. -/
theorem Buffers.overwrite_noLoads {b : Buffers} (h : ∀ q ∈ b.inflight, q.load = none) (r : Reg) : b.overwrite r = b := by
  have hm : b.inflight.map (fun q => q.overwritten r) = b.inflight :=
    (List.map_congr_left (fun q hq => BusResp.overwritten_noLoad (h q hq) r)).trans (List.map_id _)
  simp [Buffers.overwrite, hm]

@[simp] theorem Hart.writeReg_pc (h : Hart) (r : Reg) (v : Word) : (h.writeReg r v).pc = h.pc := by
  simp [Hart.writeReg]

@[simp] theorem Hart.writeReg_activity (h : Hart) (r : Reg) (v : Word) : (h.writeReg r v).activity = h.activity := by
  simp [Hart.writeReg]

@[simp] theorem Hart.writeReg_res (h : Hart) (r : Reg) (v : Word) : (h.writeReg r v).res = h.res := by
  simp [Hart.writeReg]

@[simp] theorem Hart.writeReg_trap (h : Hart) (r : Reg) (v : Word) : (h.writeReg r v).trap = h.trap := by
  simp [Hart.writeReg]

@[simp] theorem Hart.writeReg_ctr (h : Hart) (r : Reg) (v : Word) : (h.writeReg r v).ctr = h.ctr := by
  simp [Hart.writeReg]

@[simp] theorem Hart.writeReg_tmr (h : Hart) (r : Reg) (v : Word) : (h.writeReg r v).tmr = h.tmr := by
  simp [Hart.writeReg]

@[simp] theorem Hart.writeReg_dbg (h : Hart) (r : Reg) (v : Word) : (h.writeReg r v).dbg = h.dbg := by
  simp [Hart.writeReg]

@[simp] theorem Hart.writeReg_dctl (h : Hart) (r : Reg) (v : Word) : (h.writeReg r v).dctl = h.dctl := by
  simp [Hart.writeReg]

@[simp] theorem Hart.writeReg_pic (h : Hart) (r : Reg) (v : Word) : (h.writeReg r v).pic = h.pic := by
  simp [Hart.writeReg]

@[simp] theorem Hart.writeReg_pwr (h : Hart) (r : Reg) (v : Word) : (h.writeReg r v).pwr = h.pwr := by
  simp [Hart.writeReg]

@[simp] theorem Hart.writeReg_nmi (h : Hart) (r : Reg) (v : Word) : (h.writeReg r v).nmi = h.nmi := by
  simp [Hart.writeReg]

@[simp] theorem Hart.writeReg_pins (h : Hart) (r : Reg) (v : Word) : (h.writeReg r v).pins = h.pins := by
  simp [Hart.writeReg]

@[simp] theorem Hart.writeReg_acks (h : Hart) (r : Reg) (v : Word) : (h.writeReg r v).acks = h.acks := by
  simp [Hart.writeReg]

@[simp] theorem Hart.writeReg_late (h : Hart) (r : Reg) (v : Word) : (h.writeReg r v).late = h.late := by
  simp [Hart.writeReg]

@[simp] theorem Hart.writeReg_buf (h : Hart) (r : Reg) (v : Word) : (h.writeReg r v).buf = h.buf.overwrite r := rfl

@[simp] theorem Hart.writeReg_reg (h : Hart) (r q : Reg) (v : Word) : (h.writeReg r v).reg q = (h.setReg r v).reg q := rfl

/-! ## `Hart.jump`, `Hart.retire`, `Hart.countEvents`, trap entry and return -/

@[simp] theorem Hart.jump_regs (h : Hart) (a : Word) : (h.jump a).regs = h.regs := rfl

@[simp] theorem Hart.jump_activity (h : Hart) (a : Word) : (h.jump a).activity = h.activity := rfl

@[simp] theorem Hart.jump_res (h : Hart) (a : Word) : (h.jump a).res = h.res := rfl

@[simp] theorem Hart.jump_trap (h : Hart) (a : Word) : (h.jump a).trap = h.trap := rfl

@[simp] theorem Hart.jump_ctr (h : Hart) (a : Word) : (h.jump a).ctr = h.ctr := rfl

@[simp] theorem Hart.jump_tmr (h : Hart) (a : Word) : (h.jump a).tmr = h.tmr := rfl

@[simp] theorem Hart.jump_dbg (h : Hart) (a : Word) : (h.jump a).dbg = h.dbg := rfl

@[simp] theorem Hart.jump_dctl (h : Hart) (a : Word) : (h.jump a).dctl = h.dctl := rfl

@[simp] theorem Hart.jump_pic (h : Hart) (a : Word) : (h.jump a).pic = h.pic := rfl

@[simp] theorem Hart.jump_pwr (h : Hart) (a : Word) : (h.jump a).pwr = h.pwr := rfl

@[simp] theorem Hart.jump_nmi (h : Hart) (a : Word) : (h.jump a).nmi = h.nmi := rfl

@[simp] theorem Hart.jump_buf (h : Hart) (a : Word) : (h.jump a).buf = h.buf := rfl

@[simp] theorem Hart.jump_pins (h : Hart) (a : Word) : (h.jump a).pins = h.pins := rfl

@[simp] theorem Hart.jump_acks (h : Hart) (a : Word) : (h.jump a).acks = h.acks := rfl

@[simp] theorem Hart.jump_late (h : Hart) (a : Word) : (h.jump a).late = h.late := rfl

@[simp] theorem Hart.jump_pc (h : Hart) (a : Word) : (h.jump a).pc = a := rfl

@[simp] theorem Hart.jump_reg (h : Hart) (a : Word) (r : Reg) : (h.jump a).reg r = h.reg r := rfl

@[simp] theorem Hart.retire_regs (h : Hart) (len : Nat) (evs : List Nat) :
    (h.retire len evs).regs = h.regs := by
  unfold Hart.retire; split <;> rfl

@[simp] theorem Hart.retire_pc (h : Hart) (len : Nat) (evs : List Nat) :
    (h.retire len evs).pc = h.pc := by
  unfold Hart.retire; split <;> rfl

@[simp] theorem Hart.retire_activity (h : Hart) (len : Nat) (evs : List Nat) :
    (h.retire len evs).activity = h.activity := by
  unfold Hart.retire; split <;> rfl

@[simp] theorem Hart.retire_res (h : Hart) (len : Nat) (evs : List Nat) :
    (h.retire len evs).res = h.res := by
  unfold Hart.retire; split <;> rfl

@[simp] theorem Hart.retire_trap (h : Hart) (len : Nat) (evs : List Nat) :
    (h.retire len evs).trap = h.trap := by
  unfold Hart.retire; split <;> rfl

@[simp] theorem Hart.retire_tmr (h : Hart) (len : Nat) (evs : List Nat) :
    (h.retire len evs).tmr = h.tmr := by
  unfold Hart.retire; split <;> rfl

@[simp] theorem Hart.retire_dbg (h : Hart) (len : Nat) (evs : List Nat) :
    (h.retire len evs).dbg = h.dbg := by
  unfold Hart.retire; split <;> rfl

@[simp] theorem Hart.retire_dctl (h : Hart) (len : Nat) (evs : List Nat) :
    (h.retire len evs).dctl = h.dctl := by
  unfold Hart.retire; split <;> rfl

@[simp] theorem Hart.retire_pic (h : Hart) (len : Nat) (evs : List Nat) :
    (h.retire len evs).pic = h.pic := by
  unfold Hart.retire; split <;> rfl

@[simp] theorem Hart.retire_pwr (h : Hart) (len : Nat) (evs : List Nat) :
    (h.retire len evs).pwr = h.pwr := by
  unfold Hart.retire; split <;> rfl

@[simp] theorem Hart.retire_nmi (h : Hart) (len : Nat) (evs : List Nat) :
    (h.retire len evs).nmi = h.nmi := by
  unfold Hart.retire; split <;> rfl

@[simp] theorem Hart.retire_buf (h : Hart) (len : Nat) (evs : List Nat) :
    (h.retire len evs).buf = h.buf := by
  unfold Hart.retire; split <;> rfl

@[simp] theorem Hart.retire_pins (h : Hart) (len : Nat) (evs : List Nat) :
    (h.retire len evs).pins = h.pins := by
  unfold Hart.retire; split <;> rfl

@[simp] theorem Hart.retire_acks (h : Hart) (len : Nat) (evs : List Nat) :
    (h.retire len evs).acks = h.acks := by
  unfold Hart.retire; split <;> rfl

@[simp] theorem Hart.retire_late (h : Hart) (len : Nat) (evs : List Nat) :
    (h.retire len evs).late = h.late := by
  unfold Hart.retire; split <;> rfl

@[simp] theorem Hart.retire_reg (h : Hart) (len : Nat) (evs : List Nat) (r : Reg) :
    (h.retire len evs).reg r = h.reg r := by
  unfold Hart.retire; split <;> rfl

@[simp] theorem Hart.countEvents_regs (h : Hart) (evs : List Nat) : (h.countEvents evs).regs = h.regs := by
  unfold Hart.countEvents; split <;> rfl

@[simp] theorem Hart.countEvents_pc (h : Hart) (evs : List Nat) : (h.countEvents evs).pc = h.pc := by
  unfold Hart.countEvents; split <;> rfl

@[simp] theorem Hart.countEvents_activity (h : Hart) (evs : List Nat) : (h.countEvents evs).activity = h.activity := by
  unfold Hart.countEvents; split <;> rfl

@[simp] theorem Hart.countEvents_res (h : Hart) (evs : List Nat) : (h.countEvents evs).res = h.res := by
  unfold Hart.countEvents; split <;> rfl

@[simp] theorem Hart.countEvents_trap (h : Hart) (evs : List Nat) : (h.countEvents evs).trap = h.trap := by
  unfold Hart.countEvents; split <;> rfl

@[simp] theorem Hart.countEvents_tmr (h : Hart) (evs : List Nat) : (h.countEvents evs).tmr = h.tmr := by
  unfold Hart.countEvents; split <;> rfl

@[simp] theorem Hart.countEvents_dbg (h : Hart) (evs : List Nat) : (h.countEvents evs).dbg = h.dbg := by
  unfold Hart.countEvents; split <;> rfl

@[simp] theorem Hart.countEvents_dctl (h : Hart) (evs : List Nat) : (h.countEvents evs).dctl = h.dctl := by
  unfold Hart.countEvents; split <;> rfl

@[simp] theorem Hart.countEvents_pic (h : Hart) (evs : List Nat) : (h.countEvents evs).pic = h.pic := by
  unfold Hart.countEvents; split <;> rfl

@[simp] theorem Hart.countEvents_pwr (h : Hart) (evs : List Nat) : (h.countEvents evs).pwr = h.pwr := by
  unfold Hart.countEvents; split <;> rfl

@[simp] theorem Hart.countEvents_nmi (h : Hart) (evs : List Nat) : (h.countEvents evs).nmi = h.nmi := by
  unfold Hart.countEvents; split <;> rfl

@[simp] theorem Hart.countEvents_buf (h : Hart) (evs : List Nat) : (h.countEvents evs).buf = h.buf := by
  unfold Hart.countEvents; split <;> rfl

@[simp] theorem Hart.countEvents_pins (h : Hart) (evs : List Nat) : (h.countEvents evs).pins = h.pins := by
  unfold Hart.countEvents; split <;> rfl

@[simp] theorem Hart.countEvents_acks (h : Hart) (evs : List Nat) : (h.countEvents evs).acks = h.acks := by
  unfold Hart.countEvents; split <;> rfl

@[simp] theorem Hart.countEvents_late (h : Hart) (evs : List Nat) : (h.countEvents evs).late = h.late := by
  unfold Hart.countEvents; split <;> rfl

@[simp] theorem Hart.countEvents_reg (h : Hart) (evs : List Nat) (r : Reg) :
    (h.countEvents evs).reg r = h.reg r := by
  unfold Hart.countEvents; split <;> rfl

@[simp] theorem Hart.enterTrap_regs (h : Hart) (c : Word) (m : BitVec 4) (v a : Word) :
    (h.enterTrap c m v a).regs = h.regs := rfl

@[simp] theorem Hart.enterTrap_activity (h : Hart) (c : Word) (m : BitVec 4) (v a : Word) :
    (h.enterTrap c m v a).activity = h.activity := rfl

@[simp] theorem Hart.enterTrap_ctr (h : Hart) (c : Word) (m : BitVec 4) (v a : Word) :
    (h.enterTrap c m v a).ctr = h.ctr := rfl

@[simp] theorem Hart.enterTrap_tmr (h : Hart) (c : Word) (m : BitVec 4) (v a : Word) :
    (h.enterTrap c m v a).tmr = h.tmr := rfl

@[simp] theorem Hart.enterTrap_dbg (h : Hart) (c : Word) (m : BitVec 4) (v a : Word) :
    (h.enterTrap c m v a).dbg = h.dbg := rfl

@[simp] theorem Hart.enterTrap_dctl (h : Hart) (c : Word) (m : BitVec 4) (v a : Word) :
    (h.enterTrap c m v a).dctl = h.dctl := rfl

@[simp] theorem Hart.enterTrap_pic (h : Hart) (c : Word) (m : BitVec 4) (v a : Word) :
    (h.enterTrap c m v a).pic = h.pic := rfl

@[simp] theorem Hart.enterTrap_pwr (h : Hart) (c : Word) (m : BitVec 4) (v a : Word) :
    (h.enterTrap c m v a).pwr = h.pwr := rfl

@[simp] theorem Hart.enterTrap_nmi (h : Hart) (c : Word) (m : BitVec 4) (v a : Word) :
    (h.enterTrap c m v a).nmi = h.nmi := rfl

@[simp] theorem Hart.enterTrap_buf (h : Hart) (c : Word) (m : BitVec 4) (v a : Word) :
    (h.enterTrap c m v a).buf = h.buf := rfl

@[simp] theorem Hart.enterTrap_pins (h : Hart) (c : Word) (m : BitVec 4) (v a : Word) :
    (h.enterTrap c m v a).pins = h.pins := rfl

@[simp] theorem Hart.enterTrap_acks (h : Hart) (c : Word) (m : BitVec 4) (v a : Word) :
    (h.enterTrap c m v a).acks = h.acks := rfl

@[simp] theorem Hart.enterTrap_late (h : Hart) (c : Word) (m : BitVec 4) (v a : Word) :
    (h.enterTrap c m v a).late = h.late := rfl

@[simp] theorem Hart.enterTrap_pc (h : Hart) (c : Word) (m : BitVec 4) (v a : Word) :
    (h.enterTrap c m v a).pc = a := rfl

@[simp] theorem Hart.enterTrap_res (h : Hart) (c : Word) (m : BitVec 4) (v a : Word) :
    (h.enterTrap c m v a).res = none := rfl

@[simp] theorem Hart.enterTrap_reg (h : Hart) (c : Word) (m : BitVec 4) (v a : Word) (r : Reg) :
    (h.enterTrap c m v a).reg r = h.reg r := rfl

@[simp] theorem Hart.returnFromTrap_regs (h : Hart) : h.returnFromTrap.regs = h.regs := rfl

@[simp] theorem Hart.returnFromTrap_activity (h : Hart) : h.returnFromTrap.activity = h.activity := rfl

@[simp] theorem Hart.returnFromTrap_ctr (h : Hart) : h.returnFromTrap.ctr = h.ctr := rfl

@[simp] theorem Hart.returnFromTrap_tmr (h : Hart) : h.returnFromTrap.tmr = h.tmr := rfl

@[simp] theorem Hart.returnFromTrap_dbg (h : Hart) : h.returnFromTrap.dbg = h.dbg := rfl

@[simp] theorem Hart.returnFromTrap_dctl (h : Hart) : h.returnFromTrap.dctl = h.dctl := rfl

@[simp] theorem Hart.returnFromTrap_pic (h : Hart) : h.returnFromTrap.pic = h.pic := rfl

@[simp] theorem Hart.returnFromTrap_pwr (h : Hart) : h.returnFromTrap.pwr = h.pwr := rfl

@[simp] theorem Hart.returnFromTrap_nmi (h : Hart) : h.returnFromTrap.nmi = h.nmi := rfl

@[simp] theorem Hart.returnFromTrap_buf (h : Hart) : h.returnFromTrap.buf = h.buf := rfl

@[simp] theorem Hart.returnFromTrap_pins (h : Hart) : h.returnFromTrap.pins = h.pins := rfl

@[simp] theorem Hart.returnFromTrap_acks (h : Hart) : h.returnFromTrap.acks = h.acks := rfl

@[simp] theorem Hart.returnFromTrap_late (h : Hart) : h.returnFromTrap.late = h.late := rfl

@[simp] theorem Hart.returnFromTrap_pc (h : Hart) : h.returnFromTrap.pc = evenPc h.trap.mepc := rfl

@[simp] theorem Hart.returnFromTrap_res (h : Hart) : h.returnFromTrap.res = none := rfl

@[simp] theorem Hart.returnFromTrap_reg (h : Hart) (r : Reg) : h.returnFromTrap.reg r = h.reg r := rfl

/-! ## `State.completeAt` -/

@[simp] theorem State.completeAt_cfg (s : State) (len : Nat) (evs : List Nat) (a : Word) :
    (s.completeAt len evs a).cfg = s.cfg := by
  simp [State.completeAt]

@[simp] theorem State.completeAt_sh (s : State) (len : Nat) (evs : List Nat) (a : Word) :
    (s.completeAt len evs a).sh = s.sh := by
  simp [State.completeAt]

@[simp] theorem State.completeAt_cur (s : State) (len : Nat) (evs : List Nat) (a : Word) :
    (s.completeAt len evs a).cur = s.cur := by
  simp [State.completeAt]

@[simp] theorem State.completeAt_script (s : State) (len : Nat) (evs : List Nat) (a : Word) :
    (s.completeAt len evs a).script = s.script := by
  simp [State.completeAt]

@[simp] theorem State.completeAt_draws (s : State) (len : Nat) (evs : List Nat) (a : Word) :
    (s.completeAt len evs a).draws = s.draws := by
  simp [State.completeAt]

@[simp] theorem State.completeAt_me (s : State) (len : Nat) (evs : List Nat) (a : Word) :
    (s.completeAt len evs a).me = (s.me.retire len evs).jump a := by
  simp [State.completeAt]

@[simp] theorem State.completeAt_hart_other (s : State) (len : Nat) (evs : List Nat) (a : Word) :
    (s.completeAt len evs a).hart s.cur.other = s.hart s.cur.other := by
  simp [State.completeAt]

/-- Two states with the same fields, hart by hart, are the same. -/
theorem State.ext_harts {s t : State} (hcfg : s.cfg = t.cfg) (h0 : s.hart .t0 = t.hart .t0)
    (h1 : s.hart .t1 = t.hart .t1) (hsh : s.sh = t.sh) (hcur : s.cur = t.cur) (hscript : s.script = t.script)
    (hdraws : s.draws = t.draws) : s = t := by
  cases s; cases t; simp_all [State.hart]

end Sys2Proof.Machine
end

