-- ==== Sys2Proof/Laws/Memory.lean ====
section
/-! SUPPORT. Sparse maps and memories: read after write, and every operation keeps the canonical form. -/

namespace Sys2Proof.Machine

/-! ## Maps -/

theorem mapGet_of_mapAbove {α : Type} (d : α) {k : Nat} {m : List (Nat × α)} (h : mapAbove k m = true) :
    mapGet d m k = d := by
  induction m with
  | nil => rfl
  | cons p m ih =>
    simp only [mapAbove, Bool.and_eq_true, decide_eq_true_eq] at h
    have : k ≠ p.1 := by omega
    simp [mapGet, this, ih h.2]

theorem mapAbove_of_le {α : Type} {j k : Nat} (hjk : j ≤ k) {m : List (Nat × α)} (h : mapAbove k m = true) :
    mapAbove j m = true := by
  induction m with
  | nil => rfl
  | cons p m ih =>
    simp only [mapAbove, Bool.and_eq_true, decide_eq_true_eq] at h ⊢
    exact ⟨by omega, ih h.2⟩

/-- Reading the key that was written. -/
theorem mapGet_mapSet_self {α : Type} [DecidableEq α] (d : α) {m : List (Nat × α)}
    (h : mapWf d m = true) (k : Nat) (v : α) :
    mapGet d (mapSet d m k v) k = v := by
  induction m with
  | nil => by_cases hv : v = d <;> simp [mapSet, mapGet, hv]
  | cons p m ih =>
    simp only [mapWf, Bool.and_eq_true] at h
    obtain ⟨⟨ha, -⟩, hm⟩ := h
    unfold mapSet
    split
    · next hlt =>
      have hk : mapAbove k (p :: m) = true := by
        simp only [mapAbove, Bool.and_eq_true, decide_eq_true_eq]
        exact ⟨hlt, mapAbove_of_le (Nat.le_of_lt hlt) ha⟩
      by_cases hv : v = d
      · simp only [hv, if_true]; exact mapGet_of_mapAbove d hk
      · simp [hv, mapGet]
    · split
      · next heq =>
        by_cases hv : v = d
        · simp only [hv, if_true]; exact mapGet_of_mapAbove d (heq ▸ ha)
        · simp [hv, mapGet]
      · next hne => simp [mapGet, hne, ih hm]

/-- Reading any other key. -/
theorem mapGet_mapSet_ne {α : Type} [DecidableEq α] (d : α) (m : List (Nat × α)) {j k : Nat}
    (hjk : j ≠ k) (v : α) :
    mapGet d (mapSet d m k v) j = mapGet d m j := by
  induction m with
  | nil => by_cases hv : v = d <;> simp [mapSet, mapGet, hv, hjk]
  | cons p m ih =>
    unfold mapSet
    split
    · by_cases hv : v = d <;> simp [hv, mapGet, hjk]
    · split
      · next heq => by_cases hv : v = d <;> simp [hv, mapGet, hjk, ← heq]
      · simp [mapGet, ih]

theorem mapAbove_mapSet {α : Type} [DecidableEq α] (d : α) {j k : Nat} (hjk : j < k)
    {m : List (Nat × α)} (h : mapAbove j m = true) (v : α) :
    mapAbove j (mapSet d m k v) = true := by
  induction m with
  | nil => by_cases hv : v = d <;> simp [mapSet, mapAbove, hv, hjk]
  | cons p m ih =>
    have h0 := h
    simp only [mapAbove, Bool.and_eq_true, decide_eq_true_eq] at h
    unfold mapSet
    split
    · by_cases hv : v = d <;> simp [hv, mapAbove, hjk, h.1, h.2]
    · split
      · by_cases hv : v = d <;> simp [hv, mapAbove, hjk, h.2]
      · simp [mapAbove, h.1, ih h.2]

/-- A write keeps the canonical form. -/
theorem mapWf_mapSet {α : Type} [DecidableEq α] (d : α) {m : List (Nat × α)}
    (h : mapWf d m = true) (k : Nat) (v : α) :
    mapWf d (mapSet d m k v) = true := by
  induction m with
  | nil => by_cases hv : v = d <;> simp [mapSet, mapWf, mapAbove, hv]
  | cons p m ih =>
    have h0 := h
    simp only [mapWf, Bool.and_eq_true, decide_eq_true_eq] at h
    obtain ⟨⟨ha, hd⟩, hm⟩ := h
    unfold mapSet
    split
    · next hlt =>
      by_cases hv : v = d
      · simpa [hv] using h0
      · simp only [hv, if_false, mapWf, mapAbove, Bool.and_eq_true, decide_eq_true_eq, ne_eq, not_false_eq_true,
          and_true]
        exact ⟨⟨hlt, mapAbove_of_le (Nat.le_of_lt hlt) ha⟩, ⟨ha, hd⟩, hm⟩
    · split
      · next heq =>
        by_cases hv : v = d
        · simp [hv, hm]
        · simp [hv, mapWf, heq, ha, hm]
      · next hnlt hne =>
        simp only [mapWf, Bool.and_eq_true, decide_eq_true_eq]
        exact ⟨⟨mapAbove_mapSet d (by omega) ha v, hd⟩, ih hm⟩

/-! ## Byte memories -/

theorem readByte_writeByte_self {m : Memory} (h : Memory.wf m = true) (a : Nat) (b : Byte) :
    readByte (writeByte m a b) a = b := mapGet_mapSet_self 0 h a b

theorem readByte_writeByte_ne (m : Memory) {a c : Nat} (h : c ≠ a) (b : Byte) :
    readByte (writeByte m a b) c = readByte m c := mapGet_mapSet_ne 0 m h b

theorem wf_writeByte {m : Memory} (h : Memory.wf m = true) (a : Nat) (b : Byte) :
    Memory.wf (writeByte m a b) = true := mapWf_mapSet 0 h a b

theorem wf_writeBytes {m : Memory} (h : Memory.wf m = true) (a : Nat) (bs : List Byte) :
    Memory.wf (writeBytes m a bs) = true := by
  induction bs generalizing m a with
  | nil => exact h
  | cons b bs ih => exact ih (wf_writeByte h a b) (a + 1)

theorem readByte_writeBytes_below (m : Memory) (a : Nat) (bs : List Byte) {c : Nat} (h : c < a) :
    readByte (writeBytes m a bs) c = readByte m c := by
  induction bs generalizing m a with
  | nil => rfl
  | cons b bs ih =>
    rw [writeBytes, ih _ _ (by omega), readByte_writeByte_ne _ (by omega)]

theorem readByte_writeBytes_above (m : Memory) (a : Nat) (bs : List Byte) {c : Nat} (h : a + bs.length ≤ c) :
    readByte (writeBytes m a bs) c = readByte m c := by
  induction bs generalizing m a with
  | nil => rfl
  | cons b bs ih =>
    simp only [List.length_cons] at h
    rw [writeBytes, ih _ _ (by omega), readByte_writeByte_ne _ (by omega)]

/-- Each byte of a stored list reads back. -/
theorem readByte_writeBytes {m : Memory} (h : Memory.wf m = true) (a : Nat) (bs : List Byte) (i : Nat)
    (hi : i < bs.length) : readByte (writeBytes m a bs) (a + i) = bs[i] := by
  induction bs generalizing m a i with
  | nil => simp at hi
  | cons b bs ih =>
    cases i with
    | zero =>
      rw [writeBytes, readByte_writeBytes_below _ _ _ (by omega)]
      simpa using readByte_writeByte_self h a b
    | succ i =>
      have := ih (wf_writeByte h a b) (a + 1) i (by simpa using hi)
      rw [writeBytes]
      simpa [Nat.add_assoc, Nat.add_comm 1 i] using this

/-! ## ICCM and DCCM -/

theorem CoreMem.wf_iff (m : CoreMem) : m.wf = true ↔ Memory.wf m.cells = true ∧ mapWf .unknown m.ecc = true := by
  simp [CoreMem.wf, Memory.wf]

@[simp] theorem CoreMem.setStatus_cells (m : CoreMem) (i : Nat) (e : EccStatus) : (m.setStatus i e).cells = m.cells :=
  rfl

@[simp] theorem CoreMem.setWord_ecc (m : CoreMem) (i : Nat) (w : Word) : (m.setWord i w).ecc = m.ecc := rfl

@[simp] theorem CoreMem.setWord_status (m : CoreMem) (i j : Nat) (w : Word) : (m.setWord i w).status j = m.status j :=
  rfl

@[simp] theorem CoreMem.setStatus_word (m : CoreMem) (i j : Nat) (e : EccStatus) :
    (m.setStatus i e).word j = m.word j :=
  rfl

theorem CoreMem.status_setStatus_self {m : CoreMem} (h : m.wf = true) (i : Nat) (e : EccStatus) :
    (m.setStatus i e).status i = e := mapGet_mapSet_self _ ((m.wf_iff).1 h).2 i e

theorem CoreMem.status_setStatus_ne (m : CoreMem) {i j : Nat} (h : j ≠ i) (e : EccStatus) :
    (m.setStatus i e).status j = m.status j := mapGet_mapSet_ne _ _ h e

theorem CoreMem.wf_setStatus {m : CoreMem} (h : m.wf = true) (i : Nat) (e : EccStatus) :
    (m.setStatus i e).wf = true := by
  rw [CoreMem.wf_iff] at h ⊢
  exact ⟨h.1, mapWf_mapSet _ h.2 i e⟩

theorem CoreMem.wf_setCells {m : CoreMem} (h : m.wf = true) (a : Nat) (bs : List Byte) :
    ({ m with cells := writeBytes m.cells a bs } : CoreMem).wf = true := by
  rw [CoreMem.wf_iff] at h ⊢
  exact ⟨wf_writeBytes h.1 a bs, h.2⟩

theorem CoreMem.wf_setWord {m : CoreMem} (h : m.wf = true) (i : Nat) (w : Word) : (m.setWord i w).wf = true :=
  CoreMem.wf_setCells h _ _

theorem CoreMem.wf_repair {m : CoreMem} (h : m.wf = true) (i : Nat) (r : WordRead) : (m.repair i r).wf = true := by
  unfold CoreMem.repair
  split
  · split
    · exact CoreMem.wf_setStatus (CoreMem.wf_setWord h i r.data) i .settled
    · split
      · exact CoreMem.wf_setStatus h i _
      · exact h
  · exact h

theorem CoreMem.wf_settleForWrite {m : CoreMem} (h : m.wf = true) (i : Nat) (r : WordRead) :
    (m.settleForWrite i r).wf = true := by
  have hn : (if r.arbitrary then m.setWord i r.data else m).wf = true := by
    split
    · exact CoreMem.wf_setWord h i r.data
    · exact h
  unfold CoreMem.settleForWrite
  dsimp only
  split
  · exact CoreMem.wf_setStatus hn i .settled
  · split
    · exact hn
    · exact CoreMem.wf_setStatus hn i _

theorem CoreMem.wf_dmaSet {m : CoreMem} (h : m.wf = true) (p : Nat × Word) : (m.dmaSet p).wf = true :=
  CoreMem.wf_setStatus (CoreMem.wf_setWord h p.1 p.2) p.1 .ok

theorem CoreMem.wf_disturb {m : CoreMem} (h : m.wf = true) (i : Nat) (e : EccStatus) : (m.disturb i e).wf = true := by
  unfold CoreMem.disturb
  split
  · exact h
  · exact CoreMem.wf_setStatus h i _

theorem CoreMem.wf_afterReset {m : CoreMem} (h : m.wf = true) : m.afterReset.wf = true := by
  rw [CoreMem.wf_iff] at h ⊢
  exact ⟨h.1, rfl⟩

theorem mapAbove_map (f : Nat × EccStatus → Nat × EccStatus) (hf : ∀ p, (f p).1 = p.1) (k : Nat)
    (m : List (Nat × EccStatus)) : mapAbove k (m.map f) = mapAbove k m := by
  induction m with
  | nil => rfl
  | cons p m ih =>
    have := hf p
    simp [mapAbove, ih, this]

/-- A store of a whole word leaves it initialised (R239). -/
theorem statusAfterFullWrite_initialised (h : HartId) (st : EccStatus) :
    (statusAfterFullWrite h st).uninitialised = false := by
  cases st <;> rfl

/-- A store of a whole word of a word nothing has initialised makes it the storing hart's until its `fence` (R239). -/
theorem statusAfterFullWrite_owner {st : EccStatus} (hst : st.uninitialised = true) (h : HartId) :
    (statusAfterFullWrite h st).owner = some h := by
  simp [statusAfterFullWrite, hst, EccStatus.owner]

/-- A fence initialises nothing that was never written, and forgets nothing. -/
theorem EccStatus.afterFence_ne_unknown {st : EccStatus} (h : st ≠ .unknown) (i : HartId) :
    st.afterFence i ≠ .unknown := by
  unfold EccStatus.afterFence
  split
  · split <;> simp
  · exact h

theorem CoreMem.wf_fenced {m : CoreMem} (h : m.wf = true) (i : HartId) : (m.fenced i).wf = true := by
  rw [CoreMem.wf_iff] at h ⊢
  refine ⟨h.1, ?_⟩
  unfold CoreMem.fenced
  generalize m.ecc = l at h
  obtain ⟨-, hl⟩ := h
  induction l with
  | nil => rfl
  | cons p l ih =>
    simp only [mapWf, Bool.and_eq_true, decide_eq_true_eq] at hl
    obtain ⟨⟨ha, hd⟩, hm⟩ := hl
    have hab := mapAbove_map (fun p => (p.1, p.2.afterFence i)) (fun _ => rfl) p.1 l
    simp [mapWf, hab, ha, EccStatus.afterFence_ne_unknown hd i, ih hm]

/-- The status of a word after a fence. -/
theorem CoreMem.status_fenced (m : CoreMem) (i : HartId) (k : Nat) :
    (m.fenced i).status k = (m.status k).afterFence i := by
  unfold CoreMem.fenced CoreMem.status
  dsimp only
  induction m.ecc with
  | nil => rfl
  | cons p l ih => by_cases hk : k = p.1 <;> simp [mapGet, hk, ih]

theorem foldl_wf {β : Type} (f : CoreMem → β → CoreMem) (hf : ∀ m b, m.wf = true → (f m b).wf = true)
    (l : List β) {m : CoreMem} (h : m.wf = true) : (l.foldl f m).wf = true := by
  induction l generalizing m with
  | nil => exact h
  | cons b l ih => exact ih (hf m b h)

/-! ## Interrupt sources -/

theorem wf_setSource {c : Shared} (h : mapWf PicSource.initial c.sources = true) (n : Nat) (p : PicSource) :
    mapWf PicSource.initial (c.setSource n p).sources = true := mapWf_mapSet _ h n p

theorem mapAbove_filter_map (k : Nat) (m : List (Nat × PicSource)) (h : mapAbove k m = true) :
    mapAbove k (sourcesAfterReset m) = true := by
  induction m with
  | nil => rfl
  | cons p m ih =>
    simp only [mapAbove, Bool.and_eq_true, decide_eq_true_eq] at h
    have := ih h.2
    unfold sourcesAfterReset at this ⊢
    rw [List.map_cons, List.filter_cons]
    split
    · simp only [mapAbove, Bool.and_eq_true, decide_eq_true_eq]
      exact ⟨h.1, this⟩
    · exact this

theorem wf_sourcesAfterReset {m : List (Nat × PicSource)} (h : mapWf PicSource.initial m = true) :
    mapWf PicSource.initial (sourcesAfterReset m) = true := by
  induction m with
  | nil => rfl
  | cons p m ih =>
    simp only [mapWf, Bool.and_eq_true] at h
    have hab := mapAbove_filter_map p.1 m h.1.1
    have := ih h.2
    unfold sourcesAfterReset at this hab ⊢
    rw [List.map_cons, List.filter_cons]
    split
    · next hne =>
      simp only [mapWf, Bool.and_eq_true, decide_eq_true_eq] at hne ⊢
      exact ⟨⟨hab, hne⟩, this⟩
    · exact this

/-! ## Reset -/

theorem wf_reset_bus : Memory.wf State.reset.sh.bus = true := rfl

theorem wf_reset_iccm : State.reset.sh.iccm.wf = true := rfl

theorem wf_reset_dccm : State.reset.sh.dccm.wf = true := rfl

theorem wf_reset_sources : mapWf PicSource.initial State.reset.sh.sources = true := rfl

end Sys2Proof.Machine
end

