-- ==== Sys2Proof/Laws/Canonical.lean ====
section
/-! SUPPORT. Every operation on the machine's memories keeps their canonical form. -/

namespace Sys2Proof.Machine

theorem State.canonical_iff (s : State) :
    s.canonical = true ↔ Memory.wf s.sh.bus = true ∧ s.sh.iccm.wf = true ∧ s.sh.dccm.wf = true
      ∧ mapWf PicSource.initial s.sh.sources = true := by
  simp [State.canonical, and_assoc]

/-- The canonical form is a matter of the shared state alone. -/
theorem canonical_of_sh {s t : State} (h : t.sh = s.sh) : t.canonical = s.canonical := by
  simp [State.canonical, h]

@[simp] theorem canonical_setHart (s : State) (i : HartId) (h : Hart) : (s.setHart i h).canonical = s.canonical :=
  canonical_of_sh (by simp)

@[simp] theorem canonical_setMe (s : State) (h : Hart) : (s.setMe h).canonical = s.canonical := canonical_of_sh (by simp)

@[simp] theorem canonical_draw (s : State) : s.draw.canonical = s.canonical := canonical_of_sh rfl

@[simp] theorem canonical_setReg (s : State) (r : Reg) (v : Word) : (s.setReg r v).canonical = s.canonical :=
  canonical_of_sh (by simp)

@[simp] theorem canonical_completeAt (s : State) (len : Nat) (evs : List Nat) (a : Word) :
    (s.completeAt len evs a).canonical = s.canonical := canonical_of_sh (by simp)

@[simp] theorem canonical_setSq (s : State) (i : HartId) (q : List SqEntry) : (s.setSq i q).canonical = s.canonical :=
  canonical_setHart ..

@[simp] theorem canonical_setWb (s : State) (i : HartId) (q : List WbEntry) : (s.setWb i q).canonical = s.canonical :=
  canonical_setHart ..

@[simp] theorem canonical_setInflight (s : State) (i : HartId) (q : List BusResp) :
    (s.setInflight i q).canonical = s.canonical := canonical_setHart ..

/-- A state with the same memories. -/
theorem canonical_of_parts {s t : State} (h : s.canonical = true) (hb : t.sh.bus = s.sh.bus)
    (hi : t.sh.iccm = s.sh.iccm) (hd : t.sh.dccm = s.sh.dccm) (hs : t.sh.sources = s.sh.sources) :
    t.canonical = true := by
  rw [State.canonical_iff] at h ⊢
  exact ⟨hb ▸ h.1, hi ▸ h.2.1, hd ▸ h.2.2.1, hs ▸ h.2.2.2⟩

/-- A state that differs in the DCCM only. -/
theorem canonical_withDccm {s t : State} (h : s.canonical = true) (hb : t.sh.bus = s.sh.bus)
    (hi : t.sh.iccm = s.sh.iccm) (hs : t.sh.sources = s.sh.sources) (hd : t.sh.dccm.wf = true) :
    t.canonical = true := by
  rw [State.canonical_iff] at h ⊢
  exact ⟨hb ▸ h.1, hi ▸ h.2.1, hd, hs ▸ h.2.2.2⟩

/-- A state that differs in the ICCM only. -/
theorem canonical_withIccm {s t : State} (h : s.canonical = true) (hb : t.sh.bus = s.sh.bus)
    (hd : t.sh.dccm = s.sh.dccm) (hs : t.sh.sources = s.sh.sources) (hi : t.sh.iccm.wf = true) :
    t.canonical = true := by
  rw [State.canonical_iff] at h ⊢
  exact ⟨hb ▸ h.1, hi, hd ▸ h.2.2.1, hs ▸ h.2.2.2⟩

/-- A state that differs in the bus memory only. -/
theorem canonical_withBus {s t : State} (h : s.canonical = true) (hb : Memory.wf t.sh.bus = true)
    (hi : t.sh.iccm = s.sh.iccm) (hd : t.sh.dccm = s.sh.dccm) (hs : t.sh.sources = s.sh.sources) :
    t.canonical = true := by
  rw [State.canonical_iff] at h ⊢
  exact ⟨hb, hi ▸ h.2.1, hd ▸ h.2.2.1, hs ▸ h.2.2.2⟩

/-- Folding a step that keeps the form keeps the form. -/
theorem canonical_foldl {β : Type} (f : State → β → State) (hf : ∀ s b, s.canonical = true → (f s b).canonical = true)
    (l : List β) {s : State} (h : s.canonical = true) : (l.foldl f s).canonical = true := by
  induction l generalizing s with
  | nil => exact h
  | cons b l ih => exact ih (hf s b h)

/-! ## DCCM -/

theorem canonical_writeSqEntry {s : State} (h : s.canonical = true) (i : HartId) (e : SqEntry) :
    (writeSqEntry s i e).canonical = true := by
  unfold writeSqEntry
  rw [canonical_setHart]
  exact canonical_withDccm h rfl rfl rfl
    (CoreMem.wf_setStatus (CoreMem.wf_setCells ((State.canonical_iff s).1 h).2.2.1 e.addr.toNat e.data) _ _)

theorem canonical_drainSqOne {s : State} (h : s.canonical = true) (i : HartId) :
    (drainSqOne s i).canonical = true := by
  unfold drainSqOne
  split
  · exact h
  · exact canonical_writeSqEntry (by simpa using h) i _

theorem canonical_drainSqAll {s : State} (h : s.canonical = true) (i : HartId) :
    (drainSqAll s i).canonical = true :=
  canonical_foldl _ (fun _ e hs => canonical_writeSqEntry hs i e) _ (by simpa using h)

theorem canonical_repairDccm {s : State} (h : s.canonical = true) (rs : List (Nat × WordRead)) :
    (repairDccm s rs).canonical = true :=
  canonical_withDccm h rfl rfl rfl
    (foldl_wf _ (fun _ p hm => CoreMem.wf_repair hm p.1 p.2) rs ((State.canonical_iff s).1 h).2.2.1)

theorem canonical_settleDccm {s : State} (h : s.canonical = true) (rs : List (Nat × WordRead)) :
    (settleDccm s rs).canonical = true :=
  canonical_withDccm h rfl rfl rfl
    (foldl_wf _ (fun _ p hm => CoreMem.wf_settleForWrite hm p.1 p.2) rs ((State.canonical_iff s).1 h).2.2.1)

theorem canonical_atomicWrite {s : State} (h : s.canonical = true) (a v : Word) :
    (atomicWrite s a v).canonical = true := by
  unfold atomicWrite
  rw [canonical_setHart]
  refine canonical_withDccm h rfl rfl rfl ?_
  exact CoreMem.wf_setStatus (CoreMem.wf_setWord ((State.canonical_iff s).1 h).2.2.1 (a.toNat / 4) v) _ _

/-! ## Bus -/

@[simp] theorem canonical_reportError (s : State) (i : HartId) (store : Bool) (a : Word) :
    (reportError s i store a).canonical = s.canonical := by
  simp [reportError]

@[simp] theorem canonical_deliverLoad (s : State) (i : HartId) (a : Word) (p : PendingLoad) :
    (deliverLoad s i a p).canonical = s.canonical := by
  unfold deliverLoad
  dsimp only
  split <;> simp

@[simp] theorem canonical_deliver (s : State) (i : HartId) (r : BusResp) : (deliver s i r).canonical = s.canonical := by
  unfold deliver
  split
  · simp
  · split <;> simp

theorem canonical_deliverAll {s : State} (h : s.canonical = true) (i : HartId) : (deliverAll s i).canonical = true :=
  canonical_foldl _ (fun _ _ hs => by simpa using hs) _ (by simpa using h)

theorem canonical_deliverWhere {s : State} (h : s.canonical = true) (i : HartId) (sel : BusResp → Bool) :
    (deliverWhere s i sel).canonical = true :=
  canonical_foldl _ (fun _ _ hs => by simpa using hs) _ (by simpa using h)

theorem canonical_settle {s : State} (h : s.canonical = true) (i : Instr) : (s.settle i).canonical = true :=
  canonical_deliverWhere h ..

theorem canonical_readOne {s : State} (h : s.canonical = true) (i : HartId) (f : Nat → Nat → Option (Nat × Nat))
    (r : BusResp) : (readOne s i f r).canonical = true := by
  unfold readOne
  dsimp only
  split <;> simpa using h

theorem canonical_readPending {s : State} (h : s.canonical = true) (i : HartId)
    (f : Nat → Nat → Option (Nat × Nat)) : (readPending s i f).canonical = true := by
  unfold readPending
  dsimp only
  split
  · exact canonical_foldl _ (fun _ r hs => canonical_readOne hs i f r) _ (by simpa using h)
  · exact h

theorem canonical_awaitEarlier {s : State} (h : s.canonical = true) (i : HartId) (a n : Nat) :
    (awaitEarlier s i a n).canonical = true := by
  unfold awaitEarlier
  dsimp only
  split
  · exact canonical_readPending (canonical_deliverWhere h ..) ..
  · exact canonical_readPending h ..

theorem canonical_issue {s : State} (h : s.canonical = true) (i : HartId) (t : BusTxn) (r : BusResp) :
    (issue s i t r).canonical = true := by
  unfold issue
  rw [canonical_setInflight]
  exact canonical_of_parts h rfl rfl rfl rfl

theorem canonical_busWriteByte {s : State} (h : s.canonical = true) (se : Bool) (a : Nat) (b : Byte) :
    (busWriteByte s se a b).canonical = true := by
  unfold busWriteByte
  split
  · exact canonical_withBus h (wf_writeByte ((State.canonical_iff s).1 h).1 a b) rfl rfl rfl
  · exact h
  · exact h

theorem canonical_busWriteBytes {s : State} (h : s.canonical = true) (se : Bool) (a : Nat) (bs : List Byte) :
    (busWriteBytes s se a bs).canonical = true := by
  induction bs generalizing s a with
  | nil => exact h
  | cons b bs ih => exact ih (canonical_busWriteByte h se a b) (a + 1)

theorem canonical_writeWbEntry {s : State} (h : s.canonical = true) (i : HartId) (e : WbEntry) :
    (writeWbEntry s i e).canonical = true := by
  have := canonical_issue (canonical_awaitEarlier h i e.addr.toNat e.data.length) i
  unfold writeWbEntry
  dsimp only
  rw [canonical_draw]
  split
  · exact this _ _
  · exact canonical_busWriteBytes (this _ _) _ _ _

theorem canonical_drainWbAll {s : State} (h : s.canonical = true) (i : HartId) : (drainWbAll s i).canonical = true :=
  canonical_foldl _ (fun _ e hs => canonical_writeWbEntry hs i e) _ (by simpa using h)

theorem canonical_writeMerged {s : State} (h : s.canonical = true) (i : HartId) (base : Word) (es : List WbEntry) :
    (writeMerged s i base es).canonical = true := by
  have := canonical_issue (canonical_awaitEarlier h i base.toNat 8) i
  unfold writeMerged
  dsimp only
  rw [canonical_draw]
  exact canonical_foldl _ (fun _ p hs => canonical_busWriteByte hs _ _ _) _ (this _ _)

theorem canonical_drainWbSome {s : State} (h : s.canonical = true) (i : HartId) (n : Nat) :
    (drainWbSome s i n).canonical = true := by
  unfold drainWbSome
  split
  · exact h
  · dsimp only
    split
    · exact canonical_writeMerged (by simpa using h) ..
    · exact canonical_writeWbEntry (by simpa using h) ..

theorem canonical_busStore {s : State} (h : s.canonical = true) (a : Word) (data : List Byte) :
    (busStore s a data).canonical = true := by
  simpa [busStore] using h

/-- Draining a hart's buffers keeps the form. -/
theorem canonical_drainHart {s : State} (h : s.canonical = true) (i : HartId) : (drainHart s i).canonical = true :=
  canonical_drainSqAll (canonical_deliverAll (canonical_drainWbAll h i) i) i

/-- The fence keeps the form. -/
theorem canonical_fenceHart {s : State} (h : s.canonical = true) (i : HartId) : (fenceHart s i).canonical = true := by
  have hd := canonical_drainHart h i
  exact canonical_withDccm hd rfl rfl rfl (CoreMem.wf_fenced ((State.canonical_iff _).1 hd).2.2.1 i)

theorem canonical_issueLoad {s : State} (h : s.canonical = true) (i : HartId) (p : LoadTxn) (err se : Bool) :
    (issueLoad s i p err se).canonical = true := by
  have := canonical_awaitEarlier h i p.first.toNat p.count
  unfold issueLoad
  dsimp only
  split
  · exact canonical_issue this ..
  · exact canonical_of_parts this rfl rfl rfl rfl

/-- The state a bus load leaves. -/
def BusLoadResult.state : BusLoadResult → State
  | .bytes _ s => s
  | .failed _ s => s
  | .later s => s

theorem canonical_busRead {s : State} (h : s.canonical = true) (a : Word) (n : Nat) (se : Bool) :
    (busRead s a n se).state.canonical = true := by
  have hf (f : LoadTxn → Bool) (l : List LoadTxn) :
      (l.foldl (fun t p => issueLoad t s.cur p (f p) se) s).draw.canonical = true :=
    (canonical_draw _).trans (canonical_foldl _ (fun _ p hs => canonical_issueLoad hs ..) _ h)
  unfold busRead
  dsimp only
  split
  · exact hf (fun _ => false) _
  · split
    · exact hf (fun p => p.errs s) _
    · exact hf (fun _ => false) _

theorem canonical_drainForRead {s : State} (h : s.canonical = true) (i : HartId) (a n : Nat) :
    (drainForRead s i a n).canonical = true := by
  unfold drainForRead
  split
  · exact canonical_drainWbAll h i
  · exact h

theorem canonical_busLoad {s : State} (h : s.canonical = true) (a : Word) (n : Nat) :
    (busLoad s a n).state.canonical = true := by
  unfold busLoad
  split
  · exact canonical_busRead (canonical_drainWbAll h _) ..
  · split
    · exact h
    · exact canonical_busRead (canonical_drainForRead h ..) ..

theorem canonical_deferLoad {s : State} (h : s.canonical = true) (a : Word) (rd : Reg) (n : Nat) (signed se : Bool) :
    (deferLoad s a rd n signed se).canonical = true := by
  simpa [deferLoad] using h

@[simp] theorem canonical_pushAhead (s : State) (i : HartId) (p : AheadPart) :
    (s.pushAhead i p).canonical = s.canonical := canonical_setHart ..

theorem canonical_readAheadBus {s : State} (h : s.canonical = true) (i : HartId) (a n : Nat) :
    (readAheadBus s i a n).canonical = true := by
  unfold readAheadBus
  split
  · simpa using h
  · simpa using canonical_awaitEarlier (canonical_drainForRead h i a n) i a n

theorem canonical_readAhead {s : State} (h : s.canonical = true) (i : HartId) (a : Word) (n : Nat) :
    (readAhead s i a n).canonical = true := by
  unfold readAhead
  dsimp only
  split
  · split
    · simpa [readAheadDccm] using h
    · split
      · exact canonical_readAheadBus h i a.toNat n
      · exact h
  · exact h

/-! ## PIC, DMA and reset -/

theorem canonical_modSource {s : State} (h : s.canonical = true) (n : Nat) (f : PicSource → PicSource) :
    (s.modSource n f).canonical = true := by
  rw [State.canonical_iff] at h ⊢
  exact ⟨h.1, h.2.1, h.2.2.1, wf_setSource h.2.2.2 n _⟩

theorem canonical_picStoreReg {s : State} (h : s.canonical = true) (r : PicReg) (v : Word) :
    (picStoreReg s r v).canonical = true := by
  cases r
  case mpiccfg => exact canonical_of_parts h rfl rfl rfl rfl
  case meigwctrl n => exact (canonical_draw _).trans (canonical_modSource h n _)
  all_goals first
    | exact h
    | exact canonical_modSource h _ _

theorem canonical_picStore {s : State} (h : s.canonical = true) (a v : Word) : (picStore s a v).canonical = true :=
  canonical_picStoreReg h _ v

theorem canonical_respond {s : State} (h : s.canonical = true) (r : DmaResp) : (s.respond r).canonical = true :=
  canonical_of_parts h rfl rfl rfl rfl

theorem canonical_countDma {s : State} (h : s.canonical = true) (evs : List Nat) : (countDma s evs).canonical = true :=
  canonical_of_parts h rfl rfl rfl rfl

theorem canonical_coreRepair {s : State} (h : s.canonical = true) (dccm : Bool) (rs : List (Nat × WordRead)) :
    (coreRepair s dccm rs).canonical = true := by
  cases dccm
  · exact canonical_withIccm h rfl rfl rfl
      (foldl_wf _ (fun _ p hm => CoreMem.wf_repair hm p.1 p.2) rs ((State.canonical_iff s).1 h).2.1)
  · exact canonical_repairDccm h rs

theorem canonical_dmaWriteWord {s : State} (h : s.canonical = true) (dccm : Bool) (p : Nat × Word) :
    (dmaWriteWord s dccm p).canonical = true := by
  cases dccm
  · exact canonical_withIccm h rfl rfl rfl (CoreMem.wf_dmaSet ((State.canonical_iff s).1 h).2.1 p)
  · exact canonical_withDccm h rfl rfl rfl (CoreMem.wf_dmaSet ((State.canonical_iff s).1 h).2.2.1 p)

theorem canonical_putJob {s : State} (h : s.canonical = true) (j : DmaJob) : (s.putJob j).canonical = true := by
  unfold State.putJob
  split <;> exact canonical_of_parts h rfl rfl rfl rfl

theorem canonical_dmaNext {s : State} (h : s.canonical = true) : (dmaNext s).canonical = true := by
  unfold dmaNext
  split
  · exact h
  · split
    · exact canonical_putJob h _
    · unfold dmaWordStep
      split
      · exact (canonical_draw _).trans (canonical_putJob (canonical_coreRepair h _ _) _)
      · exact canonical_putJob (canonical_dmaWriteWord h _ _) _

theorem canonical_dmaFinish {s : State} (h : s.canonical = true) : (dmaFinish s).canonical = true := by
  unfold dmaFinish
  split
  · exact h
  · exact canonical_foldl _ (fun _ _ hs => canonical_dmaNext hs) _ h

theorem canonical_dmaBegin {s : State} (h : s.canonical = true) (dccm read : Bool) (todo : List (Nat × Word)) :
    (dmaBegin s dccm read todo).canonical = true :=
  canonical_dmaNext (canonical_of_parts (canonical_dmaFinish h) rfl rfl rfl rfl)

theorem canonical_dmaRead {s : State} (h : s.canonical = true) (a : Word) (n : Nat) :
    (dmaRead s a n).canonical = true := by
  have hc := canonical_countDma h (dmaEvents true (inDccm s.cfg a))
  unfold dmaRead
  dsimp only
  split
  · exact canonical_dmaBegin hc ..
  · exact canonical_respond (canonical_dmaFinish hc) _

theorem canonical_dmaWrite {s : State} (h : s.canonical = true) (a : Word) (n : Nat) (strobe : BitVec 8)
    (data : BitVec 64) : (dmaWrite s a n strobe data).canonical = true := by
  have hc := canonical_countDma h (dmaEvents false (inDccm s.cfg a))
  unfold dmaWrite
  dsimp only
  split
  · exact canonical_respond (canonical_dmaFinish hc) _
  · split
    · exact canonical_dmaBegin hc ..
    · exact canonical_respond (canonical_dmaFinish hc) _

theorem canonical_resetCore {s : State} (h : s.canonical = true) (halted : Bool) :
    (resetCore s halted).canonical = true := by
  rw [State.canonical_iff] at h ⊢
  exact ⟨h.1, CoreMem.wf_afterReset h.2.1, CoreMem.wf_afterReset h.2.2.1, wf_sourcesAfterReset h.2.2.2⟩

end Sys2Proof.Machine
end

