-- ==== Sys2Proof/Laws/Ops.lean ====
section
/-! SUPPORT. For each shared operation, once, everything it can do: what computational instructions, jumps, branches, taken
exceptions, loads, stores, atomic and CSR instructions come to. -/

namespace Sys2Proof.Machine

/-! ## Frames -/

theorem HartId.eq_or_other (i j : HartId) : j = i ∨ j = i.other := by
  cases i <;> cases j <;> simp [HartId.other]

/-- The memories and the queues of stores are the same: every byte reads the same. -/
theorem memorySame_of {s t : State} (hcfg : t.cfg = s.cfg) (hsh : t.sh = s.sh)
    (hbuf : ∀ i, (t.hart i).buf.sq = (s.hart i).buf.sq ∧ (t.hart i).buf.wb = (s.hart i).buf.wb) : MemorySame s t := by
  intro a
  exact ⟨fun i => by simp [byteSeen, hcfg, hsh, hbuf i], by simp [iccmByte, hsh]⟩

theorem me_eq_hart {s t : State} (h : t.cur = s.cur) : t.me = t.hart s.cur := by rw [← h]; rfl

theorem stores_same {s t : State} {rd : Reg} (hcur : t.cur = s.cur) (hme : t.me.buf = s.me.buf.overwrite rd)
    (ho : t.hart s.cur.other = s.hart s.cur.other) (i : HartId) :
    (t.hart i).buf.sq = (s.hart i).buf.sq ∧ (t.hart i).buf.wb = (s.hart i).buf.wb := by
  rcases HartId.eq_or_other s.cur i with rfl | rfl
  · rw [← me_eq_hart hcur, hme]; exact ⟨rfl, rfl⟩
  · rw [ho]; exact ⟨rfl, rfl⟩

@[simp] theorem State.reg_setReg_self (s : State) (r : Reg) (v : Word) :
    (s.setReg r v).reg r = if r = 0 then 0 else v := by
  simp [State.reg, Hart.reg_setReg_self]

theorem State.reg_setReg_ne (s : State) {r q : Reg} (v : Word) (h : q ≠ r) : (s.setReg r v).reg q = s.reg q := by
  simp [State.reg, Hart.reg_setReg_ne _ _ _ _ h]

@[simp] theorem State.completeAt_reg (s : State) (len : Nat) (evs : List Nat) (a : Word) (r : Reg) :
    (s.completeAt len evs a).reg r = s.reg r := by
  simp [State.reg]

theorem retire_ctr_of_same {h g : Hart} (hc : g.ctr = h.ctr) (hd : g.dbg = h.dbg) (ha : g.activity = h.activity)
    (len : Nat) (evs : List Nat) : (g.retire len evs).ctr = (h.retire len evs).ctr := by
  have hr : g.countersRun = h.countersRun := by simp [Hart.countersRun, Hart.stopcount, ha, hd]
  unfold Hart.retire
  rw [hr, hc]
  split
  · rfl
  · exact hc

/-- A state that wrote one register, then completed. -/
theorem localOnly_setReg_completeAt (s : State) (len : Nat) (evs : List Nat) (rd : Reg) (v a : Word) :
    LocalOnly s ((s.setReg rd v).completeAt len evs a) len evs rd := by
  refine ⟨⟨⟨by simp, by simp, ?_⟩, by simp [Hart.SystemSame], ?_⟩, by simp, by simp, by simp, ?_⟩
  · have h := State.completeAt_hart_other (s.setReg rd v) len evs a
    simpa using h
  · simpa using retire_ctr_of_same (by simp) (by simp) (by simp) len evs
  · refine memorySame_of (by simp) (by simp) (stores_same (rd := rd) (by simp) (by simp) ?_)
    have h := State.completeAt_hart_other (s.setReg rd v) len evs a
    simpa using h

theorem regWritten_setReg_completeAt (s : State) (len : Nat) (evs : List Nat) (rd : Reg) (v a : Word) :
    RegWritten s ((s.setReg rd v).completeAt len evs a) rd v := by
  refine ⟨by simp, fun r hr => ?_⟩
  simp [State.reg_setReg_ne s v hr]

/-! ## Computation, jumps, branches -/

/-- Everything a computational instruction does. -/
theorem computes_writeBack (s : State) (len : Nat) (evs : List Nat) (rd : Reg) (v : Word) :
    Computes s (s.writeBack len evs rd v) len evs rd v := by
  unfold State.writeBack State.complete
  exact ⟨regWritten_setReg_completeAt .., by simp [Hart.nextPc], localOnly_setReg_completeAt ..⟩

/-- Everything a jump does. -/
theorem jumps_jumpInstr (s : State) (len : Nat) (rd : Reg) (target : Word) :
    Jumps s (s.jumpInstr len rd target) len rd target := by
  unfold State.jumpInstr
  exact ⟨regWritten_setReg_completeAt .., by simp, localOnly_setReg_completeAt ..⟩

theorem localOnly_completeAt (s : State) (len : Nat) (evs : List Nat) (a : Word) :
    LocalOnly s (s.completeAt len evs a) len evs 0 := by
  refine ⟨⟨⟨by simp, by simp, by simp⟩, by simp [Hart.SystemSame], by simp⟩, by simp, by simp, by simp, ?_⟩
  exact memorySame_of (by simp) (by simp) (stores_same (rd := 0) (by simp) (by simp) (by simp))

/-- Everything a branch does. -/
theorem branches_branchInstr (s : State) (len : Nat) (taken : Bool) (off : Word) :
    Branches s (s.branchInstr len taken off) len (taken = true) off := by
  unfold State.branchInstr
  refine ⟨fun r => by simp, fun h => ?_, fun h => ?_⟩
  · subst h; exact ⟨by simp, localOnly_completeAt ..⟩
  · obtain rfl : taken = false := by simpa using h
    exact ⟨by simp [Hart.nextPc], localOnly_completeAt ..⟩

/-! ## Trap entry -/

theorem getLsbD_putBit (v : Word) {i : Nat} (hi : i < 32) (b : Bool) (j : Nat) :
    (putBit v i b).getLsbD j = if j = i then b else v.getLsbD j := by
  have h1 : (1#32 <<< i).getLsbD j = (decide (j < 32) && decide (j = i)) := by
    rw [BitVec.getLsbD_shiftLeft, BitVec.getLsbD_one]
    by_cases hj : j < 32 <;> by_cases hji : j < i <;> by_cases he : j = i <;> simp [hj, hji, he] <;> omega
  cases b
  · show (v &&& ~~~(1#32 <<< i)).getLsbD j = _
    rw [BitVec.getLsbD_and, BitVec.getLsbD_not, h1]
    by_cases hj : j < 32
    · by_cases h : j = i <;> simp [h, hj]
    · have h3 : j ≠ i := by omega
      simp [h3, BitVec.getLsbD_of_ge v j (by omega)]
  · show (v ||| (1#32 <<< i)).getLsbD j = _
    rw [BitVec.getLsbD_or, h1]
    by_cases h : j = i <;> simp [h, hi]

theorem getLsbD_mstatusEntry (v : Word) (j : Nat) :
    (mstatusEntry v).getLsbD j = if j = 3 then false else if j = 7 then v.getLsbD 3 else v.getLsbD j := by
  simp only [mstatusEntry, getLsbD_putBit _ (show 3 < 32 by decide), getLsbD_putBit _ (show 7 < 32 by decide)]

theorem getLsbD_mstatusReturn (v : Word) (j : Nat) :
    (mstatusReturn v).getLsbD j = if j = 7 then true else if j = 3 then v.getLsbD 7 else v.getLsbD j := by
  simp only [mstatusReturn, getLsbD_putBit _ (show 3 < 32 by decide), getLsbD_putBit _ (show 7 < 32 by decide)]

theorem and_mask_eq {v w m : Word} (h : ∀ i, m.getLsbD i = true → v.getLsbD i = w.getLsbD i) : v &&& m = w &&& m := by
  apply BitVec.eq_of_getLsbD_eq
  intro i _
  rw [BitVec.getLsbD_and, BitVec.getLsbD_and]
  cases hm : m.getLsbD i
  · simp
  · rw [h i hm]

theorem mstatusEntry_rest (v : Word) : mstatusEntry v &&& 0xFFFFFF77#32 = v &&& 0xFFFFFF77#32 := by
  apply and_mask_eq
  intro i hi
  have h3 : i ≠ 3 := by rintro rfl; exact absurd hi (by decide)
  have h7 : i ≠ 7 := by rintro rfl; exact absurd hi (by decide)
  rw [getLsbD_mstatusEntry, if_neg h3, if_neg h7]

theorem mstatusReturn_rest (v : Word) : mstatusReturn v &&& 0xFFFFFF77#32 = v &&& 0xFFFFFF77#32 := by
  apply and_mask_eq
  intro i hi
  have h3 : i ≠ 3 := by rintro rfl; exact absurd hi (by decide)
  have h7 : i ≠ 7 := by rintro rfl; exact absurd hi (by decide)
  rw [getLsbD_mstatusReturn, if_neg h7, if_neg h3]

theorem countEvents_minstret (h : Hart) (evs : List Nat) : (h.countEvents evs).ctr.minstret = h.ctr.minstret := by
  unfold Hart.countEvents Counters.countEvents; split <;> rfl

theorem countEvents_mcycle (h : Hart) (evs : List Nat) : (h.countEvents evs).ctr.mcycle = h.ctr.mcycle := by
  unfold Hart.countEvents Counters.countEvents; split <;> rfl

/-- Counting no event changes nothing. -/
theorem countEvents_nil (h : Hart) : h.countEvents [] = h := by
  have ho (c : Hpm) : occurrences c [] = 0 := by simp [occurrences]
  have ha (c : Hpm) (b : Bool) : c.add b 0 = c := by cases b <;> simp [Hpm.add]
  simp [Hart.countEvents, Counters.countEvents, ho, ha]

/-- Events counted one after the other are counted as one list. -/
theorem countEvents_append (h : Hart) (as bs : List Nat) :
    (h.countEvents as).countEvents bs = h.countEvents (as ++ bs) := by
  have ha (c : Hpm) (b : Bool) :
      (c.add b (occurrences c as)).add b (occurrences (c.add b (occurrences c as)) bs)
        = c.add b (occurrences c (as ++ bs)) := by
    cases b
    · have h0 : (occurrences c (as ++ bs)) = occurrences c as + occurrences c bs := by
        unfold occurrences
        split <;> simp
      have h1 : occurrences (c.add false (occurrences c as)) bs = occurrences c bs := rfl
      rw [h0, h1]
      simp [Hpm.add, BitVec.ofNat_add, BitVec.add_assoc]
    · simp [Hpm.add]
  by_cases hr : h.countersRun = true
  · have hs : ∀ c : Counters, ({ h with ctr := c } : Hart).countersRun = true := fun _ => hr
    simp [Hart.countEvents, hr, hs, Counters.countEvents, ha]
  · simp [Hart.countEvents, hr]

theorem trapEntry_enterTrap (s : State) (evs : List Nat) (cause : Word) (m : BitVec 4) (tval target : Word) :
    TrapEntry s (s.setMe ((s.me.countEvents evs).enterTrap cause m tval target)) evs cause m tval target := by
  refine ⟨by simp [Hart.enterTrap], by simp [Hart.enterTrap], by simp [Hart.enterTrap], by simp [Hart.enterTrap],
    by simp only [State.me_setMe, Hart.enterTrap, Hart.mpie, Hart.mie, getLsbD_mstatusEntry]; simp,
    by simp only [State.me_setMe, Hart.enterTrap, Hart.mie, getLsbD_mstatusEntry]; simp,
    by simp [Hart.enterTrap, mstatusEntry_rest], by simp, by simp, by simp [Hart.enterTrap], by simp [Hart.enterTrap],
    by simp [Hart.enterTrap], by simp [countEvents_minstret], by simp [countEvents_mcycle], by simp [Hart.enterTrap], fun r => by simp [State.reg],
    ⟨by simp, by simp, by simp⟩, by simp, ?_⟩
  exact memorySame_of (by simp) (by simp) (stores_same (rd := 0) (by simp) (by simp) (by simp))

/-- Everything raising an exception does, outside `db-halt`. -/
theorem traps_raise (s : State) (cause : Word) (m : BitVec 4) (tval : Word) (h : s.me.activity ≠ .dbgHalt) :
    Traps s (s.raise cause m tval) [37] cause m tval := by
  unfold State.raise
  simp only [h, if_false]
  exact ⟨trapEntry_enterTrap s [37] cause m tval s.me.trapBase, by simp, by simp, by simp, by simp, by simp, by simp,
    by simp, by simp, by simp, by simp, by simp⟩

/-- In `db-halt` an exception has no effect. -/
theorem raise_dbgHalt (s : State) (cause : Word) (m : BitVec 4) (tval : Word) (h : s.me.activity = .dbgHalt) :
    s.raise cause m tval = s := by
  simp [State.raise, h]

/-! ## Triggers -/

theorem firing_quiet {e : TriggerEvent} {mie prev : Bool} {ts : List Trigger}
    (h : ∀ t ∈ ts, t.tdata1.extractLsb' 0 3 = 0#3) : (firing e mie prev ts).any id = false := by
  have bits : ∀ t ∈ ts, t.tdata1.getLsbD 0 = false ∧ t.tdata1.getLsbD 1 = false ∧ t.tdata1.getLsbD 2 = false := by
    intro t ht
    have hx := h t ht
    have hb : ∀ i, i < 3 → t.tdata1.getLsbD i = false := by
      intro i hi
      have := congrArg (fun v => v.getLsbD i) hx
      simpa only [BitVec.getLsbD_extractLsb', hi, decide_true, Bool.true_and, Nat.zero_add, BitVec.getLsbD_zero] using this
    exact ⟨hb 0 (by omega), hb 1 (by omega), hb 2 (by omega)⟩
  clear h
  induction ts generalizing prev with
  | nil => rfl
  | cons t ts ih =>
    obtain ⟨h0, h1, h2⟩ := bits t (by simp)
    have hm : t.matchesEvent e = false := by
      cases e <;> simp only [Trigger.matchesEvent, Trigger.matchesPc, h0, h1, h2, Bool.false_and, Bool.and_false,
        Bool.or_self, ite_self]
    simp only [firing, hm, Bool.false_and, List.any_cons, id, Bool.false_or]
    exact ih (fun u hu => bits u (by simp [hu]))

/-- Triggers that match nothing do not fire. -/
theorem triggerHit_quiet {s : State} (h : QuietTriggers s) (e : TriggerEvent) : triggerHit s e = none := by
  unfold triggerHit
  simp [firing_quiet (e := e) (mie := s.me.mie) (prev := false) h]

/-- Triggers that match nothing do nothing. -/
theorem triggerAction_quiet {s : State} (h : QuietTriggers s) (e : TriggerEvent) : triggerAction s e = none := by
  simp [triggerAction, triggerHit_quiet h e]

/-- Everything a breakpoint or trigger to Debug Mode does. -/
theorem requestDebug_cases (s : State) (cause : BitVec 3) :
    (s.me.dctl.stepping = true
        ∧ requestDebug s cause = s.setMe { s.me with dctl := { s.me.dctl with brkpt := true } })
      ∨ s.me.dctl.stepping = false ∧
        ((s.sh.mfdht.getLsbD 0 && s.me.busBusy) = true
            ∧ requestDebug s cause
              = s.setMe { s.me with dctl := { s.me.dctl with pending := some (s.me.dctl.pending.getD cause) } }
          ∨ (s.sh.mfdht.getLsbD 0 && s.me.busBusy) = false ∧ requestDebug s cause = enterDebug s s.cur cause false) := by
  unfold requestDebug
  dsimp only
  cases h1 : s.me.dctl.stepping
  · cases h2 : (s.sh.mfdht.getLsbD 0 && s.me.busBusy) <;> simp
  · simp

/-! ## Loads, stores, atomic accesses, CSR instructions: their cases -/

/-- Everything a load instruction can do. -/
theorem loadInstr_cases (s : State) (len n : Nat) (signed : Bool) (rd rs1 : Reg) (off : Word) :
    (∃ t, triggerAction s (.access s.me.pc true false (s.reg rs1 + off) 0) = some t
        ∧ s.loadInstr len n signed rd rs1 off = t)
      ∨ triggerAction s (.access s.me.pc true false (s.reg rs1 + off) 0) = none ∧
        ((∃ c m t, memLoad s (s.reg rs1) (s.reg rs1 + off) n signed = .trap c m t
            ∧ s.loadInstr len n signed rd rs1 off = t.raise c m (s.reg rs1 + off))
          ∨ (∃ v t, memLoad s (s.reg rs1) (s.reg rs1 + off) n signed = .value v t
            ∧ s.loadInstr len n signed rd rs1 off
              = (t.setReg rd v).complete len (loadEvents s.cfg (s.reg rs1 + off) n))
          ∨ ∃ t, memLoad s (s.reg rs1) (s.reg rs1 + off) n signed = .later t
            ∧ s.loadInstr len n signed rd rs1 off
              = (deferLoad t (s.reg rs1 + off) rd n signed (sideEffect s.dataMrac (s.reg rs1 + off))).complete len
                  (loadEvents s.cfg (s.reg rs1 + off) n)) := by
  unfold State.loadInstr
  dsimp only
  split
  · next t ht => exact .inl ⟨t, ht, rfl⟩
  · next ht =>
    refine .inr ⟨ht, ?_⟩
    split
    · next c m t hm => exact .inl ⟨c, m, t, hm, rfl⟩
    · next v t hm => exact .inr (.inl ⟨v, t, hm, rfl⟩)
    · next t hm => exact .inr (.inr ⟨t, hm, rfl⟩)

/-- A store never waits for data. -/
theorem memStore_ne_later (s : State) (base a : Word) (n : Nat) (v : Word) (t : State) :
    memStore s base a n v ≠ .later t := by
  unfold memStore
  repeat' (first | split | simp)

/-- Everything a store instruction can do. -/
theorem storeInstr_cases (s : State) (len n : Nat) (rs1 rs2 : Reg) (off : Word) :
    (∃ t, triggerAction s (.access s.me.pc false true (s.reg rs1 + off) (s.reg rs2)) = some t
        ∧ s.storeInstr len n rs1 rs2 off = t)
      ∨ triggerAction s (.access s.me.pc false true (s.reg rs1 + off) (s.reg rs2)) = none ∧
        ((∃ c m t, memStore s (s.reg rs1) (s.reg rs1 + off) n (s.reg rs2) = .trap c m t
            ∧ s.storeInstr len n rs1 rs2 off = t.raise c m (s.reg rs1 + off))
          ∨ ∃ v t, memStore s (s.reg rs1) (s.reg rs1 + off) n (s.reg rs2) = .value v t
            ∧ s.storeInstr len n rs1 rs2 off = t.complete len (storeEvents s.cfg (s.reg rs1 + off) n)) := by
  unfold State.storeInstr
  dsimp only
  split
  · next t ht => exact .inl ⟨t, ht, rfl⟩
  · next ht =>
    refine .inr ⟨ht, ?_⟩
    split
    · next c m t hm => exact .inl ⟨c, m, t, hm, rfl⟩
    · next v t hm => exact .inr ⟨v, t, hm, rfl⟩
    · next t hm => exact absurd hm (memStore_ne_later _ _ _ _ _ t)

/-- The secondary causes the first five checks of R193 report. -/
theorem addressCheck_secondary {c : BuildConfig} {mrac base a : Word} {k : AccessCauses} {n : Nat} {q : Word × BitVec 4}
    (h : addressCheck c mrac k base a n = some q) : q.2 = 1 ∨ q.2 = 2 ∨ q.2 = 3 ∨ q.2 = 5 := by
  unfold addressCheck at h
  dsimp only at h
  repeat' split at h
  all_goals cases h
  all_goals simp

/-- What the checks of an access decide, a load traps on. -/
theorem memLoad_trap {s : State} {base a : Word} {n : Nat} {signed : Bool} {p : Word × BitVec 4}
    (h : dataCheck s.cfg s.dataMrac loadCauses base a n = some p) : memLoad s base a n signed = .trap p.1 p.2 s := by
  simp [memLoad, h]

/-- What the checks of an access decide, a store traps on. -/
theorem memStore_trap {s : State} {base a v : Word} {n : Nat} {p : Word × BitVec 4}
    (h : dataCheck s.cfg s.dataMrac storeCauses base a n = some p) : memStore s base a n v = .trap p.1 p.2 s := by
  simp [memStore, h]

/-- Everything the checked read of an atomic access can do. -/
theorem atomicRead_cases (s : State) (k : AccessCauses) (a : Word) :
    (∃ p, atomicCheck s.cfg s.dataMrac k a = some p ∧ atomicRead s k a = .trap p.1 p.2 s)
      ∨ atomicCheck s.cfg s.dataMrac k a = none ∧
        ((s.readDccm s.cur (a.toNat / 4)).bad = true ∧ atomicRead s k a = .trap k.fault 1 s.draw
          ∨ (s.readDccm s.cur (a.toNat / 4)).bad = false
            ∧ atomicRead s k a
              = .value (s.readDccm s.cur (a.toNat / 4)).data
                  (repairDccm s [(a.toNat / 4, s.readDccm s.cur (a.toNat / 4))]).draw) := by
  unfold atomicRead
  cases hc : atomicCheck s.cfg s.dataMrac k a with
  | some p => exact .inl ⟨p, rfl, rfl⟩
  | none =>
    refine .inr ⟨rfl, ?_⟩
    cases hb : (s.readDccm s.cur (a.toNat / 4)).bad
    · exact .inr ⟨rfl, by simp [hb]⟩
    · exact .inl ⟨rfl, by simp [hb]⟩

/-- Everything a CSR instruction can do. -/
theorem csrInstr_cases (s : State) (i : Instr) (csr : BitVec 12) (rd : Reg) (reads writes : Bool) (f : Word → Word) :
    (csrAccess s csr writes = none ∧ s.csrInstr i csr rd reads writes f = s.raiseIllegal (encode i).zext)
      ∨ ∃ n, csrAccess s csr writes = some n ∧ s.csrInstr i csr rd reads writes f
          = (let u := ((if reads then csrReadEffect s n else s).setReg rd (csrRead s n)).complete 4
                (csrEvents rd writes)
             if writes then csrWrite u n (f (csrRead s n)) else u) := by
  unfold State.csrInstr
  cases h : csrAccess s csr writes with
  | none => exact .inl ⟨rfl, rfl⟩
  | some n => exact .inr ⟨n, rfl, rfl⟩

/-! ## Loads that wait, parts read ahead -/

/-- With no load waiting, an instruction waits for none. -/
theorem settle_noLoads {s : State} (h : s.me.NoPendingLoads) (i : Instr) : s.settle i = s := by
  have hf : ∀ sel : BusResp → Bool, (∀ r ∈ s.me.buf.inflight, sel r = false) → deliverWhere s s.cur sel = s := by
    intro sel hs
    have h1 : (s.hart s.cur).buf.inflight.filter sel = [] :=
      List.filter_eq_nil_iff.2 (fun r hr => by simp [hs r hr])
    have h2 : (s.hart s.cur).buf.inflight.filter (fun r => !sel r) = (s.hart s.cur).buf.inflight :=
      List.filter_eq_self.2 (fun r hr => by simp [hs r hr])
    simp only [deliverWhere, h1, h2, List.foldl_nil]
    exact State.setMe_me s
  exact hf _ (fun r hr => by simp [h r hr])

/-- With no load waiting, none has anything to read. -/
theorem readPending_noLoads {s : State} {i : HartId} (h : (s.hart i).NoPendingLoads)
    (f : Nat → Nat → Option (Nat × Nat)) : readPending s i f = s := by
  have hw : (s.hart i).buf.inflight.any (fun r => (r.toRead f).isSome) = false :=
    List.any_eq_false.2 (fun r hr => by simp [BusResp.toRead, h r hr])
  simp [readPending, hw]

/-- With nothing read ahead, a load finds nothing read ahead. -/
@[simp] theorem aheadOf_nil (a n : Nat) : aheadOf [] a n = [] := rfl

/-- With nothing read ahead, the words of a load read as they are. -/
@[simp] theorem withAhead_nil (a n : Nat) (rs : List (Nat × WordRead)) : withAhead [] a n rs = rs := by
  simp [withAhead, wordsAhead]

/-- With nothing read ahead, the bytes of a load are those it reads. -/
@[simp] theorem overlay_nil (a : Nat) (bs : List Byte) : overlay [] a bs = bs := by
  induction bs generalizing a with
  | nil => rfl
  | cons b bs ih => simp [overlay, lineByte, ih]

/-! ## The parts of an access -/

/-- A part is 1, 2 or 4 bytes long, naturally aligned, and inside its access. -/
theorem mem_partsFrom {fuel a n : Nat} {p : Nat × Nat} (h : p ∈ partsFrom fuel a n) :
    p.2 ∈ [1, 2, 4] ∧ p.1 % p.2 = 0 ∧ a ≤ p.1 ∧ p.1 + p.2 ≤ a + n := by
  induction fuel generalizing a n with
  | zero => simp [partsFrom] at h
  | succ fuel ih =>
    unfold partsFrom at h
    split at h
    · simp at h
    · next hn =>
      have hk : partSize a n ∈ [1, 2, 4] ∧ a % partSize a n = 0 ∧ partSize a n ≤ n := by
        unfold partSize
        split
        · next h4 => exact ⟨by simp, h4.1, h4.2⟩
        · split
          · next h2 => exact ⟨by simp, h2.1, h2.2⟩
          · exact ⟨by simp, Nat.mod_one a, by omega⟩
      rcases List.mem_cons.1 h with rfl | h
      · exact ⟨hk.1, hk.2.1, by simp, by simp; omega⟩
      · obtain ⟨h1, h2, h3, h4⟩ := ih h
        exact ⟨h1, h2, by omega, by omega⟩

/-- Everything a part of an access is. -/
theorem mem_parts {a n : Nat} {p : Nat × Nat} (h : p ∈ parts a n) :
    p.2 ∈ [1, 2, 4] ∧ p.1 % p.2 = 0 ∧ a ≤ p.1 ∧ p.1 + p.2 ≤ a + n := mem_partsFrom h

/-- An aligned access has one part, itself. -/
theorem parts_aligned {a n : Nat} (hn : n ∈ [1, 2, 4]) (ha : a % n = 0) : parts a n = [(a, n)] := by
  simp only [List.mem_cons, List.not_mem_nil, or_false] at hn
  rcases hn with rfl | rfl | rfl <;> simp_all [parts, partsFrom, partSize]

/-- An aligned store is one access (R173). -/
theorem splitStore_aligned {a : Word} {data : List Byte} (hn : data.length ∈ [1, 2, 4]) (ha : a.toNat % data.length = 0) :
    splitStore a data = [(a, data)] := by
  simp [splitStore, parts_aligned hn ha]

/-- A misaligned access has more than one part. -/
theorem parts_misaligned {a n : Nat} (hn : n ∈ [2, 4]) (ha : a % n ≠ 0) : 1 < (parts a n).length := by
  simp only [List.mem_cons, List.not_mem_nil, or_false] at hn
  rcases hn with rfl | rfl
  · have h4 : ¬ (a % 4 = 0 ∧ 4 ≤ 2) := by omega
    simp_all [parts, partsFrom, partSize]
  · have h0 : ¬ a % 4 = 0 := ha
    by_cases h2 : a % 2 = 0 <;> simp [parts, partsFrom, partSize, h0, h2]

/-! ## The step: its cases -/

/-- Everything a step of the machine can do. -/
theorem machineStep_cases (s : State) :
    (BuildConfig.legal s.cfg = false ∧ machineStep s = .refused .illegalConfiguration)
      ∨ BuildConfig.legal s.cfg = true ∧
        ((∃ a rest, s.script = a :: rest ∧ machineStep s = act { s with script := rest } a)
          ∨ s.script = [] ∧
            (s.sh.dmaJob.isSome = true ∧ machineStep s = .next (dmaNext s)
              ∨ s.sh.dmaJob = none ∧
                ((∃ t, takeTurn s = some t ∧ machineStep s = mapNext passTurn (hartStep t))
                  ∨ takeTurn s = none ∧ machineStep s = .next (tick s)))) := by
  cases hl : BuildConfig.legal s.cfg
  · refine .inl ⟨rfl, ?_⟩
    unfold machineStep
    split <;> simp [ifLegal, hl]
  · refine .inr ⟨rfl, ?_⟩
    cases hs : s.script with
    | cons a rest => exact .inl ⟨a, rest, rfl, by simp [machineStep, hs, ifLegal, hl]⟩
    | nil =>
      refine .inr ⟨rfl, ?_⟩
      cases hj : s.sh.dmaJob with
      | some j => exact .inl ⟨rfl, by simp [machineStep, hs, ifLegal, hl, hj]⟩
      | none =>
        refine .inr ⟨rfl, ?_⟩
        cases ht : takeTurn s with
        | some t => exact .inl ⟨t, rfl, by simp [machineStep, hs, ifLegal, hl, hj, stepHart, ht]⟩
        | none => exact .inr ⟨rfl, by simp [machineStep, hs, ifLegal, hl, hj, stepHart, ht]⟩

/-- Everything a hart does in its step. -/
theorem hartMove_cases (s : State) :
    (∃ r, s.me.debugRequest = some r ∧ hartMove s = .next (enterDebug s s.cur r.1 r.2))
      ∨ s.me.debugRequest = none ∧
        ((∃ t, boundary (wakeUp s) = some t ∧ hartMove s = .next t)
          ∨ boundary (wakeUp s) = none
            ∧ hartMove s = mapNext endStep (runInstruction (beginInstruction (wakeUp s)))) := by
  unfold hartMove
  cases hr : s.me.debugRequest with
  | some r => exact .inl ⟨r, rfl, rfl⟩
  | none =>
    refine .inr ⟨rfl, ?_⟩
    dsimp only
    cases hb : boundary (wakeUp s) with
    | some t => exact .inl ⟨t, rfl, rfl⟩
    | none => exact .inr ⟨rfl, rfl⟩

/-- Everything the end of a hart's step does: one field, and a draw where an earlier value of a CSR may be in use. -/
theorem finishStep_cases (s : State) :
    let t := s.setMe { s.me with buf := { s.me.buf with ahead := [] } }
    s.unsettled = false ∧ finishStep s = t ∨ s.unsettled = true ∧ finishStep s = t.draw := by
  have hlate : ∀ i, ((s.setMe { s.me with buf := { s.me.buf with ahead := [] } }).hart i).late = (s.hart i).late := by
    intro i
    rcases HartId.eq_or_other s.cur i with rfl | rfl
    · simp
    · simp
  have h : (s.setMe { s.me with buf := { s.me.buf with ahead := [] } }).unsettled = s.unsettled := by
    have h0 := hlate .t0
    have h1 := hlate .t1
    simp only [State.hart] at h0 h1
    simp [State.unsettled, h0, h1]
  unfold finishStep
  dsimp only
  rw [h]
  cases s.unsettled <;> simp

/-- Everything running one instruction can do. -/
theorem runInstruction_cases (s : State) :
    (∃ p, triggerHit s (.execute s.me.pc) = some p ∧ runInstruction s = .next (fireExecute p.1 p.2))
      ∨ triggerHit s (.execute s.me.pc) = none ∧
        ((∃ m p t, fetch s = .fault m p t ∧ runInstruction s = .next (t.raise 1 m (policyTval t.cfg p)))
          ∨ (∃ c t i, fetch s = .code c t ∧ c.decode = .ok i ∧ runInstruction s = exec i (t.settle i))
          ∨ ∃ c t e, fetch s = .code c t ∧ c.decode = .error e ∧ runInstruction s = .next (t.raiseIllegal c.zext)) := by
  unfold runInstruction
  cases ht : triggerHit s (.execute s.me.pc) with
  | some p => exact .inl ⟨p, rfl, rfl⟩
  | none =>
    refine .inr ⟨rfl, ?_⟩
    dsimp only
    cases hf : fetch s with
    | fault m p t => exact .inl ⟨m, p, t, rfl, rfl⟩
    | code c t =>
      dsimp only
      cases hd : c.decode with
      | ok i => exact .inr (.inl ⟨c, t, i, rfl, hd, rfl⟩)
      | error e => exact .inr (.inr ⟨c, t, e, rfl, hd, rfl⟩)

end Sys2Proof.Machine
end

