-- ==== Sys2Proof/Laws/PerInstr.lean ====
section
/-! SUPPORT. Statements about every instruction as syntax, one lemma per constructor. -/

namespace Sys2Proof.Laws

/-- The length of an encoding is 2 or 4 bytes, as the instruction is compressed or not, and the low bits of its first parcel
say so (R261, R262). -/
def ParcelLength.Statement (i : Instr) : Prop :=
  (encode i).length = (if i.compressed then 2 else 4)
    ∧ match encode i with
      | .c16 h => isLongParcel h = false
      | .c32 w => isLongParcel (w.extractLsb' 0 16) = true

theorem low_of_op7 {m : Nat} (x : BitVec m) (op : BitVec 7) : (x ++ op).extractLsb' 0 2 = op.extractLsb' 0 2 := by
  apply BitVec.eq_of_getLsbD_eq
  intro i hi
  have : i < 7 := by omega
  simp [BitVec.getLsbD_append, this]

theorem low_of_op2 {m : Nat} (x : BitVec m) (op : BitVec 2) : (x ++ op).extractLsb' 0 2 = op := by
  apply BitVec.eq_of_getLsbD_eq
  intro i hi
  have : i < 2 := by omega
  simp [BitVec.getLsbD_append, this]

theorem low_of_word {m : Nat} (x : BitVec m) (op : BitVec 7) (ho : op.extractLsb' 0 2 = 0b11#2) :
    ((x ++ op).extractLsb' 0 16).extractLsb' 0 2 = 0b11#2 := by
  rw [← ho, ← low_of_op7 x]
  apply BitVec.eq_of_getLsbD_eq
  intro i hi
  simp

theorem is_long {h : Half} (e : h.extractLsb' 0 2 = 0b11#2) : isLongParcel h = true := beq_iff_eq.2 e

theorem is_short {h : Half} {q : BitVec 2} (e : h.extractLsb' 0 2 = q) (hq : (q == 0b11#2) = false) :
    isLongParcel h = false := by
  subst e; exact hq

theorem ParcelLength.lui (rd : Reg) (imm : BitVec 20) : ParcelLength.Statement (.lui rd imm) :=
  ⟨rfl, is_long (low_of_word _ _ rfl)⟩

theorem ParcelLength.auipc (rd : Reg) (imm : BitVec 20) : ParcelLength.Statement (.auipc rd imm) :=
  ⟨rfl, is_long (low_of_word _ _ rfl)⟩

theorem ParcelLength.addi (rd rs1 : Reg) (imm : BitVec 12) : ParcelLength.Statement (.addi rd rs1 imm) :=
  ⟨rfl, is_long (low_of_word _ _ rfl)⟩

theorem ParcelLength.slti (rd rs1 : Reg) (imm : BitVec 12) : ParcelLength.Statement (.slti rd rs1 imm) :=
  ⟨rfl, is_long (low_of_word _ _ rfl)⟩

theorem ParcelLength.sltiu (rd rs1 : Reg) (imm : BitVec 12) : ParcelLength.Statement (.sltiu rd rs1 imm) :=
  ⟨rfl, is_long (low_of_word _ _ rfl)⟩

theorem ParcelLength.xori (rd rs1 : Reg) (imm : BitVec 12) : ParcelLength.Statement (.xori rd rs1 imm) :=
  ⟨rfl, is_long (low_of_word _ _ rfl)⟩

theorem ParcelLength.ori (rd rs1 : Reg) (imm : BitVec 12) : ParcelLength.Statement (.ori rd rs1 imm) :=
  ⟨rfl, is_long (low_of_word _ _ rfl)⟩

theorem ParcelLength.andi (rd rs1 : Reg) (imm : BitVec 12) : ParcelLength.Statement (.andi rd rs1 imm) :=
  ⟨rfl, is_long (low_of_word _ _ rfl)⟩

theorem ParcelLength.slli (rd rs1 : Reg) (shamt : BitVec 5) : ParcelLength.Statement (.slli rd rs1 shamt) :=
  ⟨rfl, is_long (low_of_word _ _ rfl)⟩

theorem ParcelLength.srli (rd rs1 : Reg) (shamt : BitVec 5) : ParcelLength.Statement (.srli rd rs1 shamt) :=
  ⟨rfl, is_long (low_of_word _ _ rfl)⟩

theorem ParcelLength.srai (rd rs1 : Reg) (shamt : BitVec 5) : ParcelLength.Statement (.srai rd rs1 shamt) :=
  ⟨rfl, is_long (low_of_word _ _ rfl)⟩

theorem ParcelLength.add (rd rs1 rs2 : Reg) : ParcelLength.Statement (.add rd rs1 rs2) :=
  ⟨rfl, is_long (low_of_word _ _ rfl)⟩

theorem ParcelLength.sub (rd rs1 rs2 : Reg) : ParcelLength.Statement (.sub rd rs1 rs2) :=
  ⟨rfl, is_long (low_of_word _ _ rfl)⟩

theorem ParcelLength.sll (rd rs1 rs2 : Reg) : ParcelLength.Statement (.sll rd rs1 rs2) :=
  ⟨rfl, is_long (low_of_word _ _ rfl)⟩

theorem ParcelLength.slt (rd rs1 rs2 : Reg) : ParcelLength.Statement (.slt rd rs1 rs2) :=
  ⟨rfl, is_long (low_of_word _ _ rfl)⟩

theorem ParcelLength.sltu (rd rs1 rs2 : Reg) : ParcelLength.Statement (.sltu rd rs1 rs2) :=
  ⟨rfl, is_long (low_of_word _ _ rfl)⟩

theorem ParcelLength.xor (rd rs1 rs2 : Reg) : ParcelLength.Statement (.xor rd rs1 rs2) :=
  ⟨rfl, is_long (low_of_word _ _ rfl)⟩

theorem ParcelLength.srl (rd rs1 rs2 : Reg) : ParcelLength.Statement (.srl rd rs1 rs2) :=
  ⟨rfl, is_long (low_of_word _ _ rfl)⟩

theorem ParcelLength.sra (rd rs1 rs2 : Reg) : ParcelLength.Statement (.sra rd rs1 rs2) :=
  ⟨rfl, is_long (low_of_word _ _ rfl)⟩

theorem ParcelLength.or (rd rs1 rs2 : Reg) : ParcelLength.Statement (.or rd rs1 rs2) :=
  ⟨rfl, is_long (low_of_word _ _ rfl)⟩

theorem ParcelLength.and (rd rs1 rs2 : Reg) : ParcelLength.Statement (.and rd rs1 rs2) :=
  ⟨rfl, is_long (low_of_word _ _ rfl)⟩

theorem ParcelLength.jal (rd : Reg) (off : BitVec 21) : ParcelLength.Statement (.jal rd off) :=
  ⟨rfl, is_long (low_of_word _ _ rfl)⟩

theorem ParcelLength.jalr (rd rs1 : Reg) (imm : BitVec 12) : ParcelLength.Statement (.jalr rd rs1 imm) :=
  ⟨rfl, is_long (low_of_word _ _ rfl)⟩

theorem ParcelLength.beq (rs1 rs2 : Reg) (off : BitVec 13) : ParcelLength.Statement (.beq rs1 rs2 off) :=
  ⟨rfl, is_long (low_of_word _ _ rfl)⟩

theorem ParcelLength.bne (rs1 rs2 : Reg) (off : BitVec 13) : ParcelLength.Statement (.bne rs1 rs2 off) :=
  ⟨rfl, is_long (low_of_word _ _ rfl)⟩

theorem ParcelLength.blt (rs1 rs2 : Reg) (off : BitVec 13) : ParcelLength.Statement (.blt rs1 rs2 off) :=
  ⟨rfl, is_long (low_of_word _ _ rfl)⟩

theorem ParcelLength.bge (rs1 rs2 : Reg) (off : BitVec 13) : ParcelLength.Statement (.bge rs1 rs2 off) :=
  ⟨rfl, is_long (low_of_word _ _ rfl)⟩

theorem ParcelLength.bltu (rs1 rs2 : Reg) (off : BitVec 13) : ParcelLength.Statement (.bltu rs1 rs2 off) :=
  ⟨rfl, is_long (low_of_word _ _ rfl)⟩

theorem ParcelLength.bgeu (rs1 rs2 : Reg) (off : BitVec 13) : ParcelLength.Statement (.bgeu rs1 rs2 off) :=
  ⟨rfl, is_long (low_of_word _ _ rfl)⟩

theorem ParcelLength.lb (rd rs1 : Reg) (imm : BitVec 12) : ParcelLength.Statement (.lb rd rs1 imm) :=
  ⟨rfl, is_long (low_of_word _ _ rfl)⟩

theorem ParcelLength.lh (rd rs1 : Reg) (imm : BitVec 12) : ParcelLength.Statement (.lh rd rs1 imm) :=
  ⟨rfl, is_long (low_of_word _ _ rfl)⟩

theorem ParcelLength.lw (rd rs1 : Reg) (imm : BitVec 12) : ParcelLength.Statement (.lw rd rs1 imm) :=
  ⟨rfl, is_long (low_of_word _ _ rfl)⟩

theorem ParcelLength.lbu (rd rs1 : Reg) (imm : BitVec 12) : ParcelLength.Statement (.lbu rd rs1 imm) :=
  ⟨rfl, is_long (low_of_word _ _ rfl)⟩

theorem ParcelLength.lhu (rd rs1 : Reg) (imm : BitVec 12) : ParcelLength.Statement (.lhu rd rs1 imm) :=
  ⟨rfl, is_long (low_of_word _ _ rfl)⟩

theorem ParcelLength.sb (rs1 rs2 : Reg) (imm : BitVec 12) : ParcelLength.Statement (.sb rs1 rs2 imm) :=
  ⟨rfl, is_long (low_of_word _ _ rfl)⟩

theorem ParcelLength.sh (rs1 rs2 : Reg) (imm : BitVec 12) : ParcelLength.Statement (.sh rs1 rs2 imm) :=
  ⟨rfl, is_long (low_of_word _ _ rfl)⟩

theorem ParcelLength.sw (rs1 rs2 : Reg) (imm : BitVec 12) : ParcelLength.Statement (.sw rs1 rs2 imm) :=
  ⟨rfl, is_long (low_of_word _ _ rfl)⟩

theorem ParcelLength.fence (rd rs1 : Reg) (fm pred succ : BitVec 4) : ParcelLength.Statement (.fence rd rs1 fm pred succ) :=
  ⟨rfl, is_long (low_of_word _ _ rfl)⟩

theorem ParcelLength.fenceI (rd rs1 : Reg) (imm : BitVec 12) : ParcelLength.Statement (.fenceI rd rs1 imm) :=
  ⟨rfl, is_long (low_of_word _ _ rfl)⟩

theorem ParcelLength.ecall : ParcelLength.Statement (.ecall) :=
  ⟨rfl, rfl⟩

theorem ParcelLength.ebreak : ParcelLength.Statement (.ebreak) :=
  ⟨rfl, rfl⟩

theorem ParcelLength.mret : ParcelLength.Statement (.mret) :=
  ⟨rfl, rfl⟩

theorem ParcelLength.wfi : ParcelLength.Statement (.wfi) :=
  ⟨rfl, rfl⟩

theorem ParcelLength.dret : ParcelLength.Statement (.dret) :=
  ⟨rfl, rfl⟩

theorem ParcelLength.mul (rd rs1 rs2 : Reg) : ParcelLength.Statement (.mul rd rs1 rs2) :=
  ⟨rfl, is_long (low_of_word _ _ rfl)⟩

theorem ParcelLength.mulh (rd rs1 rs2 : Reg) : ParcelLength.Statement (.mulh rd rs1 rs2) :=
  ⟨rfl, is_long (low_of_word _ _ rfl)⟩

theorem ParcelLength.mulhsu (rd rs1 rs2 : Reg) : ParcelLength.Statement (.mulhsu rd rs1 rs2) :=
  ⟨rfl, is_long (low_of_word _ _ rfl)⟩

theorem ParcelLength.mulhu (rd rs1 rs2 : Reg) : ParcelLength.Statement (.mulhu rd rs1 rs2) :=
  ⟨rfl, is_long (low_of_word _ _ rfl)⟩

theorem ParcelLength.div (rd rs1 rs2 : Reg) : ParcelLength.Statement (.div rd rs1 rs2) :=
  ⟨rfl, is_long (low_of_word _ _ rfl)⟩

theorem ParcelLength.divu (rd rs1 rs2 : Reg) : ParcelLength.Statement (.divu rd rs1 rs2) :=
  ⟨rfl, is_long (low_of_word _ _ rfl)⟩

theorem ParcelLength.rem (rd rs1 rs2 : Reg) : ParcelLength.Statement (.rem rd rs1 rs2) :=
  ⟨rfl, is_long (low_of_word _ _ rfl)⟩

theorem ParcelLength.remu (rd rs1 rs2 : Reg) : ParcelLength.Statement (.remu rd rs1 rs2) :=
  ⟨rfl, is_long (low_of_word _ _ rfl)⟩

theorem ParcelLength.lrW (rd rs1 : Reg) (aq rl : BitVec 1) : ParcelLength.Statement (.lrW rd rs1 aq rl) :=
  ⟨rfl, is_long (low_of_word _ _ rfl)⟩

theorem ParcelLength.scW (rd rs1 rs2 : Reg) (aq rl : BitVec 1) : ParcelLength.Statement (.scW rd rs1 rs2 aq rl) :=
  ⟨rfl, is_long (low_of_word _ _ rfl)⟩

theorem ParcelLength.amoswapW (rd rs1 rs2 : Reg) (aq rl : BitVec 1) : ParcelLength.Statement (.amoswapW rd rs1 rs2 aq rl) :=
  ⟨rfl, is_long (low_of_word _ _ rfl)⟩

theorem ParcelLength.amoaddW (rd rs1 rs2 : Reg) (aq rl : BitVec 1) : ParcelLength.Statement (.amoaddW rd rs1 rs2 aq rl) :=
  ⟨rfl, is_long (low_of_word _ _ rfl)⟩

theorem ParcelLength.amoxorW (rd rs1 rs2 : Reg) (aq rl : BitVec 1) : ParcelLength.Statement (.amoxorW rd rs1 rs2 aq rl) :=
  ⟨rfl, is_long (low_of_word _ _ rfl)⟩

theorem ParcelLength.amoandW (rd rs1 rs2 : Reg) (aq rl : BitVec 1) : ParcelLength.Statement (.amoandW rd rs1 rs2 aq rl) :=
  ⟨rfl, is_long (low_of_word _ _ rfl)⟩

theorem ParcelLength.amoorW (rd rs1 rs2 : Reg) (aq rl : BitVec 1) : ParcelLength.Statement (.amoorW rd rs1 rs2 aq rl) :=
  ⟨rfl, is_long (low_of_word _ _ rfl)⟩

theorem ParcelLength.amominW (rd rs1 rs2 : Reg) (aq rl : BitVec 1) : ParcelLength.Statement (.amominW rd rs1 rs2 aq rl) :=
  ⟨rfl, is_long (low_of_word _ _ rfl)⟩

theorem ParcelLength.amomaxW (rd rs1 rs2 : Reg) (aq rl : BitVec 1) : ParcelLength.Statement (.amomaxW rd rs1 rs2 aq rl) :=
  ⟨rfl, is_long (low_of_word _ _ rfl)⟩

theorem ParcelLength.amominuW (rd rs1 rs2 : Reg) (aq rl : BitVec 1) : ParcelLength.Statement (.amominuW rd rs1 rs2 aq rl) :=
  ⟨rfl, is_long (low_of_word _ _ rfl)⟩

theorem ParcelLength.amomaxuW (rd rs1 rs2 : Reg) (aq rl : BitVec 1) : ParcelLength.Statement (.amomaxuW rd rs1 rs2 aq rl) :=
  ⟨rfl, is_long (low_of_word _ _ rfl)⟩

theorem ParcelLength.csrrw (rd rs1 : Reg) (csr : BitVec 12) : ParcelLength.Statement (.csrrw rd rs1 csr) :=
  ⟨rfl, is_long (low_of_word _ _ rfl)⟩

theorem ParcelLength.csrrs (rd rs1 : Reg) (csr : BitVec 12) : ParcelLength.Statement (.csrrs rd rs1 csr) :=
  ⟨rfl, is_long (low_of_word _ _ rfl)⟩

theorem ParcelLength.csrrc (rd rs1 : Reg) (csr : BitVec 12) : ParcelLength.Statement (.csrrc rd rs1 csr) :=
  ⟨rfl, is_long (low_of_word _ _ rfl)⟩

theorem ParcelLength.csrrwi (rd : Reg) (uimm : BitVec 5) (csr : BitVec 12) : ParcelLength.Statement (.csrrwi rd uimm csr) :=
  ⟨rfl, is_long (low_of_word _ _ rfl)⟩

theorem ParcelLength.csrrsi (rd : Reg) (uimm : BitVec 5) (csr : BitVec 12) : ParcelLength.Statement (.csrrsi rd uimm csr) :=
  ⟨rfl, is_long (low_of_word _ _ rfl)⟩

theorem ParcelLength.csrrci (rd : Reg) (uimm : BitVec 5) (csr : BitVec 12) : ParcelLength.Statement (.csrrci rd uimm csr) :=
  ⟨rfl, is_long (low_of_word _ _ rfl)⟩

theorem ParcelLength.cAddi4spn (rd : CReg) (imm : BitVec 10) : ParcelLength.Statement (.cAddi4spn rd imm) :=
  ⟨rfl, is_short (low_of_op2 _ _) rfl⟩

theorem ParcelLength.cLw (rd rs1 : CReg) (imm : BitVec 7) : ParcelLength.Statement (.cLw rd rs1 imm) :=
  ⟨rfl, is_short (low_of_op2 _ _) rfl⟩

theorem ParcelLength.cSw (rs1 rs2 : CReg) (imm : BitVec 7) : ParcelLength.Statement (.cSw rs1 rs2 imm) :=
  ⟨rfl, is_short (low_of_op2 _ _) rfl⟩

theorem ParcelLength.cNop (imm : BitVec 6) : ParcelLength.Statement (.cNop imm) :=
  ⟨rfl, is_short (low_of_op2 _ _) rfl⟩

theorem ParcelLength.cAddi (rd : Reg) (imm : BitVec 6) : ParcelLength.Statement (.cAddi rd imm) :=
  ⟨rfl, is_short (low_of_op2 _ _) rfl⟩

theorem ParcelLength.cJal (off : BitVec 12) : ParcelLength.Statement (.cJal off) :=
  ⟨rfl, is_short (low_of_op2 _ _) rfl⟩

theorem ParcelLength.cLi (rd : Reg) (imm : BitVec 6) : ParcelLength.Statement (.cLi rd imm) :=
  ⟨rfl, is_short (low_of_op2 _ _) rfl⟩

theorem ParcelLength.cAddi16sp (imm : BitVec 10) : ParcelLength.Statement (.cAddi16sp imm) :=
  ⟨rfl, is_short (low_of_op2 _ _) rfl⟩

theorem ParcelLength.cLui (rd : Reg) (imm : BitVec 6) : ParcelLength.Statement (.cLui rd imm) :=
  ⟨rfl, is_short (low_of_op2 _ _) rfl⟩

theorem ParcelLength.cSrli (rd : CReg) (shamt : BitVec 5) : ParcelLength.Statement (.cSrli rd shamt) :=
  ⟨rfl, is_short (low_of_op2 _ _) rfl⟩

theorem ParcelLength.cSrai (rd : CReg) (shamt : BitVec 5) : ParcelLength.Statement (.cSrai rd shamt) :=
  ⟨rfl, is_short (low_of_op2 _ _) rfl⟩

theorem ParcelLength.cAndi (rd : CReg) (imm : BitVec 6) : ParcelLength.Statement (.cAndi rd imm) :=
  ⟨rfl, is_short (low_of_op2 _ _) rfl⟩

theorem ParcelLength.cSub (rd rs2 : CReg) : ParcelLength.Statement (.cSub rd rs2) :=
  ⟨rfl, is_short (low_of_op2 _ _) rfl⟩

theorem ParcelLength.cXor (rd rs2 : CReg) : ParcelLength.Statement (.cXor rd rs2) :=
  ⟨rfl, is_short (low_of_op2 _ _) rfl⟩

theorem ParcelLength.cOr (rd rs2 : CReg) : ParcelLength.Statement (.cOr rd rs2) :=
  ⟨rfl, is_short (low_of_op2 _ _) rfl⟩

theorem ParcelLength.cAnd (rd rs2 : CReg) : ParcelLength.Statement (.cAnd rd rs2) :=
  ⟨rfl, is_short (low_of_op2 _ _) rfl⟩

theorem ParcelLength.cJ (off : BitVec 12) : ParcelLength.Statement (.cJ off) :=
  ⟨rfl, is_short (low_of_op2 _ _) rfl⟩

theorem ParcelLength.cBeqz (rs1 : CReg) (off : BitVec 9) : ParcelLength.Statement (.cBeqz rs1 off) :=
  ⟨rfl, is_short (low_of_op2 _ _) rfl⟩

theorem ParcelLength.cBnez (rs1 : CReg) (off : BitVec 9) : ParcelLength.Statement (.cBnez rs1 off) :=
  ⟨rfl, is_short (low_of_op2 _ _) rfl⟩

theorem ParcelLength.cSlli (rd : Reg) (shamt : BitVec 5) : ParcelLength.Statement (.cSlli rd shamt) :=
  ⟨rfl, is_short (low_of_op2 _ _) rfl⟩

theorem ParcelLength.cLwsp (rd : Reg) (imm : BitVec 8) : ParcelLength.Statement (.cLwsp rd imm) :=
  ⟨rfl, is_short (low_of_op2 _ _) rfl⟩

theorem ParcelLength.cJr (rs1 : Reg) : ParcelLength.Statement (.cJr rs1) :=
  ⟨rfl, is_short (low_of_op2 _ _) rfl⟩

theorem ParcelLength.cMv (rd rs2 : Reg) : ParcelLength.Statement (.cMv rd rs2) :=
  ⟨rfl, is_short (low_of_op2 _ _) rfl⟩

theorem ParcelLength.cEbreak : ParcelLength.Statement (.cEbreak) :=
  ⟨rfl, rfl⟩

theorem ParcelLength.cJalr (rs1 : Reg) : ParcelLength.Statement (.cJalr rs1) :=
  ⟨rfl, is_short (low_of_op2 _ _) rfl⟩

theorem ParcelLength.cAdd (rd rs2 : Reg) : ParcelLength.Statement (.cAdd rd rs2) :=
  ⟨rfl, is_short (low_of_op2 _ _) rfl⟩

theorem ParcelLength.cSwsp (rs2 : Reg) (imm : BitVec 8) : ParcelLength.Statement (.cSwsp rs2 imm) :=
  ⟨rfl, is_short (low_of_op2 _ _) rfl⟩

end Sys2Proof.Laws
end

