-- ==== Sys2Proof/Tests/Slice0.lean ====
section
/-! SUPPORT. Tests: ill-formed terms, words written out from the encoding tables, one or two vectors of
95_test_vectors.md per instruction, and for each statement with hypotheses a state that meets them. -/

namespace Sys2Proof.Tests

open Sys2Proof Sys2Proof.Machine

set_option Elab.async false

/-! ## Helpers -/

/-- These words decode to these instructions, and those are well-formed. -/
def decodesAll {n : Nat} (f : BitVec n → Except DecodeError Instr) (l : List (BitVec n × Instr)) : Bool :=
  l.all (fun p => match f p.1 with
    | .ok i => decide (i = p.2) && i.wellFormed
    | .error _ => false)

/-- The next state of an outcome. -/
def next? : Host.Outcome State Fault Refusal → Option State
  | .next t => some t
  | .fault _ => none
  | .refused _ => none

/-- The state after the instruction a code decodes to. -/
def runCode (s : State) (c : Code) : Option State :=
  match c.decode with
  | .ok i => next? (exec i s)
  | .error _ => none

/-- After a 32-bit instruction. -/
def run (s : State) (w : Word) : Option State := runCode s (.c32 w)

/-- After a 16-bit instruction. -/
def runC (s : State) (h : Half) : Option State := runCode s (.c16 h)

/-- After the environment's action. -/
def did (s : State) (a : Action) : Option State := next? (perform s a)

/-- Set registers of the executing hart. -/
def State.regs (s : State) (l : List (Reg × Word)) : State := l.foldl (fun s p => s.setReg p.1 p.2) s

/-- After reset, with these registers. -/
def start (l : List (Reg × Word)) : State := State.regs State.reset l

/-- Two operands in `x6` and `x7`, as in the vectors. -/
def ops (a b : Word) : State := start [(6, a), (7, b)]

/-- Change the executing hart. -/
def onMe (s : State) (f : Hart → Hart) : State := s.setMe (f s.me)

/-- Set the `pc` of the executing hart. -/
def atPc (s : State) (pc : Word) : State := onMe s (·.jump pc)

/-- Change the trap registers of the executing hart. -/
def onTrap (s : State) (f : TrapCsrs → TrapCsrs) : State := onMe s (fun h => { h with trap := f h.trap })

/-- At `pc`, with these trap registers: the start of the vectors of section 2.4. -/
def trapping (pc mstatus : Word) : State :=
  onTrap (atPc (start []) pc) (fun c => { c with mstatus := mstatus, mtvec := 0x40041, mepc := 0x40010 })

/-- With these registers and this `mscratch`. -/
def withScratch (l : List (Reg × Word)) (v : Word) : State := onTrap (start l) (fun c => { c with mscratch := v })

/-- The DCCM holds these bytes at `a`, and the words they touch have no error. -/
def dccm (s : State) (a : Word) (bs : List Byte) : State :=
  let m : CoreMem := { s.sh.dccm with cells := writeBytes s.sh.dccm.cells a.toNat bs }
  { s with sh := { s.sh with dccm := (touchedWords a bs.length).foldl (fun m i => m.setStatus i .ok) m } }

/-- The DCCM of the vectors of section 2.3. -/
def data (l : List (Reg × Word)) : State :=
  dccm (start l) 0x80000 [0x80, 0xFF, 0x7F, 0x01, 0xEF, 0xBE, 0xAD, 0xDE]

/-- A DCCM word of the vectors of section 2.6, at `x10`, with `x7`. -/
def amo (old b : Word) : State :=
  dccm (start [(10, 0x80100), (7, b)]) 0x80100 [byteOf old 0, byteOf old 1, byteOf old 2, byteOf old 3]

/-- `x5` and the DCCM word at `0x80100`. -/
def amoResult (t : State) : Word × Word := (t.reg 5, wordSeen t .t0 0x80100)

/-- The four bytes of the DCCM from `a` as the hart sees them. -/
def seen (t : State) (a : Word) : Word := wordSeen t t.cur a

/-- What a taken trap shows: `mcause`, `mscause`, `mepc`, `mtval` and `pc`. -/
def trapView (t : State) : Word × BitVec 4 × Word × Word × Word :=
  (t.me.trap.mcause, t.me.trap.mscause, t.me.trap.mepc, t.me.trap.mtval, t.me.pc)

/-- The value a store or a load puts where it goes: `x5` and `pc`. -/
def linkView (t : State) (rd : Reg) : Word × Word := (t.reg rd, t.me.pc)

/-- A CSR of the executing hart. -/
def csrOf (t : State) (n : CsrName) : Word := csrRead t n

/-! ## Ill-formed terms -/

/-- An ill-formed term for each check of `Instr.wellFormed`, refused. -/
theorem test_illFormed_refused :
    ([.jal 1 1, .beq 1 2 1, .bne 1 2 3, .blt 1 2 5, .bge 1 2 7, .bltu 1 2 9, .bgeu 1 2 11,
      .cAddi4spn 0 0, .cAddi4spn 0 6, .cLw 0 0 2, .cSw 0 0 1, .cAddi 0 1, .cJal 1, .cAddi16sp 0, .cAddi16sp 8,
      .cLui 2 1, .cLui 5 0, .cJ 3, .cBeqz 0 1, .cBnez 0 5, .cLwsp 0 4, .cLwsp 1 2, .cJr 0, .cMv 5 0, .cJalr 0,
      .cAdd 5 0, .cSwsp 1 1] : List Instr).all (fun i => !i.wellFormed) = true := by decide +kernel

/-! ## Decoding -/

/-- Formats U, I and I-shift: words written out from the encoding tables (R266 to R270, R276). -/
theorem test_decode_upper_and_immediate :
    decodesAll decode32
      [(0b10110011101000110101_10101_0110111, .lui 21 0xb3a35),
       (0b10110011101000110101_10101_0010111, .auipc 21 0xb3a35),
       (0b101100111010_10011_000_10101_0010011, .addi 21 19 0xb3a),
       (0b101100111010_10011_010_10101_0010011, .slti 21 19 0xb3a),
       (0b101100111010_10011_011_10101_0010011, .sltiu 21 19 0xb3a),
       (0b101100111010_10011_100_10101_0010011, .xori 21 19 0xb3a),
       (0b101100111010_10011_110_10101_0010011, .ori 21 19 0xb3a),
       (0b101100111010_10011_111_10101_0010011, .andi 21 19 0xb3a),
       (0b0000000_10111_10011_001_10101_0010011, .slli 21 19 23),
       (0b0000000_10111_10011_101_10101_0010011, .srli 21 19 23),
       (0b0100000_10111_10011_101_10101_0010011, .srai 21 19 23)] = true := by decide +kernel

/-- Format R: words written out from the encoding tables (R266 to R270, R276). -/
theorem test_decode_register :
    decodesAll decode32
      [(0b0000000_01110_10011_000_10101_0110011, .add 21 19 14),
       (0b0100000_01110_10011_000_10101_0110011, .sub 21 19 14),
       (0b0000000_01110_10011_001_10101_0110011, .sll 21 19 14),
       (0b0000000_01110_10011_010_10101_0110011, .slt 21 19 14),
       (0b0000000_01110_10011_011_10101_0110011, .sltu 21 19 14),
       (0b0000000_01110_10011_100_10101_0110011, .xor 21 19 14),
       (0b0000000_01110_10011_101_10101_0110011, .srl 21 19 14),
       (0b0100000_01110_10011_101_10101_0110011, .sra 21 19 14),
       (0b0000000_01110_10011_110_10101_0110011, .or 21 19 14),
       (0b0000000_01110_10011_111_10101_0110011, .and 21 19 14),
       (0b0000001_01110_10011_000_10101_0110011, .mul 21 19 14),
       (0b0000001_01110_10011_001_10101_0110011, .mulh 21 19 14),
       (0b0000001_01110_10011_010_10101_0110011, .mulhsu 21 19 14),
       (0b0000001_01110_10011_011_10101_0110011, .mulhu 21 19 14),
       (0b0000001_01110_10011_100_10101_0110011, .div 21 19 14),
       (0b0000001_01110_10011_101_10101_0110011, .divu 21 19 14),
       (0b0000001_01110_10011_110_10101_0110011, .rem 21 19 14),
       (0b0000001_01110_10011_111_10101_0110011, .remu 21 19 14)] = true := by decide +kernel

/-- Formats J, I and B: words written out from the encoding tables (R266 to R270, R276). -/
theorem test_decode_control :
    decodesAll decode32
      [(0b1_1100101101_0_10010110_10101_1101111, .jal 21 0x19665a),
       (0b101100111010_10011_000_10101_1100111, .jalr 21 19 0xb3a),
       (0b1_110010_01110_10011_000_1101_0_1100011, .beq 19 14 0x165a),
       (0b1_110010_01110_10011_001_1101_0_1100011, .bne 19 14 0x165a),
       (0b1_110010_01110_10011_100_1101_0_1100011, .blt 19 14 0x165a),
       (0b1_110010_01110_10011_101_1101_0_1100011, .bge 19 14 0x165a),
       (0b1_110010_01110_10011_110_1101_0_1100011, .bltu 19 14 0x165a),
       (0b1_110010_01110_10011_111_1101_0_1100011, .bgeu 19 14 0x165a)] = true := by decide +kernel

/-- Formats I and S: words written out from the encoding tables (R266 to R270, R276). -/
theorem test_decode_access :
    decodesAll decode32
      [(0b101100111010_10011_000_10101_0000011, .lb 21 19 0xb3a),
       (0b101100111010_10011_001_10101_0000011, .lh 21 19 0xb3a),
       (0b101100111010_10011_010_10101_0000011, .lw 21 19 0xb3a),
       (0b101100111010_10011_100_10101_0000011, .lbu 21 19 0xb3a),
       (0b101100111010_10011_101_10101_0000011, .lhu 21 19 0xb3a),
       (0b1011001_01110_10011_000_11010_0100011, .sb 19 14 0xb3a),
       (0b1011001_01110_10011_001_11010_0100011, .sh 19 14 0xb3a),
       (0b1011001_01110_10011_010_11010_0100011, .sw 19 14 0xb3a)] = true := by decide +kernel

/-- Formats I-fence, I-system and I-csr: words written out from the encoding tables (R266 to R270, R276). -/
theorem test_decode_system :
    decodesAll decode32
      [(0b1000_0011_0101_10011_000_10101_0001111, .fence 21 19 0b1000 0b0011 0b0101),
       (0b101100111010_10011_001_10101_0001111, .fenceI 21 19 0xb3a),
       (0b000000000000_00000_000_00000_1110011, .ecall),
       (0b000000000001_00000_000_00000_1110011, .ebreak),
       (0b001100000010_00000_000_00000_1110011, .mret),
       (0b000100000101_00000_000_00000_1110011, .wfi),
       (0b011110110010_00000_000_00000_1110011, .dret),
       (0b011111000110_10011_001_10101_1110011, .csrrw 21 19 0x7C6),
       (0b011111000110_10011_010_10101_1110011, .csrrs 21 19 0x7C6),
       (0b011111000110_10011_011_10101_1110011, .csrrc 21 19 0x7C6),
       (0b011111000110_10011_101_10101_1110011, .csrrwi 21 19 0x7C6),
       (0b011111000110_10011_110_10101_1110011, .csrrsi 21 19 0x7C6),
       (0b011111000110_10011_111_10101_1110011, .csrrci 21 19 0x7C6)] = true := by decide +kernel

/-- Format R-amo: words written out from the encoding tables (R266 to R270, R276). -/
theorem test_decode_atomic :
    decodesAll decode32
      [(0b00010_1_0_00000_10011_010_10101_0101111, .lrW 21 19 1 0),
       (0b00011_1_0_01110_10011_010_10101_0101111, .scW 21 19 14 1 0),
       (0b00001_1_0_01110_10011_010_10101_0101111, .amoswapW 21 19 14 1 0),
       (0b00000_1_0_01110_10011_010_10101_0101111, .amoaddW 21 19 14 1 0),
       (0b00100_1_0_01110_10011_010_10101_0101111, .amoxorW 21 19 14 1 0),
       (0b01100_1_0_01110_10011_010_10101_0101111, .amoandW 21 19 14 1 0),
       (0b01000_1_0_01110_10011_010_10101_0101111, .amoorW 21 19 14 1 0),
       (0b10000_1_0_01110_10011_010_10101_0101111, .amominW 21 19 14 1 0),
       (0b10100_1_0_01110_10011_010_10101_0101111, .amomaxW 21 19 14 1 0),
       (0b11000_1_0_01110_10011_010_10101_0101111, .amominuW 21 19 14 1 0),
       (0b11100_1_0_01110_10011_010_10101_0101111, .amomaxuW 21 19 14 1 0)] = true := by decide +kernel

/-- Quadrant 0: words written out from the encoding tables (R283, R286). -/
theorem test_decode_quadrant0 :
    decodesAll decode16
      [(0b000_01_1011_1_0_101_00, .cAddi4spn 5 0x2d4),
       (0b010_011_010_0_1_101_00, .cLw 5 2 0x58),
       (0b110_011_010_0_1_101_00, .cSw 2 5 0x58)] = true := by decide +kernel

/-- Quadrant 1: words written out from the encoding tables (R283, R286). -/
theorem test_decode_quadrant1 :
    decodesAll decode16
      [(0b000_1_00000_01101_01, .cNop 0x2d),
       (0b000_1_10101_01101_01, .cAddi 21 0x2d),
       (0b001_1_0_11_0_1_0_011_1_01, .cJal 0xb66),
       (0b010_1_10101_01101_01, .cLi 21 0x2d),
       (0b011_1_00010_1_1_10_0_01, .cAddi16sp 0x350),
       (0b011_1_10101_01101_01, .cLui 21 0x2d),
       (0b100_0_00_101_10110_01, .cSrli 5 22),
       (0b100_0_01_101_10110_01, .cSrai 5 22),
       (0b100_1_10_101_01101_01, .cAndi 5 0x2d),
       (0b100011_101_00_010_01, .cSub 5 2),
       (0b100011_101_01_010_01, .cXor 5 2),
       (0b100011_101_10_010_01, .cOr 5 2),
       (0b100011_101_11_010_01, .cAnd 5 2),
       (0b101_1_0_11_0_1_0_011_1_01, .cJ 0xb66),
       (0b110_1_10_010_01_01_1_01, .cBeqz 2 0x172),
       (0b111_1_10_010_01_01_1_01, .cBnez 2 0x172)] = true := by decide +kernel

/-- Quadrant 2: words written out from the encoding tables (R283, R286). -/
theorem test_decode_quadrant2 :
    decodesAll decode16
      [(0b000_0_10101_10110_10, .cSlli 21 22),
       (0b010_1_10101_101_10_10, .cLwsp 21 0xb4),
       (0b1000_10011_00000_10, .cJr 19),
       (0b1000_10101_01110_10, .cMv 21 14),
       (0b1001_00000_00000_10, .cEbreak),
       (0b1001_10011_00000_10, .cJalr 19),
       (0b1001_10101_01110_10, .cAdd 21 14),
       (0b110_1101_10_01110_10, .cSwsp 14 0xb4)] = true := by decide +kernel
/-- The parcels R287 and 95_test_vectors.md 2.7 list as illegal. -/
theorem test_illegal_parcels :
    ([0x0000, 0x0004, 0x2000, 0x6000, 0x6101, 0x6281, 0x9C01, 0x9005, 0x4002, 0x8002, 0x6002, 0xE002] : List Half).all
      (fun c => !(decode16 c).isOk) = true := by decide +kernel

/-- The words 95_test_vectors.md 2.13 and 2.1, 2.4, 2.6 list as illegal. -/
theorem test_illegal_words :
    ([0xFFFFFFFF, 0x00003003, 0x00006003, 0x00003023, 0x00002063, 0x00001067, 0x0000001B, 0x00000053, 0x00002007,
      0x04000033, 0x40001033, 0x00004073, 0x3000202F, 0x0000007F, 0x02031293, 0x10200073, 0x00200073, 0x12000073,
      0x101522AF, 0x007532AF] : List Word).all (fun w => !(decode32 w).isOk) = true := by decide +kernel

/-- The bytes of a word lie in memory lowest first (R170): `0x007302B3` at its table bits. -/
theorem test_decodeTableWord :
    decodeTableWord 32 0x007302B3 = some (.add 5 6 7) ∧ decodeTableWord 16 0x1FFC = some (.cAddi4spn 7 1020) := by
  decide +kernel

/-! ## Computation (95_test_vectors.md 2.1) -/

theorem test_add :
    (run (ops 0x7FFFFFFF 1) 0x007302B3).map (·.reg 5) = some 0x80000000#32
      ∧ (run (ops 0xFFFFFFFF 0xFFFFFFFF) 0x007302B3).map (·.reg 5) = some 0xFFFFFFFE#32 := by decide +kernel

theorem test_sub :
    (run (ops 0 1) 0x407302B3).map (·.reg 5) = some 0xFFFFFFFF#32
      ∧ (run (ops 0x80000000 1) 0x407302B3).map (·.reg 5) = some 0x7FFFFFFF#32 := by decide +kernel

theorem test_sll :
    (run (ops 1 0x20) 0x007312B3).map (·.reg 5) = some 1#32
      ∧ (run (ops 0xDEADBEEF 0x24) 0x007312B3).map (·.reg 5) = some 0xEADBEEF0#32 := by decide +kernel

theorem test_slt :
    (run (ops 0x80000000 0x7FFFFFFF) 0x007322B3).map (·.reg 5) = some 1#32
      ∧ (run (ops 5 5) 0x007322B3).map (·.reg 5) = some 0#32 := by decide +kernel

theorem test_sltu :
    (run (ops 0x80000000 0x7FFFFFFF) 0x007332B3).map (·.reg 5) = some 0#32
      ∧ (run (ops 0 1) 0x007332B3).map (·.reg 5) = some 1#32 := by decide +kernel

theorem test_xor :
    (run (ops 0xAAAAAAAA 0x55555555) 0x007342B3).map (·.reg 5) = some 0xFFFFFFFF#32 := by decide +kernel

theorem test_srl :
    (run (ops 0x80000000 0x1F) 0x007352B3).map (·.reg 5) = some 1#32
      ∧ (run (ops 0xFFFFFFFF 0xFFFFFFE1) 0x007352B3).map (·.reg 5) = some 0x7FFFFFFF#32 := by decide +kernel

theorem test_sra :
    (run (ops 0x80000000 0x1F) 0x407352B3).map (·.reg 5) = some 0xFFFFFFFF#32
      ∧ (run (ops 0x40000000 0x1E) 0x407352B3).map (·.reg 5) = some 1#32 := by decide +kernel

/-- Worked from R320. -/
theorem test_or : (run (ops 0x0F 0xF0) 0x007362B3).map (·.reg 5) = some 0xFF#32 := by decide +kernel

theorem test_and :
    (run (ops 0xFFFFFFFF 0x12345678) 0x007372B3).map (·.reg 5) = some 0x12345678#32 := by decide +kernel

theorem test_addi :
    (run (ops 0 0) 0x80030293).map (·.reg 5) = some 0xFFFFF800#32
      ∧ (run (ops 0x80000000 0) 0xFFF30293).map (·.reg 5) = some 0x7FFFFFFF#32 := by decide +kernel

theorem test_slti :
    (run (ops 0 0) 0xFFF32293).map (·.reg 5) = some 0#32
      ∧ (run (ops 0x80000000 0) 0x00032293).map (·.reg 5) = some 1#32 := by decide +kernel

theorem test_sltiu :
    (run (ops 0 0) 0xFFF33293).map (·.reg 5) = some 1#32
      ∧ (run (ops 0xFFFFFFFF 0) 0xFFF33293).map (·.reg 5) = some 0#32 := by decide +kernel

theorem test_xori : (run (ops 0x12345678 0) 0xFFF34293).map (·.reg 5) = some 0xEDCBA987#32 := by decide +kernel

theorem test_ori : (run (ops 0x100 0) 0x80036293).map (·.reg 5) = some 0xFFFFF900#32 := by decide +kernel

theorem test_andi :
    (run (ops 0xFFFFFFFF 0) 0x80037293).map (·.reg 5) = some 0xFFFFF800#32
      ∧ (run (ops 0xFFFFFFFF 0) 0x7FF37293).map (·.reg 5) = some 0x7FF#32 := by decide +kernel

theorem test_slli : (run (ops 0xFFFFFFFF 0) 0x01F31293).map (·.reg 5) = some 0x80000000#32 := by decide +kernel

theorem test_srli :
    (run (ops 0xFFFFFFFF 0) 0x01F35293).map (·.reg 5) = some 1#32
      ∧ (run (ops 0x80000000 0) 0x00135293).map (·.reg 5) = some 0x40000000#32 := by decide +kernel

theorem test_srai :
    (run (ops 0x80000000 0) 0x40135293).map (·.reg 5) = some 0xC0000000#32
      ∧ (run (ops 0x7FFFFFFF 0) 0x41F35293).map (·.reg 5) = some 0#32 := by decide +kernel

theorem test_lui : (run (ops 0 0) 0x800002B7).map (·.reg 5) = some 0x80000000#32 := by decide +kernel

theorem test_lui_x0 :
    (run (ops 0 0) 0x00001037).map (fun t => (t.reg 0, t.me.pc)) = some (0#32, 0x40004#32) := by decide +kernel

theorem test_auipc :
    (run (atPc (ops 0 0) 0x80000000) 0x80000297).map (·.reg 5) = some 0#32 ∧
      (run (atPc (ops 0 0) 0x40000) 0x00000297).map (·.reg 5) = some 0x40000#32 := by decide +kernel

theorem test_add_same_register :
    (run (start [(5, 0x40000001)]) 0x005282B3).map (·.reg 5) = some 0x80000002#32 := by decide +kernel

/-! ## Multiplication and division (2.5) -/

theorem test_mul :
    (run (ops 0x80000000 2) 0x027302B3).map (·.reg 5) = some 0#32
      ∧ (run (ops 0x00010001 0x00010001) 0x027302B3).map (·.reg 5) = some 0x00020001#32 := by decide +kernel

theorem test_mulh :
    (run (ops 0x80000000 0x80000000) 0x027312B3).map (·.reg 5) = some 0x40000000#32
      ∧ (run (ops 0x7FFFFFFF 0x7FFFFFFF) 0x027312B3).map (·.reg 5) = some 0x3FFFFFFF#32 := by decide +kernel

theorem test_mulhsu :
    (run (ops 0x80000000 0xFFFFFFFF) 0x027322B3).map (·.reg 5) = some 0x80000000#32
      ∧ (run (ops 1 0xFFFFFFFF) 0x027322B3).map (·.reg 5) = some 0#32 := by decide +kernel

theorem test_mulhu :
    (run (ops 0x80000000 2) 0x027332B3).map (·.reg 5) = some 1#32
      ∧ (run (ops 0xFFFFFFFF 0xFFFFFFFF) 0x027332B3).map (·.reg 5) = some 0xFFFFFFFE#32 := by decide +kernel

theorem test_div :
    (run (ops 7 0) 0x027342B3).map (·.reg 5) = some 0xFFFFFFFF#32
      ∧ (run (ops 0x80000000 0xFFFFFFFF) 0x027342B3).map (·.reg 5) = some 0x80000000#32 := by decide +kernel

theorem test_div_truncates :
    (run (ops 0xFFFFFFF9 0xFFFFFFFE) 0x027342B3).map (·.reg 5) = some 3#32 := by decide +kernel

theorem test_divu :
    (run (ops 7 0) 0x027352B3).map (·.reg 5) = some 0xFFFFFFFF#32
      ∧ (run (ops 0x80000000 0xFFFFFFFF) 0x027352B3).map (·.reg 5) = some 0#32 := by decide +kernel

theorem test_rem :
    (run (ops 0x80000000 0xFFFFFFFF) 0x027362B3).map (·.reg 5) = some 0#32
      ∧ (run (ops 7 0xFFFFFFFE) 0x027362B3).map (·.reg 5) = some 1#32 := by decide +kernel

theorem test_rem_by_zero : (run (ops 0xFFFFFFF9 0) 0x027362B3).map (·.reg 5) = some 0xFFFFFFF9#32 := by decide +kernel

theorem test_remu :
    (run (ops 7 0) 0x027372B3).map (·.reg 5) = some 7#32
      ∧ (run (ops 0xFFFFFFFF 0x10) 0x027372B3).map (·.reg 5) = some 0xF#32 := by decide +kernel

/-! ## Control transfer (2.2) -/

theorem test_jal :
    (run (atPc (start []) 0x1000) 0x002002EF).map (linkView · 5) = some (0x1004, 0x1002)
      ∧ (run (atPc (start []) 0x100000) 0x800000EF).map (linkView · 1) = some (0x100004, 0) := by decide +kernel

theorem test_jalr :
    (run (atPc (start [(5, 0x2002)]) 0x1000) 0xFFF282E7).map (linkView · 5) = some (0x1004, 0x2000)
      ∧ (run (atPc (start [(6, 0xFFFFFFFF)]) 0x1000) 0x7FF300E7).map (linkView · 1) = some (0x1004, 0x7FE) := by
  decide +kernel

theorem test_beq :
    (run (atPc (start [(5, 3), (6, 3)]) 0x1000) 0x7E628FE3).map (linkView · 5) = some (3, 0x1FFE) := by
  decide +kernel

theorem test_bne :
    (run (atPc (start [(5, 1), (6, 2)]) 0x2000) 0x80629063).map (linkView · 5) = some (1, 0x1000) := by
  decide +kernel

theorem test_blt :
    (run (atPc (start [(5, 0xFFFFFFFF)]) 0x1000) 0x0062C163).map (linkView · 6) = some (0, 0x1002) := by
  decide +kernel

theorem test_bge :
    (run (atPc (start [(5, 7), (6, 7)]) 0x1000) 0xFE62DFE3).map (linkView · 6) = some (7, 0xFFE) := by decide +kernel

theorem test_bltu :
    (run (atPc (start [(5, 0xFFFFFFFF)]) 0x1000) 0x0062E863).map (linkView · 6) = some (0, 0x1004) := by
  decide +kernel

theorem test_bgeu :
    (run (atPc (start [(6, 1)]) 0x1000) 0xFE62F8E3).map (linkView · 6) = some (1, 0x1004) := by decide +kernel

/-! ## Loads and stores (2.3) -/

theorem test_lb :
    (run (data [(6, 0x80000)]) 0x00030283).map (·.reg 5) = some 0xFFFFFF80#32
      ∧ (run (data [(6, 0x80000)]) 0x00330283).map (·.reg 5) = some 1#32 := by decide +kernel

theorem test_lh : (run (data [(6, 0x80000)]) 0x00131283).map (·.reg 5) = some 0x7FFF#32 := by decide +kernel

theorem test_lw :
    (run (data [(6, 0x80008)]) 0xFFC32283).map (·.reg 5) = some 0xDEADBEEF#32
      ∧ (run (data [(6, 0x80000)]) 0x00232283).map (·.reg 5) = some 0xBEEF017F#32 := by decide +kernel

theorem test_lbu : (run (data [(6, 0x7F804)]) 0x7FF34283).map (·.reg 5) = some 1#32 := by decide +kernel

theorem test_lhu : (run (data [(6, 0x80800)]) 0x80035283).map (·.reg 5) = some 0xFF80#32 := by decide +kernel

theorem test_lw_own_base :
    (run (data [(6, 0x80004)]) 0x00032303).map (·.reg 6) = some 0xDEADBEEF#32 := by decide +kernel

theorem test_sb :
    (run (data [(6, 0x7F801), (7, 0x11223344)]) 0x7E730FA3).map (seen · 0x80000) = some 0x017FFF44#32 := by
  decide +kernel

theorem test_sh :
    (run (data [(6, 0x80806), (7, 0x11223344)]) 0x80731023).map (seen · 0x80004) = some 0x3344BEEF#32 := by
  decide +kernel

theorem test_sw :
    (run (data [(6, 0x80008), (7, 0x11223344)]) 0xFE732E23).map (seen · 0x80004) = some 0x11223344#32
      ∧ (run (data [(6, 0x80000), (7, 0x11223344)]) 0x007320A3).map (seen · 0x80000) = some 0x22334480#32 := by
  decide +kernel

/-- Failing checks of R193: unmapped, word at the end of the DCCM. -/
theorem test_load_unmapped :
    (run (start []) 0x00002283).map trapView
        = some (5#32, 2#4, 0x40000#32, 0#32, 0#32)
      ∧ (run (start [(6, 0x9FFFD)]) 0x00032283).map trapView
        = some (5#32, 2#4, 0x40000#32, 0x9FFFD#32, 0#32) := by decide +kernel

/-- Failing checks of R193: base register in another region, PIC access not a word. -/
theorem test_load_mismatch :
    (run (start [(6, 0x0FFFFFFC)]) 0x00432283).map trapView
        = some (5#32, 5#4, 0x40000#32, 0x10000000#32, 0#32)
      ∧ (run (start [(6, 0x100014)]) 0x00031283).map trapView
        = some (5#32, 6#4, 0x40000#32, 0x100014#32, 0#32) := by decide +kernel

/-- PIC stores that are no aligned words. -/
theorem test_store_pic :
    (run (start [(6, 0x102014)]) 0x00730023).map trapView
        = some (7#32, 6#4, 0x40000#32, 0x102014#32, 0#32)
      ∧ (run (start [(6, 0x102016)]) 0x00732023).map trapView
        = some (7#32, 6#4, 0x40000#32, 0x102016#32, 0#32) := by decide +kernel

theorem test_store_cross :
    (run (start [(6, 0x107FFE)]) 0x00732023).map trapView
        = some (7#32, 2#4, 0x40000#32, 0x107FFE#32, 0#32)
      ∧ (run (start [(6, 0x2FFFFFFE)]) 0x00732023).map trapView
        = some (6#32, 2#4, 0x40000#32, 0x2FFFFFFE#32, 0#32) := by decide +kernel

/-! ## Fences, environment, returns (2.4) -/

theorem test_fence : (run (start []) 0x0FF0000F).map (·.me.pc) = some 0x40004#32 := by decide +kernel

/-- A queued store is in the DCCM for the other hart after a fence. -/
theorem test_fence_drains :
    ((run (data [(6, 0x80000), (7, 0x11223344)]) 0x00732023).bind (run · 0x0110000F)).map
      (fun t => (t.me.buf.sq, wordSeen t .t1 0x80000)) = some ([], 0x11223344#32) := by decide +kernel

theorem test_fenceI :
    (run { start [] with sh := { (start []).sh with icache := [{ base := 0x10000000, bytes := [1] }] } } 0x0000100F).map
      (·.sh.icache) = some [] := by decide +kernel

theorem test_ecall :
    (run (trapping 0x4000C 0x1808) 0x00000073).map
      (fun t => (trapView t, t.me.trap.mstatus)) = some ((0xB#32, 0#4, 0x4000C#32, 0#32, 0x40040#32), 0x1880#32) := by
  decide +kernel

theorem test_ebreak :
    (run (trapping 0x40020 0x1808) 0x00100073).map trapView
      = some (3#32, 2#4, 0x40020#32, 0x40020#32, 0x40040#32) := by decide +kernel

theorem test_mret :
    (run (trapping 0x40000 0x1800) 0x30200073).map
      (fun t => (t.me.pc, t.me.trap.mstatus)) = some (0x40010#32, 0x1880#32) := by decide +kernel

theorem test_mret_enables :
    (run (trapping 0x40000 0x1880) 0x30200073).map (·.me.trap.mstatus) = some 0x1888#32 := by decide +kernel

theorem test_wfi : (run (start []) 0x10500073).map (·.me.pc) = some 0x40004#32 := by decide +kernel

theorem test_dret_illegal :
    (run (start []) 0x7B200073).map trapView = some (2#32, 0#4, 0x40000#32, 0x7B200073#32, 0#32) := by decide +kernel

/-! ## Atomics (2.6) -/

theorem test_lrW :
    (run (amo 7 0) 0x100522AF).map (fun t => (t.reg 5, t.me.res)) = some (7#32, some 0x80100#32) := by decide +kernel

theorem test_lrW_unaligned :
    (run ((amo 7 0).setReg 10 0x80102) 0x100522AF).map trapView
      = some (5#32, 7#4, 0x40000#32, 0x80102#32, 0#32) := by decide +kernel

theorem test_scW :
    (run (onMe (amo 7 8) (fun h => { h with res := some 0x80100 })) 0x187522AF).map
      (fun t => (amoResult t, t.me.res)) = some ((0#32, 8#32), none) := by decide +kernel

theorem test_scW_fails : (run (amo 7 8) 0x187522AF).map amoResult = some (1#32, 7#32) := by decide +kernel

theorem test_amoswapW : (run (amo 3 9) 0x087522AF).map amoResult = some (3#32, 9#32) := by decide +kernel

theorem test_amoaddW :
    (run (amo 0x7FFFFFFF 1) 0x007522AF).map amoResult = some (0x7FFFFFFF#32, 0x80000000#32) := by decide +kernel

theorem test_amoxorW :
    (run (amo 0xFFFF0000 0x0FF00FF0) 0x207522AF).map amoResult = some (0xFFFF0000#32, 0xF00F0FF0#32) := by
  decide +kernel

theorem test_amoandW :
    (run (amo 0xFFFF0000 0x0FF00FF0) 0x607522AF).map amoResult = some (0xFFFF0000#32, 0x0FF00000#32) := by
  decide +kernel

theorem test_amoorW :
    (run (amo 0xFFFF0000 0x0FF00FF0) 0x407522AF).map amoResult = some (0xFFFF0000#32, 0xFFFF0FF0#32) := by
  decide +kernel

theorem test_amominW :
    (run (amo 0x80000000 0x7FFFFFFF) 0x807522AF).map amoResult = some (0x80000000#32, 0x80000000#32) := by
  decide +kernel

theorem test_amomaxW :
    (run (amo 0x80000000 0x7FFFFFFF) 0xA07522AF).map amoResult = some (0x80000000#32, 0x7FFFFFFF#32) := by
  decide +kernel

theorem test_amominuW :
    (run (amo 0x80000000 0x7FFFFFFF) 0xC07522AF).map amoResult = some (0x80000000#32, 0x7FFFFFFF#32) := by
  decide +kernel

theorem test_amomaxuW :
    (run (amo 0x80000000 0x7FFFFFFF) 0xE07522AF).map amoResult = some (0x80000000#32, 0x80000000#32) := by
  decide +kernel

theorem test_amoaddW_all_one_register :
    (run ((amo 1 0).setReg 10 0x80100) 0x00A5252F).map
      (fun t => (t.reg 10, wordSeen t .t0 0x80100)) = some (1#32, 0x80101#32) := by decide +kernel

/-! ## Zicsr (2.8) -/

theorem test_csrrw :
    (run (withScratch [(6, 0x22222222)] 0x11111111) 0x340312F3).map (fun t => (t.reg 5, csrOf t .mscratch))
      = some (0x11111111#32, 0x22222222#32) := by decide +kernel

theorem test_csrrw_swap :
    (run (withScratch [(5, 2)] 1) 0x340292F3).map (fun t => (t.reg 5, csrOf t .mscratch))
      = some (1#32, 2#32) := by decide +kernel

theorem test_csrrwi :
    (run (withScratch [] 0xFFFFFFFF) 0x340FD2F3).map (fun t => (t.reg 5, csrOf t .mscratch))
      = some (0xFFFFFFFF#32, 0x1F#32) := by decide +kernel

theorem test_csrrsi :
    (run (trapping 0x40000 0x1880) 0x30046073).map (csrOf · .mstatus) = some 0x1888#32 := by decide +kernel

theorem test_csrrci :
    (run (trapping 0x40000 0x1888) 0x30047073).map (csrOf · .mstatus) = some 0x1880#32 := by decide +kernel

theorem test_csrrc :
    (run (start [(6, 0xFFFFFFFF)]) 0x30133073).map (csrOf · .misa) = some 0x40001105#32 := by decide +kernel

theorem test_csrrs : (run { start [] with cur := .t1 } 0xF14022F3).map (·.reg 5) = some 1#32 := by decide +kernel

/-- `rs1` is not `x0`, so it writes, whatever the register holds (R508). -/
theorem test_csrrs_read_only :
    (run (start []) 0xF142A073).map trapView = some (2#32, 0#4, 0x40000#32, 0xF142A073#32, 0#32) := by decide +kernel

theorem test_csr_writable_bits :
    (run (start [(5, 0xFFFFFFFF)]) 0x30029073).map (csrOf · .mstatus) = some 0x1888#32
      ∧ (run (start [(5, 0xFFFFFFFF)]) 0x30429073).map (csrOf · .mie) = some 0x70000888#32
      ∧ (run (start [(5, 0x40043)]) 0x30529073).map (csrOf · .mtvec) = some 0x40041#32
      ∧ (run (start [(5, 0xFFFFFFFF)]) 0x7C029073).map (csrOf · .mrac) = some 0xAAAAAAAA#32 := by decide +kernel

/-! ## Compressed (2.7) -/

theorem test_cAddi4spn :
    (runC (data [(2, 0x100)]) 0x1FFC).map (fun t => (t.reg 15, t.me.pc)) = some (0x4FC, 0x40002) := by decide +kernel

theorem test_cLw :
    (runC (data [(8, 0x80000)]) 0x4044).map (fun t => (t.reg 9, t.me.pc)) = some (0xDEADBEEF, 0x40002) := by
  decide +kernel

theorem test_cSw :
    (runC (data [(8, 0x7FFC4), (9, 0x55)]) 0xC024).map (seen · 0x80004) = some 0x55#32 := by decide +kernel

theorem test_cNop :
    (runC (data [(5, 3)]) 0x0005).map (fun t => (t.reg 5, t.me.pc)) = some (3, 0x40002) := by decide +kernel

theorem test_cAddi :
    (runC (data [(5, 0)]) 0x12FD).map (fun t => (t.reg 5, t.me.pc)) = some (0xFFFFFFFF, 0x40002) := by decide +kernel

theorem test_cJal :
    (runC (atPc (start []) 0x40002) 0x2801).map (linkView · 1) = some (0x40004#32, 0x40012#32) := by decide +kernel

theorem test_cLi :
    (runC (data []) 0x5501).map (fun t => (t.reg 10, t.me.pc)) = some (0xFFFFFFE0, 0x40002) := by decide +kernel

theorem test_cAddi16sp :
    (runC (data [(2, 0x1000)]) 0x7101).map (fun t => (t.reg 2, t.me.pc)) = some (0xE00, 0x40002)
      ∧ (runC (data [(2, 0x1000)]) 0x617D).map (fun t => (t.reg 2, t.me.pc)) = some (0x11F0, 0x40002) := by
  decide +kernel

theorem test_cLui :
    (runC (data []) 0x72FD).map (fun t => (t.reg 5, t.me.pc)) = some (0xFFFFF000, 0x40002)
      ∧ (runC (data []) 0x67FD).map (fun t => (t.reg 15, t.me.pc)) = some (0x1F000, 0x40002) := by decide +kernel

theorem test_cSrli :
    (runC (data [(8, 0x80000000)]) 0x8005).map (fun t => (t.reg 8, t.me.pc)) = some (0x40000000, 0x40002) := by
  decide +kernel

theorem test_cSrai :
    (runC (data [(9, 0x80000000)]) 0x84FD).map (fun t => (t.reg 9, t.me.pc)) = some (0xFFFFFFFF, 0x40002) := by
  decide +kernel

theorem test_cAndi :
    (runC (data [(10, 0xFFFFFFFF)]) 0x9941).map (fun t => (t.reg 10, t.me.pc)) = some (0xFFFFFFF0, 0x40002) := by
  decide +kernel

theorem test_cSub :
    (runC (data [(8, 1), (9, 2)]) 0x8C05).map (fun t => (t.reg 8, t.me.pc)) = some (0xFFFFFFFF, 0x40002) := by
  decide +kernel

theorem test_cXor :
    (runC (data [(10, 5), (11, 3)]) 0x8D2D).map (fun t => (t.reg 10, t.me.pc)) = some (6, 0x40002) := by
  decide +kernel

theorem test_cOr :
    (runC (data [(12, 5), (13, 3)]) 0x8E55).map (fun t => (t.reg 12, t.me.pc)) = some (7, 0x40002) := by
  decide +kernel

theorem test_cAnd :
    (runC (data [(14, 5), (15, 3)]) 0x8F7D).map (fun t => (t.reg 14, t.me.pc)) = some (1, 0x40002) := by
  decide +kernel

theorem test_cJ :
    (runC (data [(5, 3)]) 0xBFF5).map (fun t => (t.reg 5, t.me.pc)) = some (3, 0x3FFFC) := by decide +kernel

theorem test_cBeqz :
    (runC (data [(8, 0)]) 0xC401).map (fun t => (t.reg 8, t.me.pc)) = some (0, 0x40008)
      ∧ (runC (data [(15, 1)]) 0xD381).map (fun t => (t.reg 15, t.me.pc)) = some (1, 0x40002) := by decide +kernel

theorem test_cBnez :
    (runC (data [(9, 1)]) 0xFCED).map (fun t => (t.reg 9, t.me.pc)) = some (1, 0x3FFFA)
      ∧ (runC (data [(8, 0)]) 0xEC7D).map (fun t => (t.reg 8, t.me.pc)) = some (0, 0x40002) := by decide +kernel

theorem test_cSlli :
    (runC (data [(5, 3)]) 0x0292).map (fun t => (t.reg 5, t.me.pc)) = some (0x30, 0x40002) := by decide +kernel

theorem test_cLwsp :
    (runC (data [(2, 0x7FFF8)]) 0x40B2).map (fun t => (t.reg 1, t.me.pc)) = some (0xDEADBEEF, 0x40002) := by
  decide +kernel

theorem test_cJr :
    (runC (data [(1, 0x2001)]) 0x8082).map (fun t => (t.reg 1, t.me.pc)) = some (0x2001, 0x2000) := by decide +kernel

theorem test_cMv :
    (runC (data [(11, 0x77)]) 0x852E).map (fun t => (t.reg 10, t.me.pc)) = some (0x77, 0x40002) := by decide +kernel

theorem test_cEbreak :
    (runC (start []) 0x9002).map trapView = some (3#32, 2#4, 0x40000#32, 0x40000#32, 0#32) := by decide +kernel

theorem test_cJalr :
    (runC (data [(1, 0x40101)]) 0x9082).map (fun t => (t.reg 1, t.me.pc)) = some (0x40002, 0x40100) := by
  decide +kernel

theorem test_cAdd :
    (runC (data [(10, 5), (11, 6)]) 0x952E).map (fun t => (t.reg 10, t.me.pc)) = some (11, 0x40002) := by
  decide +kernel

theorem test_cSwsp :
    (runC (data [(2, 0x7FFF4), (1, 0x55)]) 0xC606).map (seen · 0x80000) = some 0x55#32 := by decide +kernel
/-! ## States that meet the hypotheses of the statements -/

/-- The bus is all memory. -/
def memSoc (s : State) : State :=
  { s with sh := { s.sh with soc := [{ base := 0, size := 4294967296, kind := .memory }] } }

theorem busIsMemory_memSoc (s : State) : BusIsMemory (memSoc s) := by
  intro a
  simp [memSoc, socKind, a.isLt]

/-- The base registers of every load and store form hold `a`: `x2`, `x6`, `x8`. -/
def bases (a : Word) : State := start [(2, a), (6, a), (8, a), (7, 0x11223344)]

/-- `bases`, with the first and the last two words of the DCCM written. -/
def basesDccm (a : Word) : State :=
  dccm (dccm (bases a) 0x80000 [0x80, 0xFF, 0x7F, 0x01, 0xEF, 0xBE, 0xAD, 0xDE]) 0x9FFF8 [1, 2, 3, 4, 5, 6, 7, 8]

/-- The load forms with base `a`. -/
def loads : List AccessForm := loadForms 5 6 0 1 0 0 0

/-- The store forms with base `a`. -/
def stores : List AccessForm := storeForms 6 7 0 0 1 0 0

/-- A DCCM word with an error. -/
def broken (s : State) (a : Word) (e : EccStatus) : State :=
  { s with sh := { s.sh with dccm := s.sh.dccm.setStatus (a.toNat / 4) e } }

/-- `MIE` and every bit of `mie` set. -/
def enabled (s : State) : State :=
  onTrap s (fun c => { c with mstatus := 0x1808, mie := 0x70000888, mtvec := 0x40001 })

/-- Source `n` requests, enabled, at priority `p`. -/
def requesting (s : State) (n : Nat) (p : BitVec 4) : State :=
  s.modSource n (fun x => { x with prio := p, inten := true, pin := true })

/-- A state in which interrupt `b` is ready. -/
def readyFor (b : Nat) : State :=
  let s := enabled State.reset
  match b with
  | 11 => requesting s 5 7
  | 30 => { s with sh := { s.sh with micect := 1 } }
  | 3 => onMe s (fun h => { h with pins := { h.pins with softInt := true } })
  | 7 => onMe s (fun h => { h with pins := { h.pins with timerInt := true } })
  | 29 => onMe s (fun h => { h with tmr := { h.tmr with mitb0 := 3, mitcnt0 := 3 } })
  | _ => onMe s (fun h => { h with tmr := { h.tmr with mitb1 := 3, mitcnt1 := 4 } })

/-- With another build. -/
def withCfg (s : State) (f : BuildConfig → BuildConfig) : State := { s with cfg := f s.cfg }

/-- The access windows of the vectors of section 2.3. -/
def windowed (c : BuildConfig) : BuildConfig :=
  let w : Window := { enable := true, addr := 0x20000000, mask := 0xFF }
  { c with dataWindows := [w], instWindows := [w] }

/-- T0 in this activity state. -/
def acting (s : State) (a : Activity) : State := onMe s (fun h => { h with activity := a })

theorem witness_DecodeOfEncode : Instr.wellFormed (.jal 5 0x100000) = true ∧ Instr.wellFormed (.cLui 5 63) = true := by
  decide +kernel

theorem witness_EncodeOfDecode :
    Code.decode (.c32 0x007302B3) = .ok (.add 5 6 7) ∧ Code.decode (.c16 0x952E) = .ok (.cAdd 10 11) := ⟨rfl, rfl⟩

/-- One word for each clause, with its opcode, `funct3` and `funct7`. -/
theorem witness_IllegalCodesRefused :
    ([(0x0000001B, 0b0011011, 0, 0), (0x00003003, 0b0000011, 3, 0), (0x00003023, 0b0100011, 3, 0),
      (0x00002063, 0b1100011, 2, 0), (0x00001067, 0b1100111, 1, 0), (0x0000200F, 0b0001111, 2, 0),
      (0x02031293, 0b0010011, 1, 1), (0x80005013, 0b0010011, 5, 64), (0x04000033, 0b0110011, 0, 2),
      (0x40001033, 0b0110011, 1, 32), (0x007532AF, 0b0101111, 3, 0), (0x3000202F, 0b0101111, 2, 24),
      (0x101522AF, 0b0101111, 2, 8), (0x00004073, 0b1110011, 4, 0), (0x10200073, 0b1110011, 0, 8)]
        : List (Word × BitVec 7 × BitVec 3 × BitVec 7)).all
      (fun p => p.1.extractLsb' 0 7 == p.2.1 && p.1.extractLsb' 12 3 == p.2.2.1 && p.1.extractLsb' 25 7 == p.2.2.2
        && !(decode32 p.1).isOk) = true := by decide +kernel

/-- A 32-bit instruction in the ICCM. -/
def addNext : State := State.reset.withFetchWord 32 0x007302B3

/-- A 16-bit instruction in bus memory. -/
def cAddNext : State := (atPc (memSoc State.reset) 0x10000002).withFetchWord 16 0x952E

theorem witness_StepRunsDecoded_iccm :
    RunsNext addNext ∧ QuietTriggers addNext
      ∧ CodeAt addNext addNext.sh.iccm.cells (encode (.add 5 6 7)).length
      ∧ decode (codeBytes addNext.sh.iccm.cells addNext.me.pc) = .ok (.add 5 6 7, []) := by
  unfold RunsNext HartsMove QuietTriggers CodeAt
  exact ⟨by and_intros <;> decide +kernel, by decide +kernel, by and_intros <;> decide +kernel, rfl⟩

theorem witness_StepRunsDecoded_bus :
    RunsNext cAddNext ∧ QuietTriggers cAddNext ∧ CodeAt cAddNext cAddNext.sh.bus (encode (.cAdd 10 11)).length
      ∧ decode (codeBytes cAddNext.sh.bus cAddNext.me.pc) = .ok (.cAdd 10 11, [0, 0]) := by
  unfold RunsNext HartsMove QuietTriggers CodeAt
  exact ⟨by and_intros <;> decide +kernel, by decide +kernel, by and_intros <;> decide +kernel, rfl⟩

/-- The bytes of `w` at the `pc`. -/
def wordNext (w : Nat) : State := State.reset.withFetchWord 32 w

theorem witness_StepTakesFetchExceptions_illegal :
    (∀ w ∈ [0xFFFFFFFF, 0], RunsNext (wordNext w) ∧ QuietTriggers (wordNext w) ∧ (wordNext w).me.dctl.stepping = false
        ∧ CodeAt (wordNext w) (wordNext w).sh.iccm.cells 4)
      ∧ (decode (codeBytes (wordNext 0xFFFFFFFF).sh.iccm.cells 0x40000)).isOk = false
      ∧ (decode (codeBytes (wordNext 0).sh.iccm.cells 0x40000)).isOk = false := by
  unfold RunsNext HartsMove QuietTriggers CodeAt
  and_intros <;> decide +kernel

/-- The first address after the ICCM, and one outside the instruction windows. -/
theorem witness_StepTakesFetchExceptions_fault :
    let s := atPc State.reset 0x60000
    let t := withCfg (atPc State.reset 0x20000100) windowed
    RunsNext s ∧ QuietTriggers s ∧ s.me.dctl.stepping = false ∧ iccmRegion s.cfg s.me.pc = true
      ∧ inIccm s.cfg s.me.pc = false
      ∧ RunsNext t ∧ QuietTriggers t ∧ t.me.dctl.stepping = false ∧ iccmRegion t.cfg t.me.pc = false
      ∧ instOk t.cfg t.me.pc = false := by
  unfold RunsNext HartsMove QuietTriggers
  and_intros <;> decide +kernel

theorem witness_Quotients : (ops 7 0x80000000).reg 7 ≠ 0 := by decide +kernel

/-- A legal build, and an access for each clause. -/
theorem witness_AccessChecks :
    BuildConfig.legal exampleConfig = true ∧ BuildConfig.legal (windowed exampleConfig) = true
      ∧ dataCheck exampleConfig 0 loadCauses 0xFFFFFFFE 0xFFFFFFFE 4 = some (4, 2)
      ∧ dataCheck exampleConfig 0x20 loadCauses 0x20000002 0x20000002 4 = some (4, 1)
      ∧ dataCheck exampleConfig 0 loadCauses 0x9FFFE 0x9FFFE 4 = some (5, 2)
      ∧ dataCheck (windowed exampleConfig) 0 loadCauses 0x200000FE 0x200000FE 4 = some (5, 3)
      ∧ dataCheck exampleConfig 0 loadCauses 0x0FFFFFFC 0x10000000 4 = some (5, 5)
      ∧ dataCheck exampleConfig 0 loadCauses 0x100000 0x100000 2 = some (5, 6)
      ∧ dataCheck exampleConfig 0 loadCauses 0x9FFFC 0x9FFFC 4 = none := by
  and_intros <;> decide +kernel

/-- Every form at an address no memory has. -/
theorem witness_AccessTraps :
    QuietTriggers (bases 0) ∧ (bases 0).me.activity ≠ .dbgHalt
      ∧ (∀ f ∈ loads, f.loadCheck (bases 0) = some (5, 2)) ∧ ∀ f ∈ stores, f.storeCheck (bases 0) = some (7, 2) := by
  unfold QuietTriggers
  and_intros <;> decide +kernel

/-- Every form at the start of the DCCM and at its last word. -/
theorem witness_DccmLoads :
    ∀ n ∈ [0x80000, 0x9FFFC],
      let s := basesDccm (BitVec.ofNat 32 n)
      BuildConfig.legal s.cfg = true ∧ QuietTriggers s ∧ s.me.buf.ahead = []
        ∧ ∀ f ∈ loads, f.loadCheck s = none ∧ inDccm s.cfg (f.addr s) = true ∧ CleanWords s (f.addr s) f.size := by
  unfold QuietTriggers CleanWords
  decide +kernel

/-- Every form, on the bus, with a store of the hart still buffered. -/
def basesBus : State :=
  memSoc (onMe (bases 0x20000001) (fun h => { h with buf := { h.buf with
    wb := [{ addr := 0x20000004, data := [1, 2], sideEffect := false }] } }))

/-- The same where the SoC answers later. -/
def slowBus : State :=
  memSoc (onMe (bases 0x20000001) (fun h => { h with buf := { h.buf with slowLoads := true } }))

/-- A load that waits does not write a register that a later instruction has written; nothing waits for `x0`, nor for a
register that is only written (R228). -/
theorem test_overwritten_load :
    ((run slowBus 0x00032283).bind (fun t => (run (t.settle (.lui 5 1)) 0x000012B7).bind (fun u =>
        (did u (.busResponse .t0 0)).map (fun w => (u.me.buf.inflight.length, w.me.buf.inflight.length, w.reg 5)))))
      = some (1, 0, 0x1000)
    ∧ (run slowBus 0x00032003).map (fun t => (t.settle (.csrrw 0 0 0x340)).me.buf.inflight.length) = some 1
    ∧ (run slowBus 0x00032283).map (fun t => (t.settle (.addi 7 5 0)).me.buf.inflight.length) = some 0 := by
  and_intros <;> decide +kernel

/-- A misaligned load that waits reads one of its parts before another master writes that byte; bytes that are no part of it
are not read ahead of the response (R195, R228). -/
theorem test_answer_part :
    (run { slowBus with sh := { slowBus.sh with bus := [(0x20000001, 7), (0x20000002, 5)] } } 0x00032283).bind (fun t =>
        (did t (.answerPart .t0 0x20000001 1)).bind (fun u =>
          (did u (.answerPart .t0 0x20000002 1)).bind (fun v =>
            (did { v with sh := { v.sh with bus := [(0x20000002, 9)] } } (.busResponse .t0 0)).map (·.reg 5))))
      = some 0x0907 := by decide +kernel

theorem witness_BusLoads :
    BuildConfig.legal basesBus.cfg = true ∧ QuietTriggers basesBus ∧ basesBus.canonical = true ∧ BusIsMemory basesBus
      ∧ basesBus.me.NoBusErrors ∧ basesBus.me.wbInSpace = true ∧ basesBus.me.buf.ahead = [] ∧ basesBus.me.buf.slowLoads = false
      ∧ BuildConfig.legal slowBus.cfg = true ∧ QuietTriggers slowBus ∧ slowBus.canonical = true ∧ BusIsMemory slowBus
      ∧ slowBus.me.NoBusErrors ∧ slowBus.me.wbInSpace = true ∧ slowBus.me.buf.ahead = [] ∧ slowBus.me.buf.slowLoads = true ∧ slowBus.me.buf.wb = []
      ∧ ∀ s ∈ [basesBus, slowBus], ∀ f ∈ loads, f.loadCheck s = none ∧ toBus s.cfg (f.addr s) = true := by
  unfold QuietTriggers Hart.NoBusErrors Hart.NoPendingLoads
  and_intros
  all_goals first | exact busIsMemory_memSoc _ | decide +kernel

theorem witness_DccmErrors :
    let s := broken (basesDccm 0x80000) 0x80000 .double
    BuildConfig.legal s.cfg = true ∧ QuietTriggers s ∧ s.me.activity ≠ .dbgHalt ∧ s.cecd (some s.cur) = false
      ∧ (∀ f ∈ loads, f.loadCheck s = none ∧ inDccm s.cfg (f.addr s) = true
        ∧ s.me.buf.ahead = [] ∧ ∃ i ∈ touchedWords (f.addr s) f.size, (s.sh.dccm.status i).error = .double)
      ∧ (∃ f ∈ stores, f.storeCheck s = none ∧ inDccm s.cfg (f.addr s) = true ∧ ¬ (f.size = 4 ∧ f.aligned s = true)
        ∧ ∃ i ∈ touchedWords (f.addr s) f.size, (s.sh.dccm.status i).error = .double)
      ∧ ∀ t ∈ [broken (basesDccm 0x9FFFC) 0x9FFFC .single, broken (basesDccm 0x80001) 0x80000 .single],
        BuildConfig.legal t.cfg = true ∧ QuietTriggers t ∧ t.me.activity ≠ .dbgHalt ∧ t.cecd (some t.cur) = false
        ∧ t.canonical = true ∧ t.me.buf.ahead = []
        ∧ (∀ f ∈ loads, f.loadCheck t = none ∧ inDccm t.cfg (f.addr t) = true
          ∧ Correctable t (touchedWords (f.addr t) f.size))
        ∧ ∃ f ∈ stores, f.storeCheck t = none ∧ inDccm t.cfg (f.addr t) = true ∧ ¬ (f.size = 4 ∧ f.aligned t = true)
          ∧ Correctable t (touchedWords (f.addr t) f.size) := by
  unfold QuietTriggers Correctable
  and_intros <;> decide +kernel

/-- The first part of a misaligned load is read ahead, in a word with a double-bit error. -/
def brokenAhead : State := readAhead (broken (basesDccm 0x80002) 0x80000 .double) .t0 0x80002 2

theorem witness_DccmErrors_ahead :
    let s := brokenAhead
    BuildConfig.legal s.cfg = true ∧ QuietTriggers s ∧ s.me.activity ≠ .dbgHalt ∧ s.cecd (some s.cur) = false
      ∧ ∃ f ∈ loads, f.loadCheck s = none ∧ inDccm s.cfg (f.addr s) = true
        ∧ ∃ p ∈ aheadOf s.me.buf.ahead (f.addr s).toNat f.size, ∃ w, p.word = some w ∧ w.bad = true := by
  unfold QuietTriggers
  refine ⟨by decide +kernel, by decide +kernel, by decide +kernel, by decide +kernel,
    loads[2], List.getElem_mem (by decide), by decide +kernel, by decide +kernel, ?_⟩
  have h : (aheadOf brokenAhead.me.buf.ahead (loads[2].addr brokenAhead).toNat loads[2].size).any
      (fun p => p.word.any (·.bad)) = true := by decide +kernel
  obtain ⟨p, hp, hw⟩ := List.any_eq_true.1 h
  exact ⟨p, hp, (Option.any_eq_true _ _).1 hw⟩

/-- A part read ahead is used though another agent writes its word meanwhile, and its corrected error counts (R195, R236). -/
theorem test_read_ahead :
    (run (dmaWrite (readAhead (broken (basesDccm 0x80002) 0x80004 .single) .t0 0x80004 2) 0x80004 4 0xF0 0) 0x00032283).map
      (fun t => (t.reg 5, t.sh.dccm.status (0x80004 / 4), t.sh.mdccmect)) = some (0xBEEF017F, .ok, 1) := by decide +kernel

/-- A part of a misaligned bus load is read ahead (R195, R224 case 3). -/
theorem test_read_ahead_bus :
    ((readAhead { basesBus with sh := { basesBus.sh with bus := [(0x20000007, 7)] } } .t0 0x20000007 1).me.buf.ahead).map
      (·.line) = [{ base := 0x20000007, bytes := [7] }] := by decide +kernel

/-- A misaligned halfword inside one word is two accesses: one byte is read before another agent writes the word, the other
after it (R173, R195). -/
theorem test_read_ahead_halfword :
    (run (dmaWrite (readAhead (basesDccm 0x80001) .t0 0x80001 1) 0x80000 4 0x0F 0) 0x00035283).map (·.reg 5) = some 0xFF := by
  decide +kernel

/-- A misaligned store enters the store queue as the naturally aligned accesses it is (R173, R195, R229). -/
theorem test_split_store :
    splitStore 0x80001 [1, 2] = [(0x80001, [1]), (0x80002, [2])]
      ∧ splitStore 0x80001 [1, 2, 3, 4] = [(0x80001, [1]), (0x80002, [2, 3]), (0x80004, [4])]
      ∧ splitStore 0x80002 [1, 2] = [(0x80002, [1, 2])] := by decide +kernel

/-- A `fence` ends the time in which a word may read wrongly for the hart that initialised it; entering Sleep or Debug Mode
does not (R239). -/
theorem test_quiesce_no_fence :
    let s := broken basesBus 0x80200 (.fresh .t0)
    (quiesce s .t0).sh.dccm.status (0x80200 / 4) = .fresh .t0
      ∧ (fenceHart s .t0).sh.dccm.status (0x80200 / 4) = .ok := by decide +kernel

/-- A word that a correction wrote back is not initialised: while the hart's store to it is queued, and after it, the hart may
read it wrongly, until its `fence` (R239). -/
theorem test_settled_word :
    let s := onMe (broken basesBus 0x80200 .settled) (fun h => h.pushSq 0x80200 [1, 2, 3, 4])
    let b := onMe (broken basesBus 0x80200 .settled) (fun h => h.pushSq 0x80201 [1])
    let word (t : State) : EccStatus := t.sh.dccm.status (0x80200 / 4)
    (s.readDccm .t0 (0x80200 / 4)).uninit = true ∧ (s.readDccm .t1 (0x80200 / 4)).uninit = false
      ∧ word (quiesce s .t0) = .fresh .t0 ∧ word (fenceHart s .t0) = .ok
      ∧ (b.readDccm .t0 (0x80200 / 4)).uninit = true ∧ word (quiesce b .t0) = .fresh .t0
      ∧ word (atomicWrite (broken basesBus 0x80200 .settled) 0x80200 7) = .fresh .t0 := by decide +kernel

/-- A correction does not initialise a word that was never written (R236, R239). -/
theorem test_repair_unknown :
    let r : WordRead := { bad := false, data := 9, fixed := true, arbitrary := true, uninit := true }
    ((State.reset.sh.dccm.repair 5 r).status 5, (State.reset.sh.dccm.settleForWrite 5 r).status 5,
      (State.reset.sh.dccm.repair 5 r).word 5) = (.settled, .settled, 9) := by decide +kernel

/-- An atomic access to a word with a single-bit error, with and without a reservation. -/
theorem witness_DccmErrors_atomic :
    ∀ r ∈ [none, some 0x80100],
      let s := onMe (broken (amo 7 8) 0x80100 .single) (fun h => { h with res := r })
      let u := fenceHart s s.cur
      BuildConfig.legal s.cfg = true ∧ QuietTriggers s ∧ s.me.activity ≠ .dbgHalt ∧ s.cecd (some s.cur) = false
        ∧ s.canonical = true ∧ u.cecd (some s.cur) = false ∧ u.sh.dccm.status ((s.reg 10).toNat / 4) = .single
        ∧ (∀ k : AccessCauses, atomicCheck s.cfg s.sh.mrac k (s.reg 10) = none) ∧ s.me.res = r := by
  unfold QuietTriggers
  refine List.forall_mem_cons.2 ⟨?_, List.forall_mem_cons.2 ⟨?_, by simp⟩⟩
  all_goals and_intros
  all_goals first | decide +kernel | (intro k; rfl)

/-- A misaligned load of a word with a single-bit error and a clean one: the error is corrected and counted once. -/
theorem test_corrected_load :
    (run (broken (basesDccm 0x80002) 0x80004 .single) 0x00032283).map
      (fun t => (t.reg 5, t.sh.dccm.status (0x80004 / 4), t.sh.mdccmect)) = some (0xBEEF017F, .ok, 1) := by decide +kernel

/-- Every form: unaligned in the DCCM, at its last word, and on the bus. -/
theorem witness_Stores :
    ∀ n ∈ [0x80001, 0x9FFFC, 0x20000000],
      let s := basesDccm (BitVec.ofNat 32 n)
      BuildConfig.legal s.cfg = true ∧ QuietTriggers s
        ∧ ∀ f ∈ stores, f.storeCheck s = none ∧ inPic s.cfg (f.addr s) = false
          ∧ (inDccm s.cfg (f.addr s) = true → (f.size = 4 ∧ f.aligned s = true) ∨ CleanWords s (f.addr s) f.size) := by
  unfold QuietTriggers CleanWords
  decide +kernel

theorem witness_StoreThenLoad :
    let s := basesDccm 0x80001
    BuildConfig.legal s.cfg = true ∧ QuietTriggers s ∧ s.canonical = true ∧ LoadsAtOnce s ∧ LoadsAtOnce basesBus
      ∧ (∀ n ∈ [4, 2, 1], dataCheck s.cfg s.dataMrac storeCauses (s.reg 6) (s.reg 6) n = none
        ∧ inDccm s.cfg (s.reg 6) = true ∧ CleanWords s (s.reg 6) n)
      ∧ ∀ n ∈ [4, 2, 1], dataCheck basesBus.cfg basesBus.dataMrac storeCauses (basesBus.reg 6) (basesBus.reg 6) n = none
        ∧ toBus basesBus.cfg (basesBus.reg 6) = true := by
  unfold QuietTriggers CleanWords LoadsAtOnce
  and_intros <;> decide +kernel

/-- A store waits in the queue, the other hart holds a reservation on its word. -/
def queued : State :=
  let s := onMe (bases 0) (fun h => { h with buf := { h.buf with sq := [{ addr := 0x80002, data := [1, 2] }] } })
  s.setHart .t1 { s.h1 with res := some 0x80000 }

/-- Two stores that merge, then one that does not, in the write buffer. -/
def merging : State :=
  memSoc (onMe (bases 0) (fun h => { h with buf := { h.buf with wb :=
    [{ addr := 0x20000004, data := [1, 2, 3, 4], sideEffect := false },
     { addr := 0x20000005, data := [5], sideEffect := false },
     { addr := 0xFFFFFFFF, data := [6], sideEffect := true }] } }))

theorem witness_StoreQueueDrains :
    queued.canonical = true ∧ (queued.hart .t0).buf.sq = { addr := 0x80002, data := [1, 2] } :: []
      ∧ merging.canonical = true ∧ BusIsMemory merging ∧ (merging.hart .t0).NoBusErrors
      ∧ (merging.hart .t0).wbInSpace = true ∧ (merging.hart .t0).buf.wb.length = 3 := by
  unfold Hart.NoBusErrors Hart.NoPendingLoads
  and_intros
  all_goals first | exact busIsMemory_memSoc _ | decide +kernel

/-- The second draining takes both mergeable stores, as one transaction with the youngest byte of each address. -/
theorem test_merged_stores :
    (did merging (.drainWb .t0 1)).map (fun t => (readBytes t.sh.bus 0x20000004 4, t.h0.buf.wb.length, t.sh.busLog.length))
      = some ([1, 5, 3, 4], 1, 1) := by decide +kernel

/-- The write buffer holds two stores of one block, with side effects or with `wbcd` set: each leaves alone. -/
theorem test_unmerged_stores :
    let alone (se : Bool) (mfdc : Word) : Option Nat :=
      let s := onMe merging (fun h => { h with buf := { h.buf with
        wb := h.buf.wb.map (fun e => { e with sideEffect := se }) } })
      (did { s with sh := { s.sh with mfdc := mfdc } } (.drainWb .t0 1)).map (·.h0.buf.wb.length)
    alone false 0x00070040 = some 1 ∧ alone true 0x00070040 = some 2 ∧ alone false 0x00070044 = some 2 := by
  and_intros <;> decide +kernel

/-- No target on the bus, stores and loads not ordered by `sepd`. -/
def noTarget : State :=
  let s := bases 0x20000000
  { s with sh := { s.sh with soc := [], mfdc := 0x00070000 } }

theorem witness_BusErrors_load :
    BuildConfig.legal noTarget.cfg = true ∧ QuietTriggers noTarget ∧ noTarget.me.buf.wb = []
      ∧ noTarget.sepd noTarget.cur = false ∧ noTarget.me.NoPendingLoads ∧ noTarget.me.buf.slowLoads = false
      ∧ ∀ f ∈ loads, f.loadCheck noTarget = none ∧ toBus noTarget.cfg (f.addr noTarget) = true
        ∧ f.aligned noTarget = true ∧ socKind noTarget.sh.soc (f.addr noTarget).toNat = .error := by
  unfold QuietTriggers Hart.NoPendingLoads
  and_intros <;> decide +kernel

/-- An error response of a store is outstanding; `mdseac` is locked or not. -/
def errorComing (locked : Bool) : State :=
  onMe State.reset (fun h => { h with
    buf := { h.buf with inflight := [{ store := true, addr := 0x20000040, error := true, sideEffect := false }] }
    nmi := { h.nmi with locked := locked } })

theorem witness_BusErrors_response :
    ∀ b ∈ [true, false], ((errorComing b).hart .t0).buf.inflight[0]?
        = some { store := true, addr := 0x20000040, error := true, sideEffect := false }
      ∧ ((errorComing b).hart .t0).nmi.locked = b := by decide +kernel

/-- The word forms reach each kind of PIC register, at the ends of their ranges, the unused addresses around them too, in
a build with two harts, one with one hart, and one whose source 1 has a simple gateway. -/
theorem witness_PicAccesses :
    ∀ f ∈ ([id, fun c => { c with dualThread := false }, fun c => { c with simpleGateways := [1] }]
        : List (BuildConfig → BuildConfig)),
      ∀ off ∈ [0, 4, 124, 0x80, 0x1000, 0x1004, 0x1800, 0x1804, 0x1FFC, 0x2000, 0x2004, 0x207C, 0x3000, 0x3004, 0x4000,
        0x4004, 0x407C, 0x5000, 0x5004, 0x507C, 0x6000, 0x6004, 0x607C, 0x7000, 0x7FFC],
      let s := withCfg (bases (BitVec.ofNat 32 (0x100000 + off))) f
      BuildConfig.legal s.cfg = true ∧ QuietTriggers s ∧ s.canonical = true
        ∧ (∃ f ∈ loads, f.loadCheck s = none ∧ inPic s.cfg (f.addr s) = true
          ∧ (f.addr s).toNat - Placement.base s.cfg.pic = off)
        ∧ ∃ f ∈ stores, f.storeCheck s = none ∧ inPic s.cfg (f.addr s) = true := by
  unfold QuietTriggers
  decide +kernel

/-- With a word the hart initialised. -/
theorem witness_FenceDrains :
    let s := broken basesBus 0x80200 (.fresh .t0)
    s.canonical = true ∧ BusIsMemory s ∧ s.me.NoBusErrors ∧ s.me.wbInSpace = true ∧ s.sh.dccm.status (0x80200 / 4) = .fresh s.cur := by
  unfold Hart.NoBusErrors Hart.NoPendingLoads
  and_intros
  all_goals first | exact fun a => busIsMemory_memSoc State.reset a | decide +kernel

/-- In `db-halt`, `x6` with `dmst.fence_i`, with `dmst.fence`, and with neither. -/
theorem witness_Fences :
    ∀ v ∈ [1, 2, 3, 0],
      let s := acting (start [(6, BitVec.ofNat 32 v)]) .dbgHalt
      s.me.activity = .dbgHalt ∧ s.me.NoPendingLoads ∧ (s.reg 6).toNat = v := by
  unfold Hart.NoPendingLoads
  decide +kernel

/-- An earlier `mrac` ends at `fence` for loads and stores, at `fence.i` for fetches (R100, R771). -/
theorem test_mrac_windows :
    let s := csrWrite (csrWrite State.reset .mrac 4) .mrac 0
    (fetchCacheable s .t0 0x10000000, fetchCacheable (fenceHart s .t0) .t0 0x10000000,
      fetchCacheable (fenceIHart s .t0) .t0 0x10000000, (fenceHart s .t0).sh.mracOld)
      = (true, true, false, []) := by decide +kernel

/-- A packet whose line is in the I-cache is prefetched from there, another one from the bus (R231). -/
theorem test_prefetch_cached :
    let line : CacheLine := { base := 0x10000000, bytes := List.replicate 64 0xAA }
    let s := { memSoc State.reset with sh := { (memSoc State.reset).sh with icache := [line] } }
    (prefetchPacket s .t0 0x10000014).me.buf.prefetch = [{ base := 0x10000010, bytes := List.replicate 16 0xAA }]
      ∧ (prefetchPacket s .t0 0x10000044).me.buf.prefetch
        = [{ base := 0x10000040, bytes := List.replicate 16 0 }] := by
  and_intros <;> decide +kernel

/-- An atomic access to a clean DCCM word, with and without a reservation. -/
theorem witness_Atomics :
    let s := amo 7 8
    let r := onMe s (fun h => { h with res := some 0x80100 })
    QuietTriggers s ∧ s.canonical = true ∧ atomicCheck s.cfg s.sh.mrac loadCauses (s.reg 10) = none
      ∧ atomicCheck s.cfg s.sh.mrac storeCauses (s.reg 10) = none
      ∧ atomicCheck s.cfg s.sh.mrac (amoCauses s.cfg) (s.reg 10) = none
      ∧ (fenceHart s s.cur).sh.dccm.status ((s.reg 10).toNat / 4) = .ok ∧ s.me.res ≠ some (s.reg 10)
      ∧ QuietTriggers r ∧ r.canonical = true ∧ atomicCheck r.cfg r.sh.mrac storeCauses (r.reg 10) = none
      ∧ (fenceHart r r.cur).sh.dccm.status ((r.reg 10).toNat / 4) = .ok ∧ r.me.res = some (r.reg 10) := by
  unfold QuietTriggers
  and_intros <;> decide +kernel

/-- A misaligned `sc.w` on a halted hart that holds a reservation. -/
def haltedSc : State := onMe (acting ((amo 7 8).setReg 10 0x80102) .dbgHalt) (fun h => { h with res := some 0x80100 })

theorem witness_StoreConditional_debug :
    QuietTriggers haltedSc ∧ haltedSc.canonical = true ∧ haltedSc.me.activity = .dbgHalt
      ∧ atomicCheck haltedSc.cfg haltedSc.sh.mrac storeCauses (haltedSc.reg 10) ≠ none ∧ haltedSc.me.res ≠ none := by
  unfold QuietTriggers
  decide +kernel

/-- An `sc.w` that faults in `db-halt` clears the reservation too (R413 (a)). -/
theorem test_sc_debug : (run haltedSc 0x187522AF).map (fun t => (t.me.res, t.reg 5, t.me.activity))
    = some (none, haltedSc.reg 5, .dbgHalt) := by decide +kernel

theorem witness_AtomicTraps :
    let s := (amo 7 8).setReg 10 0x80102
    let d := broken (amo 7 8) 0x80100 .double
    let u := fenceHart d d.cur
    QuietTriggers s ∧ s.me.activity ≠ .dbgHalt
      ∧ atomicCheck s.cfg s.sh.mrac { misaligned := 4, fault := 5 } (s.reg 10) = some (5, 7)
      ∧ atomicCheck s.cfg s.sh.mrac { misaligned := 6, fault := 7 } (s.reg 10) = some (7, 7)
      ∧ atomicCheck s.cfg s.sh.mrac { misaligned := 6, fault := if s.cfg.amoFaultKind = .load then 5 else 7 } (s.reg 10)
        = some (7, 7)
      ∧ QuietTriggers d ∧ d.me.activity ≠ .dbgHalt ∧ (u.sh.dccm.status ((d.reg 10).toNat / 4)).error = .double
      ∧ u.cecd (some d.cur) = false ∧ ∀ k : AccessCauses, atomicCheck d.cfg d.sh.mrac k (d.reg 10) = none := by
  unfold QuietTriggers
  and_intros
  all_goals first | decide +kernel | (intro k; rfl)

/-- An unaligned `lr.w` to the PIC block (R533, D6), and an aligned one. -/
theorem test_lr_pic :
    (run (start [(10, 0x00100016)]) 0x100522AF).map trapView = some (5, 7, 0x40000, 0x00100016, 0)
      ∧ (run (start [(10, 0x00100014)]) 0x100522AF).map trapView = some (5, 7, 0x40000, 0x00100014, 0) := by
  and_intros <;> decide +kernel

/-- `dcsr.ebreakm` set. -/
def debugging : State := onMe State.reset (fun h => { h with dbg := { h.dbg with dcsr := 0x40008003 } })

/-- The same with a fetch outstanding and the forced-halt timeout enabled; in a single step. -/
def debuggingBusy : State :=
  let s := onMe debugging (fun h => { h with buf := { h.buf with ifuBusy := true } })
  { s with sh := { s.sh with mfdht := 1 } }

theorem witness_EnvironmentTraps :
    let p := onMe debugging (fun h => { h with dctl := { h.dctl with stepping := true } })
    State.reset.me.activity ≠ .dbgHalt ∧ State.reset.me.ebreakm = false
      ∧ debugging.me.activity ≠ .dbgHalt ∧ debugging.me.ebreakm = true ∧ debugging.me.dctl.stepping = false
      ∧ debugging.me.NoPendingLoads ∧ debugging.sh.mfdht.getLsbD 0 = false
      ∧ debuggingBusy.me.activity ≠ .dbgHalt ∧ debuggingBusy.me.ebreakm = true
      ∧ debuggingBusy.me.dctl.stepping = false ∧ debuggingBusy.me.dctl.pending = none
      ∧ debuggingBusy.sh.mfdht.getLsbD 0 = true ∧ debuggingBusy.me.busBusy = true
      ∧ p.me.activity ≠ .dbgHalt ∧ p.me.ebreakm = true ∧ p.me.dctl.stepping = true
      ∧ (acting State.reset .dbgHalt).me.activity = .dbgHalt := by
  unfold Hart.NoPendingLoads
  and_intros <;> decide +kernel

/-- The trap an `ecall` takes is one `mret` may follow. -/
theorem witness_TrapReturn :
    let s := trapping 0x4000C 0x1808
    s.me.pc.toNat % 2 = 0 ∧ Traps s (s.raise 11 0 0) [37] 11 0 0 := by
  unfold Traps TrapEntry RegsSame OthersSame MemorySame
  and_intros
  all_goals first | decide +kernel | (intro a; exact ⟨fun i => by cases i <;> rfl, rfl⟩)

theorem witness_DebugReturn :
    let s := onMe (acting State.reset .dbgHalt) (fun h => { h with dctl := { h.dctl with dbgHalt := true } })
    let t := onMe State.reset (fun h => { h with dctl := { h.dctl with stepping := true } })
    s.me.activity = .dbgHalt ∧ s.me.dctl.dbgHalt = true ∧ s.me.dctl.mpcHalt = false ∧ s.me.stepBit = false
      ∧ t.me.activity ≠ .dbgHalt ∧ t.me.dctl.stepping = true
      ∧ State.reset.me.activity ≠ .dbgHalt ∧ State.reset.me.dctl.stepping = false := by
  and_intros <;> decide +kernel

/-- Illegal CSR accesses of each kind: no such CSR, a write of a read-only one, a Debug Mode register, `meicpct` with
fast redirect. -/
theorem witness_CsrPermissions :
    let fast := withCfg State.reset (fun c => { c with fastRedirect := true })
    State.reset.me.activity ≠ .dbgHalt ∧ csrAccess State.reset 0xC00 false = none
      ∧ csrAccess State.reset 0xF14 true = none ∧ csrAccess State.reset 0x7B0 false = none
      ∧ csrAccess State.reset 0x7C4 true = none ∧ fast.me.activity ≠ .dbgHalt ∧ csrAccess fast 0xBCA true = none := by
  and_intros <;> decide +kernel

/-- Legal ones (also of `CsrFrames`) at the ends of the ranges, on T0 and on a started T1; in `db-halt` a Debug Mode register. -/
theorem witness_CsrAccesses :
    let t1 : State := { State.reset with cur := .t1, sh := { State.reset.sh with start1 := true } }
    (State.reset.cur = .t1 → State.reset.sh.start1 = true) ∧ (t1.cur = .t1 → t1.sh.start1 = true)
      ∧ State.reset.me.NoPendingLoads ∧ t1.me.NoPendingLoads ∧ (acting State.reset .dbgHalt).me.NoPendingLoads
      ∧ (∀ n ∈ [0x300, 0x323, 0x33F, 0x7A0, 0x7FF, 0xB00, 0xB03, 0xB1F, 0xB83, 0xB9F, 0xBCC],
        (csrAccess State.reset (BitVec.ofNat 12 n) true).isSome ∧ (csrAccess t1 (BitVec.ofNat 12 n) true).isSome)
      ∧ (∀ n ∈ [0xF11, 0xFC8], (csrAccess State.reset (BitVec.ofNat 12 n) false).isSome)
      ∧ csrAccess (acting State.reset .dbgHalt) 0x7CB false = some .dicago
      ∧ (csrForms State.reset 5 6 31 0x340).map (·.writes) = [true, true, true, true, true, true]
      ∧ (csrForms State.reset 5 0 0 0x340).map (·.writes) = [true, false, false, true, false, false] := by
  unfold Hart.NoPendingLoads
  and_intros <;> decide +kernel

theorem witness_CsrReadBack :
    let h := acting State.reset .dbgHalt
    (start [(6, 0xF0001002)]).reg 6 ∈ legalCauses
      ∧ ((start [(6, 3)]).reg 6).toNat < (start [(6, 3)]).me.dbg.triggers.length
      ∧ State.reset.me.dbg.tselect.toNat < State.reset.me.dbg.triggers.length
      ∧ State.reset.me.dbg.selected.tdata1.getLsbD 27 = false ∧ State.reset.me.activity ≠ .dbgHalt
      ∧ h.me.activity = .dbgHalt ∧ BuildConfig.legal h.cfg = true ∧ h.cfg.icacheEnable = true := by
  and_intros <;> decide +kernel

/-- The ends of the three ranges (also of `HardwiredCounters`). -/
theorem witness_ConstantCsrs :
    State.reset.me.activity ≠ .dbgHalt
      ∧ ∀ n ∈ [0x327, 0x33F, 0xB07, 0xB1F, 0xB87, 0xB9F],
        let csr := BitVec.ofNat 12 n
        0x327 ≤ csr.toNat ∧ csr.toNat ≤ 0x33F ∨ 0xB07 ≤ csr.toNat ∧ csr.toNat ≤ 0xB1F
          ∨ 0xB87 ≤ csr.toNat ∧ csr.toNat ≤ 0xB9F := by
  and_intros <;> decide +kernel

/-- Each interrupt, with no earlier value of a CSR left. -/
theorem witness_InterruptPriority :
    ∀ b ∈ [11, 30, 3, 7, 29, 28], ((readyFor b).hart .t0).late = .settled ∧ readyInterrupt (readyFor b) .t0 = some b := by
  decide +kernel

/-- Each interrupt ready to be taken. -/
theorem witness_InterruptTaken :
    ∀ b ∈ [11, 30, 3, 7, 29, 28],
      HartsMove (readyFor b) ∧ (readyFor b).me.activity = .running ∧ (readyFor b).me.debugRequest = none
        ∧ readyNmi (readyFor b).me = none ∧ readyInterrupt (readyFor b) (readyFor b).cur = some b
        ∧ ¬ (b = 11 ∧ (readyFor b).cfg.fastRedirect = true) ∧ (readyFor b).me.late.mtvec = [] := by
  unfold HartsMove
  decide +kernel

/-- Fast redirect, with the table at `meivt`: source 5 reads its entry at `meivt + 0x14`. -/
def fastReady (meivt : Word) (e : EccStatus) : State :=
  let s := withCfg (readyFor 11) (fun c => { c with fastRedirect := true })
  broken (dccm (onMe s (fun h => { h with pic := { h.pic with meivt := meivt } })) 0x80414 [1, 2, 3, 4]) 0x80414 e

theorem witness_FastInterruptTaken :
    (∀ v ∈ [0x80400, 0x10000000, 0xA0000], ∀ e ∈ [EccStatus.ok, .double],
      let s := fastReady (BitVec.ofNat 32 v) e
      HartsMove s ∧ s.me.activity = .running ∧ s.me.debugRequest = none ∧ readyNmi s.me = none
        ∧ readyInterrupt s s.cur = some 11 ∧ s.cfg.fastRedirect = true)
      ∧ inDccm exampleConfig 0x80414 = true ∧ CleanWords (fastReady 0x80400 .ok) 0x80414 4
      ∧ (fastReady 0x80400 .ok).me.pic.meivt ||| (5#32 <<< 2) = 0x80414
      ∧ Placement.ownsRegion exampleConfig.dccm 0x10000014 = false
      ∧ Placement.ownsRegion exampleConfig.dccm 0xA0014 = true ∧ inDccm exampleConfig 0xA0014 = false
      ∧ (fastReady 0x80400 .double).cecd (some (fastReady 0x80400 .double).cur) = false
      ∧ BuildConfig.legal (fastReady 0x80400 .double).cfg = true ∧ (0x80414#32).toNat % 4 = 0
      ∧ (fastReady 0x80400 .double).sh.dccm.status (0x80414 / 4) = .double := by
  unfold HartsMove CleanWords
  and_intros <;> decide +kernel

/-- Each kind of NMI requested. -/
theorem witness_NmiTaken :
    let nmi (f : NmiState → NmiState) : State := onMe (enabled State.reset) (fun h => { h with nmi := f h.nmi })
    ∀ s ∈ [nmi (fun n => { n with load := true, store := true }), nmi (fun n => { n with store := true, pin := true }),
        nmi (fun n => { n with fast := some .ecc, pin := true }), nmi (fun n => { n with fast := some .dccmRegion }),
        nmi (fun n => { n with fast := some .nonDccm }), nmi (fun n => { n with pin := true })],
      HartsMove s ∧ s.me.activity = .running ∧ s.me.debugRequest = none ∧ s.me.stepMasks = false
        ∧ s.me.nmi.any = true := by
  unfold HartsMove
  decide +kernel

/-- A state with two candidates of one priority, and one with none. -/
theorem witness_PicEvaluation :
    let s := requesting (requesting State.reset 3 4) 31 4
    s.canonical = true ∧ s.cfg.pic.enable = true ∧ picReq s.cfg 3 (s.sh.source 3) = true
      ∧ picReq s.cfg 31 (s.sh.source 31) = true ∧ picWinner s.cfg s.sh .t0 = (3, 4)
      ∧ State.reset.canonical = true ∧ picWinner State.reset.cfg State.reset.sh .t0 = (0, 0) := by
  and_intros <;> decide +kernel

theorem witness_ClaimCaptures :
    State.reset.cfg.fastRedirect = false ∧ State.reset.me.pic.meivt &&& 0x3FF#32 = 0 := by
  and_intros <;> decide +kernel

/-- The first and the last source; a simple gateway; an edge-triggered one. -/
theorem witness_GatewayFollowsPin :
    let s := withCfg (State.reset.modSource 31 (fun p => { p with edge := true }))
      (fun c => { c with simpleGateways := [1] })
    s.canonical = true ∧ 31 ≤ s.cfg.picTotalInt ∧ configurable s.cfg 1 = false ∧ configurable s.cfg 31 = true
      ∧ (s.sh.source 31).edge = true ∧ configurable s.cfg 2 = true ∧ (s.sh.source 2).edge = false := by
  and_intros <;> decide +kernel

/-- A paused hart, at 0 and before it. -/
theorem witness_ClockTicks :
    ∀ n ∈ [0, 1],
      let s := onMe State.reset
        (fun h => { h with pwr := { h.pwr with pausing := true, pauseCount := BitVec.ofNat 32 n } })
      (s.hart .t0).activity ≠ .idle ∧ (s.hart .t0).pwr.pausing = true ∧ (s.hart .t0).activity ≠ .sleep
        ∧ (s.hart .t0).pwr.pauseCount = BitVec.ofNat 32 n := by decide +kernel

theorem witness_SleepAndPauseStart : State.reset.me.NoPendingLoads ∧ (acting State.reset .dbgHalt).me.NoPendingLoads := by
  unfold Hart.NoPendingLoads
  and_intros <;> decide +kernel

/-- Asleep, interrupt `b` enabled and pending, the internal timers with `halt_en`. -/
def asleep (b : Nat) : State :=
  let s := if b = 11 then requesting (enabled State.reset) 5 15 else readyFor b
  acting (onMe s (fun h => { h with tmr := { h.tmr with mitctl0 := 3, mitctl1 := 3 } })) .sleep

theorem witness_SleepEnds_wakes :
    ∀ b ∈ [3, 7, 11, 28, 29],
      let s := asleep b
      HartsMove s ∧ s.me.activity = .sleep ∧ s.me.debugRequest = none ∧ readyNmi s.me = none
        ∧ readyInterrupt s s.cur = some b ∧ s.me.late.mtvec = [] ∧ s.me.tmr.mitctl1.getLsbD 1 = true
        ∧ s.me.tmr.mitctl0.getLsbD 1 = true ∧ (b = 11 → mhwakeup s s.cur = true ∧ s.cfg.fastRedirect = false) := by
  unfold HartsMove
  decide +kernel

/-- Asleep with an NMI requested; asleep with the PMU's run request. -/
theorem witness_SleepEnds_events :
    let s := onMe (acting State.reset .sleep) (fun h => { h with nmi := { h.nmi with pin := true } })
    let r := onMe (acting State.reset .sleep) (fun h => { h with pins := { h.pins with cpuRunReq := true } })
    HartsMove s ∧ s.me.activity = .sleep ∧ s.me.debugRequest = none ∧ s.me.stepMasks = false ∧ s.me.nmi.any = true
      ∧ HartsMove r ∧ r.me.activity = .sleep ∧ r.me.debugRequest = none ∧ readyNmi r.me = none
      ∧ readyInterrupt r r.cur = none ∧ r.me.pins.cpuRunReq = true ∧ r.me.pins.cpuHaltReq = false
      ∧ r.me.pwr.pausing = false := by
  unfold HartsMove
  and_intros <;> decide +kernel

/-- T0 asleep with nothing to wake it, or pausing; T1 idle. -/
theorem witness_SleepEnds_ticks :
    let s := acting (enabled State.reset) .sleep
    let p := onMe State.reset (fun h => { h with pwr := { h.pwr with pausing := true } })
    HartsMove s ∧ s.h0.debugRequest = none ∧ s.h0.nmi.any = false ∧ s.h0.activity = .sleep
      ∧ s.h0.pins.cpuRunReq = false ∧ mhwakeup s .t0 = false
      ∧ (∀ b ∈ s.h0.wakeBits, ¬ ((requests s .t0).getLsbD b = true ∧ s.h0.trap.mie.getLsbD b = true))
      ∧ s.h1.activity = .idle
      ∧ HartsMove p ∧ p.h0.debugRequest = none ∧ p.h0.nmi.any = false ∧ p.h0.activity = .running
      ∧ p.h0.pwr.pausing = true ∧ p.h0.pins.cpuHaltReq = false ∧ readyInterrupt p .t0 = none
      ∧ p.cfg.pauseEndsOnDisabledInt = false ∧ p.h1.activity = .idle := by
  unfold HartsMove
  and_intros <;> decide +kernel

theorem witness_DebugControl :
    let s := onMe State.reset (fun h => { h with dctl := { h.dctl with pending := some 3 } })
    let t := onMe (acting State.reset .dbgHalt) (fun h => { h with dctl := { h.dctl with dbgHalt := true } })
    let u := onMe State.reset (fun h => { h with dctl := { h.dctl with stepping := true } })
    HartsMove s ∧ s.me.debugRequest = some (3, false) ∧ s.me.NoPendingLoads ∧ u.me.NoPendingLoads
      ∧ u.me.debugRequest = none
      ∧ (t.hart .t0).activity = .dbgHalt ∧ (t.hart .t0).dctl.dbgHalt = true ∧ (t.hart .t0).dctl.mpcHalt = false
      ∧ u.me.activity = .running ∧ u.me.dctl.stepping = true ∧ s.me.dctl.stepping = false := by
  unfold HartsMove Hart.NoPendingLoads
  and_intros <;> decide +kernel

/-- The second of four triggers matches the `pc`. -/
def triggered : State :=
  onMe (enabled State.reset) (fun h => { h with dbg := { h.dbg with
    triggers := [Trigger.initial] ++ { tdata1 := 0x23E00044, tdata2 := 0x40000 }
      :: [Trigger.initial, Trigger.initial] } })

theorem witness_TriggerBreakpoint :
    RunsNext triggered ∧ triggered.me.mie = true ∧ triggered.me.dctl.stepping = false
      ∧ triggered.me.dbg.triggers
        = [Trigger.initial] ++ { tdata1 := 0x23E00044, tdata2 := 0x40000 } :: [Trigger.initial, Trigger.initial]
      ∧ (∀ t ∈ [Trigger.initial] ++ [Trigger.initial, Trigger.initial],
        t.tdata1.extractLsb' 0 3 = 0#3 ∧ t.tdata1.getLsbD 11 = false)
      ∧ (0x23E00044#32).getLsbD 2 = true ∧ (0x23E00044#32).getLsbD 6 = true ∧ (0x23E00044#32).getLsbD 19 = false
      ∧ (0x23E00044#32).extractLsb' 7 9 = 0#9 ∧ triggered.me.pc = 0x40000 := by
  unfold RunsNext HartsMove
  and_intros <;> decide +kernel

/-- The first DCCM word, the last ICCM words, and an address in neither; accesses that are refused, one for each reason. -/
theorem witness_DmaAccesses :
    State.reset.canonical = true ∧ State.reset.sh.dmaJob = none ∧ (0x80000#32).toNat % 8 = 0
      ∧ inDccm State.reset.cfg 0x80000 = true ∧ inDccm State.reset.cfg 0x9FFFC = true
      ∧ inDccm State.reset.cfg 0x5FFFC = false ∧ inIccm State.reset.cfg 0x5FFFC = true
      ∧ (0x5FFF8#32).toNat % 8 = 0 ∧ inIccm State.reset.cfg 0x5FFF8 = true
      ∧ inDccm State.reset.cfg 0x60000 = false ∧ inIccm State.reset.cfg 0x60000 = false
      ∧ 2 ∉ [4, 8] ∧ (0x80004#32).toNat % 8 ≠ 0 ∧ 0x01#8 ∉ [0x0F#8, 0xF0#8, 0xFF#8] := by
  and_intros <;> decide +kernel

theorem witness_ResetValues :
    let s := State.reset.modPins .t1 (fun p => { p with mpcResetRunReq := false, mpcRunReq := true })
    State.reset.h0.pins.mpcResetRunReq = true ∧ State.reset.h1.pins.mpcRunReq = false
      ∧ (s.hart .t1).pins.mpcResetRunReq = false ∧ (s.hart .t1).pins.mpcRunReq = true := by
  and_intros <;> decide +kernel

/-- `mpc_debug_run_ack` of a hart that goes to Sleep stays up as long as the request (R707). -/
theorem test_run_ack_held :
    (run (State.reset.modPins .t0 (fun p => { p with mpcRunReq := true })) 0x7C61D073).map
      (fun t => (t.h0.activity, t.h0.mpcRunAck, (did t (.mpcRunReq .t0 false)).map (·.h0.mpcRunAck)))
      = some (.sleep, true, some false) := by decide +kernel

/-- T1 not started, with its reset-run pin high; low; low with an MPC run request; a single-thread build. -/
theorem witness_StartsT1 :
    let low : State := State.reset.modPins .t1 (fun p => { p with mpcResetRunReq := false })
    let asked : State := low.modPins .t1 (fun p => { p with mpcRunReq := true })
    State.reset.cur = .t0 ∧ State.reset.cfg.dualThread = true ∧ State.reset.sh.start1 = false
      ∧ State.reset.h1.pins.mpcResetRunReq = true
      ∧ low.cur = .t0 ∧ low.cfg.dualThread = true ∧ low.sh.start1 = false ∧ low.h1.pins.mpcResetRunReq = false
      ∧ low.h1.pins.mpcRunReq = false
      ∧ asked.cur = .t0 ∧ asked.cfg.dualThread = true ∧ asked.sh.start1 = false
      ∧ asked.h1.pins.mpcResetRunReq = false ∧ asked.h1.pins.mpcRunReq = true ∧ asked.h1.dctl.dbgHalt = false
      ∧ asked.h1.dctl.pending = none
      ∧ (withCfg State.reset (fun c => { c with dualThread := false })).cfg.dualThread = false := by
  and_intros <;> decide +kernel

/-- The invariants hold at reset with an instruction to fetch, and the machine steps from there. -/
theorem witness_StepKeeps :
    addNext.canonical = true ∧ addNext.legal = true ∧ (next? (step addNext)).isSome = true := by
  and_intros <;> decide +kernel

/-! ## Steps of the machine -/

/-- The step fetches and runs what `withFetchWord` placed: `add x5, x6, x7`. -/
theorem test_step_add :
    (next? (step ((ops 0x7FFFFFFF 1).withFetchWord 32 0x007302B3))).map (fun t => (t.reg 5, t.me.pc))
      = some (0x80000000, 0x40004) := by decide +kernel

/-- The last parcel of the ICCM starts a 32-bit instruction: the other half faults (2.9). -/
theorem test_step_straddle :
    (next? (step (atPc (dccm (enabled State.reset) 0x80000 []) 0x5FFFE |>.withFetchWord 16 0x0003))).map trapView
      = some (1, 2, 0x5FFFE, 0x60000, 0x40000) := by decide +kernel

/-- Interrupts of section 2.9 in vectored mode: the timer interrupt, and external before all others. -/
theorem test_step_interrupts :
    (next? (step (atPc (readyFor 7) 0x40200))).map trapView = some (0x80000007, 0, 0x40200, 0, 0x4001C)
      ∧ (next? (step (atPc (requesting (readyFor 7) 5 7) 0x40200))).map trapView
        = some (0x8000000B, 0, 0x40200, 0, 0x4002C) := by
  and_intros <;> decide +kernel

/-- The claim of section 2.10: sources 3 and 7 at priority 4, table at `0x80400`. -/
theorem test_claim :
    (run (onMe (requesting (requesting State.reset 3 4) 7 4)
        (fun h => { h with pic := { h.pic with meivt := 0x80400 } })) 0xBCA0D073).map
      (fun t => (csrOf t .meihap, csrOf t .meicidpl)) = some (0x8040C, 4) := by decide +kernel

/-- The internal timer at its bound clears (2.11). -/
theorem test_tick :
    (did (onMe State.reset (fun h => { h with tmr := { h.tmr with mitb0 := 3, mitcnt0 := 3 } })) .tick).map
      (·.h0.tmr.mitcnt0) = some 0 := by decide +kernel

/-- `csrwi mpmc, 3`: asleep with `MIE` set (2.11). -/
theorem test_sleep :
    (run (atPc State.reset 0x40300) 0x7C61D073).map
      (fun t => (t.me.activity, t.me.trap.mstatus, csrOf t .mpmc, t.me.pc)) = some (.sleep, 0x1808, 2, 0x40304) := by
  decide +kernel

end Sys2Proof.Tests
end

/-! PROOFS. The RV32I computational instructions: what each operator of the ALU computes, in the specification's
arithmetic, and from it what each instruction writes (R300 to R321). -/

namespace Sys2Proof.Rv32iAlu

open Sys2Proof Sys2Proof.Machine

/-! ## The operators of the ALU in the specification's arithmetic -/

theorem uImm_eq_shiftLeft (upper : BitVec 20) : uImm upper = upper.zeroExtend 32 <<< 12 := by
  apply BitVec.eq_of_toNat_eq
  have happend : (uImm upper).toNat = upper.toNat <<< 12 ||| 0 := BitVec.toNat_append ..
  have hfit : upper.toNat * 4096 < 4294967296 := by omega
  simp [happend, Nat.shiftLeft_eq, Nat.mod_eq_of_lt hfit]

theorem boolWord_lessSigned (a b : Word) : boolWord (lessSigned a b) = if a.toInt < b.toInt then 1 else 0 := by
  simp [boolWord, lessSigned]

theorem boolWord_lessUnsigned (a b : Word) : boolWord (lessUnsigned a b) = if a.toNat < b.toNat then 1 else 0 := by
  simp [boolWord, lessUnsigned]

/-- Sign extension keeps the value, so `slti` compares with the immediate's own (R304). -/
theorem boolWord_lessSigned_sext (a : Word) (imm : BitVec 12) :
    boolWord (lessSigned a (sext imm)) = if a.toInt < imm.toInt then 1 else 0 := by
  have hvalue : (sext imm).toInt = imm.toInt := BitVec.toInt_signExtend_of_le (by decide)
  rw [boolWord_lessSigned, hvalue]

theorem shiftLeft_eq_mul (a : Word) (n : BitVec 5) : shiftLeft a n = BitVec.ofNat 32 (a.toNat * 2 ^ n.toNat) := by
  apply BitVec.eq_of_toNat_eq
  rw [shiftLeft, BitVec.toNat_shiftLeft, BitVec.toNat_ofNat, Nat.shiftLeft_eq]

theorem shiftRight_eq_div (a : Word) (n : BitVec 5) : shiftRight a n = BitVec.ofNat 32 (a.toNat / 2 ^ n.toNat) := by
  apply BitVec.eq_of_toNat_eq
  have hfit : a.toNat / 2 ^ n.toNat < 2 ^ 32 := Nat.lt_of_le_of_lt (Nat.div_le_self ..) a.isLt
  rw [shiftRight, BitVec.toNat_ushiftRight, BitVec.toNat_ofNat, Nat.shiftRight_eq_div_pow, Nat.mod_eq_of_lt hfit]

/-- The arithmetic shift rounds towards minus infinity, as integer division by a positive number does (R311). -/
theorem shiftRightArith_eq_div (a : Word) (n : BitVec 5) :
    shiftRightArith a n = BitVec.ofInt 32 (a.toInt / 2 ^ n.toNat) := by
  rw [shiftRightArith, BitVec.sshiftRight, Int.shiftRight_eq_div_pow, Int.natCast_pow, Int.cast_ofNat_Int]

/-- The five low bits of a register are its value modulo 32 (R314). -/
theorem toNat_shiftAmount (b : Word) : (shiftAmount b).toNat = b.toNat % 32 := by
  rw [shiftAmount, BitVec.extractLsb'_toNat, Nat.shiftRight_zero]

theorem shiftLeft_shiftAmount (a b : Word) :
    shiftLeft a (shiftAmount b) = BitVec.ofNat 32 (a.toNat * 2 ^ (b.toNat % 32)) := by
  rw [shiftLeft_eq_mul, toNat_shiftAmount]

theorem shiftRight_shiftAmount (a b : Word) :
    shiftRight a (shiftAmount b) = BitVec.ofNat 32 (a.toNat / 2 ^ (b.toNat % 32)) := by
  rw [shiftRight_eq_div, toNat_shiftAmount]

theorem shiftRightArith_shiftAmount (a b : Word) :
    shiftRightArith a (shiftAmount b) = BitVec.ofInt 32 (a.toInt / 2 ^ (b.toNat % 32)) := by
  rw [shiftRightArith_eq_div, toNat_shiftAmount]

/-! ## The instructions -/

/-- An instruction whose meaning is to write back `v` computes any `w` equal to `v`: with it, each instruction is left
with the one equation between the model's operator and the specification's. -/
theorem computes_of_exec_writeBack {i : Instr} {s : State} {len : Nat} {rd : Reg} {v w : Word}
    (hexec : exec i s = .next (s.writeBack len aluEvents rd v)) (hvalue : v = w) :
    ∃ t, exec i s = .next t ∧ Computes s t len [15] rd w := by
  subst hvalue
  exact ⟨_, hexec, computes_writeBack s len aluEvents rd v⟩

/-- Settles O8: each shift writes back its operator's value, which is the product or the floor quotient. -/
theorem shifts : Obligations.Shifts := by
  refine fun s rd rs1 rs2 sh => ⟨?slli, ?srli, ?srai, ?sll, ?srl, ?sra⟩
  case slli => exact computes_of_exec_writeBack rfl (shiftLeft_eq_mul ..)
  case srli => exact computes_of_exec_writeBack rfl (shiftRight_eq_div ..)
  case srai => exact computes_of_exec_writeBack rfl (shiftRightArith_eq_div ..)
  case sll => exact computes_of_exec_writeBack rfl (shiftLeft_shiftAmount ..)
  case srl => exact computes_of_exec_writeBack rfl (shiftRight_shiftAmount ..)
  case sra => exact computes_of_exec_writeBack rfl (shiftRightArith_shiftAmount ..)

/-- Settles O7: the upper immediate and the comparisons by their equations; in the other instructions the model's operator
is the specification's. -/
theorem integerOps : Obligations.IntegerOps := by
  refine ⟨fun s rd rs1 upper imm => ⟨?lui, ?auipc, ?addi, ?slti, ?sltiu, ?xori, ?ori, ?andi⟩,
    fun s rd rs1 rs2 => ⟨?add, ?sub, ?slt, ?sltu, ?xor, ?or, ?and⟩⟩
  case lui => exact computes_of_exec_writeBack rfl (uImm_eq_shiftLeft upper)
  case auipc => exact computes_of_exec_writeBack rfl (congrArg (s.me.pc + ·) (uImm_eq_shiftLeft upper))
  case slti => exact computes_of_exec_writeBack rfl (boolWord_lessSigned_sext ..)
  case sltiu => exact computes_of_exec_writeBack rfl (boolWord_lessUnsigned ..)
  case slt => exact computes_of_exec_writeBack rfl (boolWord_lessSigned ..)
  case sltu => exact computes_of_exec_writeBack rfl (boolWord_lessUnsigned ..)
  case addi | xori | ori | andi | add | sub | xor | or | and => exact computes_of_exec_writeBack rfl rfl

end Sys2Proof.Rv32iAlu

/-! PROOFS. The RV32I control transfers: what each comparison decides, in the specification's arithmetic, and from it when
each branch is taken; what each jump comes to (R331 to R339). -/

namespace Sys2Proof.Rv32iControl

open Sys2Proof Sys2Proof.Machine

/-! ## The comparisons and the target of `jalr` -/

theorem lessSigned_eq_true_iff (a b : Word) : lessSigned a b = true ↔ a.toInt < b.toInt := by
  rw [lessSigned, decide_eq_true_iff]

theorem lessUnsigned_eq_true_iff (a b : Word) : lessUnsigned a b = true ↔ a.toNat < b.toNat := by
  rw [lessUnsigned, decide_eq_true_iff]

theorem not_lessSigned_eq_true_iff (a b : Word) : (!lessSigned a b) = true ↔ b.toInt ≤ a.toInt := by
  rw [Bool.not_eq_true', ← Bool.not_eq_true, lessSigned_eq_true_iff, Int.not_lt]

theorem not_lessUnsigned_eq_true_iff (a b : Word) : (!lessUnsigned a b) = true ↔ b.toNat ≤ a.toNat := by
  rw [Bool.not_eq_true', ← Bool.not_eq_true, lessUnsigned_eq_true_iff, Nat.not_lt]

/-- The model's even address is the target with bit 0 cleared (R332). -/
theorem evenPc_eq_and_not_one (a : Word) : evenPc a = a &&& ~~~1#32 := rfl

/-! ## The instructions -/

/-- An instruction whose meaning is a jump to `target` jumps to any `w` equal to `target`; the link and the target are
taken from the state before it, so `rd` may be `rs1`. -/
theorem jumps_of_exec_jumpInstr {i : Instr} {s : State} {len : Nat} {rd : Reg} {target w : Word}
    (hexec : exec i s = .next (s.jumpInstr len rd target)) (htarget : target = w) :
    ∃ t, exec i s = .next t ∧ Jumps s t len rd w := by
  subst htarget
  exact ⟨_, hexec, jumps_jumpInstr s len rd target⟩

/-- An instruction whose meaning is a branch on the model's comparison branches on any condition the comparison decides:
with it, each branch is left with that one equivalence. -/
theorem branches_of_exec_branchInstr {i : Instr} {s : State} {len : Nat} {taken : Bool} {cond : Prop} {off : Word}
    (hexec : exec i s = .next (s.branchInstr len taken off)) (hcond : taken = true ↔ cond) :
    ∃ t, exec i s = .next t ∧ Branches s t len cond off := by
  obtain rfl : (taken = true) = cond := propext hcond
  exact ⟨_, hexec, branches_branchInstr s len taken off⟩

/-- Settles O13: the jumps by their targets, each branch by what its comparison decides. -/
theorem jumpsAndBranches : Obligations.JumpsAndBranches := by
  refine ⟨fun s rd rs1 off imm => ⟨?jal, ?jalr⟩, fun s rs1 rs2 off => ⟨?beq, ?bne, ?blt, ?bge, ?bltu, ?bgeu⟩⟩
  case jal => exact jumps_of_exec_jumpInstr rfl rfl
  case jalr => exact jumps_of_exec_jumpInstr rfl (evenPc_eq_and_not_one _)
  case beq => exact branches_of_exec_branchInstr rfl beq_iff_eq
  case bne => exact branches_of_exec_branchInstr rfl bne_iff_ne
  case blt => exact branches_of_exec_branchInstr rfl (lessSigned_eq_true_iff ..)
  case bge => exact branches_of_exec_branchInstr rfl (not_lessSigned_eq_true_iff ..)
  case bltu => exact branches_of_exec_branchInstr rfl (lessUnsigned_eq_true_iff ..)
  case bgeu => exact branches_of_exec_branchInstr rfl (not_lessUnsigned_eq_true_iff ..)

end Sys2Proof.Rv32iControl

/-! PROOFS. What draining a hart's buffers leaves as it was, with no load waiting for its data (R229, R234, R700): the
hart keeps all but its buffers and the capture of a bus error, the other hart all but its reservation. -/

namespace Sys2Proof.Draining

open Sys2Proof Sys2Proof.Machine

/-! ## Work on the bus -/

/-- The bus works for hart `i`, and leaves its responses `q` outstanding: of the harts only these and the capture of a bus
error may change; of the shared state and the draws nothing is said. -/
structure BusWork (i : HartId) (q : List BusResp) (s t : State) : Prop where
  cfg : t.cfg = s.cfg
  cur : t.cur = s.cur
  other : t.hart i.other = s.hart i.other
  hart : ∃ nmi, t.hart i = { s.hart i with nmi := nmi, buf := { (s.hart i).buf with inflight := q } }

/-- No load waits for one of these responses (R228). -/
def NoLoads (q : List BusResp) : Prop := ∀ r ∈ q, r.load = none

section
variable {i : HartId} {p q : List BusResp} {s t u : State}

theorem NoLoads.filter (h : NoLoads q) (sel : BusResp → Bool) : NoLoads (q.filter sel) :=
  fun r hr => h r (List.mem_filter.1 hr).1

theorem BusWork.trans (hst : BusWork i p s t) (htu : BusWork i q t u) : BusWork i q s u := by
  obtain ⟨m, hm⟩ := hst.hart
  obtain ⟨n, hn⟩ := htu.hart
  exact ⟨htu.cfg.trans hst.cfg, htu.cur.trans hst.cur, htu.other.trans hst.other, n, by rw [hn, hm]⟩

theorem BusWork.inflight (h : BusWork i q s t) : (t.hart i).buf.inflight = q := by
  obtain ⟨n, hn⟩ := h.hart
  rw [hn]

/-- Work that keeps the outstanding responses, after work that left `q` outstanding. -/
theorem BusWork.andKeep (hst : BusWork i q s t) (htu : BusWork i (t.hart i).buf.inflight t u) : BusWork i q s u := by
  rw [hst.inflight] at htu
  exact hst.trans htu

/-- Where neither hart changes, the outstanding responses stay. -/
theorem busWork_of_harts (hcfg : t.cfg = s.cfg) (hcur : t.cur = s.cur) (hharts : ∀ j, t.hart j = s.hart j) :
    BusWork i (s.hart i).buf.inflight s t :=
  ⟨hcfg, hcur, hharts _, (s.hart i).nmi, hharts i⟩

theorem BusWork.refl : BusWork i (s.hart i).buf.inflight s s := busWork_of_harts rfl rfl fun _ => rfl

theorem busWork_draw : BusWork i (s.hart i).buf.inflight s s.draw := busWork_of_harts rfl rfl (State.draw_hart s)

theorem busWork_setInflight : BusWork i q s (s.setInflight i q) := by
  unfold State.setInflight
  exact ⟨by simp, by simp, by simp, (s.hart i).nmi, by simp⟩

theorem busWork_reportError (store : Bool) (a : Word) :
    BusWork i (s.hart i).buf.inflight s (reportError s i store a) := by
  unfold reportError
  exact ⟨by simp, by simp, by simp, _, by rw [State.draw_hart, State.hart_setHart_self]⟩

theorem busWork_deliver {r : BusResp} (hr : r.load = none) : BusWork i (s.hart i).buf.inflight s (deliver s i r) := by
  unfold deliver
  rw [hr]
  dsimp only
  split
  · exact busWork_reportError ..
  · exact BusWork.refl

theorem busWork_foldl_deliver {rs : List BusResp} (hrs : NoLoads rs) :
    BusWork i (s.hart i).buf.inflight s (rs.foldl (fun t r => deliver t i r) s) := by
  induction rs generalizing s with
  | nil => exact BusWork.refl
  | cons r rs ih =>
    obtain ⟨hr, hrest⟩ := List.forall_mem_cons.1 hrs
    exact (busWork_deliver hr).andKeep (ih hrest)

theorem busWork_deliverAll (h : NoLoads (s.hart i).buf.inflight) : BusWork i [] s (deliverAll s i) :=
  busWork_setInflight.andKeep (busWork_foldl_deliver h)

theorem busWork_deliverWhere (h : NoLoads (s.hart i).buf.inflight) (sel : BusResp → Bool) :
    BusWork i ((s.hart i).buf.inflight.filter (fun r => !sel r)) s (deliverWhere s i sel) :=
  busWork_setInflight.andKeep (busWork_foldl_deliver (h.filter sel))

/-- Before a transaction some responses arrive, and no load has anything to read. -/
theorem busWork_awaitEarlier (h : NoLoads (s.hart i).buf.inflight) (a n : Nat) :
    ∃ q, NoLoads q ∧ BusWork i q s (awaitEarlier s i a n) := by
  unfold awaitEarlier
  dsimp only
  split
  · have harrive := busWork_deliverWhere h (fun r => r.store && r.sideEffect)
    have hleft := h.filter (fun r => !(r.store && r.sideEffect))
    rw [readPending_noLoads (by rw [Hart.NoPendingLoads, harrive.inflight]; exact hleft)]
    exact ⟨_, hleft, harrive⟩
  · rw [readPending_noLoads h]
    exact ⟨_, h, BusWork.refl⟩

/-- A transaction no load waits for becomes outstanding. -/
theorem busWork_issue (h : NoLoads (s.hart i).buf.inflight) (x : BusTxn) (r : BusResp) (hr : r.load = none) :
    ∃ q, NoLoads q ∧ BusWork i q s (issue s i x r) := by
  refine ⟨(s.hart i).buf.inflight ++ [r], List.forall_mem_append.2 ⟨h, List.forall_mem_singleton.2 hr⟩, ?_⟩
  unfold issue State.setInflight
  exact ⟨by simp, by simp, by simp, (s.hart i).nmi, by simp⟩

theorem busWork_busWriteByte (ordered : Bool) (a : Nat) (b : Byte) :
    BusWork i (s.hart i).buf.inflight s (busWriteByte s ordered a b) := by
  unfold busWriteByte
  split
  · exact busWork_of_harts rfl rfl (State.withSh_hart s _)
  · exact BusWork.refl
  · exact BusWork.refl

theorem busWork_busWriteBytes (ordered : Bool) (a : Nat) (bs : List Byte) :
    BusWork i (s.hart i).buf.inflight s (busWriteBytes s ordered a bs) := by
  induction bs generalizing s a with
  | nil => exact BusWork.refl
  | cons b bs ih => exact (busWork_busWriteByte ordered a b).andKeep (ih (a + 1))

/-- A buffered store that becomes a bus write leaves one more response outstanding, its own. -/
theorem busWork_writeWbEntry (h : NoLoads (s.hart i).buf.inflight) (e : WbEntry) :
    ∃ q, NoLoads q ∧ BusWork i q s (writeWbEntry s i e) := by
  obtain ⟨q, hq, hwait⟩ := busWork_awaitEarlier h e.addr.toNat e.data.length
  obtain ⟨q', hq', hissue⟩ := busWork_issue (hwait.inflight.symm ▸ hq)
    { hart := i, write := true, addr := e.addr, size := e.data.length, data := addressed e.addr.toNat e.data }
    { store := true, addr := e.addr, error := e.errs (awaitEarlier s i e.addr.toNat e.data.length)
      sideEffect := e.sideEffect } rfl
  refine ⟨q', hq', (hwait.trans hissue).trans ?_⟩
  rw [← hissue.inflight]
  refine BusWork.andKeep ?_ busWork_draw
  split
  · exact BusWork.refl
  · exact busWork_busWriteBytes ..

theorem busWork_foldl_writeWbEntry (es : List WbEntry) (h : NoLoads (s.hart i).buf.inflight) :
    ∃ q, NoLoads q ∧ BusWork i q s (es.foldl (fun t e => writeWbEntry t i e) s) := by
  induction es generalizing s with
  | nil => exact ⟨_, h, BusWork.refl⟩
  | cons e es ih =>
    obtain ⟨q, hq, hfirst⟩ := busWork_writeWbEntry h e
    obtain ⟨q', hq', hrest⟩ := ih (s := writeWbEntry s i e) (by rw [hfirst.inflight]; exact hq)
    exact ⟨q', hq', hfirst.trans hrest⟩

/-- The write buffer leaves, then every response arrives: none is outstanding. -/
theorem busWork_deliverAll_drainWbAll (h : NoLoads (s.hart i).buf.inflight) :
    BusWork i [] (s.setWb i []) (deliverAll (drainWbAll s i) i) := by
  have hset : ((s.setWb i []).hart i).buf.inflight = (s.hart i).buf.inflight := by simp [State.setWb]
  obtain ⟨q, hq, hwrites⟩ := busWork_foldl_writeWbEntry (s.hart i).buf.wb (hset ▸ h)
  have hleft : ((drainWbAll s i).hart i).buf.inflight = q := hwrites.inflight
  exact hwrites.trans (busWork_deliverAll (hleft ▸ hq))

/-! ## The store queue -/

/-- Stores of hart `i` reach the DCCM: it is as it was, and the other hart too, but that its reservation may be gone. -/
structure StoresLand (i : HartId) (s t : State) : Prop where
  cfg : t.cfg = s.cfg
  cur : t.cur = s.cur
  hart : t.hart i = s.hart i
  other : t.hart i.other = s.hart i.other ∨ t.hart i.other = { s.hart i.other with res := none }

theorem StoresLand.trans (hst : StoresLand i s t) (htu : StoresLand i t u) : StoresLand i s u := by
  refine ⟨htu.cfg.trans hst.cfg, htu.cur.trans hst.cur, htu.hart.trans hst.hart, ?_⟩
  obtain hu | hu := htu.other
  · rw [hu]
    exact hst.other
  · obtain ht | ht := hst.other <;> exact .inr (by rw [hu, ht])

theorem clearResAt_cases (h : Hart) (a : Nat) : h.clearResAt a = h ∨ h.clearResAt a = { h with res := none } := by
  unfold Hart.clearResAt
  split
  · split
    · exact .inr rfl
    · exact .inl rfl
  · exact .inl rfl

theorem storesLand_writeSqEntry (e : SqEntry) : StoresLand i s (writeSqEntry s i e) := by
  unfold writeSqEntry
  refine ⟨by simp, by simp, by simp, ?_⟩
  simpa using clearResAt_cases (s.hart i.other) e.addr.toNat

theorem storesLand_foldl_writeSqEntry (es : List SqEntry) :
    StoresLand i s (es.foldl (fun t e => writeSqEntry t i e) s) := by
  induction es generalizing s with
  | nil => exact ⟨rfl, rfl, rfl, .inl rfl⟩
  | cons e es ih => exact (storesLand_writeSqEntry e).trans ih

theorem storesLand_drainSqAll : StoresLand i (s.setSq i []) (drainSqAll s i) := storesLand_foldl_writeSqEntry _

/-! ## The hart quiesced -/

/-- A hart whose stores have left and whose responses have arrived, a bus error among them captured in `nmi`; its fetches
are finished. -/
def quiesced (h : Hart) (nmi : NmiState) : Hart :=
  { h with nmi := nmi, buf := { h.buf with sq := [], wb := [], inflight := [], ifuBusy := false } }

/-- Everything quiescing a hart does to the harts, where no load waits. -/
theorem quiesce_harts (h : (s.hart i).NoPendingLoads) :
    (quiesce s i).cfg = s.cfg ∧ (quiesce s i).cur = s.cur
      ∧ (∃ nmi, (quiesce s i).hart i = quiesced (s.hart i) nmi)
      ∧ ((quiesce s i).hart i.other = s.hart i.other
        ∨ (quiesce s i).hart i.other = { s.hart i.other with res := none }) := by
  have hbus := busWork_deliverAll_drainWbAll h
  obtain ⟨nmi, hnmi⟩ := hbus.hart
  have hland : StoresLand i ((deliverAll (drainWbAll s i) i).setSq i []) (drainHart s i) := storesLand_drainSqAll
  have hcfg : (drainHart s i).cfg = s.cfg := by simpa [State.setSq, State.setWb, hbus.cfg] using hland.cfg
  have hcur : (drainHart s i).cur = s.cur := by simpa [State.setSq, State.setWb, hbus.cur] using hland.cur
  have hhart := hland.hart
  have hother := hland.other
  simp only [State.setSq, State.hart_setHart_self, State.hart_setHart_other, hnmi, hbus.other, State.setWb]
    at hhart hother
  unfold quiesce
  dsimp only
  refine ⟨by simpa using hcfg, by simpa using hcur, ⟨nmi, ?_⟩, by simpa using hother⟩
  rw [State.hart_setHart_self, hhart, quiesced]

/-- Everything entering Debug Mode does to the harts, where no load waits (R705). -/
theorem enterDebug_harts (h : (s.hart i).NoPendingLoads) (cause : BitVec 3) (mpc : Bool) :
    (enterDebug s i cause mpc).cfg = s.cfg ∧ (enterDebug s i cause mpc).cur = s.cur
      ∧ (∃ nmi, (enterDebug s i cause mpc).hart i = (quiesced (s.hart i) nmi).haltForDebug cause mpc)
      ∧ ((enterDebug s i cause mpc).hart i.other = s.hart i.other
        ∨ (enterDebug s i cause mpc).hart i.other = { s.hart i.other with res := none }) := by
  obtain ⟨hcfg, hcur, ⟨nmi, hnmi⟩, hother⟩ := quiesce_harts h
  unfold enterDebug
  dsimp only
  exact ⟨by simpa using hcfg, by simpa using hcur, ⟨nmi, by rw [State.hart_setHart_self, hnmi]⟩, by simpa using hother⟩

end

end Sys2Proof.Draining

/-! PROOFS. The RV32I system instructions: `wfi`, `ecall`, `ebreak`, `mret` and `dret`, and the compressed `c.nop` and
`c.ebreak` (R372 to R377, R444, R464). -/

namespace Sys2Proof.Rv32iSystem

open Sys2Proof Sys2Proof.Machine Sys2Proof.Draining

/-! ## `wfi` and `c.nop` -/

/-- An instruction whose meaning is to retire and go on at `target` keeps every register and is local. -/
theorem localOnly_of_exec_completeAt {i : Instr} {s : State} {len : Nat} {evs : List Nat} {target : Word}
    (hexec : exec i s = .next (s.completeAt len evs target)) :
    ∃ t, exec i s = .next t ∧ RegsSame s t ∧ t.me.pc = target ∧ LocalOnly s t len evs 0 :=
  ⟨_, hexec, fun r => State.completeAt_reg s len evs target r, by simp, localOnly_completeAt s len evs target⟩

/-- Settles O12: both complete with event 15, at the address after them. -/
theorem nops : Obligations.Nops :=
  fun _ _ => ⟨localOnly_of_exec_completeAt rfl, localOnly_of_exec_completeAt rfl⟩

/-! ## `mret` -/

theorem mie_returnFromTrap (h : Hart) : h.returnFromTrap.mie = h.mpie := by
  show (mstatusReturn h.trap.mstatus).getLsbD 3 = h.trap.mstatus.getLsbD 7
  rw [getLsbD_mstatusReturn, if_neg (by decide), if_pos rfl]

theorem mpie_returnFromTrap (h : Hart) : h.returnFromTrap.mpie = true := by
  show (mstatusReturn h.trap.mstatus).getLsbD 7 = true
  rw [getLsbD_mstatusReturn, if_pos rfl]

theorem mstatus_returnFromTrap_rest (h : Hart) :
    h.returnFromTrap.trap.mstatus &&& 0xFFFFFF77#32 = h.trap.mstatus &&& 0xFFFFFF77#32 :=
  mstatusReturn_rest h.trap.mstatus

theorem mpie_retire (h : Hart) (len : Nat) (evs : List Nat) : (h.retire len evs).mpie = h.mpie := by
  simp [Hart.mpie]

/-- An executing hart replaced by one with the same buffers reads every byte of memory as before. -/
theorem memorySame_setMe {s : State} {h : Hart} (hbuf : h.buf = s.me.buf) : MemorySame s (s.setMe h) :=
  memorySame_of (by simp) (by simp) (stores_same (rd := 0) (by simp) (by simp [hbuf]) (by simp))

theorem memorySame_trans {s t u : State} (hst : MemorySame s t) (htu : MemorySame t u) : MemorySame s u :=
  fun a => ⟨fun i => ((htu a).1 i).trans ((hst a).1 i), (htu a).2.trans (hst a).2⟩

/-- The state `mret` leaves (R374, R570). -/
def afterMret (s : State) : State := s.setMe (s.me.retire 4 [23]).returnFromTrap

theorem exec_mret (s : State) : exec .mret s = .next (afterMret s) := rfl

@[simp] theorem afterMret_me (s : State) : (afterMret s).me = (s.me.retire 4 [23]).returnFromTrap := by
  simp [afterMret]

theorem afterMret_mie (s : State) : (afterMret s).me.mie = s.me.mpie := by
  rw [afterMret_me, mie_returnFromTrap, mpie_retire]

theorem afterMret_pc (s : State) : (afterMret s).me.pc = evenPc s.me.trap.mepc := by simp

theorem afterMret_regsSame (s : State) : RegsSame s (afterMret s) := fun r => by simp [State.reg]

theorem afterMret_memorySame (s : State) : MemorySame s (afterMret s) := memorySame_setMe (by simp)

theorem afterMret_othersSame (s : State) : OthersSame s (afterMret s) := by
  unfold afterMret
  exact ⟨by simp, by simp, by simp⟩

/-- An even address is its own even address, saved and restored (R550, R570). -/
theorem evenPc_of_even {a : Word} (h : a.toNat % 2 = 0) : evenPc a = a := by
  have hbit : a.getLsbD 0 = false := by rw [BitVec.getLsbD, Nat.testBit_zero, h]; rfl
  have hmask : ∀ j < 32, (0xFFFFFFFE#32).getLsbD j = !decide (j = 0) := by decide
  apply BitVec.eq_of_getLsbD_eq
  intro j hj
  rw [evenPc, BitVec.getLsbD_and, hmask j hj]
  by_cases hzero : j = 0
  · rw [hzero, hbit]; rfl
  · simp [hzero]

/-- Settles O33: `mret` gives back what a trap entry saved, the even `pc` in `mepc` and `MIE` in `MPIE`. -/
theorem trapReturn : Obligations.TrapReturn := by
  refine ⟨fun s => ⟨_, exec_mret s, ?returns⟩,
    fun s t evs cause secondary tval heven htraps => ⟨_, exec_mret t, ?undoes⟩⟩
  case returns =>
    refine ⟨afterMret_pc s, afterMret_mie s, ?_, by simp, ?_, ?_, afterMret_regsSame s, afterMret_othersSame s,
      by simp [afterMret], afterMret_memorySame s, ?_⟩
    · rw [afterMret_me, mpie_returnFromTrap]
    · rw [afterMret_me, mstatus_returnFromTrap_rest, Hart.retire_trap]
    · rw [afterMret_me, Hart.returnFromTrap, Hart.retire_trap]
    · simp
  case undoes =>
    obtain ⟨⟨hmepc, -, -, -, hmpie, -, -, -, -, -, -, -, -, -, -, hregs, -, -, hmemory⟩, -⟩ := htraps
    refine ⟨?_, (afterMret_mie t).trans hmpie, fun r => (afterMret_regsSame t r).trans (hregs r),
      memorySame_trans hmemory (afterMret_memorySame t)⟩
    rw [afterMret_pc, hmepc, evenPc_of_even heven, evenPc_of_even heven]

/-! ## `ecall`, `ebreak` and `c.ebreak` -/

@[simp] theorem countEvents_cfg (s : State) (evs : List Nat) : (s.countEvents evs).cfg = s.cfg := by
  simp [State.countEvents]

@[simp] theorem countEvents_cur (s : State) (evs : List Nat) : (s.countEvents evs).cur = s.cur := by
  simp [State.countEvents]

@[simp] theorem countEvents_sh (s : State) (evs : List Nat) : (s.countEvents evs).sh = s.sh := by
  simp [State.countEvents]

@[simp] theorem countEvents_me (s : State) (evs : List Nat) : (s.countEvents evs).me = s.me.countEvents evs := by
  simp [State.countEvents]

@[simp] theorem countEvents_hart_other (s : State) (evs : List Nat) :
    (s.countEvents evs).hart s.cur.other = s.hart s.cur.other := by
  simp [State.countEvents]

/-- Counting events changes the counters alone. -/
theorem hart_countEvents_eq (h : Hart) (evs : List Nat) :
    h.countEvents evs = { h with ctr := (h.countEvents evs).ctr } := by
  unfold Hart.countEvents
  split <;> rfl

/-- An exception an instruction raises after it has counted events of its own: event 37 is one more (R682, R686). -/
theorem traps_raise_countEvents (s : State) (evs : List Nat) (cause : Word) (m : BitVec 4) (tval : Word)
    (h : s.me.activity ≠ .dbgHalt) :
    Traps s ((s.countEvents evs).raise cause m tval) (evs ++ [37]) cause m tval := by
  have hraise : (s.countEvents evs).raise cause m tval
      = s.setMe ((s.me.countEvents (evs ++ [37])).enterTrap cause m tval s.me.trapBase) := by
    simp [State.raise, h, countEvents_append, Hart.trapBase, State.countEvents]
  rw [hraise]
  exact ⟨trapEntry_enterTrap s (evs ++ [37]) cause m tval s.me.trapBase, by simp, by simp, by simp, by simp, by simp,
    by simp, by simp, by simp, by simp, by simp, by simp⟩

@[simp] theorem ebreakm_countEvents (h : Hart) (evs : List Nat) : (h.countEvents evs).ebreakm = h.ebreakm := by
  simp [Hart.ebreakm]

@[simp] theorem busBusy_countEvents (h : Hart) (evs : List Nat) : (h.countEvents evs).busBusy = h.busBusy := by
  simp [Hart.busBusy]

/-! ### What a breakpoint comes to, case by case (R373, R464) -/

theorem exec_breakpoint {i : Instr} (hi : i ∈ [Instr.ebreak, Instr.cEbreak]) (s : State) :
    exec i s = .next s.breakpoint := by
  simp only [List.mem_cons, List.not_mem_nil, or_false] at hi
  obtain rfl | rfl := hi <;> rfl

theorem breakpoint_dbgHalt {s : State} (h : s.me.activity = .dbgHalt) : s.breakpoint = s.countEvents [19] := by
  simp [State.breakpoint, h]

theorem breakpoint_exception {s : State} (h : s.me.activity ≠ .dbgHalt) (hm : s.me.ebreakm = false) :
    s.breakpoint = (s.countEvents [19]).raise 3 2 (policyTval s.cfg s.me.pc) := by
  simp [State.breakpoint, h, hm]

theorem breakpoint_debug {s : State} (h : s.me.activity ≠ .dbgHalt) (hm : s.me.ebreakm = true) :
    s.breakpoint = requestDebug (s.countEvents [19]) 1 := by
  simp [State.breakpoint, h, hm]

/-! ### What a request for Debug Mode comes to, case by case -/

theorem requestDebug_stepping {s : State} (h : s.me.dctl.stepping = true) (cause : BitVec 3) :
    requestDebug s cause = s.setMe { s.me with dctl := { s.me.dctl with brkpt := true } } := by
  simpa [h] using requestDebug_cases s cause

/-- With the timeout enabled and bus transactions unfinished the request waits (R712). -/
theorem requestDebug_waits {s : State} (h : s.me.dctl.stepping = false) (htimeout : s.sh.mfdht.getLsbD 0 = true)
    (hbusy : s.me.busBusy = true) (cause : BitVec 3) :
    requestDebug s cause
      = s.setMe { s.me with dctl := { s.me.dctl with pending := some (s.me.dctl.pending.getD cause) } } := by
  have hwait : (s.sh.mfdht.getLsbD 0 && s.me.busBusy) = true := by rw [htimeout, hbusy]; rfl
  simpa only [h, hwait, Bool.false_eq_true, Bool.true_eq_false, false_and, true_and, false_or, or_false]
    using requestDebug_cases s cause

theorem requestDebug_enters {s : State} (h : s.me.dctl.stepping = false)
    (hfree : s.sh.mfdht.getLsbD 0 = false ∨ s.me.busBusy = false) (cause : BitVec 3) :
    requestDebug s cause = enterDebug s s.cur cause false := by
  have hgo : (s.sh.mfdht.getLsbD 0 && s.me.busBusy) = false := by
    rw [Bool.and_eq_false_iff]
    exact hfree
  simpa only [h, hgo, Bool.false_eq_true, false_and, true_and, false_or] using requestDebug_cases s cause

/-- A field that was put is found where it was put. -/
theorem extractLsb'_putField {w : Nat} (v : Word) (lo : Nat) (f : BitVec w) (h : lo + w ≤ 32) :
    (putField v lo f).extractLsb' lo w = f := by
  apply BitVec.eq_of_getLsbD_eq
  intro j hj
  have hlt : lo + j < 32 := by omega
  have hw : j < 32 := by omega
  have hge : ¬ lo + j < lo := by omega
  simp only [putField, BitVec.truncate_eq_setWidth, BitVec.getLsbD_extractLsb', BitVec.getLsbD_or, BitVec.getLsbD_and,
    BitVec.getLsbD_not, BitVec.getLsbD_shiftLeft, BitVec.getLsbD_setWidth, BitVec.getLsbD_allOnes, hj, hlt, hw, hge,
    Nat.add_sub_cancel_left, decide_true, decide_false, Bool.not_true, Bool.not_false, Bool.true_and, Bool.and_false,
    Bool.false_or]

/-- Entering Debug Mode by a breakpoint instruction that was counted: cause 1, at this instruction, all else quiesced
(R705, R706). -/
theorem breakpoint_entersDebug {s : State} (h : s.me.activity ≠ .dbgHalt) (hm : s.me.ebreakm = true)
    (hstep : s.me.dctl.stepping = false) (hloads : s.me.NoPendingLoads)
    (hfree : s.sh.mfdht.getLsbD 0 = false ∨ s.me.busBusy = false) :
    OtherKept s s.breakpoint
      ∧ ∃ nmi, s.breakpoint.me = (quiesced (s.me.countEvents [19]) nmi).haltForDebug 1 false := by
  have henter : s.breakpoint = enterDebug (s.countEvents [19]) s.cur 1 false := by
    rw [breakpoint_debug h hm, requestDebug_enters (by simpa using hstep) (by simpa using hfree), countEvents_cur]
  have hme : (s.countEvents [19]).hart s.cur = s.me.countEvents [19] := by
    rw [← countEvents_me, me_eq_hart (countEvents_cur s [19])]
  have hcounted : ((s.countEvents [19]).hart s.cur).NoPendingLoads := by
    simpa [hme, Hart.NoPendingLoads] using hloads
  obtain ⟨hcfg, hcur, ⟨nmi, hnmi⟩, hother⟩ := enterDebug_harts hcounted 1 false
  rw [← henter] at hcfg hcur hnmi hother
  rw [countEvents_cfg] at hcfg
  rw [countEvents_cur] at hcur
  rw [countEvents_hart_other] at hother
  exact ⟨⟨hcfg, hcur, hother⟩, nmi, by rw [me_eq_hart hcur, hnmi, hme]⟩

theorem othersSame_setMe_countEvents (s : State) (evs : List Nat) (h : Hart) :
    OthersSame s ((s.countEvents evs).setMe h) := by
  unfold State.countEvents
  exact ⟨by simp, by simp, by simp⟩

/-- Settles O32: `ecall` by the exception it raises, a breakpoint by the five things it may come to. -/
theorem environmentTraps : Obligations.EnvironmentTraps := by
  refine ⟨fun s h => ⟨_, rfl, traps_raise_countEvents s [20] 11 0 0 h⟩, fun s i hi => ?_⟩
  refine ⟨fun h hm => ⟨_, exec_breakpoint hi s, ?exception⟩,
    fun h hm hstep hloads hfree => ⟨_, exec_breakpoint hi s, ?enters⟩,
    fun h hm hstep hpending htimeout hbusy => ⟨_, exec_breakpoint hi s, ?waits⟩,
    fun h hm hstep => ⟨_, exec_breakpoint hi s, ?stepping⟩,
    fun h => ⟨_, exec_breakpoint hi s, ?halted⟩⟩
  case exception =>
    rw [breakpoint_exception h hm]
    exact traps_raise_countEvents s [19] 3 2 _ h
  case enters =>
    obtain ⟨hother, nmi, hme⟩ := breakpoint_entersDebug h hm hstep hloads hfree
    have hregs : RegsSame s s.breakpoint := fun r => by
      rw [State.reg, hme]
      exact Hart.countEvents_reg s.me [19] r
    have hcause : s.breakpoint.me.dbg.dcsr.extractLsb' 6 3 = 1#3 := by
      rw [hme]
      exact extractLsb'_putField _ 6 1#3 (by decide)
    simp only [hcause, hregs, hother]
    simp [hme, quiesced, Hart.haltForDebug, Hart.debugBrkptStatus, Hart.busBusy]
  case waits =>
    rw [breakpoint_debug h hm, requestDebug_waits (by simpa using hstep) (by simpa using htimeout) (by simpa using hbusy)]
    refine ⟨by simp [hpending], by simp, by simp, fun r => ?_, by simp, by simp, by simp, by simp,
      othersSame_setMe_countEvents ..⟩
    simp only [State.reg, State.me_setMe, countEvents_me]
    exact Hart.countEvents_reg s.me [19] r
  case stepping =>
    rw [breakpoint_debug h hm, requestDebug_stepping (by simpa using hstep)]
    refine ⟨?_, by simp, othersSame_setMe_countEvents ..⟩
    rw [State.me_setMe, countEvents_me, hart_countEvents_eq s.me]
  case halted =>
    rw [breakpoint_dbgHalt h]
    exact ⟨by rw [countEvents_me, ← hart_countEvents_eq], countEvents_sh .., by simp, by simp, by simp⟩

/-! ## `dret` -/

/-- A halted hart that leaves Debug Mode on the debugger's resume request (R708). -/
def resumed (h : Hart) : Hart := ({ h with dctl := { h.dctl with dbgResume := true } } : Hart).leaveDebug

@[simp] theorem resumed_reg (h : Hart) (r : Reg) : (resumed h).reg r = h.reg r := rfl

/-- Without `dcsr.step`, a hart the debugger alone has halted is let go. -/
theorem resumeRequest_eq_resumed {h : Hart} (hact : h.activity = .dbgHalt) (hhalt : h.dctl.dbgHalt = true)
    (hmpc : h.dctl.mpcHalt = false) (hstep : h.stepBit = false) : h.resumeRequest = resumed h := by
  simp [Hart.resumeRequest, Hart.tryLeave, DebugCtl.released, resumed, hact, hhalt, hmpc, hstep]

theorem exec_dret_dbgHalt {s : State} (h : s.me.activity = .dbgHalt) :
    exec .dret s = .next (s.setMe s.me.resumeRequest) :=
  congrArg _ (if_pos h)

theorem exec_dret_stepping {s : State} (h : s.me.activity ≠ .dbgHalt) (hstep : s.me.dctl.stepping = true) :
    exec .dret s = .next (s.complete 4 []) :=
  congrArg _ ((if_neg h).trans (if_pos hstep))

theorem exec_dret_illegal {s : State} (h : s.me.activity ≠ .dbgHalt) (hstep : s.me.dctl.stepping = false) :
    exec .dret s = .next (s.raiseIllegal 0x7B200073#32) :=
  congrArg _ ((if_neg h).trans (if_neg (by simp [hstep])))

/-- Settles O34: a resume request that is granted, a retired instruction, or illegal instruction. -/
theorem debugReturn : Obligations.DebugReturn := by
  refine fun s => ⟨fun hact hhalt hmpc hstep => ⟨_, exec_dret_dbgHalt hact, ?resumes⟩,
    fun h hstep => localOnly_of_exec_completeAt (exec_dret_stepping h hstep),
    fun h hstep => ⟨_, exec_dret_illegal h hstep, traps_raise s 2 0 _ h⟩⟩
  case resumes =>
    rw [resumeRequest_eq_resumed hact hhalt hmpc hstep]
    have hregs : RegsSame s (s.setMe (resumed s.me)) := fun r => by simp [State.reg]
    rw [State.me_setMe]
    exact ⟨rfl, rfl, rfl, rfl, rfl, rfl, hregs, rfl, rfl, rfl, ⟨by simp, by simp, by simp⟩, by simp,
      memorySame_setMe rfl⟩

end Sys2Proof.Rv32iSystem

/-! PROOFS. Multiplication and division: what each operator computes, in exact integer arithmetic, and from it what each
instruction writes (R391 to R399). -/

namespace Sys2Proof.Rv32mMulDiv

open Sys2Proof Sys2Proof.Machine

/-- An instruction whose meaning is to write back `f` of its sources computes any `w` that `f` of them is equal to. -/
theorem computes_of_exec_mulDiv {i : Instr} {s : State} {event : Nat} {f : Word → Word → Word} {rd rs1 rs2 : Reg}
    {w : Word} (hexec : exec i s = .next (s.mulDiv event f rd rs1 rs2)) (hvalue : f (s.reg rs1) (s.reg rs2) = w) :
    ∃ t, exec i s = .next t ∧ Computes s t 4 [event] rd w := by
  subst hvalue
  exact ⟨_, hexec, computes_writeBack s 4 [event] rd _⟩

/-! ## Products -/

/-- The low half of a product does not depend on the sign its factors are read with (R391). -/
theorem mul_eq_ofInt (a b : Word) : a * b = BitVec.ofInt 32 (a.toInt * b.toInt) := by
  rw [BitVec.ofInt_mul, BitVec.ofInt_toInt, BitVec.ofInt_toInt]

/-- Dropping the low half of a product is floor division by `2 ^ 32`, for a negative product too (R392 to R394). -/
theorem highProduct_eq_div (p : Int) : highProduct p = BitVec.ofInt 32 (p / 2 ^ 32) := by
  apply BitVec.eq_of_toNat_eq
  rw [highProduct, BitVec.extractLsb'_toNat, Nat.shiftRight_eq_div_pow, BitVec.toNat_ofInt, BitVec.toNat_ofInt]
  omega

/-- The high half of a product of unsigned values (R394). -/
theorem highProduct_natCast (m n : Nat) :
    highProduct ((m : Int) * (n : Int)) = BitVec.ofNat 32 (m * n / 2 ^ 32) := by
  rw [highProduct_eq_div, ← BitVec.ofInt_natCast, Int.natCast_ediv, Int.natCast_mul]
  rfl

/-- Settles O9: the low half is the product of the words, each high half the floor quotient by `2 ^ 32`. -/
theorem products : Obligations.Products := by
  refine fun s rd rs1 rs2 => ⟨?mul, ?mulh, ?mulhsu, ?mulhu⟩
  case mul => exact computes_of_exec_mulDiv rfl (mul_eq_ofInt ..)
  case mulh => exact computes_of_exec_mulDiv rfl (highProduct_eq_div _)
  case mulhsu => exact computes_of_exec_mulDiv rfl (highProduct_eq_div _)
  case mulhu => exact computes_of_exec_mulDiv rfl (highProduct_natCast ..)

/-! ## Quotients and remainders -/

/-- A fixed result for the overflow that is the exact one is no special case. -/
theorem ite_divOverflow_eq_right {a b v w : Word} (hfixed : a = 0x80000000#32 → b = 0xFFFFFFFF#32 → v = w) :
    (if divOverflow a b then v else w) = w := by
  by_cases hoverflow : divOverflow a b = true
  · rw [if_pos hoverflow]
    rw [divOverflow, Bool.and_eq_true, decide_eq_true_iff, decide_eq_true_iff] at hoverflow
    obtain ⟨ha, hb⟩ := hoverflow
    exact hfixed ha hb
  · rw [if_neg hoverflow]

/-- The fixed quotient of the overflow is the low word of the exact one, `2 ^ 31` (R395, R399). -/
theorem divSigned_eq (a b : Word) :
    divSigned a b = if b = 0 then 0xFFFFFFFF#32 else BitVec.ofInt 32 (a.toInt.tdiv b.toInt) := by
  have hfixed : a = 0x80000000#32 → b = 0xFFFFFFFF#32 → 0x80000000#32 = BitVec.ofInt 32 (a.toInt.tdiv b.toInt) := by
    rintro rfl rfl
    decide
  rw [divSigned, ite_divOverflow_eq_right hfixed]

/-- The fixed remainder of the overflow is the exact one, 0 (R397, R399). -/
theorem remSigned_eq (a b : Word) :
    remSigned a b = if b = 0 then a else BitVec.ofInt 32 (a.toInt.tmod b.toInt) := by
  have hfixed : a = 0x80000000#32 → b = 0xFFFFFFFF#32 → 0 = BitVec.ofInt 32 (a.toInt.tmod b.toInt) := by
    rintro rfl rfl
    decide
  rw [remSigned, ← Int.tmod_def, ite_divOverflow_eq_right hfixed]

/-! ## The division identity (R395 to R398) -/

/-- The overflow is no exception: its quotient is off by `2 ^ 32`, which the product drops. -/
theorem signed_quotient_mul_add_remainder (a b : Word) :
    BitVec.ofInt 32 (a.toInt.tdiv b.toInt) * b + BitVec.ofInt 32 (a.toInt.tmod b.toInt) = a :=
  calc BitVec.ofInt 32 (a.toInt.tdiv b.toInt) * b + BitVec.ofInt 32 (a.toInt.tmod b.toInt)
      = BitVec.ofInt 32 (a.toInt.tdiv b.toInt * b.toInt + a.toInt.tmod b.toInt) := by
        rw [BitVec.ofInt_add, BitVec.ofInt_mul, BitVec.ofInt_toInt]
    _ = a := by rw [Int.tdiv_mul_add_tmod, BitVec.ofInt_toInt]

theorem unsigned_quotient_mul_add_remainder (a b : Word) :
    BitVec.ofNat 32 (a.toNat / b.toNat) * b + BitVec.ofNat 32 (a.toNat % b.toNat) = a :=
  calc BitVec.ofNat 32 (a.toNat / b.toNat) * b + BitVec.ofNat 32 (a.toNat % b.toNat)
      = BitVec.ofNat 32 (a.toNat / b.toNat * b.toNat + a.toNat % b.toNat) := by
        rw [BitVec.ofNat_add, BitVec.ofNat_mul, BitVec.ofNat_toNat, BitVec.setWidth_eq]
    _ = a := by rw [Nat.div_add_mod', BitVec.ofNat_toNat, BitVec.setWidth_eq]

/-- A remainder of words is a word: nothing is lost in writing it back. -/
theorem toInt_signed_remainder (a b : Word) :
    (BitVec.ofInt 32 (a.toInt.tmod b.toInt)).toInt = a.toInt.tmod b.toInt := by
  rw [← BitVec.toInt_srem, BitVec.ofInt_toInt]

theorem toNat_unsigned_remainder (a b : Word) :
    (BitVec.ofNat 32 (a.toNat % b.toNat)).toNat = a.toNat % b.toNat := by
  rw [← BitVec.toNat_umod, BitVec.ofNat_toNat, BitVec.setWidth_eq]

theorem natAbs_signed_remainder_lt (a : Word) {b : Word} (hb : b ≠ 0) :
    (BitVec.ofInt 32 (a.toInt.tmod b.toInt)).toInt.natAbs < b.toInt.natAbs := by
  have hpos : 0 < b.toInt.natAbs := Int.natAbs_pos.mpr (BitVec.toInt_ne.mpr hb)
  rw [toInt_signed_remainder, Int.natAbs_tmod]
  exact Nat.mod_lt _ hpos

theorem unsigned_remainder_lt (a : Word) {b : Word} (hb : b ≠ 0) :
    (BitVec.ofNat 32 (a.toNat % b.toNat)).toNat < b.toNat := by
  rw [toNat_unsigned_remainder]
  exact Nat.mod_lt _ (Nat.pos_of_ne_zero (BitVec.toNat_ne.mp hb))

/-- A remainder is 0 when the divisor divides the dividend, and else has the dividend's sign (R397). -/
theorem signed_remainder_sign (a b : Word) :
    BitVec.ofInt 32 (a.toInt.tmod b.toInt) = 0
      ∨ ((BitVec.ofInt 32 (a.toInt.tmod b.toInt)).toInt < 0 ↔ a.toInt < 0) := by
  rw [toInt_signed_remainder]
  by_cases hdvd : b.toInt ∣ a.toInt
  · left
    rw [Int.tmod_eq_zero_of_dvd hdvd]
    rfl
  · right
    have hsign : (a.toInt.tmod b.toInt).sign = a.toInt.sign := by rw [Int.sign_tmod, if_neg hdvd]
    rw [← Int.sign_neg_iff, hsign, Int.sign_neg_iff]

/-- Settles O10: each division by its operator's value, which in the overflow is the exact quotient's low word too; and for
a divisor other than 0 the identity, the bound and the sign of the remainder. -/
theorem quotients : Obligations.Quotients := by
  refine fun s rd rs1 rs2 => ⟨?div, ?divu, ?rem, ?remu, fun hb => ?identity⟩
  case div => exact computes_of_exec_mulDiv rfl (divSigned_eq ..)
  case divu => exact computes_of_exec_mulDiv rfl rfl
  case rem => exact computes_of_exec_mulDiv rfl (remSigned_eq ..)
  case remu => exact computes_of_exec_mulDiv rfl rfl
  case identity =>
    simp only [if_neg hb]
    exact ⟨(signed_quotient_mul_add_remainder ..).symm, natAbs_signed_remainder_lt _ hb, signed_remainder_sign ..,
      (unsigned_quotient_mul_add_remainder ..).symm, unsigned_remainder_lt _ hb⟩

end Sys2Proof.Rv32mMulDiv

/-! PROOFS. What a fence does to a hart, whether or not loads still wait for their data: it empties the buffers, writes the
registers of the loads, captures a bus error, and keeps the rest of the hart; of the other hart it may take the reservation
(R100, R229, R234, R771). -/

namespace Sys2Proof.Fencing

open Sys2Proof Sys2Proof.Machine Sys2Proof.Draining

/-! ## Work on the bus, loads that wait among it -/

/-- The hart `g` is `h`, but that responses may have been issued or have arrived: registers written, a bus error captured. -/
def Served (h g : Hart) : Prop :=
  ∃ regs nmi q, g = { h with regs := regs, nmi := nmi, buf := { h.buf with inflight := q } }

/-- The shared state `d` is `c`, but for what bus transactions change. -/
def BusSide (c d : Shared) : Prop :=
  ∃ bus old log, d = { c with bus := bus, ifuOld := old, busLog := log }

/-- The bus works for hart `i`: transactions are issued, responses arrive, loads that wait read their data. -/
structure BusServes (i : HartId) (s t : State) : Prop where
  cfg : t.cfg = s.cfg
  cur : t.cur = s.cur
  hart : Served (s.hart i) (t.hart i)
  other : t.hart i.other = s.hart i.other
  sh : BusSide s.sh t.sh

section
variable {i : HartId} {s t u : State}

theorem Served.refl (h : Hart) : Served h h := ⟨h.regs, h.nmi, h.buf.inflight, rfl⟩

theorem Served.setReg (h : Hart) (r : Reg) (v : Word) : Served h (h.setReg r v) := by
  unfold Hart.setReg
  split
  · exact Served.refl h
  · exact ⟨_, h.nmi, h.buf.inflight, rfl⟩

theorem BusSide.refl (c : Shared) : BusSide c c := ⟨c.bus, c.ifuOld, c.busLog, rfl⟩

theorem BusServes.refl : BusServes i s s := ⟨rfl, rfl, Served.refl _, rfl, BusSide.refl _⟩

theorem BusServes.trans (hst : BusServes i s t) (htu : BusServes i t u) : BusServes i s u := by
  obtain ⟨_, _, _, ht⟩ := hst.hart
  obtain ⟨regs, nmi, q, hu⟩ := htu.hart
  obtain ⟨_, _, _, ct⟩ := hst.sh
  obtain ⟨bus, old, log, cu⟩ := htu.sh
  exact ⟨htu.cfg.trans hst.cfg, htu.cur.trans hst.cur, ⟨regs, nmi, q, by rw [hu, ht]⟩, htu.other.trans hst.other,
    ⟨bus, old, log, by rw [cu, ct]⟩⟩

theorem busServes_foldl {β : Type} (f : State → β → State) (hf : ∀ s b, BusServes i s (f s b)) (l : List β) :
    BusServes i s (l.foldl f s) := by
  induction l generalizing s with
  | nil => exact .refl
  | cons b l ih => exact (hf s b).trans ih

theorem busServes_draw : BusServes i s s.draw :=
  ⟨rfl, rfl, by simpa using Served.refl _, by simp, BusSide.refl _⟩

/-- Replacing the hart itself by one the bus has served. -/
theorem busServes_setHart {g : Hart} (hg : Served (s.hart i) g) : BusServes i s (s.setHart i g) :=
  ⟨by simp, by simp, by simpa using hg, by simp, by simpa using BusSide.refl _⟩

/-- Replacing what bus transactions change of the shared state. -/
theorem busServes_withSh {c : Shared} (hc : BusSide s.sh c) : BusServes i s { s with sh := c } :=
  ⟨rfl, rfl, by simpa using Served.refl _, by simp, hc⟩

theorem busServes_setInflight (q : List BusResp) : BusServes i s (s.setInflight i q) :=
  busServes_setHart ⟨_, _, q, rfl⟩

/-! ### Responses -/

theorem busServes_reportError (store : Bool) (a : Word) : BusServes i s (reportError s i store a) :=
  (busServes_setHart ⟨(s.hart i).regs, _, (s.hart i).buf.inflight, rfl⟩).trans busServes_draw

theorem busServes_writeReg (r : Reg) (v : Word) : BusServes i s (s.setHart i ((s.hart i).setReg r v)) :=
  busServes_setHart (Served.setReg ..)

theorem busServes_deliverLoad (a : Word) (p : PendingLoad) : BusServes i s (deliverLoad s i a p) := by
  unfold deliverLoad
  dsimp only
  split
  · exact (busServes_reportError ..).trans (busServes_writeReg ..)
  · exact busServes_draw.trans (busServes_writeReg ..)

theorem busServes_deliver (r : BusResp) : BusServes i s (deliver s i r) := by
  unfold deliver
  split
  · exact busServes_deliverLoad ..
  · split
    · exact busServes_reportError ..
    · exact .refl

theorem busServes_deliverAll : BusServes i s (deliverAll s i) :=
  (busServes_setInflight []).trans (busServes_foldl _ (fun _ r => busServes_deliver r) _)

theorem busServes_deliverWhere (sel : BusResp → Bool) : BusServes i s (deliverWhere s i sel) :=
  (busServes_setInflight _).trans (busServes_foldl _ (fun _ r => busServes_deliver r) _)

/-- A response that arrives issues none. -/
theorem inflight_deliver (r : BusResp) : ((deliver s i r).hart i).buf.inflight = (s.hart i).buf.inflight := by
  unfold deliver
  split
  · unfold deliverLoad
    dsimp only
    split <;> simp [reportError]
  · split <;> simp [reportError]

theorem inflight_deliverAll : ((deliverAll s i).hart i).buf.inflight = [] := by
  have hfold : ∀ (rs : List BusResp) (t : State),
      ((rs.foldl (fun t r => deliver t i r) t).hart i).buf.inflight = (t.hart i).buf.inflight := by
    intro rs
    induction rs with
    | nil => exact fun _ => rfl
    | cons r rs ih => exact fun t => (ih (deliver t i r)).trans (inflight_deliver r)
  exact (hfold ..).trans (by simp [State.setInflight])

/-! ### Transactions -/

theorem busServes_readOne (which : Nat → Nat → Option (Nat × Nat)) (r : BusResp) :
    BusServes i s (readOne s i which r) := by
  unfold readOne
  dsimp only
  split
  · exact (busServes_setInflight _).trans busServes_draw
  · exact busServes_setInflight _

theorem busServes_readPending (which : Nat → Nat → Option (Nat × Nat)) : BusServes i s (readPending s i which) := by
  unfold readPending
  dsimp only
  split
  · exact (busServes_setInflight []).trans (busServes_foldl _ (fun _ r => busServes_readOne which r) _)
  · exact .refl

theorem busServes_awaitEarlier (a n : Nat) : BusServes i s (awaitEarlier s i a n) := by
  unfold awaitEarlier
  dsimp only
  split
  · exact (busServes_deliverWhere _).trans (busServes_readPending _)
  · exact busServes_readPending _

theorem busServes_issue (x : BusTxn) (r : BusResp) : BusServes i s (issue s i x r) :=
  (busServes_withSh ⟨s.sh.bus, s.sh.ifuOld, _, rfl⟩).trans (busServes_setInflight _)

theorem busServes_busWriteByte (ordered : Bool) (a : Nat) (b : Byte) : BusServes i s (busWriteByte s ordered a b) := by
  unfold busWriteByte
  split
  · exact busServes_withSh ⟨_, _, s.sh.busLog, rfl⟩
  · exact .refl
  · exact .refl

theorem busServes_busWriteBytes (ordered : Bool) (a : Nat) (bs : List Byte) :
    BusServes i s (busWriteBytes s ordered a bs) := by
  induction bs generalizing s a with
  | nil => exact .refl
  | cons b bs ih => exact (busServes_busWriteByte ordered a b).trans (ih (a + 1))

theorem busServes_writeWbEntry (e : WbEntry) : BusServes i s (writeWbEntry s i e) := by
  have hissue := fun x r => (busServes_awaitEarlier (s := s) (i := i) e.addr.toNat e.data.length).trans
    (busServes_issue x r)
  unfold writeWbEntry
  dsimp only
  refine BusServes.trans ?_ busServes_draw
  split
  · exact hissue ..
  · exact (hissue ..).trans (busServes_busWriteBytes ..)

theorem busServes_drainWbAll : BusServes i (s.setWb i []) (drainWbAll s i) :=
  busServes_foldl _ (fun _ e => busServes_writeWbEntry e) _

/-! ## The store queue -/

/-- A store that reaches the DCCM changes nothing else the harts share. -/
theorem sh_writeSqEntry (e : SqEntry) : ∃ m, (writeSqEntry s i e).sh = { s.sh with dccm := m } :=
  ⟨_, State.setHart_sh ..⟩

theorem sh_drainSqAll : ∃ m, (drainSqAll s i).sh = { s.sh with dccm := m } := by
  have hfold : ∀ (es : List SqEntry) (t : State),
      ∃ m, (es.foldl (fun t e => writeSqEntry t i e) t).sh = { t.sh with dccm := m } := by
    intro es
    induction es with
    | nil => exact fun t => ⟨t.sh.dccm, rfl⟩
    | cons e es ih =>
      intro t
      obtain ⟨m, hm⟩ := ih (writeSqEntry t i e)
      obtain ⟨_, hfirst⟩ := sh_writeSqEntry (s := t) (i := i) e
      exact ⟨m, hm.trans (by rw [hfirst])⟩
  obtain ⟨m, hm⟩ := hfold (s.hart i).buf.sq (s.setSq i [])
  exact ⟨m, hm.trans (by rw [State.setSq, State.setHart_sh])⟩

end

/-! ## The fence -/

/-- The hart `h` with empty buffers, the registers `regs` and the NMI state `nmi`. -/
def drained (h : Hart) (regs : Vector Word 32) (nmi : NmiState) : Hart :=
  { h with regs := regs, nmi := nmi, buf := { h.buf with sq := [], wb := [], inflight := [] } }

/-- Everything a fence of hart `i` does to the harts. -/
theorem fenceHart_harts (s : State) (i : HartId) :
    (fenceHart s i).cfg = s.cfg ∧ (fenceHart s i).cur = s.cur
      ∧ (∃ regs nmi, (fenceHart s i).hart i = drained (s.hart i) regs nmi)
      ∧ ((fenceHart s i).hart i.other = s.hart i.other
        ∨ (fenceHart s i).hart i.other = { s.hart i.other with res := none }) := by
  have hbus : BusServes i (s.setWb i []) (deliverAll (drainWbAll s i) i) := busServes_drainWbAll.trans busServes_deliverAll
  have hland : StoresLand i ((deliverAll (drainWbAll s i) i).setSq i []) (drainHart s i) := storesLand_drainSqAll
  obtain ⟨regs, nmi, q, hq⟩ := hbus.hart
  have hempty : q = [] := by simpa [hq] using inflight_deliverAll (s := drainWbAll s i) (i := i)
  have hcfg := hland.cfg
  have hcur := hland.cur
  have hhart := hland.hart
  have hother := hland.other
  simp only [State.setSq, State.setWb, State.setHart_cfg, State.setHart_cur, State.hart_setHart_self,
    State.hart_setHart_other, hbus.cfg, hbus.cur, hbus.other, hq, hempty] at hcfg hcur hhart hother
  unfold fenceHart
  simp only [State.withSh_hart]
  exact ⟨hcfg, hcur, ⟨regs, nmi, hhart⟩, hother⟩

/-- Everything a fence of hart `i` does to what the harts share, but the DCCM's words: what bus transactions change, and the
earlier values of `mrac` for the hart's loads and stores are gone. -/
theorem fenceHart_sh (s : State) (i : HartId) :
    ∃ m bus old log, (fenceHart s i).sh
      = { s.sh with
          dccm := m, bus := bus, ifuOld := old, busLog := log, mracOld := s.sh.mracOld.filter (fun p => p.1 ≠ i) } := by
  have hbus : BusServes i (s.setWb i []) (deliverAll (drainWbAll s i) i) := busServes_drainWbAll.trans busServes_deliverAll
  obtain ⟨bus, old, log, hlog⟩ := hbus.sh
  obtain ⟨m, hm⟩ : ∃ m, (drainHart s i).sh = { (deliverAll (drainWbAll s i) i).sh with dccm := m } := sh_drainSqAll
  refine ⟨m.fenced i, bus, old, log, ?_⟩
  unfold fenceHart
  simp only [hm, hlog, State.setWb, State.setHart_sh]

/-! ### The fence of the executing hart -/

section
variable (s : State)

@[simp] theorem fenceHart_cfg (i : HartId) : (fenceHart s i).cfg = s.cfg := (fenceHart_harts s i).1

@[simp] theorem fenceHart_cur (i : HartId) : (fenceHart s i).cur = s.cur := (fenceHart_harts s i).2.1

theorem fenceHart_me : ∃ regs nmi, (fenceHart s s.cur).me = drained s.me regs nmi := by
  rw [me_eq_hart (fenceHart_cur s s.cur)]
  exact (fenceHart_harts s s.cur).2.2.1

@[simp] theorem fenceHart_me_pc : (fenceHart s s.cur).me.pc = s.me.pc := by
  obtain ⟨_, _, h⟩ := fenceHart_me s
  rw [h, drained]

@[simp] theorem fenceHart_me_res : (fenceHart s s.cur).me.res = s.me.res := by
  obtain ⟨_, _, h⟩ := fenceHart_me s
  rw [h, drained]

@[simp] theorem fenceHart_me_ctr : (fenceHart s s.cur).me.ctr = s.me.ctr := by
  obtain ⟨_, _, h⟩ := fenceHart_me s
  rw [h, drained]

@[simp] theorem fenceHart_me_dbg : (fenceHart s s.cur).me.dbg = s.me.dbg := by
  obtain ⟨_, _, h⟩ := fenceHart_me s
  rw [h, drained]

@[simp] theorem fenceHart_me_activity : (fenceHart s s.cur).me.activity = s.me.activity := by
  obtain ⟨_, _, h⟩ := fenceHart_me s
  rw [h, drained]

@[simp] theorem fenceHart_me_sq : (fenceHart s s.cur).me.buf.sq = [] := by
  obtain ⟨_, _, h⟩ := fenceHart_me s
  rw [h, drained]

@[simp] theorem fenceHart_me_inflight : (fenceHart s s.cur).me.buf.inflight = [] := by
  obtain ⟨_, _, h⟩ := fenceHart_me s
  rw [h, drained]

/-- After its fence a hart's loads and stores find `mrac` as it is (R100, R771). -/
@[simp] theorem fenceHart_dataMrac : (fenceHart s s.cur).dataMrac = s.sh.mrac := by
  obtain ⟨_, _, _, _, hsh⟩ := fenceHart_sh s s.cur
  have hgone : (s.sh.mracOld.filter (fun p => p.1 ≠ s.cur)).filter (fun p => p.1 == s.cur) = [] := by
    simp [List.filter_filter]
  rw [State.dataMrac, fenceHart_cur, State.mracFor, hsh]
  dsimp only
  rw [hgone]
  rfl

/-- A fence leaves the triggers as they are. -/
theorem quietTriggers_fenceHart {s : State} (h : QuietTriggers s) : QuietTriggers (fenceHart s s.cur) := by
  rw [QuietTriggers, fenceHart_me_dbg]
  exact h

end

end Sys2Proof.Fencing

/-! PROOFS. The atomic instructions on a word of the DCCM without error: what the checked read finds, what the write leaves,
and from these `sc.w` and the nine `amo*.w` (R411 to R426). -/

namespace Sys2Proof.Rv32aAtomics

open Sys2Proof Sys2Proof.Machine Sys2Proof.Draining Sys2Proof.Fencing Sys2Proof.Rv32iControl

/-! ## The other hart -/

section
variable {s t u : State}

theorem othersSame_setMe (s : State) (h : Hart) : OthersSame s (s.setMe h) := ⟨by simp, by simp, by simp⟩

theorem othersSame_trans (hst : OthersSame s t) (htu : OthersSame t u) : OthersSame s u := by
  obtain ⟨hcfg, hcur, hother⟩ := hst
  obtain ⟨hcfg', hcur', hother'⟩ := htu
  rw [hcur] at hother'
  exact ⟨hcfg'.trans hcfg, hcur'.trans hcur, hother'.trans hother⟩

theorem otherKept_of_same (h : OthersSame s t) : OtherKept s t := by
  obtain ⟨hcfg, hcur, hother⟩ := h
  exact ⟨hcfg, hcur, .inl hother⟩

theorem otherKept_trans_same (hst : OtherKept s t) (htu : OthersSame t u) : OtherKept s u := by
  obtain ⟨hcfg, hcur, hother⟩ := hst
  obtain ⟨hcfg', hcur', hother'⟩ := htu
  rw [hcur] at hother'
  rw [OtherKept, hother']
  exact ⟨hcfg'.trans hcfg, hcur'.trans hcur, hother⟩

end

/-! ## The checked read -/

/-- A written word without error reads as its four bytes (R235). -/
theorem readWord_ok {m : CoreMem} {k : Nat} (h : m.status k = .ok) (cecd : Bool) (reader : HartId) (queued : Bool)
    (draw : Nat) :
    m.readWord cecd (some reader) queued draw k
      = { bad := false, data := m.word k, fixed := false, arbitrary := false, uninit := false } := by
  simp [CoreMem.readWord, h, EccStatus.error, EccStatus.owner, EccStatus.uninitialised]

/-- On a word without error the checked read of an atomic access corrects nothing. -/
theorem atomicRead_ok {s : State} {k : AccessCauses} {a : Word} (hcheck : atomicCheck s.cfg s.dataMrac k a = none)
    (hok : s.sh.dccm.status (a.toNat / 4) = .ok) :
    atomicRead s k a = .value (s.sh.dccm.word (a.toNat / 4)) s.draw := by
  unfold atomicRead
  rw [hcheck]
  simp [State.readDccm, readWord_ok hok, repairDccm, CoreMem.repair, countFixed, bumpErrorCounterBy]

theorem atomicRead_fault {s : State} {k : AccessCauses} {a : Word} (hcheck : atomicCheck s.cfg s.dataMrac k a ≠ none) :
    ∃ c m, atomicRead s k a = .trap c m s := by
  obtain ⟨p, -, hp⟩ | ⟨hnone, -⟩ := atomicRead_cases s k a
  · exact ⟨_, _, hp⟩
  · exact absurd hnone hcheck

/-- An access that passes the checks of R196 is an aligned word of the DCCM. -/
theorem aligned_inDccm_of_atomicCheck {c : BuildConfig} {mrac a : Word} {k : AccessCauses}
    (h : atomicCheck c mrac k a = none) : a.toNat % 4 = 0 ∧ inDccm c a = true ∧ inDccm c (a + 3) = true := by
  unfold atomicCheck at h
  split at h
  · cases h
  · simpa using h

/-! ### The word a hart sees -/

theorem toNat_add_of_aligned {a : Word} (h : a.toNat % 4 = 0) {j : Nat} (hj : j < 4) :
    (a + BitVec.ofNat 32 j).toNat = a.toNat + j := by
  rw [BitVec.toNat_add, BitVec.toNat_ofNat]
  omega

/-- The DCCM has no gaps: with the first and the last byte of an aligned word it holds those between. -/
theorem inDccm_add_of_aligned {c : BuildConfig} {a : Word} (h : a.toNat % 4 = 0) (hfirst : inDccm c a = true)
    (hlast : inDccm c (a + 3) = true) {j : Nat} (hj : j < 4) : inDccm c (a + BitVec.ofNat 32 j) = true := by
  have hthree : (a + 3).toNat = a.toNat + 3 := toNat_add_of_aligned h (j := 3) (by decide)
  simp only [inDccm, Placement.contains, Bool.and_eq_true, decide_eq_true_eq, hthree, toNat_add_of_aligned h hj]
    at hfirst hlast ⊢
  obtain ⟨⟨henable, hbase⟩, -⟩ := hfirst
  obtain ⟨-, hend⟩ := hlast
  exact ⟨⟨henable, by omega⟩, by omega⟩

/-- A hart with an empty store queue sees the bytes of the DCCM. -/
theorem byteSeen_dccm {s : State} {i : HartId} {a : Word} (hin : inDccm s.cfg a = true) (hsq : (s.hart i).buf.sq = []) :
    byteSeen s i a = readByte s.sh.dccm.cells a.toNat := by
  simp [byteSeen, hin, hsq, sqLookup]

/-- Each step of `wordOf` appends a byte below those after it. -/
theorem zeroExtend_append_byte {n : Nat} (x : BitVec n) (b : Byte) :
    (x ++ b).zeroExtend 32 = (x.zeroExtend 32 <<< 8) ||| b.zeroExtend 32 := by
  apply BitVec.eq_of_getLsbD_eq
  intro j hj
  by_cases hlow : j < 8
  · simp [BitVec.getLsbD_append, hj, hlow]
  · simp [BitVec.getLsbD_append, hj, hlow, BitVec.getLsbD_of_ge b j (by omega)]

theorem wordOf_four (b0 b1 b2 b3 : Byte) : wordOf [b0, b1, b2, b3] = b3 ++ b2 ++ b1 ++ b0 := by
  have hword : b3 ++ b2 ++ b1 ++ b0 = (b3 ++ b2 ++ b1 ++ b0).zeroExtend 32 := (BitVec.setWidth_eq _).symm
  rw [hword]
  simp only [zeroExtend_append_byte]
  simp [wordOf]

/-- A hart with an empty store queue sees an aligned word of the DCCM as it is. -/
theorem wordSeen_dccm {s : State} {i : HartId} {a : Word} (h : a.toNat % 4 = 0) (hfirst : inDccm s.cfg a = true)
    (hlast : inDccm s.cfg (a + 3) = true) (hsq : (s.hart i).buf.sq = []) :
    wordSeen s i a = s.sh.dccm.word (a.toNat / 4) := by
  have hbyte : ∀ j < 4, byteSeen s i (a + BitVec.ofNat 32 j) = readByte s.sh.dccm.cells (4 * (a.toNat / 4) + j) := by
    intro j hj
    have hword : 4 * (a.toNat / 4) + j = a.toNat + j := by omega
    rw [byteSeen_dccm (inDccm_add_of_aligned h hfirst hlast hj) hsq, toNat_add_of_aligned h hj, hword]
  have hzero : byteSeen s i a = readByte s.sh.dccm.cells (4 * (a.toNat / 4)) := by simpa using hbyte 0 (by decide)
  have hone : byteSeen s i (a + 1) = _ := hbyte 1 (by decide)
  have htwo : byteSeen s i (a + 2) = _ := hbyte 2 (by decide)
  have hthree : byteSeen s i (a + 3) = _ := hbyte 3 (by decide)
  rw [wordSeen, hzero, hone, htwo, hthree, ← wordOf_four]
  rfl

/-! ## The write -/

section
variable (s : State) (a v : Word)

@[simp] theorem atomicWrite_cfg : (atomicWrite s a v).cfg = s.cfg := by simp [atomicWrite]

@[simp] theorem atomicWrite_cur : (atomicWrite s a v).cur = s.cur := by simp [atomicWrite]

@[simp] theorem atomicWrite_me : (atomicWrite s a v).me = s.me := by
  rw [me_eq_hart (atomicWrite_cur s a v)]
  simp [atomicWrite]

/-- The other hart loses its reservation if it is on the word, and nothing else (R413). -/
@[simp] theorem atomicWrite_hart_other :
    (atomicWrite s a v).hart s.cur.other = (s.hart s.cur.other).clearResAt a.toNat := by
  simp [atomicWrite]

end

theorem otherKept_atomicWrite (s : State) (a v : Word) : OtherKept s (atomicWrite s a v) :=
  ⟨by simp, by simp, by simpa using clearResAt_cases (s.hart s.cur.other) a.toNat⟩

theorem clearResAt_res {h : Hart} {a : Nat} {r : Word} (hr : (h.clearResAt a).res = some r) : r.toNat / 4 ≠ a / 4 := by
  unfold Hart.clearResAt at hr
  split at hr
  · next q hq =>
    split at hr
    · cases hr
    · next hne =>
      obtain rfl : q = r := Option.some.inj (hq.symm.trans hr)
      exact hne
  · next hnone => rw [hnone] at hr; cases hr

theorem getElem_bytesOf (v : Word) {n j : Nat} (hj : j < (bytesOf v n).length) : (bytesOf v n)[j] = byteOf v j := by
  simp [bytesOf]

/-- A word stored at its aligned address replaces the four bytes there. -/
theorem readByte_setWord {m : CoreMem} (hm : m.wf = true) {a : Word} (h : a.toNat % 4 = 0) (v : Word) (b : Nat) :
    readByte (m.setWord (a.toNat / 4) v).cells b
      = if a.toNat ≤ b ∧ b < a.toNat + 4 then byteOf v (b - a.toNat) else readByte m.cells b := by
  have hlen : (bytesOf v 4).length = 4 := by simp [bytesOf]
  have hstart : 4 * (a.toNat / 4) = a.toNat := by omega
  rw [CoreMem.setWord, hstart]
  split
  · next hin =>
    have hb : b = a.toNat + (b - a.toNat) := by omega
    have hread := readByte_writeBytes ((CoreMem.wf_iff m).1 hm).1 a.toNat (bytesOf v 4) (b - a.toNat) (by omega)
    rw [← hb, getElem_bytesOf] at hread
    exact hread
  · by_cases hbelow : b < a.toNat
    · exact readByte_writeBytes_below _ _ _ hbelow
    · exact readByte_writeBytes_above _ _ _ (by omega)

/-- The write of an atomic access on a word without error: the word is replaced, nothing else the harts share changes
(R413, R426). -/
theorem wordStored_atomicWrite {s : State} {a : Word} (hcanon : s.canonical = true) (h : a.toNat % 4 = 0)
    (hok : s.sh.dccm.status (a.toNat / 4) = .ok) (v : Word) : WordStored s (atomicWrite s a v) a v := by
  obtain ⟨-, -, hwf, -⟩ := (State.canonical_iff s).1 hcanon
  have hword := CoreMem.wf_setWord hwf (a.toNat / 4) v
  have hstatus : statusAfterFullWrite s.cur ((s.sh.dccm.setWord (a.toNat / 4) v).status (a.toNat / 4)) = .ok := by
    rw [CoreMem.setWord_status, hok]
    rfl
  unfold WordStored WordReplaced atomicWrite
  simp only [State.setHart_sh, CoreMem.setStatus_cells, hstatus]
  refine ⟨fun b => readByte_setWord hwf h v b.toNat, fun k => ?_, trivial⟩
  by_cases hk : k = a.toNat / 4
  · rw [hk, CoreMem.status_setStatus_self hword, hok]
  · rw [CoreMem.status_setStatus_ne _ hk, CoreMem.setWord_status]

/-- `WordStored` is about what the harts share. -/
theorem wordStored_of_sh {s t u : State} {a v : Word} (hsh : u.sh = t.sh) (h : WordStored s t a v) :
    WordStored s u a v := by
  unfold WordStored WordReplaced at h ⊢
  rw [hsh]
  exact h

/-! ## The end of an atomic instruction -/

/-- How an atomic instruction that began in `s` leaves its hart: after the fence `rd` is written, the instruction has
retired with its event, and the reservation is `res`. -/
structure Completes (s t : State) (rd : Reg) (v : Word) (event : Nat) (res : Option Word) : Prop where
  regs : RegWritten (fenceHart s s.cur) t rd v
  pc : t.me.pc = s.me.pc + 4
  res : t.me.res = res
  system : Hart.SystemSame (fenceHart s s.cur).me t.me
  ctr : t.me.ctr = (s.me.retire 4 [event]).ctr
  buf : t.me.buf = (fenceHart s s.cur).me.buf

/-- Writing `rd` and retiring, where memory has been written but of the fenced hart only the reservation has changed. No load
waits any more, so that writing `rd` overtakes none (R228). -/
theorem completes_setReg {s w : State} {res : Option Word} (hme : w.me = { (fenceHart s s.cur).me with res := res })
    (rd : Reg) (v : Word) (event : Nat) : Completes s ((w.setReg rd v).complete 4 [event]) rd v event res := by
  unfold State.complete
  generalize hpc : (w.setReg rd v).me.nextPc 4 = pc
  obtain ⟨⟨-, hsystem, hctr⟩, hres, hbuf, -, -⟩ := localOnly_setReg_completeAt w 4 [event] rd v pc
  obtain ⟨hrd, hrest⟩ := regWritten_setReg_completeAt w 4 [event] rd v pc
  rw [hme] at hsystem hctr hres hbuf
  have hreg : ∀ r, w.reg r = (fenceHart s s.cur).reg r := fun r => by rw [State.reg, hme]; rfl
  refine ⟨⟨hrd, fun r hr => (hrest r hr).trans (hreg r)⟩, ?_, hres, hsystem, ?_, ?_⟩
  · rw [State.completeAt_me, Hart.jump_pc, ← hpc]
    simp [Hart.nextPc, hme]
  · exact hctr.trans (retire_ctr_of_same (by simp) (by simp) (by simp) 4 [event])
  · exact hbuf.trans (Buffers.overwrite_noLoads (by simp) rd)

theorem othersSame_setReg_complete (w : State) (rd : Reg) (v : Word) (event : Nat) :
    OthersSame w ((w.setReg rd v).complete 4 [event]) :=
  (localOnly_setReg_completeAt ..).1.1

theorem sh_setReg_complete (w : State) (rd : Reg) (v : Word) (event : Nat) :
    ((w.setReg rd v).complete 4 [event]).sh = w.sh := by
  simp [State.complete]

/-- Writing a register and setting the reservation may change places. -/
theorem setReg_setRes (s : State) (rd : Reg) (v : Word) (res : Option Word) :
    (s.setReg rd v).setMe { (s.setReg rd v).me with res := res } = (s.setMe { s.me with res := res }).setReg rd v := by
  simp only [State.setReg, State.setMe_setMe, State.me_setMe]
  congr 1
  unfold Hart.writeReg Hart.setReg
  split <;> rfl

/-! ## `sc.w` -/

/-- What `sc.w` makes of memory and the harts before it completes: the word stored if the hart holds the reservation, the
reservation gone (R413, R416). -/
def conditionallyStored (u : State) (a v : Word) : State :=
  let w := if u.me.res = some a then atomicWrite u a v else u
  w.setMe { w.me with res := none }

theorem exec_scW (rd rs1 rs2 : Reg) (aq rl : BitVec 1) (s : State) :
    exec (.scW rd rs1 rs2 aq rl) s = .next (s.storeConditional rd rs1 rs2) := rfl

theorem storeConditional_ok {s : State} (rd : Reg) {rs1 : Reg} (rs2 : Reg) (hquiet : QuietTriggers s)
    (hcheck : atomicCheck s.cfg s.sh.mrac storeCauses (s.reg rs1) = none)
    (hok : (fenceHart s s.cur).sh.dccm.status ((s.reg rs1).toNat / 4) = .ok) :
    s.storeConditional rd rs1 rs2
      = ((conditionallyStored (fenceHart s s.cur).draw (s.reg rs1) (s.reg rs2)).setReg rd
          (if s.me.res = some (s.reg rs1) then 0 else 1)).complete 4 [53] := by
  have hread := atomicRead_ok (s := fenceHart s s.cur) (k := storeCauses) (by simpa using hcheck) hok
  unfold State.storeConditional conditionallyStored
  simp only [triggerAction_quiet (quietTriggers_fenceHart hquiet), hread, setReg_setRes, State.draw_me, fenceHart_me_res,
    decide_eq_true_eq]
  congr 2
  by_cases hres : s.me.res = some (s.reg rs1) <;> simp [hres, boolWord]

/-- An `sc.w` that faults while the debugger executes it loses the reservation and does nothing else (log 19). -/
theorem storeConditional_fault_dbgHalt {s : State} (rd : Reg) {rs1 : Reg} (rs2 : Reg) (hquiet : QuietTriggers s)
    (hcheck : atomicCheck s.cfg s.sh.mrac storeCauses (s.reg rs1) ≠ none) (hhalt : s.me.activity = .dbgHalt) :
    s.storeConditional rd rs1 rs2 = (fenceHart s s.cur).setMe { (fenceHart s s.cur).me with res := none } := by
  obtain ⟨c, m, hread⟩ := atomicRead_fault (s := fenceHart s s.cur) (k := storeCauses) (a := s.reg rs1)
    (by simpa using hcheck)
  unfold State.storeConditional
  simp only [triggerAction_quiet (quietTriggers_fenceHart hquiet), hread]
  exact raise_dbgHalt _ _ _ _ (by simp [hhalt])

section
variable {u : State} {a : Word}

theorem conditionallyStored_me (v : Word) : (conditionallyStored u a v).me = { u.me with res := none } := by
  unfold conditionallyStored
  dsimp only
  split <;> simp

theorem otherKept_conditionallyStored (v : Word) : OtherKept u (conditionallyStored u a v) := by
  unfold conditionallyStored
  dsimp only
  split
  · exact otherKept_trans_same (otherKept_atomicWrite u a v) (othersSame_setMe ..)
  · exact otherKept_of_same (othersSame_setMe ..)

theorem conditionallyStored_sh_of_reserved (h : u.me.res = some a) (v : Word) :
    (conditionallyStored u a v).sh = (atomicWrite u a v).sh := by
  simp [conditionallyStored, h]

theorem conditionallyStored_of_not_reserved (h : u.me.res ≠ some a) (v : Word) :
    conditionallyStored u a v = u.setMe { u.me with res := none } := by
  simp [conditionallyStored, h]

end

/-- Settles O29: with the reservation or without it, `sc.w` completes after the fence from the state `conditionallyStored`;
on a halted hart a faulting one does no more than drop the reservation. -/
theorem storeConditional : Obligations.StoreConditional := by
  intro s rd rs1 rs2 aq rl hquiet hcanon u a
  rw [exec_scW]
  refine ⟨fun hcheck hok => ⟨_, congrArg _ (storeConditional_ok rd rs2 hquiet hcheck hok), ?_⟩,
    fun hhalt hcheck => congrArg _ (storeConditional_fault_dbgHalt rd rs2 hquiet hcheck hhalt)⟩
  obtain ⟨haligned, -, -⟩ := aligned_inDccm_of_atomicCheck hcheck
  have hres : u.draw.me.res = s.me.res := fenceHart_me_res s
  generalize hw : conditionallyStored u.draw a (s.reg rs2) = w
  generalize (if s.me.res = some a then (0 : Word) else 1) = flag
  have hend : Completes s ((w.setReg rd flag).complete 4 [53]) rd flag 53 none :=
    completes_setReg (hw ▸ conditionallyStored_me (s.reg rs2)) rd flag 53
  have hother : OtherKept u w := hw ▸ otherKept_conditionallyStored (u := u.draw) (s.reg rs2)
  have hsame : OthersSame w ((w.setReg rd flag).complete 4 [53]) := othersSame_setReg_complete ..
  refine ⟨hend.regs, hend.pc, hend.res, hend.system, hend.ctr, hend.buf, otherKept_trans_same hother hsame,
    fun hheld => ?_, fun hheld => ?_⟩
  · have hstored := wordStored_atomicWrite (s := u.draw) (canonical_fenceHart hcanon s.cur) haligned hok (s.reg rs2)
    have hsh : w.sh = (atomicWrite u.draw a (s.reg rs2)).sh :=
      hw ▸ conditionallyStored_sh_of_reserved (hres.trans hheld) (s.reg rs2)
    exact wordStored_of_sh ((sh_setReg_complete ..).trans hsh) hstored
  · have hleft : w = u.draw.setMe { u.draw.me with res := none } :=
      hw ▸ conditionallyStored_of_not_reserved (by rwa [hres]) (s.reg rs2)
    have hsh : w.sh = u.sh := by rw [hleft, State.setMe_sh, State.draw_sh]
    have hlocal : OthersSame u.draw w := hleft ▸ othersSame_setMe ..
    exact ⟨(sh_setReg_complete ..).trans hsh, othersSame_trans hlocal hsame⟩

/-! ## `amo*.w` -/

/-- A choice the model makes by a test is the specification's, which makes it by what the test decides. -/
theorem ite_of_iff {b : Bool} {p : Prop} [Decidable p] (h : b = true ↔ p) (x y : Word) :
    (if b then x else y) = if p then x else y := by
  obtain rfl : b = decide p := Bool.eq_iff_iff.2 (h.trans decide_eq_true_iff.symm)
  by_cases hp : p <;> simp [hp]

/-- The comparisons of the model are those of the specification (R422 to R425). -/
theorem exec_amo {rd rs1 rs2 : Reg} {aq rl : BitVec 1} {f : Instr × (Word → Word → Word)}
    (hf : f ∈ amoForms rd rs1 rs2 aq rl) (s : State) : exec f.1 s = .next (s.amo f.2 rd rs1 rs2) := by
  revert f
  simp only [amoForms, List.forall_mem_cons, List.not_mem_nil, false_implies, implies_true, and_true]
  have hop {f g : Word → Word → Word} (h : ∀ x y, f x y = g x y) :
      (Host.Outcome.next (s.amo f rd rs1 rs2) : Host.Outcome State Fault Refusal) = .next (s.amo g rd rs1 rs2) := by
    obtain rfl : f = g := funext fun x => funext (h x)
    rfl
  refine ⟨rfl, rfl, rfl, rfl, rfl, ?min, ?max, ?minu, ?maxu⟩
  case min => exact hop fun x y => ite_of_iff (lessSigned_eq_true_iff x y) _ _
  case max => exact hop fun x y => ite_of_iff (lessSigned_eq_true_iff y x) _ _
  case minu => exact hop fun x y => ite_of_iff (lessUnsigned_eq_true_iff x y) _ _
  case maxu => exact hop fun x y => ite_of_iff (lessUnsigned_eq_true_iff y x) _ _

theorem amo_ok {s : State} (op : Word → Word → Word) (rd : Reg) {rs1 : Reg} (rs2 : Reg) (hquiet : QuietTriggers s)
    (hcheck : atomicCheck s.cfg s.sh.mrac (amoCauses s.cfg) (s.reg rs1) = none)
    (hok : (fenceHart s s.cur).sh.dccm.status ((s.reg rs1).toNat / 4) = .ok) :
    let u := fenceHart s s.cur
    let old := wordSeen u u.cur (s.reg rs1)
    s.amo op rd rs1 rs2
      = ((atomicWrite u.draw (s.reg rs1) (op old (s.reg rs2))).setReg rd old).complete 4 [51] := by
  intro u old
  have hread := atomicRead_ok (s := u) (k := amoCauses s.cfg) (a := s.reg rs1) (by simpa [u] using hcheck) hok
  obtain ⟨haligned, hfirst, hlast⟩ := aligned_inDccm_of_atomicCheck hcheck
  have hold : old = u.sh.dccm.word ((s.reg rs1).toNat / 4) :=
    wordSeen_dccm haligned (by simpa [u] using hfirst) (by simpa [u] using hlast) (fenceHart_me_sq s)
  unfold State.amo
  simp only [triggerAction_quiet (quietTriggers_fenceHart hquiet)]
  rw [hread, hold]

/-- Settles O30: each form's operation is the specification's; after the fence the result is stored, then `rd` written. -/
theorem atomicMemoryOps : Obligations.AtomicMemoryOps := by
  intro s rd rs1 rs2 aq rl hquiet hcanon u a old hcheck hok f hf
  refine ⟨_, (exec_amo hf s).trans (congrArg _ (amo_ok f.2 rd rs2 hquiet hcheck hok)), ?_⟩
  obtain ⟨haligned, -, -⟩ := aligned_inDccm_of_atomicCheck hcheck
  generalize hw : atomicWrite u.draw a (f.2 old (s.reg rs2)) = w
  have hend : Completes s ((w.setReg rd old).complete 4 [51]) rd old 51 s.me.res := by
    refine completes_setReg ?_ rd old 51
    rw [← hw, atomicWrite_me, State.draw_me, ← fenceHart_me_res s]
  have hstored : WordStored u w a (f.2 old (s.reg rs2)) :=
    hw ▸ wordStored_atomicWrite (s := u.draw) (canonical_fenceHart hcanon s.cur) haligned hok _
  have hother : OtherKept u w := hw ▸ otherKept_atomicWrite u.draw a _
  have hsame : OthersSame w ((w.setReg rd old).complete 4 [51]) := othersSame_setReg_complete ..
  refine ⟨hend.regs, hend.pc, hend.res, wordStored_of_sh (sh_setReg_complete ..) hstored, hend.system, hend.ctr, hend.buf,
    otherKept_trans_same hother hsame, fun r hr => ?_⟩
  obtain ⟨-, -, hkept⟩ := hsame
  have hcur : w.cur = s.cur := by rw [← hw, atomicWrite_cur, State.draw_cur, fenceHart_cur]
  have hcleared := atomicWrite_hart_other u.draw a (f.2 old (s.reg rs2))
  rw [hw, State.draw_cur, fenceHart_cur] at hcleared
  rw [hcur] at hkept
  rw [hkept, hcleared] at hr
  exact clearResAt_res hr

end Sys2Proof.Rv32aAtomics

/-! PROOFS. The compressed computational instructions, jumps and branches: each is its expansion on two bytes, so the
equations of the ALU's operators and of the targets serve here again (R440, R441, R445 to R460, R462, R463, R465,
R466). -/

namespace Sys2Proof.Rv32cCompressed

open Sys2Proof Sys2Proof.Machine Sys2Proof.Rv32iAlu Sys2Proof.Rv32iControl

/-- Extending the sign of `{imm, 0x000}` is extending that of `imm` and then shifting: both fill the bits from 17 up with
bit 5 of `imm` (R449). -/
theorem cluiImm_eq_shiftLeft (imm : BitVec 6) : cluiImm imm = imm.signExtend 32 <<< 12 := by
  have hsign : (imm ++ 0#12).msb = imm.msb := by rw [BitVec.msb_append, if_neg (by decide)]
  apply BitVec.eq_of_getLsbD_eq
  intro i hi
  rw [cluiImm, sext, BitVec.getLsbD_signExtend, hsign, BitVec.getLsbD_append, BitVec.getLsbD_shiftLeft,
    BitVec.getLsbD_signExtend]
  by_cases hlow : i < 12
  · have hfield : i < 6 + 12 := by omega
    simp [hlow, hfield]
  · have hfield : i - 12 < 6 ↔ i < 6 + 12 := by omega
    have hword : i - 12 < 32 := by omega
    simp [hlow, hfield, hword, hi]

/-- Settles O11: `c.lui` by its immediate, the shifts by their operators' equations; in the other instructions the model's
value is the specification's. -/
theorem compressedOps : Obligations.CompressedOps := by
  refine fun s rd rs2 cd cs imm6 imm10 sh => ⟨?addi4spn, ?addi, ?li, ?addi16sp, ?lui, ?srli, ?srai, ?andi, ?sub, ?xor, ?or,
    ?and, ?slli, ?mv, ?add⟩
  case lui => exact computes_of_exec_writeBack rfl (cluiImm_eq_shiftLeft imm6)
  case srli => exact computes_of_exec_writeBack rfl (shiftRight_eq_div ..)
  case srai => exact computes_of_exec_writeBack rfl (shiftRightArith_eq_div ..)
  case slli => exact computes_of_exec_writeBack rfl (shiftLeft_eq_mul ..)
  case addi4spn | addi | li | addi16sp | andi | sub | xor | or | and | mv | add => exact computes_of_exec_writeBack rfl rfl

/-- Settles O14: the jumps by their targets, the branches by what their comparison with 0 decides. -/
theorem compressedControl : Obligations.CompressedControl := by
  refine fun s rs1 cs off off9 => ⟨?jal, ?j, ?jr, ?jalr, ?beqz, ?bnez⟩
  case jal | j => exact jumps_of_exec_jumpInstr rfl rfl
  case jr | jalr => exact jumps_of_exec_jumpInstr rfl (evenPc_eq_and_not_one _)
  case beqz => exact branches_of_exec_branchInstr rfl beq_iff_eq
  case bnez => exact branches_of_exec_branchInstr rfl bne_iff_ne

end Sys2Proof.Rv32cCompressed

/-! PROOFS. The CSRs, read and written: which fields of the machine the reading of a CSR depends on, which of them a write
changes, and what a write leaves of the rest of the machine (R500, R508, R509). -/

namespace Sys2Proof.CsrFile

open Sys2Proof Sys2Proof.Machine Sys2Proof.Rv32iSystem Sys2Proof.Draining Sys2Proof.Fencing
  Sys2Proof.Rv32aAtomics

/-! ## The fields a CSR is read from -/

/-- The trap registers the reading of a CSR depends on. -/
def trapReads (r : TrapCsrs) : CsrName → List Word
  | .mstatus => [r.mstatus]
  | .mie => [r.mie]
  | .mtvec => [r.mtvec]
  | .mscratch => [r.mscratch]
  | .mepc => [r.mepc]
  | .mcause => [r.mcause]
  | .mtval => [r.mtval]
  | .mscause => [zext r.mscause]
  | _ => []

/-- The counter registers the reading of a CSR depends on, but for the CSRs that count (`CsrName.counts`). -/
def counterReads (r : Counters) : CsrName → List Word
  | .mcountinhibit => [r.mcountinhibit]
  | .mhpmevent k => [(r.get k).event]
  | .mcycle => [lowHalf r.mcycle]
  | .mcycleh => [highHalf r.mcycle]
  | _ => []

/-- The internal timers' registers the reading of a CSR depends on. -/
def timerReads (r : Timers) : CsrName → List Word
  | .mitcnt0 => [r.mitcnt0]
  | .mitb0 => [r.mitb0]
  | .mitctl0 => [r.mitctl0]
  | .mitcnt1 => [r.mitcnt1]
  | .mitb1 => [r.mitb1]
  | .mitctl1 => [r.mitctl1]
  | .mip => [r.mitcnt0, r.mitb0, r.mitcnt1, r.mitb1]
  | _ => []

/-- The debug registers the reading of a CSR depends on. -/
def debugReads (r : DebugCsrs) : CsrName → List Word
  | .tselect => [r.tselect]
  | .tdata1 => [r.selected.tdata1]
  | .tdata2 => [r.selected.tdata2]
  | .dcsr => [r.dcsr]
  | .dpc => [r.dpc]
  | .dicawics => [r.dicawics]
  | .dicad0 => [r.dicad0, r.dicawics]
  | .dicad1 => [r.dicad1, r.dicawics]
  | .dicad0h => [r.dicad0h]
  | _ => []

/-- The power control registers the reading of a CSR depends on. -/
def powerReads (r : Power) : CsrName → List Word
  | .mpmc => [boolWord r.haltie]
  | .mfdhs => [r.mfdhs]
  | _ => []

/-- What the reading of a CSR depends on of the bus error capture and the NMI requests. -/
def nmiReads (r : NmiState) : CsrName → List Word
  | .mdseac => [r.mdseac]
  | .dcsr => [boolWord r.any]
  | _ => []

/-- The interrupt controller's CSRs the reading of a CSR depends on, as numbers. -/
def picReads (r : PicCsrs) : CsrName → List Nat
  | .meivt => [r.meivt.toNat]
  | .meipt => [r.prithresh.toNat]
  | .meicidpl => [r.clidpri.toNat]
  | .meicurpl => [r.currpri.toNat]
  | .meihap => [r.meivt.toNat, r.claimid.toNat]
  | .mip => [r.prithresh.toNat, r.currpri.toNat]
  | _ => []

/-- The shared registers the reading of a CSR depends on, but for those of the interrupt controller. -/
def sharedReads (c : Shared) : CsrName → List Word
  | .mrac => [c.mrac]
  | .mfdht => [c.mfdht]
  | .micect => [c.micect]
  | .miccmect => [c.miccmect]
  | .mdccmect => [c.mdccmect]
  | .mcgc => [c.mcgc]
  | .mfdc => [c.mfdc]
  | .mhartstart => [boolWord c.start1]
  | .mnmipdel => [c.mnmipdel]
  | .mip => [c.micect, c.miccmect, c.mdccmect]
  | _ => []

/-- The reading of `m` finds the same in hart `g` as in hart `h`. -/
structure HartReadsSame (m : CsrName) (h g : Hart) : Prop where
  trap : trapReads g.trap m = trapReads h.trap m
  ctr : counterReads g.ctr m = counterReads h.ctr m
  tmr : timerReads g.tmr m = timerReads h.tmr m
  dbg : debugReads g.dbg m = debugReads h.dbg m
  pwr : powerReads g.pwr m = powerReads h.pwr m
  nmi : nmiReads g.nmi m = nmiReads h.nmi m
  pic : picReads g.pic m = picReads h.pic m
  pins : g.pins = h.pins

/-- The reading of `m` finds the same in the shared registers `d` as in `c`. -/
structure SharedReadsSame (m : CsrName) (c d : Shared) : Prop where
  reads : sharedReads d m = sharedReads c m
  priord : d.priord = c.priord
  sources : d.sources = c.sources

/-- The reading of `m` by the executing hart finds the same in `t` as in `s`. -/
structure ReadsSame (m : CsrName) (s t : State) : Prop where
  cfg : t.cfg = s.cfg
  cur : t.cur = s.cur
  me : HartReadsSame m s.me t.me
  sh : SharedReadsSame m s.sh t.sh

section
variable {m : CsrName} {s t u : State}

theorem ReadsSame.refl (m : CsrName) (s : State) : ReadsSame m s s :=
  ⟨rfl, rfl, ⟨rfl, rfl, rfl, rfl, rfl, rfl, rfl, rfl⟩, ⟨rfl, rfl, rfl⟩⟩

theorem ReadsSame.trans (hst : ReadsSame m s t) (htu : ReadsSame m t u) : ReadsSame m s u where
  cfg := htu.cfg.trans hst.cfg
  cur := htu.cur.trans hst.cur
  me := ⟨htu.me.trap.trans hst.me.trap, htu.me.ctr.trans hst.me.ctr, htu.me.tmr.trans hst.me.tmr,
    htu.me.dbg.trans hst.me.dbg, htu.me.pwr.trans hst.me.pwr, htu.me.nmi.trans hst.me.nmi,
    htu.me.pic.trans hst.me.pic, htu.me.pins.trans hst.me.pins⟩
  sh := ⟨htu.sh.reads.trans hst.sh.reads, htu.sh.priord.trans hst.sh.priord, htu.sh.sources.trans hst.sh.sources⟩

theorem readsSame_setMe {g : Hart} (hg : HartReadsSame m s.me g) : ReadsSame m s (s.setMe g) :=
  ⟨by simp, by simp, by simpa using hg, by simpa using (ReadsSame.refl m s).sh⟩

theorem readsSame_setHart {i : HartId} {g : Hart} (hi : s.cur = i) (hg : HartReadsSame m (s.hart i) g) :
    ReadsSame m s (s.setHart i g) := by
  subst hi
  exact readsSame_setMe hg

theorem readsSame_withSh {c : Shared} (hc : SharedReadsSame m s.sh c) : ReadsSame m s { s with sh := c } :=
  ⟨rfl, rfl, by simpa using (ReadsSame.refl m s).me, hc⟩

theorem readsSame_draw : ReadsSame m s s.draw :=
  ⟨rfl, rfl, by simpa using (ReadsSame.refl m s).me, ⟨rfl, rfl, rfl⟩⟩

theorem boolWord_inj {a b : Bool} : boolWord a = boolWord b ↔ a = b := by
  cases a <;> cases b <;> decide

/-- `mip` is what the timers, the thresholds, the pins and the error counters make it. -/
theorem mipOf_of_readsSame (h : ReadsSame .mip s t) : mipOf t t.cur = mipOf s s.cur := by
  obtain ⟨hcfg, hcur, ⟨-, -, htmr, -, -, -, hpic, hpins⟩, ⟨hcounts, hpriord, hsources⟩⟩ := h
  simp only [timerReads, picReads, sharedReads, List.cons.injEq, and_true] at htmr hpic hcounts
  obtain ⟨hcnt0, hb0, hcnt1, hb1⟩ := htmr
  obtain ⟨hthresh, hcurrpri⟩ := hpic
  obtain ⟨hic, hiccm, hdccm⟩ := hcounts
  simp only [mipOf, mexintirq, State.hart_cur]
  simp [picWinner, Shared.mceip, Timers.hit0, Timers.hit1, *]

/-- A CSR that does not count reads the same where all it is read from is the same. -/
theorem csrRead_of_readsSame (hm : m.counts = false) (h : ReadsSame m s t) : csrRead t m = csrRead s m := by
  cases m
  case mip => exact mipOf_of_readsSame h
  all_goals
    obtain ⟨hcfg, hcur, ⟨htrap, hctr, htmr, hdbg, hpwr, hnmi, hpic, -⟩, ⟨hsh, hpriord, -⟩⟩ := h
    simp_all [csrRead, trapReads, counterReads, timerReads, debugReads, powerReads, nmiReads, picReads, sharedReads,
      CsrName.counts, BitVec.toNat_inj, boolWord_inj, Hart.meihap]

end

/-! ## The CSRs alone changed -/

/-- The hart `g` is `h` but for its CSRs and what is kept with them: the registers, the buffers and the pins stay. -/
structure HartKept (h g : Hart) : Prop where
  regs : g.regs = h.regs
  pc : g.pc = h.pc
  activity : g.activity = h.activity
  res : g.res = h.res
  buf : g.buf = h.buf
  pins : g.pins = h.pins

/-- The state `t` is `s` but for the CSRs of the executing hart and the shared ones, and what is kept with them. -/
structure CsrsOnly (s t : State) : Prop where
  others : OthersSame s t
  memory : MemorySame s t
  me : HartKept s.me t.me

section
variable {s t u : State} {m n : CsrName}

theorem CsrsOnly.refl (s : State) : CsrsOnly s s :=
  ⟨⟨rfl, rfl, rfl⟩, fun _ => ⟨fun _ => rfl, rfl⟩, ⟨rfl, rfl, rfl, rfl, rfl, rfl⟩⟩

theorem CsrsOnly.trans (hst : CsrsOnly s t) (htu : CsrsOnly t u) : CsrsOnly s u where
  others := othersSame_trans hst.others htu.others
  memory := memorySame_trans hst.memory htu.memory
  me := ⟨htu.me.regs.trans hst.me.regs, htu.me.pc.trans hst.me.pc, htu.me.activity.trans hst.me.activity,
    htu.me.res.trans hst.me.res, htu.me.buf.trans hst.me.buf, htu.me.pins.trans hst.me.pins⟩

theorem csrsOnly_setMe {g : Hart} (hg : HartKept s.me g) : CsrsOnly s (s.setMe g) :=
  ⟨othersSame_setMe s g, memorySame_setMe hg.buf, by simpa using hg⟩

theorem CsrsOnly.draw (h : CsrsOnly s t) : CsrsOnly s t.draw where
  others := othersSame_trans h.others ⟨rfl, rfl, by simp⟩
  memory := memorySame_trans h.memory (memorySame_of rfl rfl fun i => by simp)
  me := by simpa using h.me

theorem csrsOnly_withSh {c : Shared} (hbus : c.bus = s.sh.bus) (hiccm : c.iccm = s.sh.iccm) (hdccm : c.dccm = s.sh.dccm) :
    CsrsOnly s { s with sh := c } where
  others := ⟨rfl, rfl, by simp⟩
  memory := fun a => ⟨fun i => by simp [byteSeen, hbus, hdccm], by simp [iccmByte, hiccm]⟩
  me := by simpa using (CsrsOnly.refl s).me

/-! ## Fences, Sleep and the start of T1 -/

/-- A fence changes of what CSRs are read from only the capture of a bus error. -/
theorem readsSame_fenceHart (hm : m ∉ CsrName.dmst.affects) : ReadsSame m s (fenceHart s s.cur) := by
  obtain ⟨regs, nmi, hme⟩ := fenceHart_me s
  obtain ⟨_, _, _, _, hsh⟩ := fenceHart_sh s s.cur
  refine ⟨by simp, by simp, ?_, ?_⟩
  · rw [hme]
    refine ⟨rfl, rfl, rfl, rfl, rfl, ?_, rfl, rfl⟩
    unfold nmiReads
    split <;> simp_all [CsrName.affects]
  · rw [hsh]
    exact ⟨rfl, rfl, rfl⟩

theorem readsSame_fenceIHart (hm : m ∉ CsrName.dmst.affects) : ReadsSame m s (fenceIHart s s.cur) := by
  unfold fenceIHart
  dsimp only
  refine ReadsSame.trans ?_ (readsSame_setHart (fenceHart_cur s s.cur) ⟨rfl, rfl, rfl, rfl, rfl, rfl, rfl, rfl⟩)
  exact (readsSame_fenceHart hm).trans (readsSame_withSh ⟨rfl, rfl, rfl⟩)

theorem readsSame_drainHart (hm : m ∉ CsrName.dmst.affects) : ReadsSame m s (drainHart s s.cur) :=
  (readsSame_fenceHart hm).trans
    (readsSame_withSh (s := fenceHart s s.cur) (c := (drainHart s s.cur).sh) ⟨rfl, rfl, rfl⟩)

theorem readsSame_quiesce (hm : m ∉ CsrName.dmst.affects) : ReadsSame m s (quiesce s s.cur) :=
  (readsSame_drainHart hm).trans
    (readsSame_setHart (readsSame_drainHart hm).cur ⟨rfl, rfl, rfl, rfl, rfl, rfl, rfl, rfl⟩)

theorem readsSame_enterSleep (hm : m ∉ CsrName.dmst.affects) : ReadsSame m s (enterSleep s s.cur) :=
  (readsSame_quiesce hm).trans
    (readsSame_setHart (readsSame_quiesce hm).cur ⟨rfl, rfl, rfl, rfl, rfl, rfl, rfl, rfl⟩)

/-- A fence writes no register, where no load waits. -/
theorem fenceHart_regs (h : s.me.NoPendingLoads) : (fenceHart s s.cur).me.regs = s.me.regs := by
  obtain ⟨-, -, ⟨nmi, hquiet⟩, -⟩ := quiesce_harts (i := s.cur) h
  have hregs : ((quiesce s s.cur).hart s.cur).regs = ((fenceHart s s.cur).hart s.cur).regs := by
    simp [quiesce, fenceHart]
  rw [me_eq_hart (fenceHart_cur s s.cur), ← hregs, hquiet, quiesced, State.hart_cur]

theorem me_setHart {i : HartId} (hi : s.cur = i) (g : Hart) : (s.setHart i g).me = g := by
  subst hi
  exact State.me_setMe s g

theorem fenceIHart_regs_pc (s : State) :
    (fenceIHart s s.cur).me.regs = (fenceHart s s.cur).me.regs
      ∧ (fenceIHart s s.cur).me.pc = (fenceHart s s.cur).me.pc := by
  have hcur : (fenceIHart s s.cur).cur = s.cur := by simp [fenceIHart]
  rw [me_eq_hart hcur, me_eq_hart (fenceHart_cur s s.cur)]
  simp only [fenceIHart, State.hart_setHart_self, State.withSh_hart, and_self]

theorem enterSleep_regs_pc (h : s.me.NoPendingLoads) :
    (enterSleep s s.cur).me.regs = s.me.regs ∧ (enterSleep s s.cur).me.pc = s.me.pc := by
  obtain ⟨-, hcur, ⟨nmi, hquiet⟩, -⟩ := quiesce_harts (i := s.cur) h
  unfold enterSleep
  dsimp only
  rw [me_setHart hcur, hquiet]
  exact ⟨rfl, rfl⟩

/-- T0, which starts T1, stays as it is. -/
theorem startT1_me (h : s.cur = .t0) : (startT1 s).me = s.me := by
  simp [startT1, State.me, State.hart, h]

theorem readsSame_startT1 (hm : m ≠ .mhartstart) (h : s.cur = .t0) : ReadsSame m s (startT1 s) := by
  refine ⟨rfl, rfl, ?_, ⟨?_, rfl, rfl⟩⟩
  · rw [startT1_me h]
    exact (ReadsSame.refl m s).me
  · unfold sharedReads startT1
    split <;> simp_all

/-! ## The writes that depend on the value or the state: their cases -/

theorem readsSame_setHaltie (hm : m ≠ .mpmc) (b : Bool) :
    ReadsSame m s (s.setMe { s.me with pwr := { s.me.pwr with haltie := b } }) := by
  refine readsSame_setMe ⟨rfl, rfl, rfl, rfl, ?_, rfl, rfl, rfl⟩
  unfold powerReads
  split <;> simp_all

theorem readsSame_setMstatus (hm : m ≠ .mstatus) (v : Word) :
    ReadsSame m s (s.setMe { s.me with trap := { s.me.trap with mstatus := v } }) := by
  refine readsSame_setMe ⟨?_, rfl, rfl, rfl, rfl, rfl, rfl, rfl⟩
  unfold trapReads
  split <;> simp_all

/-- Everything a write of `mpmc` does: it writes `haltie`, may set `MIE`, then may go to Sleep (R120). -/
theorem csrWrite_mpmc_cases (s : State) (v : Word) :
    ∃ w, CsrsOnly s w ∧ (∀ m, m ≠ .mpmc → m ≠ .mstatus → ReadsSame m s w)
      ∧ (csrWrite s .mpmc v = w ∨ csrWrite s .mpmc v = enterSleep w w.cur) := by
  unfold csrWrite writeMpmc
  dsimp only
  split
  · split
    · refine ⟨_, ?only, fun m hmpmc hmie => ?same, .inr rfl⟩
      case same => exact (readsSame_setHaltie hmpmc _).trans (readsSame_setMstatus hmie _)
      case only =>
        refine CsrsOnly.trans (csrsOnly_setMe ?_) (csrsOnly_setMe ?_) <;> exact ⟨rfl, rfl, rfl, rfl, rfl, rfl⟩
    · refine ⟨_, csrsOnly_setMe ?_, fun m hmpmc _ => readsSame_setHaltie hmpmc _, .inr rfl⟩
      exact ⟨rfl, rfl, rfl, rfl, rfl, rfl⟩
  · refine ⟨_, csrsOnly_setMe ?_, fun m hmpmc _ => readsSame_setHaltie hmpmc _, .inl rfl⟩
    exact ⟨rfl, rfl, rfl, rfl, rfl, rfl⟩

theorem csrWrite_mcause_cases (s : State) (v : Word) :
    ∃ w t, t = s.setMe { s.me with trap := { s.me.trap with mcause := w } }
      ∧ (csrWrite s .mcause v = t ∨ csrWrite s .mcause v = t.draw) := by
  unfold csrWrite
  dsimp only
  split
  · exact ⟨v, _, rfl, .inl rfl⟩
  · exact ⟨_, _, rfl, .inr rfl⟩

theorem csrWrite_dicago_cases (s : State) (v : Word) :
    csrWrite s .dicago v = s ∨ csrWrite s .dicago v = { s with sh := { s.sh with icPoison := true } } := by
  unfold csrWrite
  dsimp only
  split
  · exact .inr rfl
  · exact .inl rfl

theorem csrWrite_mnmipdel_cases (s : State) (v : Word) :
    csrWrite s .mnmipdel v = s ∨ ∃ w, csrWrite s .mnmipdel v = { s with sh := { s.sh with mnmipdel := w } } := by
  unfold csrWrite
  dsimp only
  generalize v &&& _ = w
  split
  · exact .inl rfl
  · exact .inr ⟨w, rfl⟩

/-- T1 is started by T0: a T1 that executes has been started (R111). -/
theorem csrWrite_mhartstart_cases (hstart : s.cur = .t1 → s.sh.start1 = true) (v : Word) :
    csrWrite s .mhartstart v = s ∨ s.cur = .t0 ∧ csrWrite s .mhartstart v = startT1 s := by
  unfold csrWrite
  dsimp only
  split
  · next hbits =>
    refine .inr ⟨?_, rfl⟩
    cases hcur : s.cur <;> simp_all
  · exact .inl rfl

theorem csrWrite_dmst_cases (s : State) (v : Word) :
    csrWrite s .dmst v = s ∨ csrWrite s .dmst v = fenceHart s s.cur ∨ csrWrite s .dmst v = fenceIHart s s.cur := by
  unfold csrWrite
  dsimp only
  split
  · exact .inr (.inr rfl)
  · split
    · exact .inr (.inl rfl)
    · exact .inl rfl

/-! ## What a write of a CSR changes of the others -/

/-- Changing the selected trigger leaves its fields that the change leaves. -/
theorem selected_modSelected (d : DebugCsrs) (inDebug : Bool) (f : Trigger → Trigger) (field : Trigger → Word)
    (hf : ∀ t, field (f t) = field t) : field (d.modSelected inDebug f).selected = field d.selected := by
  simp only [DebugCsrs.modSelected, DebugCsrs.selected, List.getElem?_modify]
  cases d.triggers[d.tselect.toNat]? with
  | none => simp
  | some t =>
    simp only [if_true, Option.map_eq_map, Option.map_some]
    split <;> simp [hf]

theorem debugReads_modSelected (d : DebugCsrs) (inDebug : Bool) (f : Trigger → Trigger)
    (h1 : m = .tdata1 → ∀ t, (f t).tdata1 = t.tdata1) (h2 : m = .tdata2 → ∀ t, (f t).tdata2 = t.tdata2) :
    debugReads (d.modSelected inDebug f) m = debugReads d m := by
  cases m
  case tdata1 => exact congrArg (fun w => [w]) (selected_modSelected d inDebug f Trigger.tdata1 (h1 rfl))
  case tdata2 => exact congrArg (fun w => [w]) (selected_modSelected d inDebug f Trigger.tdata2 (h2 rfl))
  all_goals rfl

theorem counters_get_set (c : Counters) (j k : Fin 4) (p : Hpm) : (c.set k p).get j = if j = k then p else c.get j := by
  match k with
  | 0 | 1 | 2 | 3 =>
    match j with
    | 0 | 1 | 2 | 3 => rfl

theorem counterReads_set (c : Counters) (k : Fin 4) (p : Hpm) (h : m = .mhpmevent k → p.event = (c.get k).event) :
    counterReads (c.set k p) m = counterReads c m := by
  have hrest : (c.set k p).mcountinhibit = c.mcountinhibit ∧ (c.set k p).mcycle = c.mcycle := by
    match k with
    | 0 | 1 | 2 | 3 => exact ⟨rfl, rfl⟩
  unfold counterReads
  split
  case h_2 j =>
    rw [counters_get_set]
    split
    · next hjk => rw [h (by rw [hjk]), hjk]
    · rfl
  all_goals simp [hrest]

theorem highHalf_setLow (v : BitVec 64) (w : Word) : highHalf (setLow v w) = highHalf v := by
  unfold setLow highHalf
  exact BitVec.extractLsb'_append_eq_left

theorem lowHalf_setHigh (v : BitVec 64) (w : Word) : lowHalf (setHigh v w) = lowHalf v := by
  unfold setHigh lowHalf
  exact BitVec.extractLsb'_append_eq_right

/-- The write of a CSR by a started hart leaves what another CSR is read from, unless it is one the written CSR feeds: the
write changes fields of one group, and of that group the other CSRs are read from other fields. -/
theorem readsSame_csrWrite {n : CsrName} (hstart : s.cur = .t1 → s.sh.start1 = true) (v : Word) (hne : m ≠ n)
    (haff : m ∉ n.affects) (hcount : m.counts = false) : ReadsSame m s (csrWrite s n v) := by
  cases n
  case misa | mhpmeventZero | mip | mhpmcounterZero | mhpmcounterhZero | mvendorid | marchid | mimpid | mhartid | mdseac
      | mhartnum | meihap =>
    exact .refl m s
  case mstatus | mie | mtvec | mscratch | mepc | mtval | mscause =>
    refine readsSame_setMe ⟨?_, rfl, rfl, rfl, rfl, rfl, rfl, rfl⟩
    unfold trapReads
    split <;> simp_all
  case mcause =>
    have hmcause (w : Word) : ReadsSame m s (s.setMe { s.me with trap := { s.me.trap with mcause := w } }) := by
      refine readsSame_setMe ⟨?_, rfl, rfl, rfl, rfl, rfl, rfl, rfl⟩
      unfold trapReads
      split <;> simp_all
    obtain ⟨w, t, rfl, hnow | hdraw⟩ := csrWrite_mcause_cases s v
    · exact hnow ▸ hmcause w
    · exact hdraw ▸ (hmcause w).trans readsSame_draw
  case mcountinhibit | mcycle | mcycleh | minstret | minstreth =>
    refine readsSame_setMe ⟨rfl, ?_, rfl, rfl, rfl, rfl, rfl, rfl⟩
    unfold counterReads
    split <;> simp_all [highHalf_setLow, lowHalf_setHigh, Counters.get]
  case mhpmevent k | mhpmcounter k | mhpmcounterh k =>
    refine readsSame_setMe ⟨rfl, counterReads_set _ k _ ?_, rfl, rfl, rfl, rfl, rfl, rfl⟩
    simp_all
  case mitcnt0 | mitb0 | mitctl0 | mitcnt1 | mitb1 | mitctl1 =>
    refine readsSame_setMe ⟨rfl, rfl, ?_, rfl, rfl, rfl, rfl, rfl⟩
    unfold timerReads
    split <;> simp_all [CsrName.affects]
  case tselect | dcsr | dpc | dicawics | dicad0 | dicad1 | dicad0h =>
    refine readsSame_setMe ⟨rfl, rfl, rfl, ?_, rfl, rfl, rfl, rfl⟩
    unfold debugReads
    split <;> simp_all [CsrName.affects, DebugCsrs.selected]
  case tdata1 | tdata2 =>
    refine readsSame_setMe ⟨rfl, rfl, rfl, debugReads_modSelected _ _ _ ?_ ?_, rfl, rfl, rfl, rfl⟩ <;> simp_all
  case mcpc | mfdhs =>
    refine readsSame_setMe ⟨rfl, rfl, rfl, rfl, ?_, rfl, rfl, rfl⟩
    unfold powerReads
    split <;> simp_all
  case mdeau => exact readsSame_setMe ⟨rfl, rfl, rfl, rfl, rfl, rfl, rfl, rfl⟩
  case meivt | meipt | meicidpl | meicurpl | meicpct =>
    refine readsSame_setMe ⟨rfl, rfl, rfl, rfl, rfl, rfl, ?_, rfl⟩
    unfold picReads
    split <;> simp_all [CsrName.affects]
  case mrac | mfdht | micect | miccmect | mdccmect | mcgc | mfdc =>
    refine readsSame_withSh ⟨?_, rfl, rfl⟩
    unfold sharedReads
    split <;> simp_all [CsrName.affects]
  case dicago =>
    obtain hsame | hpoison := csrWrite_dicago_cases s v
    · exact hsame.symm ▸ .refl m s
    · exact hpoison ▸ readsSame_withSh ⟨rfl, rfl, rfl⟩
  case mnmipdel =>
    obtain hsame | ⟨w, hw⟩ := csrWrite_mnmipdel_cases s v
    · exact hsame.symm ▸ .refl m s
    · rw [hw]
      refine readsSame_withSh ⟨?_, rfl, rfl⟩
      unfold sharedReads
      split <;> simp_all
  case mhartstart =>
    obtain hsame | ⟨hcur, hstarts⟩ := csrWrite_mhartstart_cases hstart v
    · exact hsame.symm ▸ .refl m s
    · exact hstarts ▸ readsSame_startT1 hne hcur
  case dmst =>
    obtain hsame | hfence | hfenceI := csrWrite_dmst_cases s v
    · exact hsame.symm ▸ .refl m s
    · exact hfence ▸ readsSame_fenceHart haff
    · exact hfenceI ▸ readsSame_fenceIHart haff
  case mpmc =>
    obtain ⟨hmstatus, hdrain⟩ : m ≠ .mstatus ∧ m ∉ CsrName.dmst.affects := by simpa [CsrName.affects] using haff
    obtain ⟨w, -, hsame, hnow | hsleep⟩ := csrWrite_mpmc_cases s v
    · exact hnow ▸ hsame m hne hmstatus
    · exact hsleep ▸ (hsame m hne hmstatus).trans (readsSame_enterSleep hdrain)

/-! ## What a write of a CSR leaves of the rest of the machine -/

/-- A write that starts no hart, does not fence and does not sleep changes CSRs only. -/
theorem csrsOnly_csrWrite (h : n ∉ [CsrName.mpmc, .dmst, .mhartstart]) (v : Word) : CsrsOnly s (csrWrite s n v) := by
  cases n
  case mpmc | dmst | mhartstart => simp at h
  case misa | mhpmeventZero | mip | mhpmcounterZero | mhpmcounterhZero | mvendorid | marchid | mimpid | mhartid | mdseac
      | mhartnum | meihap =>
    exact .refl s
  case mrac | mfdht | micect | miccmect | mdccmect | mcgc | mfdc => exact csrsOnly_withSh rfl rfl rfl
  case mcause =>
    obtain ⟨w, t, rfl, hnow | hdraw⟩ := csrWrite_mcause_cases s v
    · exact hnow ▸ csrsOnly_setMe ⟨rfl, rfl, rfl, rfl, rfl, rfl⟩
    · exact hdraw ▸ CsrsOnly.draw (csrsOnly_setMe ⟨rfl, rfl, rfl, rfl, rfl, rfl⟩)
  case dicago =>
    obtain hsame | hpoison := csrWrite_dicago_cases s v
    · exact hsame.symm ▸ .refl s
    · exact hpoison ▸ csrsOnly_withSh rfl rfl rfl
  case mnmipdel =>
    obtain hsame | ⟨w, hw⟩ := csrWrite_mnmipdel_cases s v
    · exact hsame.symm ▸ .refl s
    · exact hw ▸ csrsOnly_withSh rfl rfl rfl
  all_goals exact csrsOnly_setMe ⟨rfl, rfl, rfl, rfl, rfl, rfl⟩

/-- Whatever CSR a started hart writes, its registers and its `pc` stay, where no load waits. -/
theorem csrWrite_regs_pc (hstart : s.cur = .t1 → s.sh.start1 = true) (hloads : s.me.NoPendingLoads) (n : CsrName)
    (v : Word) : (csrWrite s n v).me.regs = s.me.regs ∧ (csrWrite s n v).me.pc = s.me.pc := by
  by_cases hspecial : n ∈ [CsrName.mpmc, .dmst, .mhartstart]
  case neg =>
    have hkept := (csrsOnly_csrWrite (s := s) hspecial v).me
    exact ⟨hkept.regs, hkept.pc⟩
  obtain rfl | rfl | rfl : n = .mpmc ∨ n = .dmst ∨ n = .mhartstart := by simpa using hspecial
  · obtain ⟨w, ⟨-, -, hw⟩, -, hnow | hsleep⟩ := csrWrite_mpmc_cases s v
    · exact ⟨by rw [hnow, hw.regs], by rw [hnow, hw.pc]⟩
    · obtain ⟨hregs, hpc⟩ := enterSleep_regs_pc (s := w) (by rwa [Hart.NoPendingLoads, hw.buf])
      exact ⟨by rw [hsleep, hregs, hw.regs], by rw [hsleep, hpc, hw.pc]⟩
  · obtain hsame | hfence | hfenceI := csrWrite_dmst_cases s v
    · exact ⟨by rw [hsame], by rw [hsame]⟩
    · exact ⟨by rw [hfence, fenceHart_regs hloads], by rw [hfence, fenceHart_me_pc]⟩
    · obtain ⟨hregs, hpc⟩ := fenceIHart_regs_pc s
      exact ⟨by rw [hfenceI, hregs, fenceHart_regs hloads], by rw [hfenceI, hpc, fenceHart_me_pc]⟩
  · obtain hsame | ⟨hcur, hstarts⟩ := csrWrite_mhartstart_cases hstart v
    · exact ⟨by rw [hsame], by rw [hsame]⟩
    · exact ⟨by rw [hstarts, startT1_me hcur], by rw [hstarts, startT1_me hcur]⟩

theorem csrRead_csrWrite_mscratch (s : State) (v : Word) : csrRead (csrWrite s .mscratch v) .mscratch = v := by
  simp [csrWrite, csrRead]

end

end Sys2Proof.CsrFile

/-! PROOFS. The six CSR instructions: each reads the CSR, writes the old value back to `rd` and completes, then writes the
CSR; from this what they do and what they leave alone (R500 to R509). -/

namespace Sys2Proof.Zicsr

open Sys2Proof Sys2Proof.Machine Sys2Proof.Rv32iSystem Sys2Proof.Rv32aAtomics Sys2Proof.CsrFile

/-! ## The two halves of a CSR instruction -/

/-- The state a CSR instruction reads its CSR in, with the effect of the reading done. -/
def csrReadDone (s : State) (n : CsrName) (reads : Bool) : State := if reads then csrReadEffect s n else s

/-- The state between the halves of a CSR instruction: the old value is in `rd`, the instruction has retired. -/
def oldValueWritten (s : State) (n : CsrName) (rd : Reg) (reads writes : Bool) : State :=
  (csrReadDone s n reads).writeBack 4 (csrEvents rd writes) rd (csrRead s n)

/-- The state a CSR instruction leaves. -/
def afterCsrForm (s : State) (n : CsrName) (rd : Reg) (reads : Bool) (f : CsrForm) : State :=
  let u := oldValueWritten s n rd reads f.writes
  if f.writes then csrWrite u n (f.value (csrRead s n)) else u

section
variable {s : State} {rd rs1 : Reg} {uimm : BitVec 5} {csr : BitVec 12} {n m : CsrName} {reads writes : Bool}

/-- Every legal CSR instruction is these two halves; some read the CSR only where `rd` is not `x0` (R502, R505). -/
theorem exec_csrForm {f : CsrForm} (hf : f ∈ csrForms s rd rs1 uimm csr) (haccess : csrAccess s csr f.writes = some n) :
    ∃ reads, exec f.instr s = .next (afterCsrForm s n rd reads f) := by
  have hcases (reads : Bool) : s.csrInstr f.instr csr rd reads f.writes f.value = afterCsrForm s n rd reads f := by
    rw [State.csrInstr, haccess]
    rfl
  simp only [csrForms, List.mem_cons, List.not_mem_nil, or_false] at hf
  obtain rfl | rfl | rfl | rfl | rfl | rfl := hf <;> exact ⟨_, congrArg _ (hcases _)⟩

/-- A CSR an instruction reaches is the one its number names. -/
theorem csrName_of_csrAccess (h : csrAccess s csr writes = some n) : csrName csr = some n := by
  unfold csrAccess at h
  cases hname : csrName csr with
  | none => simp [hname] at h
  | some k =>
    rw [hname] at h
    dsimp only at h
    split at h
    · contradiction
    · split at h
      · contradiction
      · split at h
        · contradiction
        · exact h

/-- Everything the second half can do. -/
theorem afterCsrForm_cases (s : State) (n : CsrName) (rd : Reg) (reads : Bool) (f : CsrForm) :
    f.writes = false ∧ afterCsrForm s n rd reads f = oldValueWritten s n rd reads f.writes
      ∨ f.writes = true
        ∧ afterCsrForm s n rd reads f
          = csrWrite (oldValueWritten s n rd reads f.writes) n (f.value (csrRead s n)) := by
  cases hwrites : f.writes
  · exact .inl ⟨rfl, by simp [afterCsrForm, hwrites]⟩
  · exact .inr ⟨rfl, by simp [afterCsrForm, hwrites]⟩

/-! ## Reading the CSR -/

/-- Everything the reading can do: only the reading of `dicago` has an effect, on the three CSRs that receive the array's
data (R144). -/
theorem csrReadDone_cases (s : State) (n : CsrName) (reads : Bool) :
    csrReadDone s n reads = s
      ∨ n = .dicago ∧ ∃ d0 d0h d1, csrReadDone s n reads
          = (s.setMe { s.me with dbg := { s.me.dbg with dicad0 := d0, dicad0h := d0h, dicad1 := d1 } }).draw := by
  unfold csrReadDone csrReadEffect
  split
  · split
    · exact .inr ⟨rfl, _, _, _, rfl⟩
    · exact .inl rfl
  · exact .inl rfl

theorem csrReadDone_eq (hn : n ≠ .dicago) : csrReadDone s n reads = s := by
  obtain hsame | ⟨hdicago, -⟩ := csrReadDone_cases s n reads
  · exact hsame
  · exact absurd hdicago hn

theorem csrReadDone_sh : (csrReadDone s n reads).sh = s.sh := by
  obtain hsame | ⟨-, _, _, _, hdraw⟩ := csrReadDone_cases s n reads
  · rw [hsame]
  · simp [hdraw]

theorem csrsOnly_csrReadDone : CsrsOnly s (csrReadDone s n reads) := by
  obtain hsame | ⟨-, _, _, _, hdraw⟩ := csrReadDone_cases s n reads
  · rw [hsame]
    exact .refl s
  · rw [hdraw]
    exact CsrsOnly.draw (csrsOnly_setMe ⟨rfl, rfl, rfl, rfl, rfl, rfl⟩)

theorem readsSame_csrReadDone (hm : m ∉ n.affects) : ReadsSame m s (csrReadDone s n reads) := by
  obtain hsame | ⟨rfl, _, _, _, hdraw⟩ := csrReadDone_cases s n reads
  · rw [hsame]
    exact .refl m s
  · rw [hdraw]
    refine ReadsSame.trans (readsSame_setMe ?_) readsSame_draw
    refine ⟨rfl, rfl, rfl, ?_, rfl, rfl, rfl, rfl⟩
    unfold debugReads
    split <;> simp_all [CsrName.affects, DebugCsrs.selected]

/-! ## Writing the old value back -/

theorem computes_oldValueWritten (s : State) (n : CsrName) (rd : Reg) (reads writes : Bool) :
    Computes (csrReadDone s n reads) (oldValueWritten s n rd reads writes) 4 (csrEvents rd writes) rd (csrRead s n) :=
  computes_writeBack ..

theorem regWritten_of_regs {s w u : State} {v : Word} (hw : w.me.regs = s.me.regs) (h : RegWritten w u rd v) :
    RegWritten s u rd v := by
  obtain ⟨hrd, hrest⟩ := h
  exact ⟨hrd, fun r hr => (hrest r hr).trans (by simp [State.reg, Hart.reg, hw])⟩

theorem regWritten_trans_regs {s u t : State} {v : Word} (ht : t.me.regs = u.me.regs) (h : RegWritten s u rd v) :
    RegWritten s t rd v := by
  have hreg (r : Reg) : t.reg r = u.reg r := by simp [State.reg, Hart.reg, ht]
  obtain ⟨hrd, hrest⟩ := h
  exact ⟨(hreg rd).trans hrd, fun r hr => (hreg r).trans (hrest r hr)⟩

theorem regWritten_oldValueWritten (s : State) (n : CsrName) (rd : Reg) (reads writes : Bool) :
    RegWritten s (oldValueWritten s n rd reads writes) rd (csrRead s n) :=
  regWritten_of_regs csrsOnly_csrReadDone.me.regs (computes_oldValueWritten ..).1

theorem oldValueWritten_pc (s : State) (n : CsrName) (rd : Reg) (reads writes : Bool) :
    (oldValueWritten s n rd reads writes).me.pc = s.me.pc + 4 :=
  (computes_oldValueWritten ..).2.1.trans (by rw [csrsOnly_csrReadDone.me.pc]; rfl)

/-- The old value goes to `rd`; no other register, CSR but the counters, or byte of memory changes. -/
theorem localOnly_oldValueWritten (s : State) (n : CsrName) (rd : Reg) (reads writes : Bool) :
    LocalOnly (csrReadDone s n reads) (oldValueWritten s n rd reads writes) 4 (csrEvents rd writes) rd :=
  (computes_oldValueWritten ..).2.2

theorem oldValueWritten_started (hstart : s.cur = .t1 → s.sh.start1 = true) :
    (oldValueWritten s n rd reads writes).cur = .t1 → (oldValueWritten s n rd reads writes).sh.start1 = true := by
  obtain ⟨⟨⟨-, hcur, -⟩, -, -⟩, -, -, hsh, -⟩ := localOnly_oldValueWritten s n rd reads writes
  obtain ⟨-, hcur', -⟩ := (csrsOnly_csrReadDone (s := s) (n := n) (reads := reads)).others
  rw [hcur, hcur', hsh, csrReadDone_sh]
  exact hstart

theorem oldValueWritten_noPendingLoads (hloads : s.me.NoPendingLoads) :
    (oldValueWritten s n rd reads writes).me.NoPendingLoads := by
  obtain ⟨-, -, hbuf, -, -⟩ := localOnly_oldValueWritten s n rd reads writes
  rw [csrsOnly_csrReadDone.me.buf, Buffers.overwrite_noLoads hloads] at hbuf
  rwa [Hart.NoPendingLoads, hbuf]

theorem event_add (c : Hpm) (inhibited : Bool) (k : Nat) : (c.add inhibited k).event = c.event := by
  unfold Hpm.add
  split <;> rfl

theorem event_get_countEvents (c : Counters) (evs : List Nat) (k : Fin 4) :
    ((c.countEvents evs).get k).event = (c.get k).event := by
  match k with
  | 0 | 1 | 2 | 3 => exact event_add ..

theorem counterReads_countEvents (c : Counters) (evs : List Nat) :
    counterReads (c.countEvents evs) m = counterReads c m := by
  cases m
  case mhpmevent k => exact congrArg (fun w => [w]) (event_get_countEvents c evs k)
  all_goals rfl

theorem counterReads_retireOne (c : Counters) : counterReads c.retireOne m = counterReads c m := by
  unfold Counters.retireOne
  split
  · rfl
  · cases m
    case mhpmevent k =>
      match k with
      | 0 | 1 | 2 | 3 => rfl
    all_goals rfl

/-- Retiring an instruction counts, and changes no other counter register (R65, R66). -/
theorem counterReads_retire (h : Hart) (len : Nat) (evs : List Nat) :
    counterReads (h.retire len evs).ctr m = counterReads h.ctr m := by
  unfold Hart.retire
  split
  · exact (counterReads_retireOne _).trans (counterReads_countEvents ..)
  · rfl

/-- An instruction that changes a register, `pc` and counters only leaves what a CSR is read from. -/
theorem readsSame_of_localOnly {t : State} {len : Nat} {evs : List Nat} (h : LocalOnly s t len evs rd) :
    ReadsSame m s t := by
  obtain ⟨⟨⟨hcfg, hcur, -⟩, ⟨htrap, htmr, hdbg, -, hpic, hpwr, hnmi, -, hpins, -, -⟩, hctr⟩, -, -, hsh, -⟩ := h
  refine ⟨hcfg, hcur, ⟨by rw [htrap], by rw [hctr, counterReads_retire], by rw [htmr], by rw [hdbg], by rw [hpwr],
    by rw [hnmi], by rw [hpic], hpins⟩, ?_⟩
  rw [hsh]
  exact ⟨rfl, rfl, rfl⟩

end

/-! ## The obligations -/

/-- Settles O37: the reading, the write-back and the write each leave what the other CSRs are read from, and the first and
the last change CSRs only. -/
theorem csrFrames : Obligations.CsrFrames := by
  intro s rd rs1 uimm csr n hstart f hf haccess
  obtain ⟨reads, hexec⟩ := exec_csrForm hf haccess
  have hread : CsrsOnly s (csrReadDone s n reads) := csrsOnly_csrReadDone
  have hlocal := localOnly_oldValueWritten s n rd reads f.writes
  refine ⟨_, hexec, fun m hne haff hcount => csrRead_of_readsSame hcount ?reads, fun hquiet => ?frame⟩
  case reads =>
    have hwritten := (readsSame_csrReadDone haff).trans (readsSame_of_localOnly hlocal)
    obtain ⟨-, hafter⟩ | ⟨-, hafter⟩ := afterCsrForm_cases s n rd reads f
    · exact hafter ▸ hwritten
    · exact hafter ▸ hwritten.trans (readsSame_csrWrite (oldValueWritten_started hstart) _ hne haff hcount)
  case frame =>
    have hwrite : CsrsOnly (oldValueWritten s n rd reads f.writes) (afterCsrForm s n rd reads f) := by
      obtain ⟨-, hafter⟩ | ⟨-, hafter⟩ := afterCsrForm_cases s n rd reads f
      · exact hafter.symm ▸ .refl _
      · exact hafter ▸ csrsOnly_csrWrite hquiet _
    obtain ⟨⟨hothers, ⟨-, -, -, -, -, -, -, hact, hpins, -, -⟩, -⟩, hres, hbuf, -, hmem⟩ := hlocal
    refine ⟨othersSame_trans hread.others (othersSame_trans hothers hwrite.others),
      memorySame_trans hread.memory (memorySame_trans hmem hwrite.memory), ?_, ?_, ?_, ?_⟩
    · rw [hwrite.me.res, hres, hread.me.res]
    · rw [hwrite.me.buf, hbuf, hread.me.buf]
    · rw [hwrite.me.activity, hact, hread.me.activity]
    · rw [hwrite.me.pins, hpins, hread.me.pins]

/-- Settles O36: the old value is written back with all its effects before the CSR is written, and the write leaves the
registers and `pc`. -/
theorem csrAccesses : Obligations.CsrAccesses := by
  intro s rd rs1 uimm csr n hstart hloads f hf haccess
  obtain ⟨reads, hexec⟩ := exec_csrForm hf haccess
  have hold := regWritten_oldValueWritten s n rd reads f.writes
  have hpc := oldValueWritten_pc s n rd reads f.writes
  have hcomputes (hn : n ≠ .dicago) :
      Computes s (oldValueWritten s n rd reads f.writes) 4 (csrEvents rd f.writes) rd (csrRead s n) := by
    simpa only [csrReadDone_eq hn] using computes_oldValueWritten s n rd reads f.writes
  refine ⟨_, hexec, ?_⟩
  obtain ⟨hwrites, hafter⟩ | ⟨hwrites, hafter⟩ := afterCsrForm_cases s n rd reads f
  · rw [hafter, hwrites]
    rw [hwrites] at hold hpc hcomputes
    exact ⟨hold, hpc, fun _ => hcomputes, nofun, nofun⟩
  · obtain ⟨hregs, hpc'⟩ := csrWrite_regs_pc (oldValueWritten_started hstart)
      (oldValueWritten_noPendingLoads (rd := rd) (reads := reads) (writes := f.writes) hloads) n (f.value (csrRead s n))
    rw [hafter, hwrites]
    rw [hwrites] at hold hpc hcomputes hregs hpc'
    refine ⟨regWritten_trans_regs hregs hold, hpc'.trans hpc, nofun, fun _ => ⟨_, rfl, hold, hcomputes⟩,
      fun _ hcsr => ?_⟩
    obtain rfl : n = .mscratch := by
      have hname := csrName_of_csrAccess haccess
      rw [hcsr] at hname
      exact Option.some.inj hname.symm
    exact csrRead_csrWrite_mscratch ..

end Sys2Proof.Zicsr

/-! PROOFS. The interrupt controller: the gateways of its sources, the evaluation of a hart's winner, and the capture
(R605, R606, R622, R623, R630 to R640). -/

namespace Sys2Proof.InterruptController

open Sys2Proof Sys2Proof.Machine Sys2Proof.Rv32iSystem Sys2Proof.Rv32aAtomics Sys2Proof.CsrFile Sys2Proof.Zicsr

/-! ## The sources -/

section
variable {s : State} {n k : Nat}

/-- The map of the sources is in canonical form. -/
theorem sourcesWf_of_canonical (h : s.canonical = true) : mapWf PicSource.initial s.sh.sources = true := by
  obtain ⟨-, -, -, hwf⟩ := (State.canonical_iff s).1 h
  exact hwf

theorem source_setSource_self {c : Shared} (h : mapWf PicSource.initial c.sources = true) (n : Nat) (p : PicSource) :
    (c.setSource n p).source n = p :=
  mapGet_mapSet_self _ h n p

theorem source_setSource_ne (c : Shared) (hk : k ≠ n) (p : PicSource) : (c.setSource n p).source k = c.source k :=
  mapGet_mapSet_ne _ _ hk p

/-- One source is replaced, the others stay. -/
theorem source_modSource (h : s.canonical = true) (n k : Nat) (f : PicSource → PicSource) :
    (s.modSource n f).sh.source k = if k = n then f (s.sh.source n) else s.sh.source k := by
  unfold State.modSource
  split
  · next hk => rw [hk, source_setSource_self (sourcesWf_of_canonical h)]
  · next hk => exact source_setSource_ne _ hk _

theorem sourceExists_iff (cfg : BuildConfig) (n : Nat) : sourceExists cfg n = true ↔ 1 ≤ n ∧ n ≤ cfg.picTotalInt := by
  simp [sourceExists]

end

/-! ### Gateways (R605, R606) -/

theorem picReq_simple {cfg : BuildConfig} {n : Nat} (h : configurable cfg n = false) (p : PicSource) :
    picReq cfg n p = p.pin := by
  simp [picReq, h]

theorem picReq_level {cfg : BuildConfig} {n : Nat} {p : PicSource} (h : configurable cfg n = true)
    (hedge : p.edge = false) : picReq cfg n p = (p.pin != p.low) := by
  simp [picReq, h, hedge, PicSource.act]

theorem picReq_edge {cfg : BuildConfig} {n : Nat} {p : PicSource} (h : configurable cfg n = true)
    (hedge : p.edge = true) : picReq cfg n p = p.ip := by
  simp [picReq, h, hedge]

/-- An edge-type gateway latches a transition of its input to active (R606). -/
theorem setPin_ip_edge {p : PicSource} (hedge : p.edge = true) (b : Bool) :
    (p.setPin b).ip = (p.ip || ((p.pin == p.low) && (b != p.low))) := by
  have hidle : (!(p.pin != p.low)) = (p.pin == p.low) := Bool.not_not _
  simp only [PicSource.setPin, PicSource.act, hedge, hidle, Bool.true_and]

theorem perform_extInt {s : State} {n : Nat} (h : sourceExists s.cfg n = true) (b : Bool) :
    perform s (.extInt n b) = .next (s.modSource n (·.setPin b)) :=
  congrArg _ (if_pos h)

/-- Settles O49: the pin is stored, and the flop takes the transition, as the gateway's type says. -/
theorem gatewayFollowsPin : Obligations.GatewayFollowsPin := by
  intro s n b hcanon hlow hhigh p
  have hsource := source_modSource hcanon n n (·.setPin b)
  rw [if_pos rfl] at hsource
  refine ⟨_, perform_extInt ((sourceExists_iff s.cfg n).2 ⟨hlow, hhigh⟩) b, fun hgw => ?_, fun hgw hedge => ?_,
    fun hgw hedge => ?_, fun k hk => ?_, rfl⟩
  · rw [hsource]
    exact picReq_simple hgw _
  · rw [hsource]
    exact picReq_level hgw hedge
  · rw [hsource]
    exact (picReq_edge (p := p.setPin b) hgw hedge).trans (setPin_ip_edge hedge b)
  · rw [source_modSource hcanon, if_neg hk]

/-! ## Evaluation (R630 to R634) -/

/-- One step of the search for the winner: the candidate `e` of higher ID against the best so far. -/
def evalStep (cfg : BuildConfig) (i : HartId) (best : Nat × BitVec 4) (e : Nat × PicSource) : Nat × BitVec 4 :=
  if picCandidate cfg i e.1 e.2 then picBetter best e.1 e.2 else best

/-- What the search over the sources `l` makes of `best`: `best` stays, or a candidate of higher priority takes its
place; no candidate has a higher priority than the result, and none of its priority a lower ID. -/
structure Wins (cfg : BuildConfig) (i : HartId) (l : List (Nat × PicSource)) (best w : Nat × BitVec 4) : Prop where
  found : w = best ∨ best.2.toNat < w.2.toNat ∧ ∃ e ∈ l, picCandidate cfg i e.1 e.2 = true ∧ w = (e.1, e.2.prio)
  max : ∀ e ∈ l, picCandidate cfg i e.1 e.2 = true → e.2.prio.toNat ≤ w.2.toNat
  first : ∀ e ∈ l, picCandidate cfg i e.1 e.2 = true → e.2.prio.toNat = w.2.toNat → w.1 ≤ e.1

section
variable {cfg : BuildConfig} {i : HartId} {l : List (Nat × PicSource)} {best w : Nat × BitVec 4} {e : Nat × PicSource}

theorem evalStep_cases (cfg : BuildConfig) (i : HartId) (best : Nat × BitVec 4) (e : Nat × PicSource) :
    picCandidate cfg i e.1 e.2 = true ∧ best.2.toNat < e.2.prio.toNat ∧ evalStep cfg i best e = (e.1, e.2.prio)
      ∨ (picCandidate cfg i e.1 e.2 = true → e.2.prio.toNat ≤ best.2.toNat) ∧ evalStep cfg i best e = best := by
  unfold evalStep picBetter
  split
  · next hc =>
    split
    · next hlt => exact .inl ⟨hc, hlt, rfl⟩
    · next hge => exact .inr ⟨fun _ => by omega, rfl⟩
  · next hc => exact .inr ⟨fun h => absurd h hc, rfl⟩

theorem lt_of_mapAbove {α : Type} {k : Nat} {m : List (Nat × α)} (h : mapAbove k m = true) : ∀ e ∈ m, k < e.1 := by
  induction m with
  | nil => simp
  | cons p m ih =>
    simp only [mapAbove, Bool.and_eq_true, decide_eq_true_eq] at h
    obtain ⟨hp, hm⟩ := h
    exact List.forall_mem_cons.2 ⟨hp, ih hm⟩

/-- The search goes on from a candidate that has taken the place of the best so far. -/
theorem Wins.cons_better (hc : picCandidate cfg i e.1 e.2 = true) (hlt : best.2.toNat < e.2.prio.toNat)
    (h : Wins cfg i l (e.1, e.2.prio) w) : Wins cfg i (e :: l) best w := by
  obtain ⟨rfl | ⟨hgt, x, hx, hcx, hw⟩, hmax, hfirst⟩ := h
  · exact ⟨.inr ⟨hlt, e, by simp, hc, rfl⟩, List.forall_mem_cons.2 ⟨fun _ => Nat.le_refl _, hmax⟩,
      List.forall_mem_cons.2 ⟨fun _ _ => Nat.le_refl _, hfirst⟩⟩
  · dsimp only at hgt
    exact ⟨.inr ⟨by omega, x, by simp [hx], hcx, hw⟩, List.forall_mem_cons.2 ⟨fun _ => by omega, hmax⟩,
      List.forall_mem_cons.2 ⟨fun _ heq => by omega, hfirst⟩⟩

/-- The search goes on from the same best, of lower ID than what it has passed. -/
theorem Wins.cons_kept (hle : picCandidate cfg i e.1 e.2 = true → e.2.prio.toNat ≤ best.2.toNat) (hid : best.1 ≤ e.1)
    (h : Wins cfg i l best w) : Wins cfg i (e :: l) best w := by
  obtain ⟨rfl | ⟨hgt, x, hx, hcx, hw⟩, hmax, hfirst⟩ := h
  · exact ⟨.inl rfl, List.forall_mem_cons.2 ⟨hle, hmax⟩, List.forall_mem_cons.2 ⟨fun _ _ => hid, hfirst⟩⟩
  · refine ⟨.inr ⟨hgt, x, by simp [hx], hcx, hw⟩, List.forall_mem_cons.2 ⟨fun hc => ?_, hmax⟩,
      List.forall_mem_cons.2 ⟨fun hc heq => ?_, hfirst⟩⟩ <;> have := hle hc <;> omega

/-- The IDs rise along the list, so that among equal priorities the first one found has the lowest. -/
theorem wins_foldl (hwf : mapWf PicSource.initial l = true) (hbelow : ∀ e ∈ l, best.1 ≤ e.1) :
    Wins cfg i l best (l.foldl (evalStep cfg i) best) := by
  induction l generalizing best with
  | nil => exact ⟨.inl rfl, by simp, by simp⟩
  | cons e l ih =>
    simp only [mapWf, Bool.and_eq_true] at hwf
    obtain ⟨⟨habove, -⟩, hrest⟩ := hwf
    obtain ⟨hid, hids⟩ := List.forall_mem_cons.1 hbelow
    rw [List.foldl_cons]
    obtain ⟨hc, hlt, heq⟩ | ⟨hle, heq⟩ := evalStep_cases cfg i best e
    · rw [heq]
      exact (ih hrest fun x hx => Nat.le_of_lt (lt_of_mapAbove habove x hx)).cons_better hc hlt
    · rw [heq]
      exact (ih hrest hids).cons_kept hle hid

theorem mapGet_of_mem {α : Type} [DecidableEq α] {d : α} {m : List (Nat × α)} (hwf : mapWf d m = true) {e : Nat × α}
    (he : e ∈ m) : mapGet d m e.1 = e.2 := by
  induction m with
  | nil => simp at he
  | cons p m ih =>
    simp only [mapWf, Bool.and_eq_true] at hwf
    obtain ⟨⟨habove, -⟩, hrest⟩ := hwf
    obtain rfl | he := List.mem_cons.1 he
    · simp [mapGet]
    · have hne : e.1 ≠ p.1 := Nat.ne_of_gt (lt_of_mapAbove habove e he)
      simp only [mapGet, if_neg hne]
      exact ih hrest he

theorem mem_of_mapGet_ne {α : Type} {d : α} {m : List (Nat × α)} {k : Nat} (h : mapGet d m k ≠ d) :
    (k, mapGet d m k) ∈ m := by
  induction m with
  | nil => exact absurd rfl h
  | cons p m ih =>
    unfold mapGet at h ⊢
    split
    · next hk => simp [hk]
    · next hk =>
      rw [if_neg hk] at h
      exact List.mem_cons_of_mem _ (ih h)

end

section
variable {s : State} {i : HartId}

/-- A source as it stands is a candidate of hart `i`. -/
def Competes (s : State) (i : HartId) (n : Nat) : Prop := picCandidate s.cfg i n (s.sh.source n) = true

theorem competes_iff (s : State) (i : HartId) (n : Nat) :
    Competes s i n ↔ 1 ≤ n ∧ n ≤ s.cfg.picTotalInt ∧ picReq s.cfg n (s.sh.source n) = true
      ∧ (s.sh.source n).inten = true ∧ (s.sh.source n).prio ≠ 0 ∧ (s.sh.source n).del = decide (i = .t1) := by
  simp [Competes, picCandidate, sourceExists, and_assoc]

/-- A candidate is listed: it differs from a source after reset. -/
theorem mem_sources_of_competes {n : Nat} (h : Competes s i n) : (n, s.sh.source n) ∈ s.sh.sources := by
  obtain ⟨-, -, -, henabled, -⟩ := (competes_iff s i n).1 h
  refine mem_of_mapGet_ne fun hinit => ?_
  rw [Shared.source, hinit] at henabled
  exact absurd henabled (by decide)

/-- What holds of every listed candidate holds of every candidate. -/
theorem forall_competes {P : Nat → PicSource → Prop}
    (h : ∀ e ∈ s.sh.sources, picCandidate s.cfg i e.1 e.2 = true → P e.1 e.2) (n : Nat) (hn : Competes s i n) :
    P n (s.sh.source n) :=
  h _ (mem_sources_of_competes hn) hn

theorem wins_picWinner (hcanon : s.canonical = true) (henable : s.cfg.pic.enable = true) :
    Wins s.cfg i s.sh.sources (0, 0) (picWinner s.cfg s.sh i) := by
  unfold picWinner
  rw [if_pos henable]
  exact wins_foldl (sourcesWf_of_canonical hcanon) fun _ _ => Nat.zero_le _

/-- The winner, where there is one, is a candidate, and `maxpri` its priority (R631). -/
theorem picWinner_cases (hcanon : s.canonical = true) (henable : s.cfg.pic.enable = true) :
    picWinner s.cfg s.sh i = (0, 0)
      ∨ Competes s i (picWinner s.cfg s.sh i).1
        ∧ (picWinner s.cfg s.sh i).2 = (s.sh.source (picWinner s.cfg s.sh i).1).prio := by
  obtain hnone | ⟨-, e, he, hc, hw⟩ := (wins_picWinner (i := i) hcanon henable).found
  · exact .inl hnone
  · have hsource : s.sh.source e.1 = e.2 := mapGet_of_mem (sourcesWf_of_canonical hcanon) he
    rw [hw]
    exact .inr ⟨by rw [Competes, hsource]; exact hc, by rw [hsource]⟩

theorem prio_pos_of_competes {n : Nat} (h : Competes s i n) : 0 < (s.sh.source n).prio.toNat := by
  obtain ⟨-, -, -, -, hprio, -⟩ := (competes_iff s i n).1 h
  exact Nat.pos_of_ne_zero fun hzero => hprio (BitVec.eq_of_toNat_eq hzero)

theorem mexintirq_iff (s : State) (i : HartId) :
    mexintirq s i = true
      ↔ max (s.hart i).pic.prithresh.toNat (s.hart i).pic.currpri.toNat < (picWinner s.cfg s.sh i).2.toNat := by
  simp only [mexintirq, Bool.and_eq_true, decide_eq_true_eq, Nat.max_lt]

theorem mhwakeup_iff (s : State) (i : HartId) : mhwakeup s i = true ↔ (picWinner s.cfg s.sh i).2.toNat = 15 := by
  rw [mhwakeup, beq_iff_eq, ← BitVec.toNat_inj]
  rfl

/-- Settles O47: the search over the listed sources wins by priority, then by ID, and every candidate is listed. -/
theorem picEvaluation : Obligations.PicEvaluation := by
  intro s i hcanon henable candidate win top
  have hcandidate (n : Nat) : candidate n ↔ Competes s i n := (competes_iff s i n).symm
  simp only [hcandidate]
  obtain ⟨-, hmax, hfirst⟩ := wins_picWinner (i := i) hcanon henable
  have hmax : ∀ n, Competes s i n → (s.sh.source n).prio.toNat ≤ top :=
    forall_competes (P := fun _ p => p.prio.toNat ≤ top) hmax
  have hfirst : ∀ n, Competes s i n → (s.sh.source n).prio.toNat = top → win ≤ n :=
    forall_competes (P := fun n p => p.prio.toNat = top → win ≤ n) hfirst
  refine ⟨hmax, fun ⟨n, hn⟩ => ?_, fun hnone => ?_, mexintirq_iff s i, mhwakeup_iff s i⟩
  · obtain hzero | ⟨hwin, htop⟩ := picWinner_cases (i := i) hcanon henable
    · have htop : top = 0 := by simp only [top, hzero]; rfl
      have := prio_pos_of_competes hn
      have := hmax n hn
      omega
    · exact ⟨hwin, congrArg BitVec.toNat htop.symm, hfirst⟩
  · obtain hzero | ⟨hwin, -⟩ := picWinner_cases (i := i) hcanon henable
    · exact ⟨congrArg Prod.fst hzero, congrArg (fun w => w.2.toNat) hzero⟩
    · exact absurd ⟨_, hwin⟩ hnone

end

/-! ## The capture (R622, R623, R640) -/

/-- The PIC's CSRs of hart `i` with the winner captured. -/
def captured (s : State) (i : HartId) : PicCsrs :=
  { (s.hart i).pic with
    claimid := BitVec.ofNat 8 (picWinner s.cfg s.sh i).1, clidpri := (picWinner s.cfg s.sh i).2 }

theorem capture_me (s : State) : capture s s.cur = s.setMe { s.me with pic := captured s s.cur } := rfl

/-- The ID field of `meihap`: the low eight bits of the winner's ID, as a number of words. -/
theorem zext_claimid_shift (n : Nat) : zext (BitVec.ofNat 8 n) <<< 2 = BitVec.ofNat 32 (4 * (n % 256)) := by
  apply BitVec.eq_of_toNat_eq
  simp only [zext, BitVec.truncate_eq_setWidth, BitVec.toNat_shiftLeft, BitVec.toNat_setWidth, BitVec.toNat_ofNat,
    Nat.shiftLeft_eq]
  omega

/-- An address aligned to 1024 bytes and an offset below have no bit in common. -/
theorem or_eq_add_of_aligned {v w : Word} (hv : v &&& 0x3FF#32 = 0) (hw : w.toNat < 1024) : v ||| w = v + w := by
  have hwmask : w &&& 0x3FF#32 = w := by
    apply BitVec.eq_of_toNat_eq
    rw [BitVec.toNat_and]
    exact (Nat.and_two_pow_sub_one_eq_mod w.toNat 10).trans (Nat.mod_eq_of_lt hw)
  refine (BitVec.add_eq_or_of_and_eq_zero v w ?_).symm
  rw [← hwmask, BitVec.and_comm w, ← BitVec.and_assoc, hv]
  exact BitVec.zero_and

theorem csrAccess_meicpct {s : State} (h : s.cfg.fastRedirect = false) : csrAccess s 0xBCA true = some .meicpct := by
  have hname : csrName 0xBCA = some .meicpct := rfl
  have hwritable : ¬ (true && csrReadOnly 0xBCA) = true := by decide
  have hmode : ¬ (CsrName.meicpct.debugOnly && s.me.activity != .dbgHalt) = true := Bool.false_ne_true
  unfold csrAccess
  rw [hname]
  exact (if_neg hwritable).trans ((if_neg hmode).trans (if_neg (by simp [h])))

theorem exec_csrrw_meicpct {s : State} (h : s.cfg.fastRedirect = false) (rd rs1 : Reg) :
    ∃ reads u, u = oldValueWritten s .meicpct rd reads true
      ∧ exec (.csrrw rd rs1 0xBCA) s = .next (capture u u.cur) := by
  obtain ⟨reads, hexec⟩ := exec_csrForm (s := s) (rd := rd) (rs1 := rs1) (uimm := 0) (csr := 0xBCA)
    (f := ⟨.csrrw rd rs1 0xBCA, true, fun _ => s.reg rs1⟩) (by simp [csrForms]) (csrAccess_meicpct h)
  exact ⟨reads, _, rfl, hexec⟩

/-- Settles O48: the write captures after the instruction has retired, which leaves what the controller evaluates. -/
theorem claimCaptures : Obligations.ClaimCaptures := by
  intro s rd rs1 hredirect haligned
  obtain ⟨reads, u, hu, hexec⟩ := exec_csrrw_meicpct hredirect rd rs1
  have hread : csrReadDone s .meicpct reads = s := csrReadDone_eq (by decide)
  obtain ⟨hreg, hpc, ⟨⟨hothers, ⟨-, -, -, -, hpic, -⟩, -⟩, -, -, hsh, -⟩⟩ :=
    hread ▸ computes_oldValueWritten s .meicpct rd reads true
  rw [← hu] at hreg hpc hothers hpic hsh
  have ⟨hcfg, hcur, _⟩ := hothers
  have hcaptured : captured u u.cur = captured s s.cur := by
    simp only [captured, hcfg, hsh, hcur, ← me_eq_hart hcur, hpic, State.hart_cur]
  refine ⟨_, hexec, ?_⟩
  rw [capture_me, hcaptured]
  refine ⟨regWritten_trans_regs (by simp) hreg, by simpa using hpc, by simpa using hsh,
    othersSame_trans hothers (othersSame_setMe ..), by simp [captured], ?_⟩
  show (u.setMe _).me.meihap = _
  rw [State.me_setMe, Hart.meihap]
  dsimp only [captured]
  rw [State.hart_cur, zext_claimid_shift, or_eq_add_of_aligned haligned]
  rw [BitVec.toNat_ofNat]
  omega

end Sys2Proof.InterruptController

/-! PROOFS. The registers of the interrupt controller: where they stand in its block, what they read as, what a write
leaves, and from these the word loads and stores of the block (R602, R610 to R617). -/

namespace Sys2Proof.PicRegisters

open Sys2Proof Sys2Proof.Machine Sys2Proof.Rv32iSystem Sys2Proof.Rv32aAtomics Sys2Proof.InterruptController

/-! ## Blocks of a legal build (R9, R10) -/

section
variable {cfg : BuildConfig} {p q : Placement} {sizes : List Nat} {a : Word}

/-- Everything a block of a legal build is: it begins and ends at multiples of four, inside its region. -/
theorem block_of_legal (hlegal : Placement.legal p sizes = true) (henable : p.enable = true) :
    p.offset % 4 = 0 ∧ p.offset + 1024 * p.sizeKB ≤ 2 ^ 28 := by
  simp only [Placement.legal, henable, Bool.not_true, Bool.false_or, Bool.and_eq_true, decide_eq_true_eq] at hlegal
  obtain ⟨⟨-, halign⟩, hend⟩ := hlegal
  have hfour : 4 ∣ Placement.align p := by
    unfold Placement.align Placement.bytes
    split <;> omega
  refine ⟨Nat.mod_eq_zero_of_dvd (Nat.dvd_trans hfour (Nat.dvd_of_mod_eq_zero halign)), ?_⟩
  unfold Placement.bytes at hend
  omega

theorem contains_iff (p : Placement) (a : Word) :
    Placement.contains p a = true ↔ p.enable = true ∧ p.region * 2 ^ 28 + p.offset ≤ a.toNat
      ∧ a.toNat < p.region * 2 ^ 28 + p.offset + 1024 * p.sizeKB := by
  simp only [Placement.contains, Bool.and_eq_true, decide_eq_true_eq, and_assoc]
  rw [Placement.base, Placement.bytes, Nat.mul_comm p.sizeKB]

theorem base_mod_four (hlegal : Placement.legal p sizes = true) (hin : Placement.contains p a = true) :
    Placement.base p % 4 = 0 := by
  obtain ⟨henable, -, -⟩ := (contains_iff p a).1 hin
  obtain ⟨hoff, -⟩ := block_of_legal hlegal henable
  unfold Placement.base
  omega

/-- With an aligned word's first byte a block holds its last. -/
theorem contains_last (hlegal : Placement.legal p sizes = true) (hin : Placement.contains p a = true)
    (ha : a.toNat % 4 = 0) :
    Placement.contains p (a + 3) = true := by
  obtain ⟨henable, hlow, hhigh⟩ := (contains_iff p a).1 hin
  obtain ⟨hoff, -⟩ := block_of_legal hlegal henable
  have hthree : (a + 3).toNat = a.toNat + 3 := Rv32aAtomics.toNat_add_of_aligned ha (j := 3) (by decide)
  exact (contains_iff p (a + 3)).2 ⟨henable, by omega, by omega⟩

theorem ownsRegion_of_contains (hlegal : Placement.legal p sizes = true) (hin : Placement.contains p a = true) :
    Placement.ownsRegion p a = true := by
  obtain ⟨henable, hlow, hhigh⟩ := (contains_iff p a).1 hin
  obtain ⟨-, hend⟩ := block_of_legal hlegal henable
  have hregion : regionOf a = p.region := by
    unfold regionOf
    omega
  simp [Placement.ownsRegion, henable, hregion]

theorem contains_apart (hapart : Placement.apart p q = true) (hq : Placement.contains q a = true) :
    Placement.contains p a = false := by
  rw [← Bool.not_eq_true]
  intro hp
  obtain ⟨hpe, hplow, hphigh⟩ := (contains_iff p a).1 hp
  obtain ⟨hqe, hqlow, hqhigh⟩ := (contains_iff q a).1 hq
  simp only [Placement.apart, hpe, hqe, Bool.not_true, Bool.false_or, Bool.or_eq_true, decide_eq_true_eq] at hapart
  unfold Placement.base Placement.bytes at hapart
  omega

/-- What of a legal build the accesses to the DCCM and to the PIC block need (R9, R10). -/
theorem blocks_of_legal (h : BuildConfig.legal cfg = true) :
    (∃ sizes, Placement.legal cfg.dccm sizes = true) ∧ (∃ sizes, Placement.legal cfg.pic sizes = true)
      ∧ Placement.apart cfg.dccm cfg.pic = true ∧ cfg.picTotalInt ≤ 255 := by
  simp only [BuildConfig.legal, Bool.and_eq_true, decide_eq_true_eq] at h
  obtain ⟨⟨⟨⟨⟨⟨⟨⟨⟨⟨⟨⟨-, hdccm⟩, hpic⟩, -⟩, -⟩, hapart⟩, -⟩, htotal⟩, -⟩, -⟩, -⟩, -⟩, -⟩ := h
  exact ⟨⟨_, hdccm⟩, ⟨_, hpic⟩, hapart, htotal⟩

theorem inDccm_of_inPic (h : BuildConfig.legal cfg = true) (hpic : inPic cfg a = true) : inDccm cfg a = false := by
  obtain ⟨-, -, hapart, -⟩ := blocks_of_legal h
  exact contains_apart hapart hpic

/-- An aligned address of the PIC block has an aligned offset. -/
theorem offset_mod_four (h : BuildConfig.legal cfg = true) (hpic : inPic cfg a = true) (ha : a.toNat % 4 = 0) :
    (a.toNat - Placement.base cfg.pic) % 4 = 0 := by
  obtain ⟨-, ⟨_, hlegal⟩, -, -⟩ := blocks_of_legal h
  have hbase := base_mod_four hlegal hpic
  omega

end

/-! ## Where the registers stand (R610, R611) -/

/-- The register stands at this offset of the block. -/
def StandsAt (cfg : BuildConfig) (off : Nat) : PicReg → Prop
  | .mpiccfg => off = 0x3000
  | .meipl n => off = 4 * n ∧ sourceExists cfg n = true
  | .meip x => off = 0x1000 + 4 * x ∧ x ≤ cfg.picTotalInt / 32
  | .meitp x => off = 0x1800 + 4 * x ∧ x ≤ cfg.picTotalInt / 32 ∧ cfg.dualThread = true
  | .meie n => off = 0x2000 + 4 * n ∧ sourceExists cfg n = true
  | .meigwctrl n => off = 0x4000 + 4 * n ∧ sourceExists cfg n = true ∧ configurable cfg n = true
  | .meigwclr n => off = 0x5000 + 4 * n ∧ sourceExists cfg n = true ∧ configurable cfg n = true
  | .meidel n => off = 0x6000 + 4 * n ∧ sourceExists cfg n = true ∧ cfg.dualThread = true
  | .unused => False

section
variable {cfg : BuildConfig} {off n x : Nat} {r : PicReg}

theorem lt_page_of_sourceExists (htotal : cfg.picTotalInt ≤ 255) (h : sourceExists cfg n = true) : n < 0x400 := by
  obtain ⟨-, hn⟩ := (sourceExists_iff cfg n).1 h
  omega

/-- The page and the word of an offset. -/
theorem page_word {k : Nat} (h : off = 0x1000 * k + 4 * n) (hn : n < 0x400) :
    off / 0x1000 = k ∧ off % 0x1000 / 4 = n := by
  omega

/-- The page and the word of a register of a source. -/
theorem page_source {k : Nat} (htotal : cfg.picTotalInt ≤ 255) (hn : sourceExists cfg n = true)
    (h : off = 0x1000 * k + 4 * n) : off / 0x1000 = k ∧ off % 0x1000 / 4 = n :=
  page_word h (lt_page_of_sourceExists htotal hn)

theorem picRegAt_of_standsAt (htotal : cfg.picTotalInt ≤ 255) (h : StandsAt cfg off r) : picRegAt cfg off = r := by
  cases r with
  | mpiccfg =>
    obtain rfl : off = 0x3000 := h
    rfl
  | meipl n =>
    obtain ⟨hoff, hn⟩ := h
    obtain ⟨hpage, hword⟩ := page_source (off := off) (k := 0) htotal hn (by omega)
    simp [picRegAt, hpage, hword, hn]
  | meip x =>
    obtain ⟨hoff, hx⟩ := h
    obtain ⟨hpage, hword⟩ := page_word (k := 1) hoff (by omega)
    simp [picRegAt, hpage, hword, hx]
  | meitp x =>
    obtain ⟨hoff, hx, hdual⟩ := h
    obtain ⟨hpage, hword⟩ := page_word (off := off) (k := 1) (n := 0x200 + x) (by omega) (by omega)
    have hbeyond : ¬ 0x200 + x ≤ cfg.picTotalInt / 32 := by omega
    simp [picRegAt, hpage, hword, hbeyond, hx, hdual]
  | meie n =>
    obtain ⟨hoff, hn⟩ := h
    simp [picRegAt, page_source (k := 2) htotal hn hoff, hn]
  | meigwctrl n =>
    obtain ⟨hoff, hn, hgw⟩ := h
    simp [picRegAt, page_source (k := 4) htotal hn hoff, hn, hgw]
  | meigwclr n =>
    obtain ⟨hoff, hn, hgw⟩ := h
    simp [picRegAt, page_source (k := 5) htotal hn hoff, hn, hgw]
  | meidel n =>
    obtain ⟨hoff, hn, hdual⟩ := h
    simp [picRegAt, page_source (k := 6) htotal hn hoff, hn, hdual]
  | unused => exact h.elim

/-- Where a register is found, it stands. -/
theorem standsAt_picRegAt (cfg : BuildConfig) (hoff : off % 4 = 0) :
    picRegAt cfg off = .unused ∨ StandsAt cfg off (picRegAt cfg off) := by
  unfold picRegAt
  dsimp only
  split
  case h_1 =>
    split
    · next hn => exact .inr ⟨by omega, hn⟩
    · exact .inl rfl
  case h_2 =>
    split
    · next hx => exact .inr ⟨by omega, hx⟩
    · split
      · next hx =>
        obtain ⟨hlow, hhigh, hdual⟩ := hx
        exact .inr ⟨by omega, hhigh, hdual⟩
      · exact .inl rfl
  case h_3 =>
    split
    · next hn => exact .inr ⟨by omega, hn⟩
    · exact .inl rfl
  case h_4 =>
    split
    · next hn => exact .inr (show off = 0x3000 by omega)
    · exact .inl rfl
  case h_5 | h_6 | h_7 =>
    split
    · next hn => exact .inr ⟨by omega, by simpa using hn⟩
    · exact .inl rfl
  case h_8 => exact .inl rfl

/-- A register is found exactly where it stands. -/
theorem picRegAt_eq_iff (htotal : cfg.picTotalInt ≤ 255) (hoff : off % 4 = 0) (hr : r ≠ .unused) :
    picRegAt cfg off = r ↔ StandsAt cfg off r := by
  refine ⟨fun h => ?_, picRegAt_of_standsAt htotal⟩
  obtain hunused | hstands := standsAt_picRegAt cfg hoff
  · exact absurd (h.symm.trans hunused) hr
  · exact h ▸ hstands

/-! ### Unused addresses (R602) -/

/-- Page 3 holds one register. -/
theorem picRegAt_unused_of_page3 (hoff : off % 4 = 0) (hpage : off / 0x1000 = 3) (hne : off ≠ 0x3000) :
    picRegAt cfg off = .unused := by
  have hword : off % 0x1000 / 4 ≠ 0 := by omega
  simp only [picRegAt, hpage, if_neg hword]

/-- No source stands at this word of a page of sources. -/
theorem picRegAt_unused_of_noSource (hpage : off / 0x1000 ∈ [0, 2, 4, 5, 6])
    (hword : sourceExists cfg (off % 0x1000 / 4) = false) : picRegAt cfg off = .unused := by
  simp only [List.mem_cons, List.not_mem_nil, or_false] at hpage
  obtain hpage | hpage | hpage | hpage | hpage := hpage <;> simp [picRegAt, hpage, hword]

/-- A simple gateway has no registers (R607). -/
theorem picRegAt_unused_of_simple (hpage : off / 0x1000 ∈ [4, 5])
    (hword : configurable cfg (off % 0x1000 / 4) = false) : picRegAt cfg off = .unused := by
  simp only [List.mem_cons, List.not_mem_nil, or_false] at hpage
  obtain hpage | hpage := hpage <;> simp [picRegAt, hpage, hword]

/-- With one hart nothing is delegated. -/
theorem picRegAt_unused_of_single (hpage : off / 0x1000 = 6) (hdual : cfg.dualThread = false) :
    picRegAt cfg off = .unused := by
  simp [picRegAt, hpage, hdual]

theorem picRegAt_unused_of_pending (hx : x < 0x400) (hoff : off = 0x1000 + 4 * x) (hmeip : cfg.picTotalInt / 32 < x)
    (hmeitp : ¬ (0x200 ≤ x ∧ x - 0x200 ≤ cfg.picTotalInt / 32 ∧ cfg.dualThread = true)) :
    picRegAt cfg off = .unused := by
  obtain ⟨hpage, hword⟩ := page_word (off := off) (k := 1) (n := x) (by omega) hx
  simp only [picRegAt, hpage, hword, if_neg (Nat.not_le.2 hmeip), if_neg hmeitp]

theorem picRegAt_unused_of_beyond (hoff : 0x7000 ≤ off) : picRegAt cfg off = .unused := by
  obtain ⟨k, hpage⟩ : ∃ k, off / 0x1000 = k + 7 := ⟨off / 0x1000 - 7, by omega⟩
  simp only [picRegAt, hpage]

end

/-! ## What the registers read as (R612 to R617) -/

/-- A word built bit by bit has the bits it was built from. -/
theorem getLsbD_foldl_putBit (f : Nat → Bool) {m : Nat} (hm : m ≤ 32) (j : Nat) :
    ((List.range m).foldl (fun v y => putBit v y (f y)) 0).getLsbD j = (decide (j < m) && f j) := by
  induction m with
  | zero => simp
  | succ m ih =>
    rw [List.range_succ, List.foldl_append, List.foldl_cons, List.foldl_nil, getLsbD_putBit _ (by omega), ih (by omega)]
    by_cases hj : j = m
    · simp [hj]
    · have hlt : j < m + 1 ↔ j < m := by omega
      simp [hj, hlt]

/-- The pending bit of a source (R614, R615). -/
theorem getLsbD_pendingWord (s : State) (x : Nat) (keep : PicSource → Bool) {y : Nat} (hy : y < 32) :
    (pendingWord s x keep).getLsbD y
      = (sourceExists s.cfg (32 * x + y) && picReq s.cfg (32 * x + y) (s.sh.source (32 * x + y))
          && keep (s.sh.source (32 * x + y))) := by
  unfold pendingWord
  rw [getLsbD_foldl_putBit _ (Nat.le_refl 32), decide_eq_true hy, Bool.true_and]

/-- In reverse order a priority is read and written as 15 less it (R602). -/
theorem priorityView_eq (priord : Bool) (p : BitVec 4) : priorityView priord p = if priord then 15#4 - p else p := by
  cases priord
  · rfl
  · revert p
    decide

theorem gwctrl_eq (low edge : Bool) :
    putBit (putBit 0 0 low) 1 edge = (if edge then 2 else 0) + (if low then 1 else 0) := by
  cases low <;> cases edge <;> decide

/-! ## What a write of a register leaves (R611 to R617) -/

section
variable (s : State) (r : PicReg) (v : Word)

/-- A write changes the sources and the priority order only, and may draw. -/
theorem picStoreReg_frame :
    (picStoreReg s r v).cfg = s.cfg ∧ (picStoreReg s r v).cur = s.cur
      ∧ (∀ i, (picStoreReg s r v).hart i = s.hart i)
      ∧ ∃ sources, (picStoreReg s r v).sh
        = { s.sh with sources := sources, priord := if r = .mpiccfg then v.getLsbD 0 else s.sh.priord } := by
  cases r <;> exact ⟨rfl, rfl, fun i => by cases i <;> rfl, _, rfl⟩

theorem picStoreReg_othersSame : OthersSame s (picStoreReg s r v) := by
  obtain ⟨hcfg, hcur, hhart, -⟩ := picStoreReg_frame s r v
  exact ⟨hcfg, hcur, hhart _⟩

theorem picStoreReg_me : (picStoreReg s r v).me = s.me := by
  obtain ⟨-, hcur, hhart, -⟩ := picStoreReg_frame s r v
  rw [me_eq_hart hcur, hhart, State.hart_cur]

theorem picStoreReg_memorySame : MemorySame s (picStoreReg s r v) := by
  obtain ⟨hcfg, -, hhart, _, hsh⟩ := picStoreReg_frame s r v
  exact fun a => ⟨fun i => by simp [byteSeen, hcfg, hhart, hsh], by simp [iccmByte, hsh]⟩

/-- A source none of whose registers is written stays. -/
theorem source_picStoreReg_of_ne {n : Nat}
    (hr : r ∉ [.meipl n, .meie n, .meigwctrl n, .meigwclr n, .meidel n]) :
    (picStoreReg s r v).sh.source n = s.sh.source n := by
  cases r
  case mpiccfg | meip | meitp | unused => rfl
  case meipl m | meie m | meigwctrl m | meigwclr m | meidel m =>
    exact source_setSource_ne _ (fun hn => hr (by simp [hn])) _

/-- The fields a write of a register changes of a source. -/
theorem source_picStoreReg {s : State} (hcanon : s.canonical = true) (n : Nat) :
    let p := s.sh.source n
    let w := (picStoreReg s r v).sh.source n
    w.pin = p.pin
      ∧ w.prio = (if r = .meipl n then priorityView s.sh.priord (v.extractLsb' 0 4) else p.prio)
      ∧ w.inten = (if r = .meie n then v.getLsbD 0 else p.inten)
      ∧ w.low = (if r = .meigwctrl n then v.getLsbD 0 else p.low)
      ∧ w.edge = (if r = .meigwctrl n then v.getLsbD 1 else p.edge)
      ∧ w.del = (if r = .meidel n then v.getLsbD 0 else p.del)
      ∧ (r ≠ .meigwctrl n → w.ip = if r = .meigwclr n then false else p.ip) := by
  by_cases hr : r ∈ [.meipl n, .meie n, .meigwctrl n, .meigwclr n, .meidel n]
  · simp only [List.mem_cons, List.not_mem_nil, or_false] at hr
    obtain rfl | rfl | rfl | rfl | rfl := hr <;> simp [picStoreReg, source_modSource hcanon]
  · rw [source_picStoreReg_of_ne s r v hr]
    simp only [List.mem_cons, List.not_mem_nil, or_false, not_or] at hr
    simp [hr]

/-- Writing a register and retiring leaves the hart's registers, its buffers and memory. -/
theorem picStoreReg_complete (len : Nat) (evs : List Nat) :
    let t := (picStoreReg s r v).complete len evs
    RegsSame s t ∧ t.me.pc = s.me.pc + BitVec.ofNat 32 len ∧ Retires s t len evs ∧ MemorySame s t
      ∧ t.me.res = s.me.res ∧ t.me.buf = s.me.buf ∧ t.sh = (picStoreReg s r v).sh := by
  have hme := picStoreReg_me s r v
  obtain ⟨⟨hothers, hsystem, -⟩, -, -, hsh, hmem⟩ :=
    localOnly_completeAt (picStoreReg s r v) len evs ((picStoreReg s r v).me.nextPc len)
  rw [hme] at hsystem
  refine ⟨fun x => ?_, ?_, ⟨othersSame_trans (picStoreReg_othersSame s r v) hothers, ?_, ?_⟩,
    memorySame_trans (picStoreReg_memorySame s r v) hmem, ?_, ?_, hsh⟩
  · simp [State.complete, State.reg, hme]
  · simp [State.complete, Hart.nextPc, hme]
  · simpa [State.complete, hme] using hsystem
  all_goals simp [State.complete, hme]

end

/-! ## Word accesses to the block -/

section
variable {s : State} {r q : Reg} {imm : BitVec 12} {cd cs : CReg} {imm7 : BitVec 7} {imm8 : BitVec 8} {f : AccessForm}

theorem exec_loadForm (hf : f ∈ loadForms r q imm cd cs imm7 imm8) :
    exec f.instr s = .next (s.loadInstr f.len f.size f.signed f.data f.base f.off) := by
  simp only [loadForms, List.mem_cons, List.not_mem_nil, or_false] at hf
  obtain rfl | rfl | rfl | rfl | rfl | rfl | rfl := hf <;> rfl

theorem exec_storeForm (hf : f ∈ storeForms r q imm cd cs imm7 imm8) :
    exec f.instr s = .next (s.storeInstr f.len f.size f.base f.data f.off) := by
  simp only [storeForms, List.mem_cons, List.not_mem_nil, or_false] at hf
  obtain rfl | rfl | rfl | rfl | rfl := hf <;> rfl

/-- An access to the PIC block that passes the checks is to an aligned word (R193). -/
theorem word_of_dataCheck {c : BuildConfig} {mrac base a : Word} {k : AccessCauses} {n : Nat}
    (hcheck : dataCheck c mrac k base a n = none) (hpic : inPic c a = true) : n = 4 ∧ a.toNat % 4 = 0 := by
  unfold dataCheck at hcheck
  split at hcheck
  · cases hcheck
  · simpa [hpic] using hcheck

/-- An aligned word access to the PIC block counts its own event alone (R686). -/
theorem loadEvents_pic {c : BuildConfig} {a : Word} (hpic : inPic c a = true) (ha : a.toNat % 4 = 0) :
    loadEvents c a 4 = [11] := by
  simp [loadEvents, toBus, hpic, ha]

theorem storeEvents_pic {c : BuildConfig} {a : Word} (hpic : inPic c a = true) (ha : a.toNat % 4 = 0) :
    storeEvents c a 4 = [12] := by
  simp [storeEvents, toBus, hpic, ha]

theorem memLoad_pic {base a : Word} {n : Nat} {signed : Bool}
    (hcheck : dataCheck s.cfg s.dataMrac loadCauses base a n = none) (hdccm : inDccm s.cfg a = false)
    (hpic : inPic s.cfg a = true) :
    memLoad s base a n signed = .value (extendLoad n signed (picLoad s a)) s := by
  simp [memLoad, hcheck, hdccm, hpic]

theorem memStore_pic {base a v : Word} {n : Nat} (hcheck : dataCheck s.cfg s.dataMrac storeCauses base a n = none)
    (hdccm : inDccm s.cfg a = false) (hpic : inPic s.cfg a = true) :
    memStore s base a n v = .value 0 (picStore s a v) := by
  simp [memStore, hcheck, hdccm, hpic]

theorem loadInstr_value {t : State} {len n : Nat} {signed : Bool} {rd rs1 : Reg} {off v : Word}
    (hquiet : QuietTriggers s) (hload : memLoad s (s.reg rs1) (s.reg rs1 + off) n signed = .value v t) :
    s.loadInstr len n signed rd rs1 off
      = (t.setReg rd v).complete len (loadEvents s.cfg (s.reg rs1 + off) n) := by
  simp [State.loadInstr, triggerAction_quiet hquiet, hload]

theorem storeInstr_value {t : State} {len n : Nat} {rs1 rs2 : Reg} {off v : Word} (hquiet : QuietTriggers s)
    (hstore : memStore s (s.reg rs1) (s.reg rs1 + off) n (s.reg rs2) = .value v t) :
    s.storeInstr len n rs1 rs2 off = t.complete len (storeEvents s.cfg (s.reg rs1 + off) n) := by
  simp [State.storeInstr, triggerAction_quiet hquiet, hstore]

/-- A load that passes the checks at an address of the PIC block reads a register of the block, whole (R193, R611). -/
theorem exec_picLoad (hlegal : BuildConfig.legal s.cfg = true) (hquiet : QuietTriggers s)
    (hf : f ∈ loadForms r q imm cd cs imm7 imm8) (hcheck : f.loadCheck s = none)
    (hpic : inPic s.cfg (f.addr s) = true) :
    exec f.instr s = .next (s.writeBack f.len [11] f.data (picLoad s (f.addr s))) := by
  obtain ⟨hsize, ha⟩ := word_of_dataCheck hcheck hpic
  have hextend (v : Word) : extendLoad 4 f.signed v = v := by cases f.signed <;> rfl
  have hload := memLoad_pic (signed := f.signed) hcheck (inDccm_of_inPic hlegal hpic) hpic
  have hevents := loadEvents_pic hpic ha
  rw [hsize, hextend] at hload
  rw [exec_loadForm hf, hsize, loadInstr_value hquiet hload, State.writeBack, ← hevents, AccessForm.addr]

/-- A store that passes the checks at an address of the PIC block writes a register of the block (R193, R611). -/
theorem exec_picStore (hlegal : BuildConfig.legal s.cfg = true) (hquiet : QuietTriggers s)
    (hf : f ∈ storeForms r q imm cd cs imm7 imm8) (hcheck : f.storeCheck s = none)
    (hpic : inPic s.cfg (f.addr s) = true) :
    ∃ reg, reg = picRegOf s.cfg (f.addr s)
      ∧ exec f.instr s = .next ((picStoreReg s reg (s.reg f.data)).complete f.len [12]) := by
  obtain ⟨hsize, ha⟩ := word_of_dataCheck hcheck hpic
  have hstore := memStore_pic (v := s.reg f.data) hcheck (inDccm_of_inPic hlegal hpic) hpic
  have hevents := storeEvents_pic hpic ha
  rw [hsize] at hstore
  refine ⟨_, rfl, ?_⟩
  rw [exec_storeForm hf, hsize, storeInstr_value hquiet hstore, ← hevents, AccessForm.addr, picStore]

/-- Settles O24: the offset says which register is read, or that none stands there. -/
theorem picLoads : Obligations.PicLoads := by
  intro s r q imm cd cs imm7 imm8 hlegal hquiet f hf hcheck hpic off total
  refine ⟨picLoad s (f.addr s), _, exec_picLoad hlegal hquiet hf hcheck hpic, computes_writeBack .., ?_⟩
  obtain ⟨-, ha⟩ := word_of_dataCheck hcheck hpic
  have hoff : off % 4 = 0 := offset_mod_four hlegal hpic ha
  obtain ⟨-, -, -, htotal⟩ := blocks_of_legal hlegal
  have hread {reg : PicReg} (h : picRegAt s.cfg off = reg) : picLoad s (f.addr s) = picLoadReg s reg :=
    congrArg (picLoadReg s) h
  have hat {reg : PicReg} (h : StandsAt s.cfg off reg) : picLoad s (f.addr s) = picLoadReg s reg :=
    hread (picRegAt_of_standsAt htotal h)
  have hmissing {n : Nat} (hn : n = 0 ∨ total < n) : sourceExists s.cfg n = false := by
    rw [← Bool.not_eq_true, sourceExists_iff]
    omega
  refine ⟨fun n hlow hhigh => ?sources, fun x hx y hy => ?pending, fun h => hat (reg := .mpiccfg) h, fun h hne => ?_,
    fun h hword => ?_, fun h hgw => ?_, fun h hdual => ?_, fun x hx h hmeip hmeitp => ?_, fun h => ?_⟩
  case sources =>
    have hn : sourceExists s.cfg n = true := (sourceExists_iff s.cfg n).2 ⟨hlow, hhigh⟩
    refine ⟨fun h => ?_, fun h => hat (reg := .meie n) ⟨h, hn⟩, fun h hgw => ?_, fun h => ?_,
      fun h hdual => hat (reg := .meidel n) ⟨h, hn, hdual⟩⟩
    · rw [hat (reg := .meipl n) ⟨h, hn⟩, picLoadReg, priorityView_eq, zext]
    · rw [hat (reg := .meigwctrl n) ⟨h, hn, hgw⟩, picLoadReg, gwctrl_eq]
    · cases hgw : configurable s.cfg n
      · obtain ⟨hpage, hword⟩ := page_source (k := 5) htotal hn h
        exact hread (picRegAt_unused_of_simple (by simp [hpage]) (by rwa [hword]))
      · exact hat (reg := .meigwclr n) ⟨h, hn, hgw⟩
  case pending =>
    refine ⟨fun h => ?_, fun h hdual => ?_⟩
    · rw [hat (reg := .meip x) ⟨h, hx⟩, picLoadReg, getLsbD_pendingWord s x _ hy, Bool.and_true]
      rfl
    · rw [hat (reg := .meitp x) ⟨h, hx, hdual⟩, picLoadReg, getLsbD_pendingWord s x _ hy]
      rfl
  · exact hread (picRegAt_unused_of_page3 hoff h hne)
  · exact hread (picRegAt_unused_of_noSource h (hmissing (by omega)))
  · exact hread (picRegAt_unused_of_simple h hgw)
  · exact hread (picRegAt_unused_of_single h hdual)
  · exact hread (picRegAt_unused_of_pending hx h hmeip hmeitp)
  · exact hread (picRegAt_unused_of_beyond h)

/-- Settles O25: the offset says which register is written; each source keeps the fields that register does not hold. -/
theorem picStores : Obligations.PicStores := by
  intro s r q imm cd cs imm7 imm8 hlegal hquiet hcanon f hf hcheck hpic off v
  obtain ⟨-, ha⟩ := word_of_dataCheck hcheck hpic
  have hoff : off % 4 = 0 := offset_mod_four hlegal hpic ha
  obtain ⟨-, -, -, htotal⟩ := blocks_of_legal hlegal
  obtain ⟨reg, hreg, hexec⟩ := exec_picStore hlegal hquiet hf hcheck hpic
  obtain ⟨hregs, hpc, hretires, hmem, hres, hbuf, hsh⟩ := picStoreReg_complete s reg v f.len [12]
  obtain ⟨-, -, -, sources, hframe⟩ := picStoreReg_frame s reg v
  have hat {k : PicReg} (hk : k ≠ .unused) : reg = k ↔ StandsAt s.cfg off k :=
    hreg ▸ picRegAt_eq_iff htotal hoff hk
  have hpriord : reg = .mpiccfg ↔ off = 0x3000 := hat (by simp)
  refine ⟨_, hexec, hregs, hpc, hretires, hmem, hres, hbuf, ?_, ?_, fun n => ⟨fun hlow hhigh => ?_, fun hnone => ?_⟩⟩
  · rw [hsh, hframe]
  · rw [hsh, hframe]
    simp only [hpriord]
  · have hn : sourceExists s.cfg n = true := (sourceExists_iff s.cfg n).2 ⟨hlow, hhigh⟩
    have hmeipl : reg = .meipl n ↔ off = 4 * n := by simp [hat, StandsAt, hn]
    have hmeie : reg = .meie n ↔ off = 0x2000 + 4 * n := by simp [hat, StandsAt, hn]
    have hmeigwctrl : reg = .meigwctrl n ↔ off = 0x4000 + 4 * n ∧ configurable s.cfg n = true := by
      simp [hat, StandsAt, hn]
    have hmeigwclr : reg = .meigwclr n ↔ off = 0x5000 + 4 * n ∧ configurable s.cfg n = true := by
      simp [hat, StandsAt, hn]
    have hmeidel : reg = .meidel n ↔ off = 0x6000 + 4 * n ∧ s.cfg.dualThread = true := by simp [hat, StandsAt, hn]
    have hfields := source_picStoreReg reg v hcanon n
    simp only [hmeipl, hmeie, hmeigwctrl, hmeigwclr, hmeidel, ne_eq, priorityView_eq] at hfields
    rw [hsh]
    exact hfields
  · rw [hsh]
    refine source_picStoreReg_of_ne s reg v fun hmem => hnone ((sourceExists_iff s.cfg n).1 ?_)
    simp only [List.mem_cons, List.not_mem_nil, or_false] at hmem
    simp only [hat, StandsAt, ne_eq, reduceCtorEq, not_false_eq_true] at hmem
    obtain ⟨-, hn⟩ | ⟨-, hn⟩ | ⟨-, hn, -⟩ | ⟨-, hn, -⟩ | ⟨-, hn, -⟩ := hmem <;> exact hn

end

end Sys2Proof.PicRegisters

/-! PROOFS. Interrupts and NMIs at an instruction boundary: the step of a hart that has one to take, and what taking it
leaves (R546, R550, R551, R560, R564, R650, R651). -/

namespace Sys2Proof.InterruptEntry

open Sys2Proof Sys2Proof.Machine Sys2Proof.Rv32iSystem Sys2Proof.Rv32aAtomics Sys2Proof.InterruptController
  Sys2Proof.PicRegisters

/-! ## The step of a hart that does something else than its next instruction -/

section
variable {s t : State}

/-- The step of the hart whose turn it is, where it has one to take. -/
theorem step_of_canStep (hmove : HartsMove s) (hcan : canStep s s.cur = true) :
    step s = mapNext passTurn (hartStep s) := by
  obtain ⟨hlegal, hscript, hjob⟩ := hmove
  simp [step, machineStep, hscript, ifLegal, hlegal, hjob, stepHart, takeTurn, hcan]

theorem active_of_debugRequest {h : Hart} {r : BitVec 3 × Bool} (hr : h.debugRequest = some r) :
    h.activity = .running ∨ h.activity = .sleep := by
  unfold Hart.debugRequest at hr
  split at hr
  · next hact => exact .inl hact
  · next hact => exact .inr hact
  · cases hr
  · cases hr

theorem canStep_of_debugRequest {r : BitVec 3 × Bool} (h : s.me.debugRequest = some r) : canStep s s.cur = true := by
  obtain hact | hact := active_of_debugRequest h <;> simp [canStep, hact, h]

theorem canStep_of_readyNmi (hact : s.me.activity = .running) (h : (readyNmi s.me).isSome = true) :
    canStep s s.cur = true := by
  simp [canStep, hact, h]

theorem canStep_of_readyInterrupt (hact : s.me.activity = .running) (h : (readyInterrupt s s.cur).isSome = true) :
    canStep s s.cur = true := by
  simp [canStep, hact, h]

/-- A requested entry to Debug Mode is the whole step (R705). -/
theorem step_enterDebug {r : BitVec 3 × Bool} (hmove : HartsMove s) (h : s.me.debugRequest = some r) :
    step s = .next (passTurn (finishStep (enterDebug s s.cur r.1 r.2))) := by
  rw [step_of_canStep hmove (canStep_of_debugRequest h)]
  simp [hartStep, hartMove, h, mapNext]

/-- What a running hart does at a boundary is its whole step, where no entry to Debug Mode is requested. -/
theorem step_boundary (hmove : HartsMove s) (hact : s.me.activity = .running) (hdebug : s.me.debugRequest = none)
    (hcan : canStep s s.cur = true) (h : boundary s = some t) : step s = .next (passTurn (finishStep t)) := by
  have hawake : wakeUp s = s := by simp [wakeUp, hact]
  rw [step_of_canStep hmove hcan]
  simp [hartStep, hartMove, hdebug, hawake, h, mapNext]

theorem boundary_nmi {r : Word × NmiState} (h : readyNmi s.me = some r) : boundary s = some (takeNmi s r.1 r.2) := by
  simp [boundary, h]

theorem boundary_interrupt {b : Nat} (hnmi : readyNmi s.me = none) (h : readyInterrupt s s.cur = some b) :
    boundary s = some (takeReady s b) := by
  simp [boundary, hnmi, h]

end

/-! ## Trap entry of a hart that has changed more than its counters -/

/-- Two harts agree on what a trap entry is about. -/
structure SameEntry (h g : Hart) : Prop where
  trap : g.trap = h.trap
  pc : g.pc = h.pc
  res : g.res = h.res
  ctr : g.ctr = h.ctr
  regs : g.regs = h.regs
  buf : g.buf = h.buf

theorem SameEntry.refl (h : Hart) : SameEntry h h := ⟨rfl, rfl, rfl, rfl, rfl, rfl⟩

/-- A trap entry that changes other registers of its hart is one as well. -/
theorem trapEntry_congr {s t u : State} {evs : List Nat} {cause tval target : Word} {m : BitVec 4}
    (h : TrapEntry s t evs cause m tval target) (hme : SameEntry t.me u.me) (hothers : OthersSame t u)
    (hsh : u.sh = t.sh) : TrapEntry s u evs cause m tval target := by
  obtain ⟨htrap, hpc, hres, hctr, hregs, hbuf⟩ := hme
  have ⟨hcfg, hcur, hother⟩ := hothers
  have hreg (r : Reg) : u.reg r = t.reg r := by simp [State.reg, Hart.reg, hregs]
  have hmie : u.me.mie = t.me.mie ∧ u.me.mpie = t.me.mpie := by simp [Hart.mie, Hart.mpie, htrap]
  have hmem : MemorySame t u := memorySame_of hcfg hsh (stores_same (rd := 0) hcur (by simp [hbuf]) hother)
  unfold TrapEntry RegsSame at h ⊢
  obtain ⟨hmepc, hmcause, hmscause, hmtval, hmpie, hmie', hmstatus, hpc', hres', henabled, hmtvec, hmscratch, hminstret,
    hmcycle, hctr', hregs', hothers', hsh', hmem'⟩ := h
  simp only [htrap, hpc, hres, hctr, hreg, hmie, hsh]
  exact ⟨hmepc, hmcause, hmscause, hmtval, hmpie, hmie', hmstatus, hpc', hres', henabled, hmtvec, hmscratch, hminstret,
    hmcycle, hctr', hregs', othersSame_trans hothers' hothers, hsh', memorySame_trans hmem' hmem⟩

/-- A hart that traps in the place of one that has only counted the events `evs`, in a state `w` otherwise as `s`. -/
theorem trapEntry_of_sameEntry {s w : State} {g : Hart} {evs : List Nat} (hothers : OthersSame s w) (hsh : w.sh = s.sh)
    (hg : SameEntry (s.me.countEvents evs) g) (cause : Word) (m : BitVec 4) (tval target : Word) :
    TrapEntry s (w.setMe (g.enterTrap cause m tval target)) evs cause m tval target := by
  obtain ⟨hcfg, hcur, hother⟩ := hothers
  obtain ⟨htrap, hpc, -, hctr, hregs, hbuf⟩ := hg
  refine trapEntry_congr (trapEntry_enterTrap s evs cause m tval target) ?_
    ⟨by simpa using hcfg, by simpa using hcur, ?_⟩ (by simpa using hsh)
  · simp only [State.me_setMe]
    exact ⟨by simp only [Hart.enterTrap, htrap, hpc], rfl, rfl, hctr, hregs, hbuf⟩
  · rw [State.setMe_cur, State.setMe_hart_other, ← hcur, State.setMe_hart_other, hcur, hother]

/-! ## NMIs (R560, R562, R564) -/

section
variable {s : State} {n : NmiState}

theorem readyNmi_of_not_masked {h : Hart} (hmask : h.stepMasks = false) : readyNmi h = h.nmi.next := by
  simp [readyNmi, hmask]

theorem next_load (h : n.load = true) : n.next = some (0xF0000001#32, { n with load := false }) := by
  simp [NmiState.next, h]

theorem next_store (hload : n.load = false) (h : n.store = true) :
    n.next = some (0xF0000000#32, { n with store := false }) := by
  simp [NmiState.next, hload, h]

theorem next_fast {f : FastFail} (hload : n.load = false) (hstore : n.store = false) (h : n.fast = some f) :
    n.next = some (fastCause f, { n with fast := none }) := by
  simp [NmiState.next, hload, hstore, h]

theorem next_pin (hload : n.load = false) (hstore : n.store = false) (hfast : n.fast = none) (h : n.pin = true) :
    n.next = some (0, { n with pin := false }) := by
  simp [NmiState.next, hload, hstore, hfast, h]

/-- Taking an NMI counts no event, and touches besides the trap entry the requests, a pause and held timer requests. -/
theorem trapEntry_takeNmi (s : State) (cause : Word) (rest : NmiState) :
    TrapEntry s (takeNmi s cause rest) [] cause 0 0 (s.sh.nmiVec ++ 0#1) := by
  refine trapEntry_of_sameEntry ⟨rfl, rfl, rfl⟩ rfl ?_ cause 0 0 (vectorAddr s.sh.nmiVec)
  rw [countEvents_nil]
  exact ⟨rfl, rfl, rfl, rfl, rfl, rfl⟩

@[simp] theorem takeNmi_nmi (s : State) (cause : Word) (rest : NmiState) : (takeNmi s cause rest).me.nmi = rest := by
  simp [takeNmi, Hart.dropHeld]

theorem step_takeNmi {cause : Word} {rest : NmiState} (hmove : HartsMove s) (hact : s.me.activity = .running)
    (hdebug : s.me.debugRequest = none) (hready : readyNmi s.me = some (cause, rest)) :
    step s = .next (passTurn (finishStep (takeNmi s cause rest))) :=
  step_boundary hmove hact hdebug (canStep_of_readyNmi hact (by simp [hready])) (boundary_nmi hready)

/-- Settles O46, request by request in their order. -/
theorem nmiTaken : Obligations.NmiTaken := by
  intro s hmove hact hdebug hmask hany n cause
  have htaken {c : Word} {rest : NmiState} (h : n.next = some (c, rest)) :
      step s = .next (passTurn (finishStep (takeNmi s c rest))) :=
    step_takeNmi hmove hact hdebug ((readyNmi_of_not_masked hmask).trans h)
  cases hload : n.load
  case true =>
    have hcause : cause = 0xF0000001#32 := by simp [cause, hload]
    rw [hcause]
    exact ⟨_, htaken (next_load hload), trapEntry_takeNmi .., by simp⟩
  case false =>
    cases hstore : n.store
    case true =>
      have hcause : cause = 0xF0000000#32 := by simp [cause, hload, hstore]
      rw [hcause]
      exact ⟨_, htaken (next_store hload hstore), trapEntry_takeNmi .., by simp [hload]⟩
    case false =>
      cases hfast : n.fast with
      | some f =>
        have hcause : cause = fastCause f := by cases f <;> simp [cause, hload, hstore, hfast, fastCause]
        rw [hcause]
        exact ⟨_, htaken (next_fast hload hstore hfast), trapEntry_takeNmi .., by simp [hload, hstore]⟩
      | none =>
        have hcause : cause = 0 := by simp [cause, hload, hstore, hfast]
        have hpin : n.pin = true := by simpa [NmiState.any, n, hload, hstore, hfast] using hany
        rw [hcause]
        exact ⟨_, htaken (next_pin hload hstore hfast hpin), trapEntry_takeNmi .., by simp [hload, hstore, hfast]⟩

end

/-! ## Interrupts (R546, R550, R551) -/

section
variable {s : State} {b : Nat}

theorem ctr_countEvents_of_same {h g : Hart} (hc : g.ctr = h.ctr) (hd : g.dbg = h.dbg) (ha : g.activity = h.activity)
    (evs : List Nat) : (g.countEvents evs).ctr = (h.countEvents evs).ctr := by
  have hr : g.countersRun = h.countersRun := by simp [Hart.countersRun, Hart.stopcount, ha, hd]
  unfold Hart.countEvents
  rw [hr, hc]
  split
  · rfl
  · exact hc

/-- A hart about to take an interrupt: the events are counted, a pause and the requests held to this boundary end. -/
theorem sameEntry_beginInterrupt {h g : Hart} (hg : SameEntry h g) (hdbg : g.dbg = h.dbg)
    (hact : g.activity = h.activity) (evs : List Nat) : SameEntry (h.countEvents evs) (g.beginInterrupt evs) where
  trap := by simp [Hart.beginInterrupt, Hart.dropHeld, hg.trap]
  pc := by simp [Hart.beginInterrupt, Hart.dropHeld, hg.pc]
  res := by simp [Hart.beginInterrupt, Hart.dropHeld, hg.res]
  ctr := ctr_countEvents_of_same (h := h)
    (g := { g with pwr := { g.pwr with pausing := false }, late := LateCsrs.settled }) hg.ctr hdbg hact evs
  regs := by simp [Hart.beginInterrupt, Hart.dropHeld, hg.regs]
  buf := by simp [Hart.beginInterrupt, Hart.dropHeld, hg.buf]

theorem mem_interruptOrder_of_ready (h : readyInterrupt s s.cur = some b) : b ∈ interruptOrder := by
  unfold readyInterrupt at h
  split at h
  · exact List.mem_of_find?_eq_some h
  · cases h

/-- The vector of an interrupt (R551). -/
theorem interruptTarget_eq (hb : b ∈ interruptOrder) (mtvec : Word) :
    interruptTarget mtvec (interruptCause b)
      = if mtvec.getLsbD 0 then (mtvec &&& 0xFFFFFFFC#32) + BitVec.ofNat 32 (4 * b) else mtvec &&& 0xFFFFFFFC#32 := by
  have hshift : ∀ b ∈ interruptOrder, (interruptCause b &&& 0x7FFFFFFF#32) <<< 2 = BitVec.ofNat 32 (4 * b) := by decide
  rw [interruptTarget, hshift b hb]

theorem interruptEvents_eq (hb : b ∈ interruptOrder) :
    interruptEvents b = if b = 11 then [39] else if b ∈ [7, 28, 29] then [38] else [] := by
  revert b
  decide

theorem step_takeReady (hmove : HartsMove s) (hact : s.me.activity = .running) (hdebug : s.me.debugRequest = none)
    (hnmi : readyNmi s.me = none) (hready : readyInterrupt s s.cur = some b) :
    step s = .next (passTurn (finishStep (takeReady s b))) :=
  step_boundary hmove hact hdebug (canStep_of_readyInterrupt hact (by simp [hready])) (boundary_interrupt hnmi hready)

/-- Settles O44: the interrupt is taken in the standard way, from `mtvec` as it is. -/
theorem interruptTaken : Obligations.InterruptTaken := by
  intro s b hmove hact hdebug hnmi hready hstandard hmtvec base
  have hb := mem_interruptOrder_of_ready hready
  have htake : takeReady s b = takeInterrupt s b := if_neg hstandard
  have hlate : s.lateMtvec = s.me.trap.mtvec := by rw [State.lateMtvec, hmtvec]; rfl
  refine ⟨takeInterrupt s b, htake ▸ step_takeReady hmove hact hdebug hnmi hready, ?_⟩
  rw [← interruptTarget_eq hb, ← interruptEvents_eq hb, takeInterrupt, hlate]
  refine ⟨trapEntry_of_sameEntry ⟨rfl, rfl, rfl⟩ rfl (sameEntry_beginInterrupt (.refl s.me) rfl rfl _) .., ?_⟩
  simp [Hart.beginInterrupt, Hart.dropHeld]

end

/-! ## The external interrupt with fast redirect (R650, R651) -/

/-- A failed lookup: an NMI is requested, and the requests held to this boundary end. -/
def lookupFailed (t : State) (f : FastFail) : State :=
  t.setMe ({ t.me with nmi := { t.me.nmi with fast := some f } } : Hart).dropHeld

/-- The handler found at `target`, in the state `t` the lookup leaves. -/
def handlerEntered (t : State) (target : Word) : State :=
  t.setMe ((t.me.beginInterrupt [39]).enterTrap (interruptCause 11) 0 0 target)

/-- The state the lookup is made in: the winner is captured. -/
def claimed (s : State) : State := s.setMe { s.me with pic := captured s s.cur }

/-- Where the handler's address stands: `meihap` after the capture. -/
def tableEntry (s : State) : Word := (claimed s).me.meihap

/-- What the words of the entry read as. -/
def entryReads (s : State) : List (Nat × WordRead) := dccmReads (claimed s) (tableEntry s) 4

/-- The handler the entry holds. -/
def tableTarget (s : State) : Word := evenPc (wordOf (dccmLoadBytes (claimed s) (entryReads s) (tableEntry s) 4))

/-- The state a successful lookup leaves: single-bit errors corrected. -/
def lookedUp (s : State) : State := (repairDccm (claimed s) (entryReads s)).draw

theorem takeFastInterrupt_eq (s : State) :
    takeFastInterrupt s
      = if !Placement.ownsRegion (claimed s).cfg.dccm (tableEntry s) then lookupFailed (claimed s) .nonDccm
        else if !inDccm (claimed s).cfg (tableEntry s) then lookupFailed (claimed s) .dccmRegion
        else if (entryReads s).any (·.2.bad) then lookupFailed (claimed s).draw .ecc
        else handlerEntered (lookedUp s) (tableTarget s) :=
  rfl

section
variable {s : State}

@[simp] theorem claimed_cfg (s : State) : (claimed s).cfg = s.cfg := State.setMe_cfg ..

@[simp] theorem claimed_cur (s : State) : (claimed s).cur = s.cur := State.setMe_cur ..

@[simp] theorem claimed_sh (s : State) : (claimed s).sh = s.sh := State.setMe_sh ..

@[simp] theorem claimed_draws (s : State) : (claimed s).draws = s.draws := State.setMe_draws ..

@[simp] theorem claimed_me (s : State) : (claimed s).me = { s.me with pic := captured s s.cur } := State.me_setMe ..

@[simp] theorem claimed_hart_other (s : State) : (claimed s).hart s.cur.other = s.hart s.cur.other :=
  State.setMe_hart_other ..

theorem tableEntry_eq (s : State) :
    tableEntry s = s.me.pic.meivt ||| (BitVec.ofNat 32 ((picWinner s.cfg s.sh s.cur).1 % 256) <<< 2) := by
  have hid (n : Nat) : zext (BitVec.ofNat 8 n) = BitVec.ofNat 32 (n % 256) := by
    apply BitVec.eq_of_toNat_eq
    simp only [zext, BitVec.truncate_eq_setWidth, BitVec.toNat_setWidth, BitVec.toNat_ofNat]
  simp only [tableEntry, claimed_me, Hart.meihap, captured, hid, State.hart_cur]

/-- A failed lookup requests the NMI and leaves `pc` and what the capture left. -/
theorem lookupFailed_me (t : State) (f : FastFail) :
    (lookupFailed t f).me.nmi.fast = some f ∧ (lookupFailed t f).me.pc = t.me.pc
      ∧ (lookupFailed t f).me.pic = t.me.pic := by
  simp [lookupFailed, Hart.dropHeld]

theorem handlerEntered_pic (t : State) (target : Word) : (handlerEntered t target).me.pic = t.me.pic := by
  simp [handlerEntered, Hart.beginInterrupt, Hart.dropHeld]

theorem repairDccm_me (s : State) (rs : List (Nat × WordRead)) : (repairDccm s rs).me = s.me := State.withSh_me ..

theorem lookedUp_pic (s : State) : (lookedUp s).me.pic = captured s s.cur := by
  rw [lookedUp, State.draw_me, repairDccm_me, claimed_me]

/-- Whatever the lookup comes to, the winner is claimed (R650). -/
theorem takeFastInterrupt_pic (s : State) : (takeFastInterrupt s).me.pic = captured s s.cur := by
  rw [takeFastInterrupt_eq]
  split
  · simp [lookupFailed_me]
  · split
    · simp [lookupFailed_me]
    · split
      · simp [lookupFailed_me]
      · rw [handlerEntered_pic, lookedUp_pic]

theorem takeFastInterrupt_nonDccm (h : Placement.ownsRegion s.cfg.dccm (tableEntry s) = false) :
    takeFastInterrupt s = lookupFailed (claimed s) .nonDccm := by
  simp [takeFastInterrupt_eq, h]

theorem takeFastInterrupt_dccmRegion (hregion : Placement.ownsRegion s.cfg.dccm (tableEntry s) = true)
    (h : inDccm s.cfg (tableEntry s) = false) : takeFastInterrupt s = lookupFailed (claimed s) .dccmRegion := by
  simp [takeFastInterrupt_eq, hregion, h]

theorem ownsRegion_of_inDccm {cfg : BuildConfig} {a : Word} (hlegal : BuildConfig.legal cfg = true)
    (h : inDccm cfg a = true) : Placement.ownsRegion cfg.dccm a = true := by
  obtain ⟨⟨_, hdccm⟩, -⟩ := blocks_of_legal hlegal
  exact ownsRegion_of_contains hdccm h

theorem takeFastInterrupt_ecc (hlegal : BuildConfig.legal s.cfg = true) (hin : inDccm s.cfg (tableEntry s) = true)
    (h : (entryReads s).any (·.2.bad) = true) : takeFastInterrupt s = lookupFailed (claimed s).draw .ecc := by
  simp only [takeFastInterrupt_eq, claimed_cfg, ownsRegion_of_inDccm hlegal hin, hin, h]
  rfl

theorem takeFastInterrupt_found (hlegal : BuildConfig.legal s.cfg = true) (hin : inDccm s.cfg (tableEntry s) = true)
    (h : (entryReads s).any (·.2.bad) = false) :
    takeFastInterrupt s = handlerEntered (lookedUp s) (tableTarget s) := by
  simp only [takeFastInterrupt_eq, claimed_cfg, ownsRegion_of_inDccm hlegal hin, hin, h]
  rfl

/-! ### The entry in the DCCM -/

/-- What a clean word reads as (R235). -/
def cleanRead (m : CoreMem) (i : Nat) : WordRead :=
  { bad := false, data := m.word i, fixed := false, arbitrary := false, uninit := false }

theorem touchedWords_aligned {a : Word} (ha : a.toNat % 4 = 0) : touchedWords a 4 = [a.toNat / 4] := by
  have hlast : a.toNat / 4 = (a.toNat + 4 - 1) / 4 := by omega
  exact if_pos hlast

theorem dccmReads_aligned {a : Word} (ha : a.toNat % 4 = 0) :
    dccmReads s a 4 = [(a.toNat / 4, s.readDccm s.cur (a.toNat / 4))] := by
  rw [dccmReads, touchedWords_aligned ha]
  rfl

/-- A word with an uncorrectable error reads as one, where ECC is checked (R235). -/
theorem bad_readWord_double {m : CoreMem} {i : Nat} (h : m.status i = .double) (reader : Option HartId) (queued : Bool)
    (draw : Nat) : (m.readWord false reader queued draw i).bad = true := by
  simp [CoreMem.readWord, h, EccStatus.error]

theorem readWord_clean {m : CoreMem} {i : Nat} (h : m.status i = .ok) (cecd : Bool) (reader : HartId) (queued : Bool)
    (draw : Nat) : m.readWord cecd (some reader) queued draw i = cleanRead m i :=
  readWord_ok h ..

/-- A load of a clean word corrects nothing. -/
theorem repairDccm_clean (s : State) (i : Nat) (m : CoreMem) : repairDccm s [(i, cleanRead m i)] = s := by
  simp [repairDccm, cleanRead, CoreMem.repair, countFixed, bumpErrorCounterBy]

theorem byteOf_four (b0 b1 b2 b3 : Byte) {j : Nat} (hj : j < 4) :
    byteOf (b3 ++ b2 ++ b1 ++ b0) j = [b0, b1, b2, b3][j] := by
  unfold byteOf
  obtain rfl | rfl | rfl | rfl : j = 0 ∨ j = 1 ∨ j = 2 ∨ j = 3 := by omega
  · exact BitVec.extractLsb'_append_eq_right
  all_goals rw [BitVec.extractLsb'_append_eq_of_le (by decide)]
  · exact BitVec.extractLsb'_append_eq_right
  all_goals rw [BitVec.extractLsb'_append_eq_of_le (by decide)]
  · exact BitVec.extractLsb'_append_eq_right
  · exact BitVec.extractLsb'_append_eq_left

/-- Byte `j` of a word of memory. -/
theorem byteOf_word (m : CoreMem) (i : Nat) {j : Nat} (hj : j < 4) :
    byteOf (m.word i) j = readByte m.cells (4 * i + j) := by
  have hword : m.word i = wordOf [readByte m.cells (4 * i), readByte m.cells (4 * i + 1), readByte m.cells (4 * i + 2),
    readByte m.cells (4 * i + 3)] := rfl
  rw [hword, wordOf_four, byteOf_four _ _ _ _ hj]
  obtain rfl | rfl | rfl | rfl : j = 0 ∨ j = 1 ∨ j = 2 ∨ j = 3 := by omega
  all_goals rfl

/-- A byte a load finds in a clean word is the one its hart sees (R229). -/
theorem dccmByte_clean {b : Word} (hin : inDccm s.cfg b = true) :
    dccmByte s.me.buf.sq (cleanRead s.sh.dccm (b.toNat / 4)) b.toNat = byteSeen s s.cur b := by
  have hbyte : byteOf (s.sh.dccm.word (b.toNat / 4)) (b.toNat % 4) = readByte s.sh.dccm.cells b.toNat := by
    rw [byteOf_word _ _ (Nat.mod_lt _ (by decide)), Nat.div_add_mod]
  simp only [dccmByte, cleanRead, hbyte, byteSeen, hin, if_true, State.hart_cur]
  cases sqLookup b.toNat s.me.buf.sq <;> rfl

/-- The bytes a load finds in a clean word are those its hart sees (R229). -/
theorem wordOf_dccmLoadBytes {a : Word} (hlegal : BuildConfig.legal s.cfg = true) (hin : inDccm s.cfg a = true)
    (ha : a.toNat % 4 = 0) :
    wordOf (dccmLoadBytes s [(a.toNat / 4, cleanRead s.sh.dccm (a.toNat / 4))] a 4) = wordSeen s s.cur a := by
  obtain ⟨⟨_, hdccm⟩, -⟩ := blocks_of_legal hlegal
  have hlast : inDccm s.cfg (a + 3) = true := contains_last hdccm hin ha
  have hbyte : ∀ j < 4, dccmByte s.me.buf.sq (cleanRead s.sh.dccm (a.toNat / 4)) (a.toNat + j)
      = byteSeen s s.cur (a + BitVec.ofNat 32 j) := by
    intro j hj
    have hseen := dccmByte_clean (s := s) (inDccm_add_of_aligned ha hin hlast hj)
    have hword : (a.toNat + j) / 4 = a.toNat / 4 := by omega
    rwa [toNat_add_of_aligned ha hj, hword] at hseen
  have hfound : ∀ j < 4, a.toNat / 4 = (a.toNat + j) / 4 := by omega
  have hbytes : dccmLoadBytes s [(a.toNat / 4, cleanRead s.sh.dccm (a.toNat / 4))] a 4
      = (List.range 4).map (fun j => byteSeen s s.cur (a + BitVec.ofNat 32 j)) := by
    refine List.map_congr_left fun j hj => ?_
    have hj := List.mem_range.1 hj
    rw [← hbyte j hj]
    simp [hfound j hj]
  rw [hbytes, wordSeen, ← wordOf_four]
  simp [List.range_succ]

/-- With the entry's word clean the lookup reads what the hart sees and corrects nothing. -/
theorem takeFastInterrupt_clean (hlegal : BuildConfig.legal s.cfg = true) (hin : inDccm s.cfg (tableEntry s) = true)
    (ha : (tableEntry s).toNat % 4 = 0) (hok : s.sh.dccm.status ((tableEntry s).toNat / 4) = .ok) :
    takeFastInterrupt s = handlerEntered (claimed s).draw (evenPc (wordSeen (claimed s) s.cur (tableEntry s))) := by
  have hreads : entryReads s
      = [((tableEntry s).toNat / 4, cleanRead (claimed s).sh.dccm ((tableEntry s).toNat / 4))] := by
    rw [entryReads, dccmReads_aligned ha, State.readDccm, readWord_clean (by simpa using hok)]
  have htarget := wordOf_dccmLoadBytes (s := claimed s) (by rwa [claimed_cfg]) (by rwa [claimed_cfg]) ha
  rw [takeFastInterrupt_found hlegal hin (by simp [hreads, cleanRead]), lookedUp, tableTarget, hreads, repairDccm_clean,
    htarget, claimed_cur]

theorem wordSeen_claimed (s : State) (i : HartId) (a : Word) : wordSeen (claimed s) i a = wordSeen s i a := by
  have hmem : MemorySame s (claimed s) := memorySame_setMe rfl
  have hbyte (b : Word) : byteSeen (claimed s) i b = byteSeen s i b := (hmem b).1 i
  simp only [wordSeen, hbyte]

theorem trapEntry_handlerEntered (s : State) (target : Word) :
    TrapEntry s (handlerEntered (claimed s).draw target) [39] 0x8000000B#32 0 0 target := by
  have hothers : OthersSame s (claimed s).draw := ⟨by simp, by simp, by simp⟩
  have hsame : SameEntry s.me (claimed s).draw.me := by
    rw [State.draw_me, claimed_me]
    exact ⟨rfl, rfl, rfl, rfl, rfl, rfl⟩
  exact trapEntry_of_sameEntry hothers (by simp) (sameEntry_beginInterrupt hsame (by simp) (by simp) _) ..

/-- An uncorrectable error in the entry's word is found where ECC is checked (R235). -/
theorem bad_entryReads (ha : (tableEntry s).toNat % 4 = 0) (hcecd : s.cecd (some s.cur) = false)
    (hdouble : s.sh.dccm.status ((tableEntry s).toNat / 4) = .double) : (entryReads s).any (·.2.bad) = true := by
  have hcheck : (claimed s).cecd (some s.cur) = false := by
    simpa [State.cecd, State.mfdcFor] using hcecd
  rw [entryReads, dccmReads_aligned ha, State.readDccm, claimed_cur, hcheck]
  simpa using bad_readWord_double hdouble ..

/-- Settles O45: what the table's entry reads as decides between the handler and the three failures. -/
theorem fastInterruptTaken : Obligations.FastInterruptTaken := by
  intro s hmove hact hdebug hnmi hready hredirect id a
  have hentry : tableEntry s = a := tableEntry_eq s
  have htake : takeReady s 11 = takeFastInterrupt s := if_pos ⟨rfl, hredirect⟩
  refine ⟨takeFastInterrupt s, htake ▸ step_takeReady hmove hact hdebug hnmi hready, takeFastInterrupt_pic s, ?_⟩
  rw [← hentry]
  refine ⟨fun hin hclean ha hlegal => ?clean, fun hout => ?nonDccm, fun hregion hout => ?dccmRegion,
    fun hin ha hcecd hlegal hdouble => ?ecc⟩
  case clean =>
    have hok := hclean _ (touchedWords_aligned ha ▸ List.mem_singleton.2 rfl)
    rw [takeFastInterrupt_clean hlegal hin ha hok, wordSeen_claimed]
    exact trapEntry_handlerEntered ..
  case nonDccm => simp [takeFastInterrupt_nonDccm hout, lookupFailed_me]
  case dccmRegion => simp [takeFastInterrupt_dccmRegion hregion hout, lookupFailed_me]
  case ecc => simp [takeFastInterrupt_ecc hlegal hin (bad_entryReads ha hcecd hdouble), lookupFailed_me]

end

end Sys2Proof.InterruptEntry

/-! PROOFS. Debug Mode: the entry at a boundary, the resume, and the end of a single step, with what a clock step leaves
of a hart (R673, R700, R705, R708, R709). -/

namespace Sys2Proof.DebugMode

open Sys2Proof Sys2Proof.Machine Sys2Proof.Draining Sys2Proof.Rv32iSystem Sys2Proof.InterruptEntry

/-! ## Entry (R705) -/

/-- Everything entering Debug Mode does to the executing hart and to the other, where no load waits. -/
theorem enterDebug_me {s : State} (h : s.me.NoPendingLoads) (cause : BitVec 3) (mpc : Bool) :
    OtherKept s (enterDebug s s.cur cause mpc)
      ∧ ∃ nmi, (enterDebug s s.cur cause mpc).me = (quiesced s.me nmi).haltForDebug cause mpc := by
  obtain ⟨hcfg, hcur, ⟨nmi, hnmi⟩, hother⟩ := enterDebug_harts (i := s.cur) h cause mpc
  exact ⟨⟨hcfg, hcur, hother⟩, nmi, (me_eq_hart hcur).trans hnmi⟩

/-- `mpc_debug_run_ack`, once asserted, is held (R707). -/
theorem mpcRunAck_haltForDebug {h : Hart} (cause : BitVec 3) (mpc : Bool) (hack : h.mpcRunAck = true) :
    (h.haltForDebug cause mpc).mpcRunAck = true := by
  have hreq : h.pins.mpcRunReq = true := by
    obtain ⟨hreq, -⟩ := Bool.and_eq_true_iff.1 hack
    exact hreq
  show (h.pins.mpcRunReq && (h.mpcRunAck || _)) = true
  rw [hreq, hack]
  rfl

/-- Putting a field leaves the bits outside it. -/
theorem getLsbD_putField_outside {w : Nat} (v : Word) (lo : Nat) (f : BitVec w) {j : Nat} (h : j < lo ∨ lo + w ≤ j) :
    (putField v lo f).getLsbD j = v.getLsbD j := by
  by_cases hj : j < 32
  · have hfield : ∀ x : BitVec w, (x.zeroExtend 32 <<< lo).getLsbD j = false := by
      intro x
      rw [BitVec.getLsbD_shiftLeft]
      obtain hlow | hhigh := h
      · simp [hlow]
      · simp [BitVec.getLsbD_of_ge x (j - lo) (by omega)]
    rw [putField, BitVec.getLsbD_or, BitVec.getLsbD_and, BitVec.getLsbD_not, hfield, hfield]
    simp [hj]
  · rw [BitVec.getLsbD_of_ge _ _ (by omega), BitVec.getLsbD_of_ge _ _ (by omega)]

/-- The other fields of `dcsr` stay when `cause` is put. -/
theorem putCause_rest (v : Word) (c : BitVec 3) : putField v 6 c &&& 0xFFFFFE3F#32 = v &&& 0xFFFFFE3F#32 := by
  refine and_mask_eq fun j hj => getLsbD_putField_outside v 6 c ?_
  have hmask : ∀ k, 6 ≤ k → k < 9 → (0xFFFFFE3F#32).getLsbD k = false := by
    intro k hlow hhigh
    obtain rfl | rfl | rfl : k = 6 ∨ k = 7 ∨ k = 8 := by omega
    all_goals rfl
  obtain hlow | hhigh | ⟨hlow, hhigh⟩ : j < 6 ∨ 9 ≤ j ∨ 6 ≤ j ∧ j < 9 := by omega
  · exact .inl hlow
  · exact .inr hhigh
  · exact absurd hj (by simp only [hmask j hlow hhigh, Bool.false_eq_true, not_false_eq_true])

/-! ## A clock step -/

/-- The hart `g` is at the same place as `h`: a clock step or the other hart's stores have not moved it. -/
structure InPlace (h g : Hart) : Prop where
  activity : g.activity = h.activity
  pc : g.pc = h.pc
  regs : g.regs = h.regs
  buf : g.buf = h.buf
  dctl : g.dctl = h.dctl
  pins : g.pins = h.pins

section
variable {g h k : Hart} {s t : State} {i : HartId}

theorem InPlace.refl (h : Hart) : InPlace h h := ⟨rfl, rfl, rfl, rfl, rfl, rfl⟩

theorem InPlace.trans (hg : InPlace h g) (hk : InPlace g k) : InPlace h k :=
  ⟨hk.activity.trans hg.activity, hk.pc.trans hg.pc, hk.regs.trans hg.regs, hk.buf.trans hg.buf, hk.dctl.trans hg.dctl,
    hk.pins.trans hg.pins⟩

theorem InPlace.debugRequest (hg : InPlace h g) : g.debugRequest = h.debugRequest := by
  simp only [Hart.debugRequest, hg.activity, hg.dctl, hg.pins]

theorem inPlace_tickPause (h : Hart) : InPlace h h.tickPause := by
  unfold Hart.tickPause
  split
  · split <;> exact ⟨rfl, rfl, rfl, rfl, rfl, rfl⟩
  · exact .refl h

/-- A clock step of a hart's counters, timers and pause leaves it in place. -/
theorem inPlace_ticked (h : Hart) (draw : Nat) : InPlace h ((h.tickCounters draw).tickTimers).tickPause :=
  InPlace.trans (g := (h.tickCounters draw).tickTimers) ⟨rfl, rfl, rfl, rfl, rfl, rfl⟩ (inPlace_tickPause _)

/-- Work of hart `i` keeps the build, the turn and the place of the other hart. -/
structure KeepsOther (i : HartId) (s t : State) : Prop where
  cfg : t.cfg = s.cfg
  cur : t.cur = s.cur
  other : InPlace (s.hart i.other) (t.hart i.other)

theorem KeepsOther.refl (i : HartId) (s : State) : KeepsOther i s s := ⟨rfl, rfl, .refl _⟩

theorem KeepsOther.trans {u : State} (hst : KeepsOther i s t) (htu : KeepsOther i t u) : KeepsOther i s u :=
  ⟨htu.cfg.trans hst.cfg, htu.cur.trans hst.cur, hst.other.trans htu.other⟩

theorem keepsOther_setHart (s : State) (i : HartId) (h : Hart) : KeepsOther i s (s.setHart i h) :=
  ⟨by simp, by simp, by simpa using InPlace.refl _⟩

theorem keepsOther_draw (s : State) : KeepsOther i s s.draw := ⟨rfl, rfl, by simpa using InPlace.refl _⟩

theorem keepsOther_of_busWork {q : List BusResp} (h : BusWork i q s t) : KeepsOther i s t :=
  ⟨h.cfg, h.cur, h.other ▸ .refl _⟩

/-- The other hart may lose its reservation to a store, which leaves it in place. -/
theorem keepsOther_of_storesLand (h : StoresLand i s t) : KeepsOther i s t := by
  refine ⟨h.cfg, h.cur, ?_⟩
  obtain hother | hother := h.other
  · exact hother ▸ .refl _
  · exact hother ▸ ⟨rfl, rfl, rfl, rfl, rfl, rfl⟩

theorem keepsOther_foldl {β : Type} (f : State → β → State) (hf : ∀ s b, KeepsOther i s (f s b)) (l : List β)
    (s : State) : KeepsOther i s (l.foldl f s) := by
  induction l generalizing s with
  | nil => exact .refl i s
  | cons b l ih => exact (hf s b).trans (ih (f s b))

theorem keepsOther_scrambleBytes (s : State) (a : Nat) (bs : List Byte) : KeepsOther i s (scrambleBytes s a bs) := by
  induction bs generalizing s a with
  | nil => exact .refl i s
  | cons b bs ih => exact (keepsOther_of_busWork (busWork_busWriteByte ..)).trans (ih ..)

theorem keepsOther_drainSqAll (s : State) (i : HartId) : KeepsOther i s (drainSqAll s i) :=
  (keepsOther_setHart s i _).trans (keepsOther_of_storesLand storesLand_drainSqAll)

/-- A forced debug halt of one hart leaves the other in place (R712). -/
theorem keepsOther_forceDebug (s : State) (i : HartId) (cause : BitVec 3) (mpc : Bool) :
    KeepsOther i s (forceDebug s i cause mpc) := by
  unfold forceDebug
  dsimp only
  refine KeepsOther.trans ?_ (keepsOther_setHart ..)
  refine KeepsOther.trans ?_ (keepsOther_drainSqAll ..)
  refine KeepsOther.trans ?_ (keepsOther_setHart ..)
  refine KeepsOther.trans ?_ (keepsOther_setHart ..)
  exact (keepsOther_foldl _ (fun s e => keepsOther_scrambleBytes s _ _) _ s).trans (keepsOther_draw _)

theorem keepsOther_tickTimeout (s : State) (i : HartId) : KeepsOther i s (tickTimeout s i) := by
  unfold tickTimeout
  dsimp only
  split
  · exact .refl i s
  · split
    · split
      · exact (keepsOther_setHart ..).trans (keepsOther_forceDebug ..)
      · exact keepsOther_setHart ..
    · exact .refl i s

theorem keepsOther_tickHart (s : State) (i : HartId) : KeepsOther i s (tickHart s i) := by
  unfold tickHart
  split
  · exact .refl i s
  · exact (keepsOther_setHart ..).trans (keepsOther_tickTimeout ..)

/-- A clock step of a hart that no debug halt waits for leaves it in place. -/
theorem inPlace_tickHart (h : (s.hart i).debugRequest = none) : InPlace (s.hart i) ((tickHart s i).hart i) := by
  unfold tickHart
  split
  · exact .refl _
  · have hticked := inPlace_ticked (s.hart i) s.draws
    have hnone := hticked.debugRequest.trans h
    simpa [tickTimeout, hnone] using hticked

/-- A clock step leaves the executing hart in place, where no debug halt waits for it. -/
theorem inPlace_tick (h : s.me.debugRequest = none) : (tick s).cur = s.cur ∧ InPlace s.me (tick s).me := by
  have hfirst : KeepsOther .t0 s (tickHart s .t0).draw := (keepsOther_tickHart s .t0).trans (keepsOther_draw _)
  have hsecond := keepsOther_tickHart (tickHart s .t0).draw .t1
  have hcur : (tick s).cur = s.cur := hsecond.cur.trans hfirst.cur
  refine ⟨hcur, ?_⟩
  rw [me_eq_hart hcur]
  unfold State.me at h ⊢
  cases hturn : s.cur with
  | t0 =>
    rw [hturn] at h
    exact (inPlace_tickHart h).trans hsecond.other
  | t1 =>
    rw [hturn] at h
    exact hfirst.other.trans (inPlace_tickHart (s := (tickHart s .t0).draw) (i := .t1)
      (hfirst.other.debugRequest.trans h))

end

/-! ## Single step (R709) -/

section
variable {s : State}

theorem endStep_of_not_stepping (h : s.me.dctl.stepping = false) : endStep s = s := by
  simp [endStep, h]

/-- After a single-stepped instruction: a clock step, then the entry with cause 4. -/
theorem endStep_of_stepping (hact : s.me.activity = .running) (hstep : s.me.dctl.stepping = true)
    (h : s.me.debugRequest = none) : endStep s = enterDebug (tick s) (tick s).cur 4 false := by
  obtain ⟨-, hplace⟩ := inPlace_tick h
  simp [endStep, hact, hstep, hplace.activity]

end

/-! ## Resume (R708, R709) -/

section
variable {h : Hart}

theorem resumeRequest_eq_beginStep (hact : h.activity = .dbgHalt) (hhalt : h.dctl.dbgHalt = true)
    (hmpc : h.dctl.mpcHalt = false) (hstep : h.stepBit = true) : h.resumeRequest = h.beginStep := by
  simp [Hart.resumeRequest, hact, hhalt, hmpc, hstep]

/-- Everything a resume request does to a hart the debugger alone has halted. -/
theorem resumeRequest_fields (hact : h.activity = .dbgHalt) (hhalt : h.dctl.dbgHalt = true)
    (hmpc : h.dctl.mpcHalt = false) :
    h.resumeRequest.activity = .running ∧ h.resumeRequest.pc = evenPc h.dbg.dpc ∧ h.resumeRequest.res = none
      ∧ h.resumeRequest.dctl.stepping = (h.stepBit || h.dctl.stepping) ∧ h.resumeRequest.trap = h.trap
      ∧ ∀ r : Reg, h.resumeRequest.reg r = h.reg r := by
  cases hstep : h.stepBit
  · rw [resumeRequest_eq_resumed hact hhalt hmpc hstep]
    exact ⟨rfl, rfl, rfl, rfl, rfl, fun _ => rfl⟩
  · rw [resumeRequest_eq_beginStep hact hhalt hmpc hstep]
    exact ⟨rfl, rfl, rfl, rfl, rfl, fun _ => rfl⟩

end

/-- Settles O53: an entry quiesces and halts the hart, a resume request lets it go, and a single step enters again after
one clock step. -/
theorem debugControl : Obligations.DebugControl := by
  intro s
  refine ⟨fun c mpc hmove hrequest hloads => ⟨_, step_enterDebug hmove hrequest, ?entry⟩,
    fun i hact hhalt hmpc => ⟨_, rfl, ?resume⟩, fun hact hstep hrequest hloads => ?step, endStep_of_not_stepping⟩
  case entry =>
    obtain ⟨hother, nmi, hme⟩ := enterDebug_me hloads c mpc
    have hregs : RegsSame s (enterDebug s s.cur c mpc) := fun r => by
      rw [State.reg, hme]
      rfl
    rw [hme]
    refine ⟨rfl, rfl, extractLsb'_putField _ 6 c (by decide), putCause_rest _ c, rfl, rfl, hregs, rfl, rfl, rfl, rfl,
      hother, mpcRunAck_haltForDebug (h := quiesced s.me nmi) c mpc⟩
  case resume =>
    obtain ⟨hrunning, hpc, hres, hstepping, htrap, hregs⟩ := resumeRequest_fields hact hhalt hmpc
    simp only [State.hart_setHart_self]
    exact ⟨hrunning, hpc, hres, hstepping, htrap, hregs, by simp, by simp⟩
  case step =>
    obtain ⟨-, hplace⟩ := inPlace_tick hrequest
    have hquiet : (tick s).me.NoPendingLoads := by rwa [Hart.NoPendingLoads, hplace.buf]
    obtain ⟨-, nmi, hme⟩ := enterDebug_me hquiet 4 false
    rw [endStep_of_stepping hact hstep hrequest]
    have hregs : RegsSame s (enterDebug (tick s) (tick s).cur 4 false) := fun r => by
      rw [State.reg, hme]
      show (tick s).me.reg r = _
      simp [State.reg, Hart.reg, hplace.regs]
    rw [hme]
    exact ⟨rfl, congrArg evenPc hplace.pc, extractLsb'_putField _ 6 4#3 (by decide), rfl, hregs, rfl⟩

end Sys2Proof.DebugMode
